-- ==== Sys2Proof/Word.lean ====
section
/-! DEFINITION. The words and the numbers of the TG416 (00_scope.md, "Capacities and fixed figures" and "Conventions"). -/

namespace Sys2Proof

/-- One byte of a packet, an operand block, a result block or a map entry; also a node number, a tag, a gate ID. -/
abbrev Byte := BitVec 8

/-- A stream address or a host physical address (48 bits). -/
abbrev Addr := BitVec 48

/-- A physical frame number (36 bits). -/
abbrev Frame := BitVec 36

/-- Epochs, generations and fault sequence numbers: 16 bits, wrapping. -/
abbrev Word16 := BitVec 16

/-- A counter: 32 bits, wrapping. -/
abbrev Counter := BitVec 32

/-- A context number, 0 to 15. -/
abbrev ContextNo := Fin 16

/-- A branch number, 0 to 3. -/
abbrev BranchNo := Fin 4

/-- A stream ID, 0 to 63. -/
abbrev StreamId := Fin 64

/-- A stream number on its branch, 0 to 15. -/
abbrev StreamNo := Fin 16

/-- An answer slot of a branch, 0 to 63. -/
abbrev SlotNo := Fin 64

/-- A walk slot, 0 to 3. -/
abbrev WalkNo := Fin 4

/-- A request tag, 0 to 251. -/
abbrev RequestTag := Fin 252

/-- A route window, 0 to 7. -/
abbrev WindowNo := Fin 8

/-- A timer exponent k, 0 to 11. -/
abbrev Exponent := Fin 12

end Sys2Proof
end

