-- ==== Sys2Proof/Syntax.lean ====
section
/-! DEFINITION. The commands of the TG416: one constructor for each row of spec/opcode_table.json.

A packet is given as it crosses the link, in bytes (R153 to R155). Where a row fixes the kind of the packet, the
constructor's `body` is every byte after the kind byte (byte 0). The rows of management (`claim` and what follows it) are the
taking of the CONTROL packet at the front of the trunk ingress control buffer (R142): the sender, the tag and the
operands are those of that packet, which `trunkControlArrival` brought. -/

namespace Sys2Proof

/-- The five links (R127). -/
inductive LinkId where
  /-- The trunk link. -/
  | trunk
  /-- The link of branch `b`. -/
  | branch (b : BranchNo)
  deriving DecidableEq, Repr

/-- The kinds of the REQUEST class (R155), which are also the accesses of a fault record. -/
inductive RequestKind where
  /-- Posted: never answered. -/
  | push
  /-- Non-posted write. -/
  | commit
  /-- Non-posted read. -/
  | fetch
  deriving DecidableEq, Repr

/-- The commands, one constructor for each row of the table, in the table's order. -/
inductive Instr where
  /-- POWER_ON (R133): `straps` are the levels of the eight strap pins. -/
  | powerOn (straps : Byte)
  /-- LINK_PRESENT (R129). -/
  | linkPresent (link : LinkId)
  /-- TRUNK_LINK_LOSS (R130). -/
  | trunkLinkLoss
  /-- BRANCH_LINK_LOSS (R131). -/
  | branchLinkLoss (branch : BranchNo)
  /-- INIT_RECEIVED (R129, R132, R133): a packet of kind 0x01. -/
  | initReceived (link : LinkId) (body : List Byte)
  /-- CREDIT_RECEIVED (R134): a packet of kind 0x02. -/
  | creditReceived (link : LinkId) (body : List Byte)
  /-- CREDIT_SEND (R135, R136): the link's CREDIT that is due first. -/
  | creditSend (link : LinkId)
  /-- BRANCH_REQUEST_ARRIVAL (R51). -/
  | branchRequestArrival (branch : BranchNo) (kind : RequestKind) (body : List Byte)
  /-- BRANCH_ANSWER_ARRIVAL (R124): a packet of kind 0x20. -/
  | branchAnswerArrival (branch : BranchNo) (body : List Byte)
  /-- TRUNK_REQUEST_ARRIVAL (R135). -/
  | trunkRequestArrival (kind : RequestKind) (body : List Byte)
  /-- TRUNK_ANSWER_ARRIVAL (R80): a packet of kind 0x20. -/
  | trunkAnswerArrival (body : List Byte)
  /-- TRUNK_CONTROL_ARRIVAL (R135): a packet of kind 0x30. -/
  | trunkControlArrival (body : List Byte)
  /-- HOST_REQUEST_OFFER (R120). -/
  | hostRequestOffer
  /-- ANSWER_QUEUE_GRANT (R123). -/
  | answerQueueGrant
  /-- DEPARTURE_GRANT (R69). -/
  | departureGrant
  /-- TRUNK_ANSWER_TRANSMIT (R73). -/
  | trunkAnswerTransmit
  /-- CONTROL_TRANSMIT (R73). -/
  | controlTransmit
  /-- BRANCH_ANSWER_TRANSMIT (R61). -/
  | branchAnswerTransmit (branch : BranchNo)
  /-- BRANCH_REQUEST_TRANSMIT (R121). -/
  | branchRequestTransmit (branch : BranchNo)
  /-- ENTRY_EXPIRY (R82). -/
  | entryExpiry (tag : RequestTag)
  /-- QUARANTINE_END (R84). -/
  | quarantineEnd (tag : RequestTag)
  /-- WALK_EXPIRY (R39). -/
  | walkExpiry (slot : WalkNo)
  /-- WALK_QUARANTINE_END (R40). -/
  | walkQuarantineEnd (slot : WalkNo)
  /-- RETIRE_COMPLETE (R10). -/
  | retireComplete (context : ContextNo)
  /-- INVALIDATE_COMPLETE (R92). -/
  | invalidateComplete (context : ContextNo)
  /-- NOTICE_PLACE (R148). -/
  | noticePlace
  /-- CLAIM (R145). -/
  | claim
  /-- RELEASE (R146). -/
  | release
  /-- IDENTIFY (R151). -/
  | identify
  /-- GATE-READ (R151). -/
  | gateRead
  /-- CONTEXT-SETUP (R5). -/
  | contextSetup
  /-- CONTEXT-OPEN (R6). -/
  | contextOpen
  /-- CONTEXT-RETIRE (R7, R8). -/
  | contextRetire
  /-- CONTEXT-READ (R12). -/
  | contextRead
  /-- STREAM-BIND (R47, R48). -/
  | streamBind
  /-- STREAM-READ (R50). -/
  | streamRead
  /-- INVALIDATE (R88 to R90). -/
  | invalidate
  /-- TIMEOUT-SET (R79). -/
  | timeoutSet
  /-- WINDOW-SET (R117). -/
  | windowSet
  /-- WINDOW-CLEAR (R118). -/
  | windowClear
  /-- WINDOW-READ (R118). -/
  | windowRead
  /-- FAULTS-TAKE (R113). -/
  | faultsTake
  /-- FAULTS-POLICY (R107). -/
  | faultsPolicy
  /-- BRANCH-RESET (R139). -/
  | branchReset
  /-- BRANCH-READ (R140). -/
  | branchRead
  /-- UNKNOWN_COMMAND: the taken packet's command code is undefined (R143, check 2). -/
  | unknownCommand
  /-- MISDIRECTED_CONTROL: the taken packet's gate ID is not GATE_ID (R143, check 1). -/
  | misdirectedControl
  /-- UNACCEPTED_KIND_ARRIVAL (R137): the whole packet, its kind byte first. -/
  | unacceptedKindArrival (link : LinkId) (packet : List Byte)
  deriving DecidableEq, Repr

end Sys2Proof
end

