-- ==== Sys2Proof/Decode.lean ====
section
/-! DEFINITION. The command that a word spells by the table's bits. No row of spec/opcode_table.json has bits ("fields" is
empty in each, and there is no "fixed"), so no word spells a command. The bytes of packets and of operand blocks, which
the spec does lay out (10_packet_and_record_formats.md), are read in Machine/Formats.lean and Machine/Operands.lean. -/

namespace Sys2Proof

/-- The command that the `nbits` bits `w` spell: none, since the table gives no row any bits. -/
def decodeTableWord (_nbits _w : Nat) : Option Instr := none

end Sys2Proof
end

