-- ==== Sys2Proof/Config.lean ====
section
/-! DEFINITION. What is fixed for the TG416: the figures of 00_scope.md, "Capacities and fixed figures". The spec leaves no
value open that an implementation fixes, so there is no free value here. -/

namespace Sys2Proof.Config

/-- Translation cache entries (R24). -/
def cacheEntries : Nat := 128

/-- The largest map length in pages (R1). -/
def maxMapLength : Nat := 1048576

/-- Bytes in a page and in a frame. -/
def pageSize : Nat := 4096

/-- One granule of a route window: 64 KiB (R116). -/
def granule : Nat := 65536

/-- The size of the 48-bit address space. -/
def addressSpace : Nat := 2 ^ 48

/-- Records in the fault log (R102). -/
def logRecords : Nat := 32

/-- Where the repeat of a record and the pending loss stop (R104, R102). -/
def saturation : Nat := 255

/-- The largest operand of FAULTS-TAKE (R113). -/
def maxTake : Nat := 8

/-- Commands in the pending list (R142). -/
def pendingCommands : Nat := 8

/-- Packets in the control transmit queue (R142). -/
def controlPlaces : Nat := 12

/-- Packets in the trunk answer transmit queue (R123). -/
def answerPlaces : Nat := 32

/-- Packets in a branch's request egress queue (R121). -/
def egressPlaces : Nat := 16

/-- The largest request and the largest payload of an answer, in bytes (R137). -/
def maxLength : Nat := 256

/-- The largest number of credits held of one class (R128, R134). -/
def maxHeld : Nat := 255

/-- The timer exponent after a whole-gate reset (R78). -/
def resetExponent : Exponent := 8

/-- The vendor code (R151). -/
def vendorCode : Nat := 0xB7

/-- The part code (R151). -/
def partCode : Nat := 0x0416

/-- The revision (R151). -/
def revision : Nat := 3

end Sys2Proof.Config
end

