-- ==== Sys2Proof/Machine/State.lean ====
section
/-! DEFINITION. Every piece of state the spec gives the TG416, as plain data, and its value after reset. One structure for
each block of the gate; INVENTORY.md lists the fields with the rules that name them. -/

namespace Sys2Proof.Machine

/-- Nothing stops the gate: its refusals, failures and wrong packets are all effects on its state (R137, R143, the fault
log), so no fault of the machine exists. Raised by nobody. -/
inductive Fault
  deriving DecidableEq

/-- The reasons for which the model gives a command no meaning. -/
inductive Refusal where
  /-- The command of this mnemonic has no meaning in the model. Raised by no arm of exec: every row is modelled. Safe. -/
  | notModelled (mnemonic : String)
  deriving DecidableEq, Repr

/-! ### Codes shared by several blocks -/

/-- The three flow-control classes (R128, R155). -/
inductive PacketClass where
  | request
  | answer
  | control
  deriving DecidableEq, Repr

/-- Answer statuses (R155). -/
inductive AnswerStatus where
  | done
  | denied
  | noroute
  | timeout
  | corrupt
  deriving DecidableEq, Repr

/-- Reply statuses (R147, R155). -/
inductive ReplyStatus where
  | done
  | busy
  | notManager
  | badArgument
  | state
  | conflict
  | unknown
  deriving DecidableEq, Repr

/-! ### Packets held in buffers and queues -/

/-- A request as a stream queue keeps it (R51). The tag of a PUSH is zero and means nothing. -/
structure Request where
  kind : RequestKind
  tag : Byte
  address : Addr
  length : Nat
  payload : List Byte
  deriving DecidableEq, Repr

/-- A host request, in the trunk ingress request buffer (R120) or in a request egress queue (R121). -/
structure HostRequest where
  kind : RequestKind
  origin : Byte
  tag : Byte
  address : Addr
  length : Nat
  payload : List Byte
  deriving DecidableEq, Repr

/-- An ANSWER packet: on the trunk, or from a device (R80, R124). -/
structure Answer where
  destination : Byte
  tag : Byte
  status : AnswerStatus
  payload : List Byte
  deriving DecidableEq, Repr

/-- A CONTROL packet in the trunk ingress control buffer (R142). -/
structure ControlPacket where
  source : Byte
  gateId : Byte
  tag : Byte
  code : Byte
  operands : List Byte
  deriving DecidableEq, Repr

/-- A packet of the control transmit queue (R142, R149). A FAULTS notice carries its count from its placing; a BRANCH
notice takes its link state at its transmission, so none is kept. -/
inductive ControlOut where
  | reply (destination tag : Byte) (status : ReplyStatus) (code : Byte) (results : List Byte)
  | faultsNotice (destination : Byte) (count : Nat)
  | branchNotice (destination : Byte) (branch : BranchNo)
  deriving DecidableEq, Repr

/-! ### Links (08) -/

/-- Link states (R128). -/
inductive LinkState where
  | down
  | training
  | up
  deriving DecidableEq, Repr

/-- A count of credits for each class; on a branch CONTROL stays 0. -/
structure Credits where
  request : Nat
  answer : Nat
  control : Nat
  deriving DecidableEq, Repr

/-- The link record of R128. `creditOrder` (R136) lists the classes whose freed credits wait to be returned, in the
order the first freed credit of each arose. `resetOwed` stays no on the trunk. -/
structure LinkRecord where
  state : LinkState
  partnerInit : Bool
  held : Credits
  granted : Credits
  freed : Credits
  creditOrder : List PacketClass
  resetOwed : Bool
  deriving DecidableEq, Repr

/-- The buffer capacities of the trunk, which are its initial grants (R128). -/
def trunkCapacity : Credits := ⟨16, 32, 4⟩

/-- The buffer capacities of a branch (R128). -/
def branchCapacity : Credits := ⟨32, 16, 0⟩

/-- A link record after power-on (R128). -/
def LinkRecord.reset (capacity : Credits) : LinkRecord :=
  { state := .down, partnerInit := false, held := ⟨0, 0, 0⟩, granted := ⟨0, 0, 0⟩, freed := capacity,
    creditOrder := [], resetOwed := false }

/-! ### Context table (01) -/

/-- The stages of a context's life (R1). -/
inductive ContextState where
  | free
  | ready
  | active
  | draining
  deriving DecidableEq, Repr

/-- A long command that is pending (R4). -/
inductive LongCommand where
  | invalidate (firstPage count : Nat)
  | retire
  deriving DecidableEq, Repr

/-- The pending long command field of a context: the command, its tag and its sender (R4). -/
structure PendingLong where
  command : LongCommand
  tag : Byte
  node : Byte
  deriving DecidableEq, Repr

/-- The seven counters of a context (R17, R18). -/
structure ContextCounters where
  lookups : Counter
  cacheHits : Counter
  walksStarted : Counter
  faultsRecorded : Counter
  faultsSilenced : Counter
  answerTimeouts : Counter
  corruptAnswers : Counter
  deriving DecidableEq, Repr

/-- All seven counters at 0 (R2, R5). -/
def ContextCounters.zero : ContextCounters := ⟨0, 0, 0, 0, 0, 0, 0⟩

/-- A context record (R1). -/
structure Context where
  state : ContextState
  mapRoot : Addr
  mapLength : Nat
  report : Bool
  epoch : Word16
  pending : Option PendingLong
  counters : ContextCounters
  deriving DecidableEq, Repr

/-- A context record after reset (R2). -/
def Context.reset : Context :=
  { state := .free, mapRoot := 0, mapLength := 1, report := false, epoch := 0, pending := none,
    counters := .zero }

/-! ### Translation unit (02) -/

/-- An entry of the translation cache (R24). -/
structure CacheEntry where
  context : ContextNo
  page : Nat
  frame : Frame
  readable : Bool
  writable : Bool
  deriving DecidableEq, Repr

/-- A head waiting on a walk, with the generation recorded at its lookup (R32). -/
structure Waiter where
  stream : StreamId
  generation : Word16
  deriving DecidableEq, Repr

/-- The walk record of a WALKING slot (R28). `sent` is none while the FETCH waits for its grant (sent = no), and then
the exponent of T that the answer timer took (sent = yes; R31, R78). -/
structure Walk where
  context : ContextNo
  page : Nat
  epoch : Word16
  entryAddress : Addr
  sent : Option Exponent
  waiters : List Waiter
  deriving DecidableEq, Repr

/-- A walk slot (R28). A QUARANTINED slot keeps the exponent of T that its quarantine took (R39, R78). -/
inductive WalkSlot where
  | free
  | walking (walk : Walk)
  | quarantined (timer : Exponent)
  deriving DecidableEq, Repr

/-! ### Stream table (03) -/

/-- How a stream's requests are handled, with the context for MAPPED (R45). -/
inductive Mode where
  | blocked
  | direct
  | mapped (context : ContextNo)
  deriving DecidableEq, Repr

/-- The stamp of a READY head: the generation and, for a MAPPED binding, the context it names and its epoch (R45, R70). -/
structure Stamp where
  generation : Word16
  mapped : Option (ContextNo × Word16)
  deriving DecidableEq, Repr

/-- Head states (R45); a READY head holds its translated address and its stamp (R53). -/
inductive HeadState where
  | waitSlot
  | translating
  | waitWalk
  | waitWalkSlot
  | ready (address : Addr) (stamp : Stamp)
  deriving DecidableEq, Repr

/-- A stream record (R45). `slot` is the answer slot the head holds (head slot = yes), or none. -/
structure Stream where
  mode : Mode
  generation : Word16
  queue : List Request
  head : Option HeadState
  slot : Option SlotNo
  deriving DecidableEq, Repr

/-- A stream record after reset (R46). -/
def Stream.reset : Stream :=
  { mode := .blocked, generation := 0, queue := [], head := none, slot := none }

/-! ### Outstanding table (04) -/

/-- The binding mode a request departed under, with context and epoch for MAPPED (R76). -/
inductive EntryBinding where
  | direct
  | mapped (context : ContextNo) (epoch : Word16)
  deriving DecidableEq, Repr

/-- The fields of a LIVE request entry: those of R76, and the generation that R71 has it carry, which no rule reads again.
`timer` is the exponent of T that its answer timer took (R78). -/
structure LiveEntry where
  stream : StreamId
  tag : Byte
  kind : RequestKind
  length : Nat
  page : Nat
  slot : Option SlotNo
  generation : Word16
  binding : EntryBinding
  orphan : Bool
  timer : Exponent
  deriving DecidableEq, Repr

/-- A request entry (R75). A LATE entry keeps its quarantine timer alone (R76). -/
inductive Entry where
  | free
  | live (entry : LiveEntry)
  | late (timer : Exponent)
  deriving DecidableEq, Repr

/-! ### Route windows (07) -/

/-- The kinds of request a FORWARD window accepts (R116). -/
inductive WindowAccess where
  | readWrite
  | readOnly
  deriving DecidableEq, Repr

/-- The kind of a window, with the fields that are present for FORWARD (R116). -/
inductive WindowKind where
  | exclude
  | forward (target : Addr) (branch : BranchNo) (access : WindowAccess)
  deriving DecidableEq, Repr

/-- A route window (R116). -/
structure Window where
  enabled : Bool
  kind : WindowKind
  base : Addr
  last : Addr
  deriving DecidableEq, Repr

/-- A route window after reset (R116). -/
def Window.reset : Window := { enabled := false, kind := .exclude, base := 0, last := 0 }

/-- What matching a host request finds (R119): its branch and rebased address, or the status it is refused with. -/
inductive HostOutcome where
  | forward (branch : BranchNo) (address : Addr)
  | refuse (status : AnswerStatus)
  deriving DecidableEq, Repr

/-! ### Fault log (06) -/

/-- The twelve kinds of fault, in the order of their codes (R106, R155). -/
inductive FaultKind where
  | blockedStream
  | contextClosed
  | splitPage
  | outOfMap
  | notPresent
  | badEntry
  | readDenied
  | writeDenied
  | mapReadError
  | answerTimeout
  | corruptData
  | malformed
  deriving DecidableEq, Repr

/-- A fault as it is offered: the fields that make up its identity (R104). -/
structure FaultReport where
  kind : FaultKind
  stream : Option StreamId
  context : Option ContextNo
  page : Option Nat
  access : Option RequestKind
  detail : Option AnswerStatus
  deriving DecidableEq, Repr

/-- A fault record (R104). -/
structure FaultRecord where
  sequence : Word16
  fault : FaultReport
  repeats : Nat
  lostBefore : Option Nat
  deriving DecidableEq, Repr

/-- The fault log (R102). -/
structure FaultLog where
  records : List FaultRecord
  nextSequence : Word16
  pendingLoss : Nat
  latch : Bool
  policy : Bool
  deriving DecidableEq, Repr

/-- The fault log after reset (R103). -/
def FaultLog.reset : FaultLog :=
  { records := [], nextSequence := 0, pendingLoss := 0, latch := false, policy := true }

/-! ### Branch ports (03, 07, 08) -/

/-- The condition of an answer slot (R58). The answer of an occupied slot stands in the answer egress queue. -/
inductive AnswerSlot where
  | free
  | reserved (stream : StreamNo) (tag : Byte)
  | occupied
  deriving DecidableEq, Repr

/-- An answer in the answer egress queue, with the slot it occupies (R59, R60). -/
structure EgressAnswer where
  slot : SlotNo
  stream : StreamNo
  tag : Byte
  status : AnswerStatus
  payload : List Byte
  deriving DecidableEq, Repr

/-- The two queues a branch transmitter takes turns between (R61). -/
inductive BranchQueue where
  | answers
  | requests
  deriving DecidableEq, Repr

/-- The six counters of a branch (R63, R140). -/
structure BranchCounters where
  queued : Counter
  departed : Counter
  refused : Counter
  answersSent : Counter
  malformed : Counter
  linkDowns : Counter
  deriving DecidableEq, Repr

/-- A branch port. `lastSent` is the queue that sent the last packet (R61). -/
structure Branch where
  link : LinkRecord
  slots : Vector AnswerSlot 64
  egressAnswers : List EgressAnswer
  slotWait : List StreamId
  lastSent : BranchQueue
  egressRequests : List HostRequest
  ingressAnswers : List Answer
  counters : BranchCounters
  deriving DecidableEq, Repr

/-- A branch port after reset (R58, R61, R63, R121, R124, R128). -/
def Branch.reset : Branch :=
  { link := .reset branchCapacity, slots := Vector.replicate 64 .free, egressAnswers := [], slotWait := [],
    lastSent := .requests, egressRequests := [], ingressAnswers := [], counters := ⟨0, 0, 0, 0, 0, 0⟩ }

/-! ### Trunk port (04, 07, 08, 09) -/

/-- The sources of the trunk answer transmit queue (R123). -/
inductive AnswerSource where
  | trunk
  | branch (b : BranchNo)
  deriving DecidableEq, Repr

/-- The trunk port with its transmitter. `hostOffer` is the outcome, at its last offer, of the host request at the front
of `ingressRequests`, none where it has not been offered (R120, R123). `requestPassed` says that a REQUEST turn of the
present rotation ended without a departure, so that the other classes are offered the turn first (R69, R73). -/
structure TrunkPort where
  link : LinkRecord
  ingressRequests : List HostRequest
  hostOffer : Option HostOutcome
  ingressAnswers : List Answer
  ingressControl : List ControlPacket
  answerQueue : List Answer
  lastSource : AnswerSource
  lastClass : PacketClass
  requestPassed : Bool
  deriving DecidableEq, Repr

/-- The trunk port after power-on (R73, R123, R126, R128). -/
def TrunkPort.reset : TrunkPort :=
  { link := .reset trunkCapacity, ingressRequests := [], hostOffer := none, ingressAnswers := [],
    ingressControl := [], answerQueue := [], lastSource := .branch 3, lastClass := .control,
    requestPassed := false }

/-! ### Management unit (09) -/

/-- The kinds of whole-gate reset (R151). -/
inductive ResetCause where
  | power
  | trunk
  deriving DecidableEq, Repr

/-- An entry of the pending list (R147). -/
structure PendingEntry where
  command : LongCommand
  context : ContextNo
  tag : Byte
  node : Byte
  deriving DecidableEq, Repr

/-- The gate counters (R151). -/
structure GateCounters where
  trunkMalformed : Counter
  strayAnswers : Counter
  lateAnswers : Counter
  misdirected : Counter
  hostRefused : Counter
  lostFaults : Counter
  deriving DecidableEq, Repr

/-- The management unit (09, opening table). -/
structure Management where
  manager : Option Byte
  pendingList : List PendingEntry
  controlQueue : List ControlOut
  faultsOwed : Bool
  branchOwed : Vector Bool 4
  resetCause : ResetCause
  counters : GateCounters
  deriving DecidableEq, Repr

/-- The management unit after a whole-gate reset of the given cause (R152). -/
def Management.reset (cause : ResetCause) : Management :=
  { manager := none, pendingList := [], controlQueue := [], faultsOwed := false,
    branchOwed := Vector.replicate 4 false, resetCause := cause, counters := ⟨0, 0, 0, 0, 0, 0⟩ }

/-! ### The gate -/

/-- What the gate puts on a link: a packet, or a drop of the physical link that is raised again (R133, R139). -/
inductive WireEvent where
  | packet (bytes : List Byte)
  | linkDrop
  deriving DecidableEq, Repr

/-- Something the gate sent, with the link it was sent on. -/
structure Sent where
  link : LinkId
  event : WireEvent
  deriving DecidableEq, Repr

/-- The whole gate. `sent` is the model's record of what the gate has put on its links, oldest first (departure is
transmission, R72). -/
structure Gate where
  gateId : Byte
  contexts : Vector Context 16
  cache : List CacheEntry
  walks : Vector WalkSlot 4
  walkWaiting : List StreamId
  streams : Vector Stream 64
  entries : Vector Entry 252
  exponent : Exponent
  lastGranted : Fin 68
  windows : Vector Window 8
  log : FaultLog
  management : Management
  trunk : TrunkPort
  branches : Vector Branch 4
  sent : List Sent
  deriving DecidableEq, Repr

/-- The gate after power-on with this GATE_ID, and, but for the trunk link record, after a trunk reset (R133 and the rules
it names). Nothing has been sent. -/
def Gate.reset (gateId : Byte) (cause : ResetCause) : Gate :=
  { gateId := gateId, contexts := Vector.replicate 16 .reset, cache := [], walks := Vector.replicate 4 .free,
    walkWaiting := [], streams := Vector.replicate 64 .reset, entries := Vector.replicate 252 .free,
    exponent := Config.resetExponent, lastGranted := 67, windows := Vector.replicate 8 .reset, log := .reset,
    management := .reset cause, trunk := .reset, branches := Vector.replicate 4 .reset, sent := [] }

/-- The machine: the gate, and the commands that wait to be taken, first in, first out. -/
structure State where
  gate : Gate
  pending : List Instr
  deriving DecidableEq, Repr

/-- The machine right after power-on (R133). DESIGN CHOICE (log entry 1): the strap pins were sampled as 0. -/
def State.reset : State := { gate := .reset 0 .power, pending := [] }

end Sys2Proof.Machine
end

