-- ==== Sys2Proof/Machine/Ops.lean ====
section
/-! DEFINITION. The named operations over the gate's records: reading and updating a stream, a context, a branch, an entry, a
walk slot, a window or a link record; credits (R134, R135); what the gate sends; the shape of a command's meaning. -/

namespace Sys2Proof.Machine

/-- The meaning of a command that does `f` to the gate: a next state, with the queue of waiting commands as it was. -/
def State.act (f : Gate → Gate) (s : State) : Host.Outcome State Fault Refusal :=
  .next { s with gate := f s.gate }

/-! ### Stream IDs (R45) -/

/-- The branch a stream belongs to: its ID divided by 16. -/
def branchOf (s : StreamId) : BranchNo := ⟨s.val / 16, by omega⟩

/-- The stream number of a stream on its branch: its ID modulo 16. -/
def numberOf (s : StreamId) : StreamNo := ⟨s.val % 16, by omega⟩

/-- The stream ID of a stream number on a branch. -/
def streamIdOf (b : BranchNo) (n : StreamNo) : StreamId := ⟨16 * b.val + n.val, by omega⟩

/-! ### Reading and updating the records -/

def Gate.stream (g : Gate) (s : StreamId) : Stream := g.streams[s.val]

def Gate.modStream (g : Gate) (s : StreamId) (f : Stream → Stream) : Gate :=
  { g with streams := g.streams.set s.val (f (g.stream s)) }

def Gate.context (g : Gate) (c : ContextNo) : Context := g.contexts[c.val]

def Gate.modContext (g : Gate) (c : ContextNo) (f : Context → Context) : Gate :=
  { g with contexts := g.contexts.set c.val (f (g.context c)) }

/-- Update the counters of a context (R17, R18). -/
def Gate.count (g : Gate) (c : ContextNo) (f : ContextCounters → ContextCounters) : Gate :=
  g.modContext c fun x => { x with counters := f x.counters }

def Gate.branch (g : Gate) (b : BranchNo) : Branch := g.branches[b.val]

def Gate.modBranch (g : Gate) (b : BranchNo) (f : Branch → Branch) : Gate :=
  { g with branches := g.branches.set b.val (f (g.branch b)) }

/-- Update the counters of a branch (R63, R138, R131). -/
def Gate.countBranch (g : Gate) (b : BranchNo) (f : BranchCounters → BranchCounters) : Gate :=
  g.modBranch b fun x => { x with counters := f x.counters }

def Gate.entry (g : Gate) (t : RequestTag) : Entry := g.entries[t.val]

def Gate.setEntry (g : Gate) (t : RequestTag) (e : Entry) : Gate :=
  { g with entries := g.entries.set t.val e }

def Gate.walk (g : Gate) (w : WalkNo) : WalkSlot := g.walks[w.val]

def Gate.setWalk (g : Gate) (w : WalkNo) (x : WalkSlot) : Gate :=
  { g with walks := g.walks.set w.val x }

def Gate.window (g : Gate) (i : WindowNo) : Window := g.windows[i.val]

def Gate.setWindow (g : Gate) (i : WindowNo) (w : Window) : Gate :=
  { g with windows := g.windows.set i.val w }

def Gate.modTrunk (g : Gate) (f : TrunkPort → TrunkPort) : Gate := { g with trunk := f g.trunk }

def Gate.modManagement (g : Gate) (f : Management → Management) : Gate :=
  { g with management := f g.management }

/-- Update the gate counters (R151). -/
def Gate.countGate (g : Gate) (f : GateCounters → GateCounters) : Gate :=
  g.modManagement fun m => { m with counters := f m.counters }

/-- The link record of a link (R128). -/
def Gate.link (g : Gate) : LinkId → LinkRecord
  | .trunk => g.trunk.link
  | .branch b => (g.branch b).link

def Gate.modLink (g : Gate) (l : LinkId) (f : LinkRecord → LinkRecord) : Gate :=
  match l with
  | .trunk => g.modTrunk fun t => { t with link := f t.link }
  | .branch b => g.modBranch b fun x => { x with link := f x.link }

/-- The buffer capacities of a link, which are its initial grants (R128). -/
def capacity : LinkId → Credits
  | .trunk => trunkCapacity
  | .branch _ => branchCapacity

/-- What the gate puts on a link. -/
def Gate.emit (g : Gate) (l : LinkId) (e : WireEvent) : Gate := { g with sent := g.sent ++ [⟨l, e⟩] }

/-! ### Credits (R128, R134, R135) -/

def Credits.get (x : Credits) : PacketClass → Nat
  | .request => x.request
  | .answer => x.answer
  | .control => x.control

def Credits.set (x : Credits) (c : PacketClass) (n : Nat) : Credits :=
  match c with
  | .request => { x with request := n }
  | .answer => { x with answer := n }
  | .control => { x with control := n }

/-- The sum, class by class. -/
def Credits.add (x y : Credits) : Credits :=
  ⟨x.request + y.request, x.answer + y.answer, x.control + y.control⟩

/-- A credit of the class is freed (R135). Its CREDIT waits from the first freed credit on (R136). -/
def LinkRecord.free (r : LinkRecord) (c : PacketClass) : LinkRecord :=
  { r with
    freed := r.freed.set c (r.freed.get c + 1)
    creditOrder := if r.freed.get c = 0 then r.creditOrder ++ [c] else r.creditOrder }

/-- The partner has used a granted credit of the class (R135). -/
def LinkRecord.useGranted (r : LinkRecord) (c : PacketClass) : LinkRecord :=
  { r with granted := r.granted.set c (r.granted.get c - 1) }

/-- The gate uses a held credit of the class (R134). -/
def LinkRecord.useHeld (r : LinkRecord) (c : PacketClass) : LinkRecord :=
  { r with held := r.held.set c (r.held.get c - 1) }

/-- Whether a class packet may leave on the link now: the link is UP, a credit of its class is held (R134), and no CREDIT
waits to be sent before it (R136). -/
def LinkRecord.maySend (r : LinkRecord) (c : PacketClass) : Bool :=
  r.state == .up && 0 < r.held.get c && r.creditOrder.isEmpty

/-- Free a credit of the class on the link. -/
def Gate.freeCredit (g : Gate) (l : LinkId) (c : PacketClass) : Gate := g.modLink l (·.free c)

/-! ### Counts that several rules use -/

/-- The request entries, with their tags. -/
def Gate.liveEntries (g : Gate) : List LiveEntry :=
  g.entries.toList.filterMap fun
    | .live e => some e
    | _ => none

/-- The walks under way. -/
def Gate.walksUnderWay (g : Gate) : List Walk :=
  g.walks.toList.filterMap fun
    | .walking w => some w
    | _ => none

/-- The lowest-numbered place of a vector that holds something satisfying `p`. -/
def lowest {α : Type} {n : Nat} (v : Vector α n) (p : α → Bool) : Option (Fin n) :=
  (List.finRange n).find? fun i => p v[i.val]

/-- The page of an address (R14). -/
def pageOf (a : Addr) : Nat := a.toNat / Config.pageSize

/-- The physical address of a stream address in a frame: frame × 4096 + offset (R14). -/
def physicalAddress (f : Frame) (a : Addr) : Addr :=
  BitVec.ofNat 48 (f.toNat * Config.pageSize + a.toNat % Config.pageSize)

end Sys2Proof.Machine
end

