-- ==== Sys2Proof/Machine/Flags.lean ====
section
/-! DEFINITION. The owed flags of the management unit and the requests that set them (R148), and the open places of the
control transmit queue (R142). -/

namespace Sys2Proof.Machine

/-- The log asks for a FAULTS notice: owed if there is a manager, dropped otherwise (R148). -/
def Gate.oweFaults (g : Gate) : Gate :=
  if g.management.manager.isSome then g.modManagement fun m => { m with faultsOwed := true } else g

/-- A branch port asks for a BRANCH notice: owed if there is a manager, dropped otherwise (R148, R141). -/
def Gate.oweBranch (g : Gate) (b : BranchNo) : Gate :=
  if g.management.manager.isSome then
    g.modManagement fun m => { m with branchOwed := m.branchOwed.set b.val true }
  else g

/-- The open places of the control transmit queue: 12, less the packets it holds, less the long commands pending (R142). -/
def Management.openPlaces (m : Management) : Nat :=
  Config.controlPlaces - m.controlQueue.length - m.pendingList.length

/-- Queue a REPLY at the tail of the control transmit queue (R143). -/
def Gate.queueReply (g : Gate) (node tag : Byte) (status : ReplyStatus) (code : Byte) (results : List Byte) : Gate :=
  g.modManagement fun m =>
    { m with controlQueue := m.controlQueue ++ [.reply node tag status code results] }

/-- The first notice owed in the order FAULTS, branch 0, 1, 2, 3 (R148): none, FAULTS (`none` inside), or a branch. -/
def Management.firstOwed (m : Management) : Option (Option BranchNo) :=
  if m.faultsOwed then some none else (lowest m.branchOwed id).map some

/-- Place the first notice owed, when there is a manager and an open place (R148, R149): it fills the place, is addressed
to the manager of this moment, and its flag is cleared. A FAULTS notice takes the record count now. -/
def Gate.placeNotice (g : Gate) : Gate :=
  match g.management.manager with
  | none => g
  | some node =>
    if g.management.openPlaces = 0 then g
    else
      match g.management.firstOwed with
      | none => g
      | some none =>
        g.modManagement fun m =>
          { m with controlQueue := m.controlQueue ++ [.faultsNotice node g.log.records.length], faultsOwed := false }
      | some (some b) =>
        g.modManagement fun m =>
          { m with
            controlQueue := m.controlQueue ++ [.branchNotice node b]
            branchOwed := m.branchOwed.set b.val false }

end Sys2Proof.Machine
end

