-- ==== Sys2Proof/Machine/Formats.lean ====
section
/-! DEFINITION. The byte layouts of the packets on the links (10, R153 to R155): reading those that arrive, writing those that
the gate sends, and the map entry (10.4). Every reader is total on any bytes. A packet that is shorter than its header has
no fields to read and reads as none (log entry 11). -/

namespace Sys2Proof.Machine

/-! ### Byte order (R153) -/

/-- The number that bytes spell, most significant byte first. -/
def natOfBytes (bytes : List Byte) : Nat := bytes.foldl (fun n b => n * 256 + b.toNat) 0

/-- The `width` bytes of a number, most significant byte first. -/
def bytesOfNat : (width : Nat) → Nat → List Byte
  | 0, _ => []
  | w + 1, n => bytesOfNat w (n / 256) ++ [BitVec.ofNat 8 n]

/-! ### Codes (R155) -/

def requestKindCode : RequestKind → Byte
  | .push => 0x10
  | .commit => 0x11
  | .fetch => 0x12

/-- An access in a fault record, and the head kind of STREAM-READ. -/
def accessCode : RequestKind → Byte
  | .push => 1
  | .commit => 2
  | .fetch => 3

def packetClassCode : PacketClass → Byte
  | .request => 1
  | .answer => 2
  | .control => 3

def answerStatusCode : AnswerStatus → Byte
  | .done => 0
  | .denied => 1
  | .noroute => 2
  | .timeout => 3
  | .corrupt => 4

def answerStatusOf (b : Byte) : Option AnswerStatus :=
  if b = 0 then some .done else if b = 1 then some .denied else if b = 2 then some .noroute
  else if b = 3 then some .timeout else if b = 4 then some .corrupt else none

def replyStatusCode : ReplyStatus → Byte
  | .done => 0
  | .busy => 1
  | .notManager => 2
  | .badArgument => 3
  | .state => 4
  | .conflict => 5
  | .unknown => 6

def linkStateCode : LinkState → Byte
  | .down => 0
  | .training => 1
  | .up => 2

def boolByte (b : Bool) : Byte := if b then 1 else 0

/-! ### Packets that arrive (10.2)

Each reader takes the bytes after the kind byte and answers the packet where it meets every condition of R137 and R154 that
depends on its own bytes. Whether it came with a credit, and after the partner's INIT, is judged at the link. -/

/-- The partner's INIT: the reset flag and the three figures. -/
structure InitPacket where
  reset : Bool
  figures : Credits
  deriving DecidableEq, Repr

/-- The figures an INIT must announce on a link: 1 to 255 for each class of the link, and 0 for CONTROL on a branch (R129). -/
def figuresFit (l : LinkId) (x : Credits) : Bool :=
  1 ≤ x.request && 1 ≤ x.answer && (match l with | .trunk => 1 ≤ x.control | .branch _ => x.control == 0)

/-- INIT, 8 bytes: flags (bit 0 reset, bits 1 to 7 reserved), REQUEST, ANSWER and CONTROL figures, three reserved bytes. -/
def readInit (l : LinkId) : List Byte → Option InitPacket
  | [flags, request, answer, control, r5, r6, r7] =>
    let figures : Credits := ⟨request.toNat, answer.toNat, control.toNat⟩
    if flags &&& 0xFE = 0 ∧ r5 = 0 ∧ r6 = 0 ∧ r7 = 0 ∧ figuresFit l figures then
      some { reset := flags = 1, figures := figures }
    else none
  | _ => none

/-- The class of a CREDIT on a link: a class the link does not have reads as none (R134). -/
def creditClassOf (l : LinkId) (b : Byte) : Option PacketClass :=
  if b = 1 then some .request else if b = 2 then some .answer
  else if b = 3 then (match l with | .trunk => some .control | .branch _ => none) else none

/-- CREDIT, 4 bytes: class, count (not 0), reserved (R134). -/
def readCredit (l : LinkId) : List Byte → Option (PacketClass × Nat)
  | [cls, count, r3] =>
    match creditClassOf l cls with
    | some c => if count = 0 ∨ r3 ≠ 0 then none else some (c, count.toNat)
    | none => none
  | _ => none

/-- PUSH, COMMIT, FETCH, 12 bytes of header: origin, tag (reserved in PUSH), reserved, length, address; then the payload.
The length is 1 to 256, address + length is at most 2^48, and the payload of a PUSH or COMMIT is exactly its length, of a
FETCH nothing (R137). -/
def readRequest (kind : RequestKind) : List Byte → Option HostRequest
  | origin :: tag :: reserved :: l1 :: l0 :: a5 :: a4 :: a3 :: a2 :: a1 :: a0 :: payload =>
    let length := natOfBytes [l1, l0]
    let address := natOfBytes [a5, a4, a3, a2, a1, a0]
    if (kind = .push → tag = 0) ∧ reserved = 0 ∧ 1 ≤ length ∧ length ≤ Config.maxLength ∧
        address + length ≤ Config.addressSpace ∧
        payload.length = (if kind = .fetch then 0 else length) then
      some { kind := kind, origin := origin, tag := tag, address := BitVec.ofNat 48 address, length := length,
             payload := payload }
    else none
  | _ => none

/-- A stream number in the origin of a device's request: 0 to 15 (R137). -/
def streamNoOf (origin : Byte) : Option StreamNo :=
  if h : origin.toNat < 16 then some ⟨origin.toNat, h⟩ else none

/-- The stream that can be read from a device's request, well-formed or not: its origin byte is there and is 0 to 15
(R138). -/
def readableStream (b : BranchNo) : List Byte → Option StreamId
  | origin :: _ => (streamNoOf origin).map (streamIdOf b)
  | [] => none

/-- ANSWER, 8 bytes of header: destination, tag, status, payload length, two reserved; then the payload. The payload is
exactly its length, at most 256 bytes, and none unless the status is DONE (R137). -/
def readAnswer : List Byte → Option Answer
  | destination :: tag :: status :: l1 :: l0 :: r6 :: r7 :: payload =>
    match answerStatusOf status with
    | some st =>
      if r6 = 0 ∧ r7 = 0 ∧ payload.length = natOfBytes [l1, l0] ∧ payload.length ≤ Config.maxLength ∧
          (st ≠ .done → payload = []) then
        some { destination := destination, tag := tag, status := st, payload := payload }
      else none
    | none => none
  | _ => none

/-- CONTROL, 8 bytes of header: source node, gate ID, command tag, command code, reserved, operand length; then exactly
that many operand bytes (R137). -/
def readControl : List Byte → Option ControlPacket
  | source :: gateId :: tag :: code :: reserved :: l1 :: l0 :: operands =>
    if reserved = 0 ∧ operands.length = natOfBytes [l1, l0] then
      some { source := source, gateId := gateId, tag := tag, code := code, operands := operands }
    else none
  | _ => none

/-! ### Packets that the gate sends (10.2) -/

/-- The INIT that announces these figures (R129). -/
def initBytes (reset : Bool) (figures : Credits) : List Byte :=
  [0x01, boolByte reset, BitVec.ofNat 8 figures.request, BitVec.ofNat 8 figures.answer,
   BitVec.ofNat 8 figures.control, 0, 0, 0]

/-- The CREDIT of a class (R135). -/
def creditBytes (c : PacketClass) (count : Nat) : List Byte :=
  [0x02, packetClassCode c, BitVec.ofNat 8 count, 0]

/-- A PUSH, COMMIT or FETCH with the given origin. The tag byte of a PUSH is reserved and sent as zero (R154). -/
def requestBytes (kind : RequestKind) (origin tag : Byte) (address : Addr) (length : Nat) (payload : List Byte) : List Byte :=
  [requestKindCode kind, origin, if kind = .push then 0 else tag, 0] ++ bytesOfNat 2 length ++
    bytesOfNat 6 address.toNat ++ payload

/-- An ANSWER. -/
def answerBytes (destination tag : Byte) (status : AnswerStatus) (payload : List Byte) : List Byte :=
  [0x20, destination, tag, answerStatusCode status] ++ bytesOfNat 2 payload.length ++ [0, 0] ++ payload

/-- A REPLY or a NOTICE. The link state of a BRANCH notice is the one at its transmission (R149). -/
def controlOutBytes (stateOf : BranchNo → LinkState) : ControlOut → List Byte
  | .reply destination tag status code results =>
    [0x31, destination, tag, replyStatusCode status, code, 0] ++ bytesOfNat 2 results.length ++ results
  | .faultsNotice destination count => [0x32, destination, 1, 0, BitVec.ofNat 8 count, 0, 0, 0]
  | .branchNotice destination b =>
    [0x32, destination, 2, 0, BitVec.ofNat 8 b.val, linkStateCode (stateOf b), 0, 0]

/-! ### The map entry (10.4, R15) -/

/-- The fields of a map entry. -/
structure MapEntry where
  valid : Bool
  reservedZero : Bool
  readable : Bool
  writable : Bool
  retain : Bool
  frame : Frame
  deriving DecidableEq, Repr

/-- The fields of the 64-bit number that the 8 bytes of a walk's answer spell: bit 0 valid, 1 readable, 2 writable, 3
retain, 4 to 11 reserved, 12 to 47 frame, 48 to 63 reserved. -/
def readMapEntry (bytes : List Byte) : MapEntry :=
  let e : BitVec 64 := BitVec.ofNat 64 (natOfBytes bytes)
  { valid := e.getLsbD 0
    reservedZero := e.extractLsb' 4 8 = 0 && e.extractLsb' 48 16 = 0
    readable := e.getLsbD 1
    writable := e.getLsbD 2
    retain := e.getLsbD 3
    frame := e.extractLsb' 12 36 }

end Sys2Proof.Machine
end

