-- ==== Sys2Proof/Machine/Operands.lean ====
section
/-! DEFINITION. The commands that CONTROL packets carry: their codes, their operand blocks (10.3) and which of them are
reads (R144), and readers for the fields of an operand block. -/

namespace Sys2Proof.Machine

/-- The commands of the table of section 9.5. -/
inductive Command where
  | claim
  | release
  | identify
  | gateRead
  | contextSetup
  | contextOpen
  | contextRetire
  | contextRead
  | streamBind
  | streamRead
  | invalidate
  | timeoutSet
  | windowSet
  | windowClear
  | windowRead
  | faultsTake
  | faultsPolicy
  | branchReset
  | branchRead
  deriving DecidableEq, Repr

/-- Command codes (10.3). -/
def commandCode : Command → Byte
  | .claim => 0x01
  | .release => 0x02
  | .identify => 0x03
  | .gateRead => 0x04
  | .contextSetup => 0x10
  | .contextOpen => 0x11
  | .contextRetire => 0x12
  | .contextRead => 0x13
  | .streamBind => 0x20
  | .streamRead => 0x21
  | .invalidate => 0x30
  | .timeoutSet => 0x40
  | .windowSet => 0x50
  | .windowClear => 0x51
  | .windowRead => 0x52
  | .faultsTake => 0x60
  | .faultsPolicy => 0x61
  | .branchReset => 0x70
  | .branchRead => 0x71

/-- Every command. -/
def allCommands : List Command :=
  [.claim, .release, .identify, .gateRead, .contextSetup, .contextOpen, .contextRetire, .contextRead, .streamBind,
   .streamRead, .invalidate, .timeoutSet, .windowSet, .windowClear, .windowRead, .faultsTake, .faultsPolicy,
   .branchReset, .branchRead]

/-- The command of a code, where the code is defined (R143, check 2). -/
def commandOf (code : Byte) : Option Command := allCommands.find? fun c => commandCode c == code

/-- The number of operand bytes (10.3). -/
def operandLength : Command → Nat
  | .claim => 0
  | .release => 0
  | .identify => 0
  | .gateRead => 0
  | .contextSetup => 16
  | .contextOpen => 4
  | .contextRetire => 4
  | .contextRead => 4
  | .streamBind => 4
  | .streamRead => 4
  | .invalidate => 12
  | .timeoutSet => 4
  | .windowSet => 24
  | .windowClear => 4
  | .windowRead => 4
  | .faultsTake => 4
  | .faultsPolicy => 4
  | .branchReset => 4
  | .branchRead => 4

/-- The offsets of the reserved operand bytes (10.3). -/
def reservedOffsets : Command → List Nat
  | .claim => []
  | .release => []
  | .identify => []
  | .gateRead => []
  | .contextSetup => [2, 3, 14, 15]
  | .contextOpen => [1, 2, 3]
  | .contextRetire => [1, 2, 3]
  | .contextRead => [1, 2, 3]
  | .streamBind => [3]
  | .streamRead => [1, 2, 3]
  | .invalidate => [1, 2, 3]
  | .timeoutSet => [1, 2, 3]
  | .windowSet => [22, 23]
  | .windowClear => [1, 2, 3]
  | .windowRead => [1, 2, 3]
  | .faultsTake => [1, 2, 3]
  | .faultsPolicy => [1, 2, 3]
  | .branchReset => [1, 2, 3]
  | .branchRead => [1, 2, 3]

/-- The field of an operand block at an offset, as a number (R153); a byte that is not there reads as 0. -/
def operandField (operands : List Byte) (offset width : Nat) : Nat :=
  natOfBytes ((List.range width).map fun i => operands.getD (offset + i) 0)

/-- Check 5 of R143: the operand block has the length of its command's layout and its reserved bytes are zero (R154). -/
def operandsFit (c : Command) (operands : List Byte) : Bool :=
  operands.length == operandLength c && (reservedOffsets c).all fun i => operandField operands i 1 == 0

/-- The six read commands, accepted from any node (R144). -/
def isRead : Command → Bool
  | .identify => true
  | .gateRead => true
  | .contextRead => true
  | .streamRead => true
  | .windowRead => true
  | .branchRead => true
  | _ => false

/-- Check 3 of R143: whether a node may issue the command, with the manager as it stands (R144, R145). -/
def mayIssue (c : Command) (manager : Option Byte) (source : Byte) : Bool :=
  if isRead c then true
  else if c = .claim then manager = none || manager = some source
  else manager = some source

/-- A one-byte operand as a number below `n`, where it is one. -/
def operandBelow (n : Nat) (operands : List Byte) (offset : Nat) : Option (Fin n) :=
  if h : operandField operands offset 1 < n then some ⟨operandField operands offset 1, h⟩ else none

/-- A flag or an on/off operand: 0 off, 1 on, other values undefined (R155). -/
def operandFlag (operands : List Byte) (offset : Nat) : Option Bool :=
  if operandField operands offset 1 = 0 then some false
  else if operandField operands offset 1 = 1 then some true else none

/-! ### The fault record (10.5) -/

/-- Fault kinds are coded 1 to 12 in the order of R155. -/
def faultKindCode : FaultKind → Byte
  | .blockedStream => 1
  | .contextClosed => 2
  | .splitPage => 3
  | .outOfMap => 4
  | .notPresent => 5
  | .badEntry => 6
  | .readDenied => 7
  | .writeDenied => 8
  | .mapReadError => 9
  | .answerTimeout => 10
  | .corruptData => 11
  | .malformed => 12

/-- A presence bit: its weight when the field is present. -/
def presenceBit {α : Type} (x : Option α) (weight : Nat) : Nat := if x.isSome then weight else 0

/-- The 16 bytes of a fault record in a FAULTS-TAKE reply; a field that is absent is sent as zero (R154). -/
def faultRecordBytes (r : FaultRecord) : List Byte :=
  bytesOfNat 2 r.sequence.toNat ++
  [faultKindCode r.fault.kind,
   BitVec.ofNat 8 (presenceBit r.fault.stream 1 + presenceBit r.fault.context 2 + presenceBit r.fault.page 4 +
     presenceBit r.fault.access 8 + presenceBit r.fault.detail 16 + presenceBit r.lostBefore 32),
   (r.fault.stream.map fun s => BitVec.ofNat 8 s.val).getD 0,
   (r.fault.context.map fun c => BitVec.ofNat 8 c.val).getD 0,
   (r.fault.access.map accessCode).getD 0,
   (r.fault.detail.map answerStatusCode).getD 0,
   BitVec.ofNat 8 r.repeats,
   BitVec.ofNat 8 (r.lostBefore.getD 0)] ++
  bytesOfNat 6 (r.fault.page.getD 0)

end Sys2Proof.Machine
end

