-- ==== Sys2Proof/Machine/Drains.lean ====
section
/-! DEFINITION. The drains of the two long commands (R9, R91), their completion (R10, R92), and RETIRE_COMPLETE and
INVALIDATE_COMPLETE. -/

namespace Sys2Proof.Machine

/-- Whether a LIVE entry departed under context `c` (R76). -/
def LiveEntry.ofContext (e : LiveEntry) (c : ContextNo) : Bool :=
  match e.binding with
  | .direct => false
  | .mapped c' _ => c' == c

/-- Whether a LIVE entry departed under context `c` at this epoch. -/
def LiveEntry.ofEpoch (e : LiveEntry) (c : ContextNo) (epoch : Word16) : Bool :=
  match e.binding with
  | .direct => false
  | .mapped c' epoch' => c' == c && epoch' == epoch

/-- The retire drain of `c` is complete: no entry is LIVE under it and no slot is WALKING for it, whatever the epoch (R9). -/
def Gate.retireDrained (g : Gate) (c : ContextNo) : Bool :=
  g.liveEntries.all (fun e => !e.ofContext c) && g.walksUnderWay.all (fun w => w.context != c)

/-- The drain of an invalidation of `c` is complete: no entry is LIVE under it, and no slot is WALKING for it, at the old
epoch, which is the current epoch minus one (R91). -/
def Gate.invalidateDrained (g : Gate) (c : ContextNo) : Bool :=
  g.liveEntries.all (fun e => !e.ofEpoch c ((g.context c).epoch - 1)) &&
    g.walksUnderWay.all (fun w => !(w.context == c && w.epoch == (g.context c).epoch - 1))

/-- Every binding MAPPED to `c` becomes BLOCKED, and its generation is one more (R7, R10). -/
def Gate.unbindContext (g : Gate) (c : ContextNo) : Gate :=
  { g with
    streams := g.streams.map fun x =>
      if x.mode = .mapped c then { x with mode := .blocked, generation := x.generation + 1 } else x }

/-- Clear the pending long command of `c`, in its record and in the pending list (R4, R147). -/
def Gate.clearPending (g : Gate) (c : ContextNo) : Gate :=
  (g.modContext c fun x => { x with pending := none }).modManagement fun m =>
    { m with pendingList := m.pendingList.filter fun e => e.context != c }

/-- Record a long command of `c` that did not complete when taken (R4, R147). -/
def Gate.setPending (g : Gate) (c : ContextNo) (command : LongCommand) (tag node : Byte) : Gate :=
  (g.modContext c fun x => { x with pending := some ⟨command, tag, node⟩ }).modManagement fun m =>
    { m with pendingList := m.pendingList ++ [⟨command, c, tag, node⟩] }

/-- A retire of `c` completes (R10): its bindings become BLOCKED, the context becomes FREE, the pending command is cleared,
and DONE is queued to the node with the tag. -/
def Gate.completeRetire (g : Gate) (c : ContextNo) (tag node : Byte) : Gate :=
  (((g.unbindContext c).modContext c fun x => { x with state := .free }).clearPending c).queueReply node tag .done
    (commandCode .contextRetire) []

/-- The results of a DONE reply to INVALIDATE: the context and its epoch after the increment (R88, 10.3). -/
def invalidateResults (c : ContextNo) (epoch : Word16) : List Byte :=
  [BitVec.ofNat 8 c.val, 0] ++ bytesOfNat 2 epoch.toNat

/-- An invalidation of `c` completes (R92): the pending command is cleared, and DONE is queued with the context and its
current epoch. -/
def Gate.completeInvalidate (g : Gate) (c : ContextNo) (tag node : Byte) : Gate :=
  (g.clearPending c).queueReply node tag .done (commandCode .invalidate) (invalidateResults c (g.context c).epoch)

/-- Complete the pending retire of `c`, if there is one and its drain is complete. -/
def Gate.judgeRetire (g : Gate) (c : ContextNo) : Gate :=
  match (g.context c).pending with
  | some ⟨.retire, tag, node⟩ => if g.retireDrained c then g.completeRetire c tag node else g
  | _ => g

/-- Complete the pending invalidation of `c`, if there is one and its drain is complete. -/
def Gate.judgeInvalidate (g : Gate) (c : ContextNo) : Gate :=
  match (g.context c).pending with
  | some ⟨.invalidate _ _, tag, node⟩ => if g.invalidateDrained c then g.completeInvalidate c tag node else g
  | _ => g

/-- A LIVE entry or a walk of context `c` has ended: the drain of what is pending for `c` is judged (R9, R92). -/
def Gate.judgeDrain (g : Gate) (c : ContextNo) : Gate :=
  match (g.context c).pending with
  | some ⟨.retire, _, _⟩ => g.judgeRetire c
  | some ⟨.invalidate _ _, _, _⟩ => g.judgeInvalidate c
  | none => g

/-- RETIRE_COMPLETE (R10): the retire drain of the context is found complete. Where no retire is pending or its drain is not
complete, nothing is found (log entries 5 and 13). -/
def execRetireComplete (c : ContextNo) (s : State) : Host.Outcome State Fault Refusal :=
  s.act fun g => g.judgeRetire c

/-- INVALIDATE_COMPLETE (R92): the drain of the context's invalidation is found complete. Where none is pending or its drain
is not complete, nothing is found (log entries 5 and 13). -/
def execInvalidateComplete (c : ContextNo) (s : State) : Host.Outcome State Fault Refusal :=
  s.act fun g => g.judgeInvalidate c

/-- NOTICE_PLACE (R148): the first notice owed is placed, when there is a manager and an open place. -/
def execNoticePlace (s : State) : Host.Outcome State Fault Refusal := s.act Gate.placeNotice

end Sys2Proof.Machine
end

