-- ==== Sys2Proof/Machine/Taking.lean ====
section
/-! DEFINITION. The taking of a CONTROL packet (R142, R143): the checks that every command shares, the reply, and the two rows
for packets that are no known command of this gate. -/

namespace Sys2Proof.Machine

/-- The packet at the front of the trunk ingress control buffer is taken: it leaves the buffer, of which `rest` remains, and
its CONTROL credit is freed (R142). -/
def Gate.takeControl (g : Gate) (rest : List ControlPacket) : Gate :=
  (g.modTrunk fun t => { t with ingressControl := rest }).freeCredit .trunk .control

/-- Reply to the packet: to its source, with its tag and its code (R143, R156). -/
def Gate.reply (g : Gate) (p : ControlPacket) (status : ReplyStatus) (results : List Byte) : Gate :=
  g.queueReply p.source p.tag status p.code results

/-- A refusal: the status, and no results (R143). -/
def Gate.refuse (g : Gate) (p : ControlPacket) (status : ReplyStatus) : Gate := g.reply p status []

/-- DONE with results. -/
def Gate.answerDone (g : Gate) (p : ControlPacket) (results : List Byte) : Gate := g.reply p .done results

/-- Checks 3 to 5 of R143 for command `c`, and the command itself where they pass. -/
def Gate.checked (c : Command) (run : ControlPacket → Gate → Gate) (p : ControlPacket) (g : Gate) : Gate :=
  if !mayIssue c g.management.manager p.source then g.refuse p .notManager
  else if Config.pendingCommands ≤ g.management.pendingList.length then g.refuse p .busy
  else if !operandsFit c p.operands then g.refuse p .badArgument
  else run p g

/-- The CONTROL packet at the front is taken, where there is one that satisfies `mine` and an open place (R142), and `act`
is done to the gate it was taken from. Otherwise the packet stays at the front, or is another row's (log entries 5, 14). -/
def Gate.takeFront (mine : ControlPacket → Bool) (act : ControlPacket → Gate → Gate) (g : Gate) : Gate :=
  match g.trunk.ingressControl with
  | [] => g
  | p :: rest => if mine p ∧ 0 < g.management.openPlaces then act p (g.takeControl rest) else g

/-- Whether the packet is command `c` for this gate (checks 1 and 2 of R143). -/
def isCommand (gateId : Byte) (c : Command) (p : ControlPacket) : Bool := p.gateId == gateId && p.code == commandCode c

/-- The command `c` at the front is taken, checked, and carried out by `run` or refused (R142, R143). -/
def Gate.takeCommand (c : Command) (run : ControlPacket → Gate → Gate) (g : Gate) : Gate :=
  g.takeFront (isCommand g.gateId c) (Gate.checked c run)

/-- UNKNOWN_COMMAND (R143, check 2): the packet at the front is for this gate and its code is undefined; UNKNOWN. -/
def execUnknownCommand (s : State) : Host.Outcome State Fault Refusal :=
  s.act fun g =>
    g.takeFront (fun p => p.gateId == g.gateId && (commandOf p.code).isNone) fun p g' => g'.refuse p .unknown

/-- MISDIRECTED_CONTROL (R143, check 1): the packet at the front is not for this gate; discarded and counted, no reply. -/
def execMisdirectedControl (s : State) : Host.Outcome State Fault Refusal :=
  s.act fun g =>
    g.takeFront (fun p => p.gateId != g.gateId) fun _ g' =>
      g'.countGate fun c => { c with misdirected := c.misdirected + 1 }

end Sys2Proof.Machine
end

