-- ==== Sys2Proof/Machine/ContextCommands.lean ====
section
/-! DEFINITION. The commands of the context table: CONTEXT-SETUP, CONTEXT-OPEN, CONTEXT-RETIRE, CONTEXT-READ (01) and INVALIDATE
(05). Each makes the checks of R3 in their order. -/

namespace Sys2Proof.Machine

/-- The range checks of CONTEXT-SETUP (R5): the root a multiple of 4096, the length 1 to 1,048,576, the map below 2^48. -/
def mapFits (root length : Nat) : Bool :=
  root % Config.pageSize == 0 && 1 ≤ length && length ≤ Config.maxMapLength && root + 8 * length ≤ Config.addressSpace

/-- CONTEXT-SETUP past its checks (R5): READY, the map description, counters 0; epoch and bindings unchanged. -/
def Gate.setupContext (g : Gate) (c : ContextNo) (root : Addr) (length : Nat) (report : Bool) : Gate :=
  g.modContext c fun x =>
    { x with state := .ready, mapRoot := root, mapLength := length, report := report, counters := .zero }

/-- CONTEXT-SETUP (R3, R5). -/
def Gate.runContextSetup (p : ControlPacket) (g : Gate) : Gate :=
  match operandBelow 16 p.operands 0 with
  | none => g.refuse p .badArgument
  | some c =>
    if (g.context c).state ≠ .free ∧ (g.context c).state ≠ .ready then g.refuse p .state
    else if (g.context c).pending.isSome then g.refuse p .conflict
    else
      let root := operandField p.operands 8 6
      let length := operandField p.operands 4 4
      match operandFlag p.operands 1 with
      | none => g.refuse p .badArgument
      | some report =>
        if mapFits root length then (g.setupContext c (BitVec.ofNat 48 root) length report).answerDone p []
        else g.refuse p .badArgument

/-- CONTEXT-OPEN (R3, R6): a READY context becomes ACTIVE. -/
def Gate.runContextOpen (p : ControlPacket) (g : Gate) : Gate :=
  match operandBelow 16 p.operands 0 with
  | none => g.refuse p .badArgument
  | some c =>
    if (g.context c).state ≠ .ready then g.refuse p .state
    else if (g.context c).pending.isSome then g.refuse p .conflict
    else (g.modContext c fun x => { x with state := .active }).answerDone p []

/-- The epoch of a context is one more (R13). -/
def Gate.raiseEpoch (g : Gate) (c : ContextNo) : Gate := g.modContext c fun x => { x with epoch := x.epoch + 1 }

/-- Remove the cache entries of `c` whose page satisfies `inRange` (R26, R27); the others keep their order. -/
def Gate.removeCached (g : Gate) (c : ContextNo) (inRange : Nat → Bool) : Gate :=
  { g with cache := g.cache.filter fun e => !(e.context == c && inRange e.page) }

/-- A retire of a READY context (R7): epoch, bindings, FREE, DONE. -/
def Gate.retireReady (g : Gate) (c : ContextNo) (p : ControlPacket) : Gate :=
  ((((g.raiseEpoch c).unbindContext c)).modContext c fun x => { x with state := .free }).answerDone p []

/-- A retire of an ACTIVE context (R8): epoch, cache, DRAINING; then it completes at once or is recorded as pending. -/
def Gate.retireActive (g : Gate) (c : ContextNo) (p : ControlPacket) : Gate :=
  let draining :=
    ((g.raiseEpoch c).removeCached c fun _ => true).modContext c fun x => { x with state := .draining }
  if draining.retireDrained c then draining.completeRetire c p.tag p.source
  else draining.setPending c .retire p.tag p.source

/-- CONTEXT-RETIRE (R3, R7, R8). -/
def Gate.runContextRetire (p : ControlPacket) (g : Gate) : Gate :=
  match operandBelow 16 p.operands 0 with
  | none => g.refuse p .badArgument
  | some c =>
    if (g.context c).state ≠ .ready ∧ (g.context c).state ≠ .active then g.refuse p .state
    else if (g.context c).pending.isSome then g.refuse p .conflict
    else if (g.context c).state = .ready then g.retireReady c p
    else g.retireActive c p

/-! ### CONTEXT-READ (R12, 10.3) -/

def contextStateCode : ContextState → Byte
  | .free => 0
  | .ready => 1
  | .active => 2
  | .draining => 3

/-- 0 none, 1 INVALIDATE, 2 RETIRE. -/
def pendingCode : Option PendingLong → Byte
  | none => 0
  | some ⟨.invalidate _ _, _, _⟩ => 1
  | some ⟨.retire, _, _⟩ => 2

/-- First page and count of a pending INVALIDATE; zero otherwise. -/
def pendingRange : Option PendingLong → List Byte
  | some ⟨.invalidate firstPage count, _, _⟩ => bytesOfNat 4 firstPage ++ bytesOfNat 4 count
  | _ => bytesOfNat 4 0 ++ bytesOfNat 4 0

/-- Request entries LIVE under `c`, orphans included (R12). -/
def Gate.liveOf (g : Gate) (c : ContextNo) : Nat := g.liveEntries.countP fun e => e.ofContext c

/-- Of those, the ones at the epoch one less than the current (R12). -/
def Gate.oldEpochOf (g : Gate) (c : ContextNo) : Nat :=
  g.liveEntries.countP fun e => e.ofEpoch c ((g.context c).epoch - 1)

/-- Walk slots WALKING for `c` (R12). -/
def Gate.walksOf (g : Gate) (c : ContextNo) : Nat := g.walksUnderWay.countP fun w => w.context == c

/-- Streams MAPPED to `c` (R12). -/
def Gate.boundStreams (g : Gate) (c : ContextNo) : Nat := g.streams.toList.countP fun x => x.mode == .mapped c

/-- The seven counters in the order of 10.3. -/
def contextCounterBytes (c : ContextCounters) : List Byte :=
  bytesOfNat 4 c.lookups.toNat ++ bytesOfNat 4 c.cacheHits.toNat ++ bytesOfNat 4 c.walksStarted.toNat ++
  bytesOfNat 4 c.faultsRecorded.toNat ++ bytesOfNat 4 c.faultsSilenced.toNat ++
  bytesOfNat 4 c.answerTimeouts.toNat ++ bytesOfNat 4 c.corruptAnswers.toNat

/-- The 60 result bytes of CONTEXT-READ. -/
def Gate.contextReadResults (g : Gate) (c : ContextNo) : List Byte :=
  let x := g.context c
  [BitVec.ofNat 8 c.val, contextStateCode x.state, boolByte x.report, pendingCode x.pending] ++
  bytesOfNat 2 x.epoch.toNat ++
  [(x.pending.map (·.tag)).getD 0, (x.pending.map (·.node)).getD 0] ++
  bytesOfNat 4 x.mapLength ++ bytesOfNat 6 x.mapRoot.toNat ++ [0, 0] ++ pendingRange x.pending ++
  [BitVec.ofNat 8 (g.liveOf c), BitVec.ofNat 8 (g.oldEpochOf c), BitVec.ofNat 8 (g.walksOf c),
   BitVec.ofNat 8 (g.boundStreams c)] ++
  contextCounterBytes x.counters

/-- CONTEXT-READ (R12): answered in every state. -/
def Gate.runContextRead (p : ControlPacket) (g : Gate) : Gate :=
  match operandBelow 16 p.operands 0 with
  | none => g.refuse p .badArgument
  | some c => g.answerDone p (g.contextReadResults c)

/-! ### INVALIDATE (05) -/

/-- An INVALIDATE of an ACTIVE context past its checks (R90): cache, epoch; then it completes at once or is recorded as
pending. -/
def Gate.invalidateActive (g : Gate) (c : ContextNo) (first count : Nat) (p : ControlPacket) : Gate :=
  let raised := (g.removeCached c fun page => first ≤ page && page < first + count).raiseEpoch c
  if raised.invalidateDrained c then raised.completeInvalidate c p.tag p.source
  else raised.setPending c (.invalidate first count) p.tag p.source

/-- An INVALIDATE of a READY context past its checks (R89): the epoch, and DONE. -/
def Gate.invalidateReady (g : Gate) (c : ContextNo) (p : ControlPacket) : Gate :=
  let raised := g.raiseEpoch c
  raised.answerDone p (invalidateResults c (raised.context c).epoch)

/-- INVALIDATE (R88 to R90). -/
def Gate.runInvalidate (p : ControlPacket) (g : Gate) : Gate :=
  match operandBelow 16 p.operands 0 with
  | none => g.refuse p .badArgument
  | some c =>
    let first := operandField p.operands 4 4
    let count := operandField p.operands 8 4
    if (g.context c).state ≠ .ready ∧ (g.context c).state ≠ .active then g.refuse p .state
    else if (g.context c).pending.isSome then g.refuse p .conflict
    else if count < 1 ∨ Config.maxMapLength < count ∨ (g.context c).mapLength < first + count then
      g.refuse p .badArgument
    else if (g.context c).state = .ready then g.invalidateReady c p
    else g.invalidateActive c first count p

/-! ### The commands -/

/-- CONTEXT-SETUP (R5). -/
def execContextSetup (s : State) : Host.Outcome State Fault Refusal :=
  s.act (Gate.takeCommand .contextSetup Gate.runContextSetup)

/-- CONTEXT-OPEN (R6). -/
def execContextOpen (s : State) : Host.Outcome State Fault Refusal :=
  s.act (Gate.takeCommand .contextOpen Gate.runContextOpen)

/-- CONTEXT-RETIRE (R7, R8). -/
def execContextRetire (s : State) : Host.Outcome State Fault Refusal :=
  s.act (Gate.takeCommand .contextRetire Gate.runContextRetire)

/-- CONTEXT-READ (R12). -/
def execContextRead (s : State) : Host.Outcome State Fault Refusal :=
  s.act (Gate.takeCommand .contextRead Gate.runContextRead)

/-- INVALIDATE (R88 to R90). -/
def execInvalidate (s : State) : Host.Outcome State Fault Refusal :=
  s.act (Gate.takeCommand .invalidate Gate.runInvalidate)

end Sys2Proof.Machine
end

