-- ==== Sys2Proof/Machine/HostPath.lean ====
section
/-! DEFINITION. The host path (07): matching (R119), offering (R120), forwarding (R121), refusing (R122), the arbiter of the
trunk answer transmit queue (R123), and HOST_REQUEST_OFFER and ANSWER_QUEUE_GRANT. -/

namespace Sys2Proof.Machine

/-- The last host address a window covers: last + 65,535 (R116). -/
def Window.lastByte (w : Window) : Nat := w.last.toNat + (Config.granule - 1)

/-- Whether a window covers a host address (R116). -/
def Window.contains (w : Window) (a : Nat) : Bool := w.base.toNat ≤ a && a ≤ w.lastByte

/-- The lowest-indexed ENABLED window that contains the first byte (R119). -/
def Gate.winner (g : Gate) (r : HostRequest) : Option Window :=
  (lowest g.windows fun w => w.enabled && w.contains r.address.toNat).map g.window

/-- What matching finds for a host request under its winner: the first condition of R119 that applies. The rebased address
is A − base + target base (R121). -/
def Gate.matchUnder (g : Gate) (r : HostRequest) (w : Window) : HostOutcome :=
  match w.kind with
  | .exclude => .refuse .noroute
  | .forward target b access =>
    if !w.contains (r.address.toNat + r.length - 1) then .refuse .noroute
    else if (g.branch b).link.state ≠ .up then .refuse .noroute
    else if r.kind ≠ .fetch ∧ access = .readOnly then .refuse .denied
    else .forward b (r.address - w.base + target)

/-- Match a host request against the table as it stands (R119). -/
def Gate.matchHost (g : Gate) (r : HostRequest) : HostOutcome :=
  match g.winner r with
  | none => .refuse .noroute
  | some w => g.matchUnder r w

/-- The host request at the front is taken: it leaves the buffer, of which `rest` remains, and its REQUEST credit is freed.
The next request has not been offered (R120). -/
def Gate.takeHost (g : Gate) (rest : List HostRequest) : Gate :=
  (g.modTrunk fun t => { t with ingressRequests := rest, hostOffer := none }).freeCredit .trunk .request

/-- The host request at the front is held with the outcome found (R120). -/
def Gate.holdHost (g : Gate) (o : HostOutcome) : Gate := g.modTrunk fun t => { t with hostOffer := some o }

/-- A refused host request counts in host-refused (R122). -/
def Gate.countHostRefused (g : Gate) : Gate := g.countGate fun c => { c with hostRefused := c.hostRefused + 1 }

/-- Place a forwarded request, rebased, at the tail of its branch's request egress queue (R121). -/
def Gate.forwardHost (g : Gate) (b : BranchNo) (r : HostRequest) (address : Addr) : Gate :=
  g.modBranch b fun x => { x with egressRequests := x.egressRequests ++ [{ r with address := address }] }

/-- Offer the host request at the front, matched afresh: it is forwarded where its branch's queue has room, dropped where a
PUSH is refused, and held otherwise (R120). -/
def Gate.offerHost (g : Gate) : Gate :=
  match g.trunk.ingressRequests with
  | [] => g
  | r :: rest =>
    match g.matchHost r with
    | .forward b address =>
      if (g.branch b).egressRequests.length < Config.egressPlaces then (g.takeHost rest).forwardHost b r address
      else g.holdHost (.forward b address)
    | .refuse status =>
      if r.kind = .push then (g.takeHost rest).countHostRefused else g.holdHost (.refuse status)

/-- Offer a held host request again (R120). One that has not been offered yet waits for its HOST_REQUEST_OFFER (log entry
10). -/
def Gate.offerHeldAgain (g : Gate) : Gate := if g.trunk.hostOffer.isSome then g.offerHost else g

/-! ### The arbiter of the trunk answer transmit queue (R123) -/

/-- The sources in round-robin order, starting with the one after the last served. -/
def sourceOrder : AnswerSource → List AnswerSource
  | .trunk => [.branch 0, .branch 1, .branch 2, .branch 3, .trunk]
  | .branch 0 => [.branch 1, .branch 2, .branch 3, .trunk, .branch 0]
  | .branch 1 => [.branch 2, .branch 3, .trunk, .branch 0, .branch 1]
  | .branch 2 => [.branch 3, .trunk, .branch 0, .branch 1, .branch 2]
  | .branch 3 => [.trunk, .branch 0, .branch 1, .branch 2, .branch 3]

/-- Put an answer in the granted place, and count its source as served. -/
def Gate.placeTrunkAnswer (g : Gate) (source : AnswerSource) (a : Answer) : Gate :=
  g.modTrunk fun t => { t with answerQueue := t.answerQueue ++ [a], lastSource := source }

/-- Whether the trunk source waits: the request at the front was found, at its last offer, a refused COMMIT or FETCH. -/
def TrunkPort.sourceWaits (t : TrunkPort) : Bool :=
  match t.ingressRequests, t.hostOffer with
  | r :: _, some (.refuse _) => r.kind != .push
  | _, _ => false

/-- Grant the place to the first source of the list that waits. A grant to the trunk source matches its request again: if it
is still a refused COMMIT or FETCH its answer fills the place; otherwise the request is dealt with by its new outcome and
the place goes to the next waiting source (R123). -/
def Gate.grantPlace : List AnswerSource → Gate → Gate
  | [], g => g
  | .branch b :: rest, g =>
    match (g.branch b).ingressAnswers with
    | [] => Gate.grantPlace rest g
    | a :: more =>
      ((g.modBranch b fun x => { x with ingressAnswers := more }).freeCredit (.branch b) .answer).placeTrunkAnswer
        (.branch b) a
  | .trunk :: rest, g =>
    match g.trunk.sourceWaits, g.trunk.ingressRequests with
    | true, r :: more =>
      match g.matchHost r with
      | .refuse status =>
        ((g.takeHost more).countHostRefused).placeTrunkAnswer .trunk
          { destination := r.origin, tag := r.tag, status := status, payload := [] }
      | .forward _ _ => Gate.grantPlace rest g.offerHost
    | _, _ => Gate.grantPlace rest g

/-- HOST_REQUEST_OFFER (R120). -/
def execHostRequestOffer (s : State) : Host.Outcome State Fault Refusal := s.act Gate.offerHost

/-- ANSWER_QUEUE_GRANT (R123): while the queue has room, one place is granted to a source that waits. -/
def execAnswerQueueGrant (s : State) : Host.Outcome State Fault Refusal :=
  s.act fun g =>
    if g.trunk.answerQueue.length < Config.answerPlaces then Gate.grantPlace (sourceOrder g.trunk.lastSource) g else g

end Sys2Proof.Machine
end

