-- ==== Sys2Proof/Machine/FaultLog.lean ====
section
/-! DEFINITION. The fault log (06): what becomes of a fault that is offered (R105, R108 to R110, R112), and taking records
(R113). -/

namespace Sys2Proof.Machine

/-- Whether the log merges the fault into its newest record: there is one, its identity equals the fault's with absent
equal to absent, and its repeat is below 255 (R108). -/
def FaultLog.merges (l : FaultLog) (f : FaultReport) : Bool :=
  match l.records.getLast? with
  | none => false
  | some r => r.fault == f && r.repeats < Config.saturation

/-- The log after a merge: the newest record's repeat is one more (R108). -/
def FaultLog.merge (l : FaultLog) : FaultLog :=
  match l.records.getLast? with
  | none => l
  | some r => { l with records := l.records.dropLast ++ [{ r with repeats := r.repeats + 1 }] }

/-- The log after a fault has joined as a new record at the tail (R109), its latch set (R112). -/
def FaultLog.join (l : FaultLog) (f : FaultReport) : FaultLog :=
  { l with
    records := l.records ++
      [{ sequence := l.nextSequence, fault := f, repeats := 1,
         lostBefore := if l.pendingLoss = 0 then none else some l.pendingLoss }]
    nextSequence := l.nextSequence + 1
    pendingLoss := 0
    latch := true }

/-- The log after a fault has been lost: pending loss is one more, stopping at 255 (R110). -/
def FaultLog.lose (l : FaultLog) : FaultLog :=
  { l with pendingLoss := min (l.pendingLoss + 1) Config.saturation }

/-- A fault that the log is to keep merges, joins or is lost (R108 to R110). A join with the latch clear asks for a FAULTS
notice (R112); a loss counts in lost faults (R110). -/
def Gate.keepFault (g : Gate) (f : FaultReport) : Gate :=
  if g.log.merges f then { g with log := g.log.merge }
  else if g.log.records.length < Config.logRecords then
    let joined := { g with log := g.log.join f }
    if g.log.latch then joined else joined.oweFaults
  else
    { g with log := g.log.lose }.countGate fun c => { c with lostFaults := c.lostFaults + 1 }

/-- A fault is offered (R105): an attached one is judged by its context's report flag and counted there (R18), an
unattached one by the unattached policy. -/
def Gate.offerFault (g : Gate) (f : FaultReport) : Gate :=
  match f.context with
  | some c =>
    if (g.context c).report then
      (g.count c fun x => { x with faultsRecorded := x.faultsRecorded + 1 }).keepFault f
    else g.count c fun x => { x with faultsSilenced := x.faultsSilenced + 1 }
  | none => if g.log.policy then g.keepFault f else g

/-- The MALFORMED fault of a branch port, with the stream where it could be read (R106, R138). -/
def malformedFault (stream : Option StreamId) : FaultReport :=
  { kind := .malformed, stream := stream, context := none, page := none, access := none, detail := none }

/-- Remove up to `n` of the oldest records, clear the latch and withdraw an owed FAULTS notice (R113). -/
def Gate.takeRecords (g : Gate) (n : Nat) : Gate :=
  { g with log := { g.log with records := g.log.records.drop n, latch := false } }.modManagement
    fun m => { m with faultsOwed := false }

end Sys2Proof.Machine
end

