-- ==== Sys2Proof/Machine/Heads.lean ====
section
/-! DEFINITION. Stream heads: answer slots (R54, R55, R58, R59), the binding check (R56), lookup and its misses (R19 to R22,
R30), refusal (R62), the coming of the next head (R52, R54), and the serving of the walk waiting list (R34). -/

namespace Sys2Proof.Machine

/-! ### Answer slots -/

def Gate.setSlot (g : Gate) (b : BranchNo) (k : SlotNo) (x : AnswerSlot) : Gate :=
  g.modBranch b fun y => { y with slots := y.slots.set k.val x }

/-- A free answer slot of the branch: the lowest-numbered. DESIGN CHOICE (log entry 4): the spec does not say which free
slot is reserved, and no rule, packet or reply tells slots apart. -/
def Gate.freeSlot (g : Gate) (b : BranchNo) : Option SlotNo := lowest (g.branch b).slots (· == .free)

/-- The head of stream `s` reserves slot `k`, which is then tied to its stream number and device tag (R54, R58). -/
def Gate.reserve (g : Gate) (s : StreamId) (tag : Byte) (k : SlotNo) : Gate :=
  (g.setSlot (branchOf s) k (.reserved (numberOf s) tag)).modStream s fun x => { x with slot := some k }

/-- Place an answer in a slot reserved for a request of stream `s` with this device tag: the slot becomes occupied, and the
answer joins the tail of its branch's answer egress queue (R59, R60). -/
def Gate.placeAnswer (g : Gate) (s : StreamId) (k : SlotNo) (tag : Byte) (status : AnswerStatus) (payload : List Byte) : Gate :=
  (g.setSlot (branchOf s) k .occupied).modBranch (branchOf s) fun y =>
    { y with
      egressAnswers := y.egressAnswers ++
        [{ slot := k, stream := numberOf s, tag := tag, status := status, payload := payload }] }

/-- Place an answer where there is a slot for it. -/
def Gate.placeAnswerIn (g : Gate) (s : StreamId) (slot : Option SlotNo) (tag : Byte) (status : AnswerStatus)
    (payload : List Byte) : Gate :=
  match slot with
  | some k => g.placeAnswer s k tag status payload
  | none => g

/-! ### The checks of a head in TRANSLATING -/

/-- What the checks of a head end in: it stays, in READY or in a wait, or it is refused with a fault (R19, R56). -/
inductive HeadOutcome where
  | stays (g : Gate)
  | refused (g : Gate) (fault : FaultReport)

def Gate.setHead (g : Gate) (s : StreamId) (h : HeadState) : Gate :=
  g.modStream s fun x => { x with head := some h }

/-- The fault of a head handled under a MAPPED binding to context `c` (R62, R106). -/
def mappedFault (kind : FaultKind) (s : StreamId) (c : ContextNo) (r : Request) (detail : Option AnswerStatus) : FaultReport :=
  { kind := kind, stream := some s, context := some c, page := some (pageOf r.address), access := some r.kind,
    detail := detail }

/-- The fault of a head that meets a BLOCKED binding: no context, no page (R56, R62). -/
def blockedFault (s : StreamId) (r : Request) : FaultReport :=
  { kind := .blockedStream, stream := some s, context := none, page := none, access := some r.kind, detail := none }

/-- Whether the permissions allow the request: a FETCH needs readable, a PUSH or COMMIT needs writable (R21, R36). -/
def permits (readable writable : Bool) : RequestKind → Bool
  | .fetch => readable
  | .push => writable
  | .commit => writable

/-- The kind of the refusal for want of permission (R21, R36). -/
def deniedKind : RequestKind → FaultKind
  | .fetch => .readDenied
  | .push => .writeDenied
  | .commit => .writeDenied

/-- The stamp of a head made READY under a MAPPED binding to `c` now: the generation of its stream's binding and the epoch
of `c`, as they stand (R21, R36). -/
def Gate.mappedStamp (g : Gate) (s : StreamId) (c : ContextNo) : Stamp :=
  { generation := (g.stream s).generation, mapped := some (c, (g.context c).epoch) }

/-- Search the translation cache for a context and a page (R24). -/
def Gate.findCached (g : Gate) (c : ContextNo) (page : Nat) : Option CacheEntry :=
  g.cache.find? fun e => e.context == c && e.page == page

/-- Whether a slot is WALKING with the key (context, page, epoch) (R22, R29). -/
def WalkSlot.hasKey (x : WalkSlot) (c : ContextNo) (page : Nat) (epoch : Word16) : Bool :=
  match x with
  | .walking w => w.context == c && w.page == page && w.epoch == epoch
  | _ => false

/-- The head of stream `s` joins the waiters of slot `i`, with the generation its binding has now (R22, R32). -/
def Gate.joinWalk (g : Gate) (s : StreamId) (i : WalkNo) : Gate :=
  match g.walk i with
  | .walking w =>
    (g.setWalk i (.walking { w with waiters := w.waiters ++ [⟨s, (g.stream s).generation⟩] })).setHead s .waitWalk
  | _ => g

/-- A walk of (c, page) starts in slot `i` with the head of stream `s` as first waiter (R30). -/
def Gate.startWalk (g : Gate) (s : StreamId) (c : ContextNo) (page : Nat) (i : WalkNo) : Gate :=
  let walk : Walk :=
    { context := c, page := page, epoch := (g.context c).epoch,
      entryAddress := BitVec.ofNat 48 ((g.context c).mapRoot.toNat + 8 * page),
      sent := none, waiters := [⟨s, (g.stream s).generation⟩] }
  ((g.setWalk i (.walking walk)).setHead s .waitWalk).count c fun x => { x with walksStarted := x.walksStarted + 1 }

/-- A head that missed: it joins a walk of its key, starts one in the lowest FREE slot, or joins the walk waiting list
(R22). -/
def Gate.handleMiss (g : Gate) (s : StreamId) (c : ContextNo) (page : Nat) : Gate :=
  match lowest g.walks (·.hasKey c page (g.context c).epoch) with
  | some i => g.joinWalk s i
  | none =>
    match lowest g.walks (· == .free) with
    | some i => g.startWalk s c page i
    | none => { g with walkWaiting := g.walkWaiting ++ [s] }.setHead s .waitWalkSlot

/-- Lookup of a head whose stream is MAPPED to `c` (R19 to R22). -/
def Gate.lookup (g : Gate) (s : StreamId) (c : ContextNo) (r : Request) : HeadOutcome :=
  let page := pageOf r.address
  if (g.context c).state ≠ .active then .refused g (mappedFault .contextClosed s c r none)
  else if (r.address.toNat + r.length - 1) / Config.pageSize ≠ page then .refused g (mappedFault .splitPage s c r none)
  else if (g.context c).mapLength ≤ page then .refused g (mappedFault .outOfMap s c r none)
  else
    let searched := g.count c fun x => { x with lookups := x.lookups + 1 }
    match g.findCached c page with
    | some e =>
      let hit := searched.count c fun x => { x with cacheHits := x.cacheHits + 1 }
      if permits e.readable e.writable r.kind then
        .stays (hit.setHead s (.ready (physicalAddress e.frame r.address) (g.mappedStamp s c)))
      else .refused hit (mappedFault (deniedKind r.kind) s c r none)
    | none => .stays (searched.handleMiss s c page)

/-- The check of a head that enters TRANSLATING, against its stream's binding as it now stands (R56). -/
def Gate.checkHead (g : Gate) (s : StreamId) (r : Request) : HeadOutcome :=
  match (g.stream s).mode with
  | .blocked => .refused g (blockedFault s r)
  | .direct =>
    .stays (g.setHead s (.ready r.address { generation := (g.stream s).generation, mapped := none }))
  | .mapped c => g.lookup s c r

/-! ### Leaving the queue, and the next head -/

/-- The request at the head leaves its stream queue, of which `rest` remains, and its REQUEST credit is freed (R52). -/
def Gate.leaveQueue (g : Gate) (s : StreamId) (rest : List Request) : Gate :=
  (g.modStream s fun x => { x with queue := rest, head := none, slot := none }).freeCredit (.branch (branchOf s)) .request

/-- The head `r` of stream `s` is refused (R62): DENIED in its slot, or a push dropped; the fault offered; the request gone
from its queue; the branch's refused counter. The next head has not begun yet. -/
def Gate.refuseHead (g : Gate) (s : StreamId) (r : Request) (rest : List Request) (f : FaultReport) : Gate :=
  let answered := if r.kind = .push then g else g.placeAnswerIn s (g.stream s).slot r.tag .denied []
  ((answered.offerFault f).leaveQueue s rest).countBranch (branchOf s) fun x => { x with refused := x.refused + 1 }

/-- What becomes of a request when it becomes head: it waits for an answer slot, or it goes on to TRANSLATING (R54). -/
inductive Admission where
  | waits (g : Gate)
  | admitted (g : Gate)

/-- A new head takes its slot if it expects an answer (R54): a PUSH takes none; a COMMIT or FETCH reserves a free slot if
the branch's slot-wait list is empty and there is one, and joins that list's tail otherwise. -/
def Gate.admitHead (g : Gate) (s : StreamId) (r : Request) : Admission :=
  let b := branchOf s
  if r.kind = .push then .admitted (g.setHead s .translating)
  else
    match (g.branch b).slotWait, g.freeSlot b with
    | [], some k => .admitted ((g.reserve s r.tag k).setHead s .translating)
    | _, _ => .waits ((g.modBranch b fun y => { y with slotWait := y.slotWait ++ [s] }).setHead s .waitSlot)

/-- The first request of `queue`, which is what stream `s` now holds, becomes head and begins (R52, R54). Each request
that is refused leaves, and the next one begins in its turn. -/
def Gate.startHeads (s : StreamId) : (queue : List Request) → Gate → Gate
  | [], g => g
  | r :: rest, g =>
    match g.admitHead s r with
    | .waits g' => g'
    | .admitted g' =>
      match g'.checkHead s r with
      | .stays g'' => g''
      | .refused g'' f => Gate.startHeads s rest (g''.refuseHead s r rest f)

/-- The head of stream `s` is refused, and the stream's next request begins (R62, R52). -/
def Gate.refuseAndGoOn (g : Gate) (s : StreamId) (f : FaultReport) : Gate :=
  match (g.stream s).queue with
  | [] => g
  | r :: rest => Gate.startHeads s rest (g.refuseHead s r rest f)

/-- The head of stream `s` enters TRANSLATING again and is checked at once under the binding in force (R53, R56). -/
def Gate.recheckHead (g : Gate) (s : StreamId) : Gate :=
  match (g.stream s).queue with
  | [] => g
  | r :: _ =>
    match (g.setHead s .translating).checkHead s r with
    | .stays g' => g'
    | .refused g' f => g'.refuseAndGoOn s f

/-- An answer slot of branch `b` has become free: the oldest head on the branch's slot-wait list, if any, reserves it and
enters TRANSLATING (R55). -/
def Gate.serveSlotWait (g : Gate) (b : BranchNo) (k : SlotNo) : Gate :=
  match (g.branch b).slotWait with
  | [] => g
  | s :: waiting =>
    let served := g.modBranch b fun y => { y with slotWait := waiting }
    match (g.stream s).queue with
    | [] => served
    | r :: _ => (served.reserve s r.tag k).recheckHead s

/-! ### The walk waiting list (R33, R34) -/

/-- Whether some walk slot is FREE. -/
def Gate.someWalkFree (g : Gate) : Bool := (lowest g.walks (· == .free)).isSome

/-- Serve the heads `waiting`, which are the walk waiting list, oldest first, while some slot is FREE. A head that joins the
list meanwhile finds no slot FREE, and serving has stopped by then (R34). -/
def Gate.serveHeads : (waiting : List StreamId) → Gate → Gate
  | [], g => g
  | s :: rest, g =>
    if g.someWalkFree then Gate.serveHeads rest ({ g with walkWaiting := g.walkWaiting.tail }.recheckHead s) else g

/-- A walk slot has become FREE: serve the walk waiting list (R34). -/
def Gate.serveWaiting (g : Gate) : Gate := Gate.serveHeads g.walkWaiting g

end Sys2Proof.Machine
end

