-- ==== Sys2Proof/Machine/Walks.lean ====
section
/-! DEFINITION. Walk slots: installation (R25), the end of a walk (R35 to R39, R41), answers to a walk tag (R35, R40), and
WALK_EXPIRY and WALK_QUARANTINE_END. -/

namespace Sys2Proof.Machine

/-- What a walk ended with: a map entry that is current (R36), a stale result (R37), or a failure with its status, TIMEOUT
for an expiry (R38, R39). -/
inductive WalkResult where
  | current (entry : MapEntry)
  | stale
  | failed (status : AnswerStatus)
  deriving DecidableEq, Repr

/-- Whether a map entry may be kept in the cache (R15, R25, R36). -/
def MapEntry.installs (e : MapEntry) : Bool := e.valid && e.reservedZero && e.retain

/-- Add a translation to the cache: not where the context and page are there already; with 128 entries there the oldest
goes (R25). -/
def Gate.install (g : Gate) (c : ContextNo) (page : Nat) (e : MapEntry) : Gate :=
  if (g.findCached c page).isSome then g
  else
    { g with
      cache := (if Config.cacheEntries ≤ g.cache.length then g.cache.tail else g.cache) ++
        [{ context := c, page := page, frame := e.frame, readable := e.readable, writable := e.writable }] }

/-- The outcome of a current map entry for a request: the kind of its refusal, or none where it is allowed; the first check
that fails settles it (R15, R36). -/
def MapEntry.refusal (e : MapEntry) (kind : RequestKind) : Option FaultKind :=
  if !e.valid then some .notPresent
  else if !e.reservedZero then some .badEntry
  else if !permits e.readable e.writable kind then some (deniedKind kind)
  else none

/-- What the end of a walk of context `c` does to one waiter whose recorded generation still matches (R36, R38, R39). -/
def Gate.settleMatching (g : Gate) (c : ContextNo) (result : WalkResult) (s : StreamId) : Gate :=
  match (g.stream s).queue with
  | [] => g
  | r :: _ =>
    match result with
    | .stale => g
    | .failed status => g.refuseAndGoOn s (mappedFault .mapReadError s c r (some status))
    | .current e =>
      match e.refusal r.kind with
      | some kind => g.refuseAndGoOn s (mappedFault kind s c r none)
      | none => g.setHead s (.ready (physicalAddress e.frame r.address) (g.mappedStamp s c))

/-- Whether the end of a walk returns the waiter to TRANSLATING: its generation no longer matches (R35), or the result is
stale (R37). -/
def Gate.returnsWaiter (g : Gate) (result : WalkResult) (w : Waiter) : Bool :=
  (g.stream w.stream).generation != w.generation || result == .stale

/-- The waiters in joining order, each settled or marked for return to TRANSLATING; the streams marked (R41, step 2). -/
def Gate.settleWaiters (c : ContextNo) (result : WalkResult) : List Waiter → Gate → Gate × List StreamId
  | [], g => (g, [])
  | w :: ws, g =>
    if g.returnsWaiter result w then
      let settled := Gate.settleWaiters c result ws (g.setHead w.stream .translating)
      (settled.1, w.stream :: settled.2)
    else Gate.settleWaiters c result ws (g.settleMatching c result w.stream)

/-- Look up the heads that were marked for return, in joining order (R41, step 6). -/
def Gate.recheckAll : List StreamId → Gate → Gate
  | [], g => g
  | s :: rest, g => Gate.recheckAll rest (g.recheckHead s)

/-- Step 1 of R41: the installation decision. -/
def Gate.installResult (g : Gate) (walk : Walk) (result : WalkResult) : Gate :=
  match result with
  | .current e => if e.installs then g.install walk.context walk.page e else g
  | .stale => g
  | .failed _ => g

/-- Steps 1 and 2 of R41, with the slot held QUARANTINED meanwhile: the walk has ended, so a head that comes up behind a
refused waiter does not join it (R23), and the slot is not FREE before step 3 (log entry 6). -/
def Gate.settleWalk (g : Gate) (i : WalkNo) (walk : Walk) (result : WalkResult) : Gate × List StreamId :=
  Gate.settleWaiters walk.context result walk.waiters
    ((g.installResult walk result).setWalk i (.quarantined g.exponent))

/-- The end of a walk by answer, in the six steps of R41. -/
def Gate.endWalk (g : Gate) (i : WalkNo) (walk : Walk) (result : WalkResult) : Gate :=
  let settled := g.settleWalk i walk result
  Gate.recheckAll settled.2 (((settled.1.setWalk i .free).judgeDrain walk.context).serveWaiting)

/-- The end of a walk by expiry: steps 2 and 4 of R41, the slot QUARANTINED with the T now in force, and the returned
heads looked up at the end (R39, R41). -/
def Gate.expireWalk (g : Gate) (i : WalkNo) (walk : Walk) : Gate :=
  let settled := g.settleWalk i walk (.failed .timeout)
  Gate.recheckAll settled.2 (settled.1.judgeDrain walk.context)

/-- A stray answer is counted and has no other effect (R85, R40). -/
def Gate.countStray (g : Gate) : Gate := g.countGate fun c => { c with strayAnswers := c.strayAnswers + 1 }

/-- A late answer is counted (R84, R40). -/
def Gate.countLate (g : Gate) : Gate := g.countGate fun c => { c with lateAnswers := c.lateAnswers + 1 }

/-- A malformed packet on the trunk is counted (R138, R80, R35). -/
def Gate.countTrunkMalformed (g : Gate) : Gate :=
  g.countGate fun c => { c with trunkMalformed := c.trunkMalformed + 1 }

/-- What the answer to a walk ends it with, where it fits the walk: DONE with 8 bytes is current or stale by the epoch and
the state of the context; DONE with other than 8 bytes is malformed; any other status is a failure (R35). -/
def Gate.walkResult (g : Gate) (walk : Walk) (a : Answer) : Option WalkResult :=
  if a.status = .done then
    if a.payload.length ≠ 8 then none
    else if walk.epoch = (g.context walk.context).epoch ∧ (g.context walk.context).state = .active then
      some (.current (readMapEntry a.payload))
    else some .stale
  else some (.failed a.status)

/-- An answer to tag 252 + `i` is taken (R80, R35, R40). -/
def Gate.takeWalkAnswer (g : Gate) (i : WalkNo) (a : Answer) : Gate :=
  match g.walk i with
  | .free => g.countStray
  | .quarantined _ => ((g.setWalk i .free).countLate).serveWaiting
  | .walking walk =>
    if walk.sent.isNone then g.countStray
    else
      match g.walkResult walk a with
      | none => g.countTrunkMalformed
      | some result => g.endWalk i walk result

/-- WALK_EXPIRY (R39): the answer timer of a WALKING slot expires. A slot without a running answer timer has none to expire
(log entry 5). -/
def execWalkExpiry (i : WalkNo) (s : State) : Host.Outcome State Fault Refusal :=
  s.act fun g =>
    match g.walk i with
    | .walking walk => if walk.sent.isSome then g.expireWalk i walk else g
    | _ => g

/-- WALK_QUARANTINE_END (R40): the quarantine of a QUARANTINED slot runs out; the slot becomes FREE and the walk waiting
list is served. -/
def execWalkQuarantineEnd (i : WalkNo) (s : State) : Host.Outcome State Fault Refusal :=
  s.act fun g =>
    match g.walk i with
    | .quarantined _ => (g.setWalk i .free).serveWaiting
    | _ => g

end Sys2Proof.Machine
end

