-- ==== Sys2Proof/Machine/Outstanding.lean ====
section
/-! DEFINITION. The outstanding table (04): answers to request tags (R80, R81, R84, R85), expiry (R82), quarantine (R84),
orphans (R77), and ENTRY_EXPIRY and QUARANTINE_END. -/

namespace Sys2Proof.Machine

/-- An answer to a LIVE entry is well-formed when its payload fits the request: exactly the length for a DONE answer to a
FETCH, nothing otherwise (R80). -/
def Answer.fits (a : Answer) (e : LiveEntry) : Bool :=
  a.payload.length == (if a.status = .done ∧ e.kind = .fetch then e.length else 0)

/-- A fault of a departed request: attached when it departed MAPPED (R81, R82, R106). -/
def LiveEntry.fault (e : LiveEntry) (kind : FaultKind) : FaultReport :=
  { kind := kind, stream := some e.stream,
    context := (match e.binding with | .direct => none | .mapped c _ => some c),
    page := some e.page, access := some e.kind, detail := none }

/-- The answer of a LIVE entry is placed, unless the entry is an orphan (R81, R82, R77). -/
def Gate.answerEntry (g : Gate) (e : LiveEntry) (status : AnswerStatus) (payload : List Byte) : Gate :=
  if e.orphan then g else g.placeAnswerIn e.stream e.slot e.tag status payload

/-- Count in the context a MAPPED entry departed under (R18). -/
def Gate.countEntry (g : Gate) (e : LiveEntry) (f : ContextCounters → ContextCounters) : Gate :=
  match e.binding with
  | .direct => g
  | .mapped c _ => g.count c f

/-- The leaving LIVE of a MAPPED entry is reported, and the drain of what is pending for its context is judged (R81, R82). -/
def Gate.reportLeft (g : Gate) (e : LiveEntry) : Gate :=
  match e.binding with
  | .direct => g
  | .mapped c _ => g.judgeDrain c

/-- A CORRUPT answer counts in the context and offers CORRUPT_DATA; other statuses do neither (R81, step 3). -/
def Gate.noteCorrupt (g : Gate) (e : LiveEntry) (status : AnswerStatus) : Gate :=
  if status = .corrupt then
    (g.countEntry e fun c => { c with corruptAnswers := c.corruptAnswers + 1 }).offerFault (e.fault .corruptData)
  else g

/-- A well-formed answer settles a LIVE entry (R81). -/
def Gate.settleEntry (g : Gate) (t : RequestTag) (e : LiveEntry) (a : Answer) : Gate :=
  ((((g.setEntry t .free).answerEntry e a.status a.payload).noteCorrupt e a.status)).reportLeft e

/-- The answer timer of a LIVE entry expires (R82): TIMEOUT is placed, the context and the log are told, the entry becomes
LATE with the T now in force, and its leaving LIVE is reported. -/
def Gate.expireEntry (g : Gate) (t : RequestTag) (e : LiveEntry) : Gate :=
  let answered := g.answerEntry e .timeout []
  let counted := answered.countEntry e fun c => { c with answerTimeouts := c.answerTimeouts + 1 }
  let told := counted.offerFault (e.fault .answerTimeout)
  (told.setEntry t (.late told.exponent)).reportLeft e

/-- An answer to a request tag is taken (R80, R81, R84, R85). -/
def Gate.takeEntryAnswer (g : Gate) (t : RequestTag) (a : Answer) : Gate :=
  match g.entry t with
  | .free => g.countStray
  | .late _ => (g.setEntry t .free).countLate
  | .live e => if a.fits e then g.settleEntry t e a else g.countTrunkMalformed

/-- The outstanding table takes an ANSWER from the trunk (R80): destination first, then the tag. -/
def Gate.takeAnswer (g : Gate) (a : Answer) : Gate :=
  if a.destination ≠ g.gateId then g.countStray
  else if h : a.tag.toNat < 252 then g.takeEntryAnswer ⟨a.tag.toNat, h⟩ a
  else g.takeWalkAnswer ⟨a.tag.toNat - 252, by have := a.tag.isLt; omega⟩ a

/-- Take the answers of the trunk ingress answer buffer, of which the list is what it holds, in arrival order: each leaves the
buffer and frees its ANSWER credit as it is taken (R80, R135). -/
def Gate.takeAnswers : (buffer : List Answer) → Gate → Gate
  | [], g => g
  | a :: rest, g =>
    Gate.takeAnswers rest
      (((g.modTrunk fun t => { t with ingressAnswers := rest }).freeCredit .trunk .answer).takeAnswer a)

/-- Every LIVE entry of the branch's streams is marked orphan (R77). -/
def Gate.markOrphans (g : Gate) (b : BranchNo) : Gate :=
  { g with
    entries := g.entries.map fun
      | .live e => if branchOf e.stream = b then .live { e with orphan := true } else .live e
      | x => x }

/-- ENTRY_EXPIRY (R82): the answer timer of a LIVE entry expires. An entry that is not LIVE has no answer timer (R83; log
entry 5). -/
def execEntryExpiry (t : RequestTag) (s : State) : Host.Outcome State Fault Refusal :=
  s.act fun g =>
    match g.entry t with
    | .live e => g.expireEntry t e
    | _ => g

/-- QUARANTINE_END (R84): the quarantine of a LATE entry runs out; its tag becomes FREE. -/
def execQuarantineEnd (t : RequestTag) (s : State) : Host.Outcome State Fault Refusal :=
  s.act fun g =>
    match g.entry t with
    | .late _ => g.setEntry t .free
    | _ => g

end Sys2Proof.Machine
end

