-- ==== Sys2Proof/Machine/Departure.lean ====
section
/-! DEFINITION. The departure arbiter (R67 to R72), the trunk transmitter (R73), the branch transmitters (R61, R121), and the
five commands that transmit class packets. -/

namespace Sys2Proof.Machine

/-! ### Candidates -/

/-- A candidate position of the arbiter (R67): positions 0 to 63 are the streams, 64 to 67 the walk slots. -/
inductive Position where
  | stream (s : StreamId)
  | walk (i : WalkNo)
  deriving DecidableEq, Repr

def positionOf (n : Fin 68) : Position :=
  if h : n.val < 64 then .stream ⟨n.val, h⟩ else .walk ⟨n.val - 64, by omega⟩

/-- The lowest-numbered FREE request tag (R71). -/
def Gate.freeTag (g : Gate) : Option RequestTag := lowest g.entries (· == .free)

/-- Whether the stream is a candidate: its head is READY, and is a PUSH or finds a request tag FREE (R67). -/
def Gate.streamIsCandidate (g : Gate) (s : StreamId) : Bool :=
  match (g.stream s).head, (g.stream s).queue with
  | some (.ready _ _), r :: _ => r.kind == .push || g.freeTag.isSome
  | _, _ => false

/-- Whether the walk slot is a candidate: WALKING with its FETCH unsent (R67). -/
def Gate.walkIsCandidate (g : Gate) (i : WalkNo) : Bool :=
  match g.walk i with
  | .walking w => w.sent.isNone
  | _ => false

def Gate.isCandidate (g : Gate) (n : Fin 68) : Bool :=
  match positionOf n with
  | .stream s => g.streamIsCandidate s
  | .walk i => g.walkIsCandidate i

/-- The positions in rising order from the one after the last position granted, round to that position itself (R68). -/
def roundRobin (last : Fin 68) : List (Fin 68) := (List.finRange 68).map fun i => last + 1 + i

/-- The next candidate in round-robin order, but for the positions in `sentBack`, whose heads were sent back in this turn
(R68, R69). -/
def Gate.nextCandidate (g : Gate) (sentBack : List (Fin 68)) : Option (Fin 68) :=
  (roundRobin g.lastGranted).find? fun n => g.isCandidate n && !sentBack.contains n

/-! ### Departure -/

/-- The trunk transmitter sends a packet of a class: one held credit is used, the packet is on the trunk, and the rotation
goes on from this class (R72, R73, R134). -/
def Gate.sendTrunk (g : Gate) (c : PacketClass) (bytes : List Byte) : Gate :=
  (g.emit .trunk (.packet bytes)).modTrunk fun t =>
    { t with link := t.link.useHeld c, lastClass := c, requestPassed := false }

/-- Whether a stamp is current for stream `s`: its generation is the binding's, and for a MAPPED stamp its epoch is that of
the context it names (R70). -/
def Gate.stampIsCurrent (g : Gate) (s : StreamId) (stamp : Stamp) : Bool :=
  stamp.generation == (g.stream s).generation &&
    match stamp.mapped with
    | none => true
    | some (c, epoch) => epoch == (g.context c).epoch

/-- The binding a stamp stands for, as a request entry keeps it (R71, R76). -/
def Stamp.binding (stamp : Stamp) : EntryBinding :=
  match stamp.mapped with
  | none => .direct
  | some (c, epoch) => .mapped c epoch

/-- The LIVE entry of a departing COMMIT or FETCH of stream `s`, with the generation, context and epoch of its stamp (R71)
and the exponent of T now in force (R76, R78). -/
def Gate.liveEntryOf (g : Gate) (s : StreamId) (r : Request) (stamp : Stamp) : LiveEntry :=
  { stream := s, tag := r.tag, kind := r.kind, length := r.length, page := pageOf r.address, slot := (g.stream s).slot,
    generation := stamp.generation, binding := stamp.binding, orphan := false, timer := g.exponent }

/-- The head `r` of stream `s`, of whose queue `rest` remains, is transmitted with its translated address under GATE_ID and
this tag, leaves its queue, and is counted; then the next request begins (R72, R52). -/
def Gate.departWith (g : Gate) (s : StreamId) (r : Request) (rest : List Request) (address : Addr) (tag : Byte) : Gate :=
  Gate.startHeads s rest
    (((g.sendTrunk .request (requestBytes r.kind g.gateId tag address r.length r.payload)).leaveQueue s rest).countBranch
      (branchOf s) fun x => { x with departed := x.departed + 1 })

/-- A READY head whose stamp is current departs: a COMMIT or FETCH takes the lowest FREE tag, whose entry becomes LIVE; a
PUSH takes none (R71, R72). -/
def Gate.departHead (g : Gate) (s : StreamId) (r : Request) (rest : List Request) (address : Addr) (stamp : Stamp) : Gate :=
  if r.kind = .push then g.departWith s r rest address 0
  else
    match g.freeTag with
    | some t =>
      (g.setEntry t (.live (g.liveEntryOf s r stamp))).departWith s r rest address (BitVec.ofNat 8 t.val)
    | none => g

/-- A granted walk slot transmits its FETCH of 8 bytes with tag 252 plus its number, and its timer starts (R31, R72). -/
def Gate.departWalk (g : Gate) (i : WalkNo) : Gate :=
  match g.walk i with
  | .walking w =>
    (g.sendTrunk .request
      (requestBytes .fetch g.gateId (BitVec.ofNat 8 (252 + i.val)) w.entryAddress 8 [])).setWalk i
      (.walking { w with sent := some g.exponent })
  | _ => g

/-- What a grant ends in (R69): the turn ends with a departure, or the head was sent back and the turn goes on. -/
inductive Grant where
  | departed (g : Gate)
  | sentBack (g : Gate)

/-- Grant a position: it becomes the last position granted (R68); a head's stamp is checked, and it departs or returns to
TRANSLATING (R70); a walk slot departs (R31). -/
def Gate.grant (g : Gate) (n : Fin 68) : Grant :=
  let granted := { g with lastGranted := n }
  match positionOf n with
  | .walk i => .departed (granted.departWalk i)
  | .stream s =>
    match (g.stream s).head, (g.stream s).queue with
    | some (.ready address stamp), r :: rest =>
      if g.stampIsCurrent s stamp then .departed (granted.departHead s r rest address stamp)
      else .sentBack (granted.recheckHead s)
    | _, _ => .sentBack granted

/-- The length of the stream queue at a position (0 for a walk slot). -/
def Gate.queueLengthAt (g : Gate) (n : Fin 68) : Nat :=
  match positionOf n with
  | .stream s => (g.stream s).queue.length
  | .walk _ => 0

/-- A REQUEST turn (R69): candidates are granted in round-robin order until one departs or none is left; whether one
departed. A head that was sent back is not examined again in the turn; a head that has come up behind one that was refused
is (log entry 21). `fuel` bounds the grants: no head is sent back twice, since a stamp taken in the turn is current in it. -/
def Gate.requestTurn : (fuel : Nat) → (sentBack : List (Fin 68)) → Gate → Gate × Bool
  | 0, _, g => (g, false)
  | fuel + 1, sentBack, g =>
    match g.nextCandidate sentBack with
    | none => (g, false)
    | some n =>
      match g.grant n with
      | .departed g' => (g', true)
      | .sentBack g' =>
        Gate.requestTurn fuel (if g'.queueLengthAt n = g.queueLengthAt n then n :: sentBack else sentBack) g'

/-! ### The trunk transmitter (R73) -/

/-- Whether a class can take its turn: its source has a packet to send (for REQUEST, a candidate exists), a credit of the
class is held, and no CREDIT waits before it (R73, R136). -/
def Gate.classCanSend (g : Gate) (c : PacketClass) : Bool :=
  g.trunk.link.maySend c &&
    match c with
    | .request => (g.nextCandidate []).isSome
    | .answer => !g.trunk.answerQueue.isEmpty
    | .control => !g.management.controlQueue.isEmpty

/-- The classes in the order in which the turn is offered: REQUEST, ANSWER, CONTROL from the one after the class that last
sent; after a REQUEST turn without a departure, from the one after REQUEST (R69, R73; log entry 9). -/
def TrunkPort.turnOrder (t : TrunkPort) : List PacketClass :=
  if t.requestPassed then [.answer, .control, .request]
  else
    match t.lastClass with
    | .control => [.request, .answer, .control]
    | .request => [.answer, .control, .request]
    | .answer => [.control, .request, .answer]

/-- The class whose turn it is: the first in order that can take it (R73). -/
def Gate.trunkTurn (g : Gate) : Option PacketClass := g.trunk.turnOrder.find? g.classCanSend

/-- A REQUEST turn that ends without a departure is passed over, and the turn is offered to the next class that can take
it (R69, R73). -/
def Gate.passRequest (g : Gate) : Gate :=
  g.modTrunk fun t => { t with requestPassed := g.classCanSend .answer || g.classCanSend .control }

/-- DEPARTURE_GRANT (R69): at a REQUEST turn the arbiter grants candidates until one departs or all examined have stale
stamps. When it is not REQUEST's turn, nothing is granted (log entry 5). -/
def execDepartureGrant (s : State) : Host.Outcome State Fault Refusal :=
  s.act fun g =>
    if g.trunkTurn = some .request then
      let turn := Gate.requestTurn 69 [] g
      if turn.2 then turn.1 else turn.1.passRequest
    else g

/-- TRUNK_ANSWER_TRANSMIT (R73): at the ANSWER class's turn, the packet at the front of the trunk answer transmit queue is
sent. -/
def execTrunkAnswerTransmit (s : State) : Host.Outcome State Fault Refusal :=
  s.act fun g =>
    match g.trunk.answerQueue with
    | [] => g
    | a :: rest =>
      if g.trunkTurn = some .answer then
        (g.sendTrunk .answer (answerBytes a.destination a.tag a.status a.payload)).modTrunk fun t =>
          { t with answerQueue := rest }
      else g

/-- CONTROL_TRANSMIT (R73, R149): at the CONTROL class's turn, the packet at the front of the control transmit queue is
sent; a BRANCH notice reads its link state now. -/
def execControlTransmit (s : State) : Host.Outcome State Fault Refusal :=
  s.act fun g =>
    match g.management.controlQueue with
    | [] => g
    | p :: rest =>
      if g.trunkTurn = some .control then
        (g.sendTrunk .control (controlOutBytes (fun b => (g.branch b).link.state) p)).modManagement fun m =>
          { m with controlQueue := rest }
      else g

/-! ### The branch transmitters (R61) -/

/-- Whether a queue of a branch can take its turn: it holds a packet, and a credit of its class is held (R61, R136). -/
def Branch.canSend (x : Branch) : BranchQueue → Bool
  | .answers => x.link.maySend .answer && !x.egressAnswers.isEmpty
  | .requests => x.link.maySend .request && !x.egressRequests.isEmpty

/-- The queues of a branch in the order in which the turn is offered: first the one that did not send the last packet (R61). -/
def Branch.turnOrder (x : Branch) : List BranchQueue :=
  match x.lastSent with
  | .requests => [.answers, .requests]
  | .answers => [.requests, .answers]

/-- The queue whose turn it is: the first in order that can take it (R61). -/
def Branch.turn (x : Branch) : Option BranchQueue := x.turnOrder.find? x.canSend

/-- A branch transmitter sends a packet of a class from a queue. -/
def Gate.sendBranch (g : Gate) (b : BranchNo) (c : PacketClass) (q : BranchQueue) (bytes : List Byte) : Gate :=
  (g.emit (.branch b) (.packet bytes)).modBranch b fun x => { x with link := x.link.useHeld c, lastSent := q }

/-- BRANCH_ANSWER_TRANSMIT (R61): the answer at the front of the answer egress queue is sent when it is that queue's turn;
its slot becomes free, the slot-wait list is served once (R55), and answers sent is counted (R63). -/
def execBranchAnswerTransmit (b : BranchNo) (s : State) : Host.Outcome State Fault Refusal :=
  s.act fun g =>
    match (g.branch b).egressAnswers with
    | [] => g
    | a :: rest =>
      if (g.branch b).turn = some .answers then
        ((((g.sendBranch b .answer .answers
          (answerBytes (BitVec.ofNat 8 a.stream.val) a.tag a.status a.payload)).modBranch b fun x =>
            { x with egressAnswers := rest }).setSlot b a.slot .free).countBranch b fun x =>
              { x with answersSent := x.answersSent + 1 }).serveSlotWait b a.slot
      else g

/-- BRANCH_REQUEST_TRANSMIT (R121): the host request at the front of the request egress queue is sent when it is that
queue's turn, and a held host request is offered again (R120). -/
def execBranchRequestTransmit (b : BranchNo) (s : State) : Host.Outcome State Fault Refusal :=
  s.act fun g =>
    match (g.branch b).egressRequests with
    | [] => g
    | r :: rest =>
      if (g.branch b).turn = some .requests then
        ((g.sendBranch b .request .requests
          (requestBytes r.kind r.origin r.tag r.address r.length r.payload)).modBranch b fun x =>
            { x with egressRequests := rest }).offerHeldAgain
      else g

end Sys2Proof.Machine
end

