-- ==== Sys2Proof/Machine/GateCommands.lean ====
section
/-! DEFINITION. The commands of the management unit (R145, R146, R151), of the outstanding table (R79) and of the fault log
(R107, R113). -/

namespace Sys2Proof.Machine

/-- CLAIM past its checks: there is no manager, or the sender is it already; the sender is the manager (R145). -/
def Gate.runClaim (p : ControlPacket) (g : Gate) : Gate :=
  (g.modManagement fun m => { m with manager := some p.source }).answerDone p []

/-- RELEASE past its checks: no manager, every owed flag cleared (R146, R148). -/
def Gate.runRelease (p : ControlPacket) (g : Gate) : Gate :=
  (g.modManagement fun m =>
    { m with manager := none, faultsOwed := false, branchOwed := Vector.replicate 4 false }).answerDone p []

def resetCauseCode : ResetCause → Byte
  | .power => 0
  | .trunk => 1

/-- The 16 result bytes of IDENTIFY (R151, 10.3). -/
def Gate.identifyResults (g : Gate) : List Byte :=
  [BitVec.ofNat 8 Config.vendorCode, BitVec.ofNat 8 Config.revision] ++ bytesOfNat 2 Config.partCode ++
  [resetCauseCode g.management.resetCause, g.gateId, boolByte g.management.manager.isSome,
   g.management.manager.getD 0, 64, 16, BitVec.ofNat 8 Config.cacheEntries, 4, 252, 8,
   BitVec.ofNat 8 Config.logRecords, 0]

def Gate.runIdentify (p : ControlPacket) (g : Gate) : Gate := g.answerDone p g.identifyResults

def counterBytes (c : Counter) : List Byte := bytesOfNat 4 c.toNat

/-- The 24 result bytes of GATE-READ (R151, 10.3). -/
def Gate.gateReadResults (g : Gate) : List Byte :=
  let c := g.management.counters
  counterBytes c.trunkMalformed ++ counterBytes c.strayAnswers ++ counterBytes c.lateAnswers ++
  counterBytes c.misdirected ++ counterBytes c.hostRefused ++ counterBytes c.lostFaults

def Gate.runGateRead (p : ControlPacket) (g : Gate) : Gate := g.answerDone p g.gateReadResults

/-- TIMEOUT-SET (R79): k at most 11; the new exponent is in force, and the reply carries the one before. -/
def Gate.runTimeoutSet (p : ControlPacket) (g : Gate) : Gate :=
  match operandBelow 12 p.operands 0 with
  | none => g.refuse p .badArgument
  | some k => { g with exponent := k }.answerDone p [BitVec.ofNat 8 g.exponent.val, 0, 0, 0]

/-- FAULTS-TAKE (R113): 1 to 8 records from the front; the reply carries them and the number still in the log. -/
def Gate.runFaultsTake (p : ControlPacket) (g : Gate) : Gate :=
  let n := operandField p.operands 0 1
  if n < 1 ∨ Config.maxTake < n then g.refuse p .badArgument
  else
    let taken := g.log.records.take n
    (g.takeRecords n).answerDone p
      ([BitVec.ofNat 8 taken.length, BitVec.ofNat 8 (g.log.records.drop n).length, 0, 0] ++
        taken.flatMap faultRecordBytes)

/-- FAULTS-POLICY (R107): off or on; the reply carries the policy before. -/
def Gate.runFaultsPolicy (p : ControlPacket) (g : Gate) : Gate :=
  match operandFlag p.operands 0 with
  | none => g.refuse p .badArgument
  | some policy =>
    { g with log := { g.log with policy := policy } }.answerDone p [boolByte g.log.policy, 0, 0, 0]

/-! ### The commands -/

/-- CLAIM (R145). -/
def execClaim (s : State) : Host.Outcome State Fault Refusal := s.act (Gate.takeCommand .claim Gate.runClaim)

/-- RELEASE (R146). -/
def execRelease (s : State) : Host.Outcome State Fault Refusal := s.act (Gate.takeCommand .release Gate.runRelease)

/-- IDENTIFY (R151). -/
def execIdentify (s : State) : Host.Outcome State Fault Refusal := s.act (Gate.takeCommand .identify Gate.runIdentify)

/-- GATE-READ (R151). -/
def execGateRead (s : State) : Host.Outcome State Fault Refusal := s.act (Gate.takeCommand .gateRead Gate.runGateRead)

/-- TIMEOUT-SET (R79). -/
def execTimeoutSet (s : State) : Host.Outcome State Fault Refusal :=
  s.act (Gate.takeCommand .timeoutSet Gate.runTimeoutSet)

/-- FAULTS-TAKE (R113). -/
def execFaultsTake (s : State) : Host.Outcome State Fault Refusal :=
  s.act (Gate.takeCommand .faultsTake Gate.runFaultsTake)

/-- FAULTS-POLICY (R107). -/
def execFaultsPolicy (s : State) : Host.Outcome State Fault Refusal :=
  s.act (Gate.takeCommand .faultsPolicy Gate.runFaultsPolicy)

end Sys2Proof.Machine
end

