-- ==== Sys2Proof/Machine/Links.lean ====
section
/-! DEFINITION. Links (08): a branch going DOWN (R64, R131), training and INIT (R129), loss and restart (R130, R132), whole-gate
resets (R133), credits (R134, R135), malformed packets (R138), the joining of class packets to their buffers (R135), and
the commands of links and arrivals. -/

namespace Sys2Proof.Machine

/-! ### A branch going DOWN -/

/-- The record of a branch link that goes DOWN: held and granted credits 0, freed credits the full capacity, partner INIT
no, reset owed kept (R131). -/
def LinkRecord.branchDown (r : LinkRecord) : LinkRecord :=
  { r with
    state := .down, partnerInit := false, held := ⟨0, 0, 0⟩, granted := ⟨0, 0, 0⟩, freed := branchCapacity,
    creditOrder := [] }

/-- A branch port after its branch went DOWN: queues, buffers, slots and the slot-wait list are emptied, the answer egress
queue is offered the first turn, the counters are kept but for link downs (R64, R61, R125, R131). -/
def Branch.clear (x : Branch) : Branch :=
  { x with
    link := x.link.branchDown, slots := Vector.replicate 64 .free, egressAnswers := [], slotWait := [],
    lastSent := .requests, egressRequests := [], ingressAnswers := [],
    counters := { x.counters with linkDowns := x.counters.linkDowns + 1 } }

/-- A stream of a branch that went DOWN: its queue is emptied, its binding kept (R46, R64). -/
def Stream.clear (x : Stream) : Stream := { x with queue := [], head := none, slot := none }

/-- Empty the stream queues of a branch (R64, step 1). -/
def Gate.clearStreams (g : Gate) (b : BranchNo) : Gate :=
  { g with streams := g.streams.mapFinIdx fun i x h => if branchOf ⟨i, h⟩ = b then x.clear else x }

/-- A walk without the waiters of a branch (R43). -/
def WalkSlot.dropWaiters (x : WalkSlot) (b : BranchNo) : WalkSlot :=
  match x with
  | .walking w => .walking { w with waiters := w.waiters.filter fun y => branchOf y.stream != b }
  | y => y

/-- Remove a branch's heads from the waiters of every walk slot and from the walk waiting list (R43). -/
def Gate.dropHeads (g : Gate) (b : BranchNo) : Gate :=
  { g with
    walks := g.walks.map fun x => x.dropWaiters b
    walkWaiting := g.walkWaiting.filter fun s => branchOf s != b }

/-- A branch goes DOWN from TRAINING or UP (R64, R131): its streams, heads, slots, queues and buffers are cleared, its LIVE
entries become orphans, its link record is set, link downs is counted, a BRANCH notice is asked for (R141), and a held
host request is offered again (R125). -/
def Gate.branchDown (g : Gate) (b : BranchNo) : Gate :=
  (((((g.clearStreams b).dropHeads b).modBranch b Branch.clear).markOrphans b).oweBranch b).offerHeldAgain

/-! ### Training -/

/-- The record of a link that enters TRAINING, with the INIT sent: granted credits are what was freed, freed credits 0,
partner INIT no, reset owed no (R129). -/
def LinkRecord.train (r : LinkRecord) : LinkRecord :=
  { r with
    state := .training, partnerInit := false, granted := r.freed, freed := ⟨0, 0, 0⟩, creditOrder := [],
    resetOwed := false }

/-- When the state of a branch link changes, a held host request is offered again (R120). The trunk's state is not one that
matching reads. -/
def Gate.linkChanged (g : Gate) : LinkId → Gate
  | .trunk => g
  | .branch _ => g.offerHeldAgain

/-- A link enters TRAINING: the gate sends one INIT with its freed credits, and on a branch with the reset flag if reset is
owed (R129). -/
def Gate.enterTraining (g : Gate) (l : LinkId) : Gate :=
  let flag := match l with | .trunk => false | .branch _ => (g.link l).resetOwed
  ((g.emit l (.packet (initBytes flag (g.link l).freed))).modLink l LinkRecord.train).linkChanged l

/-- The record of a TRAINING link that takes the partner's INIT: held credits are its figures, and the link is UP (R129). -/
def LinkRecord.goUp (r : LinkRecord) (figures : Credits) : LinkRecord :=
  { r with state := .up, partnerInit := true, held := figures }

/-- A branch that becomes UP asks for a BRANCH notice (R141). -/
def Gate.noteUp (g : Gate) : LinkId → Gate
  | .trunk => g
  | .branch b => g.oweBranch b

/-- A TRAINING link takes the partner's INIT and becomes UP (R129). -/
def Gate.takeInit (g : Gate) (l : LinkId) (figures : Credits) : Gate :=
  ((g.modLink l (·.goUp figures)).noteUp l).linkChanged l

/-- The record of the trunk link that goes DOWN by physical loss: held credits are lost, granted credits move to freed,
partner INIT no (R130). -/
def LinkRecord.trunkDown (r : LinkRecord) : LinkRecord :=
  { r with
    state := .down, partnerInit := false, held := ⟨0, 0, 0⟩, granted := ⟨0, 0, 0⟩, freed := r.freed.add r.granted,
    creditOrder := [] }

/-- A link goes DOWN with every effect of a physical loss (R130, R131). -/
def Gate.linkDown (g : Gate) : LinkId → Gate
  | .trunk => g.modLink .trunk LinkRecord.trunkDown
  | .branch b => g.branchDown b

/-- The restart of an UP link: DOWN, TRAINING with the gate's INIT, and UP with the partner's (R132). -/
def Gate.restart (g : Gate) (l : LinkId) (figures : Credits) : Gate := ((g.linkDown l).enterTraining l).takeInit l figures

/-! ### Whole-gate resets (R133) -/

/-- Drop the physical link of every branch and raise it again. -/
def Gate.dropBranchLinks (g : Gate) : Gate :=
  { g with sent := g.sent ++ (List.finRange 4).map fun b => ⟨.branch b, .linkDrop⟩ }

/-- The trunk link record after a trunk reset: the gate's INIT has granted 16, 32 and 4, the resetting INIT is the partner's,
and the link is UP. -/
def trunkAfterReset (figures : Credits) : LinkRecord := (LinkRecord.reset trunkCapacity).train.goUp figures

/-- A trunk reset: every block is reset as at power-on with cause TRUNK and GATE_ID kept; every branch's physical link is
dropped; the gate sends its INIT; the trunk is UP. -/
def Gate.trunkReset (g : Gate) (figures : Credits) : Gate :=
  (({ Gate.reset g.gateId .trunk with sent := g.sent }.dropBranchLinks).emit .trunk
    (.packet (initBytes false trunkCapacity))).modTrunk fun t => { t with link := trunkAfterReset figures }

/-! ### Malformed packets (R138) -/

/-- A malformed class packet that spent a credit: it is lowered from granted and added to freed. Where none was granted, or
the link does not have the class (its granted figure is 0 always), nothing is returned. -/
def LinkRecord.returnSpent (r : LinkRecord) (c : PacketClass) : LinkRecord :=
  if 0 < r.granted.get c then (r.useGranted c).free c else r

/-- A malformed packet is discarded: counted, its spent credit returned where it is of a class, and on a branch a MALFORMED
fault offered with the stream where it could be read (R138). -/
def Gate.discardMalformed (g : Gate) (l : LinkId) (cls : Option PacketClass) (stream : Option StreamId) : Gate :=
  let returned := match cls with | some c => g.modLink l (·.returnSpent c) | none => g
  match l with
  | .trunk => returned.countTrunkMalformed
  | .branch b =>
    (returned.countBranch b fun x => { x with malformed := x.malformed + 1 }).offerFault (malformedFault stream)

/-- A class packet arrives. On a DOWN link none arrives (log entry 15). It joins its buffer by `join`, with one granted
credit used, where it reads as well-formed, the partner's INIT has been received and a credit was granted (R135); else it is
malformed (R137). -/
def Gate.arrive {α : Type} (g : Gate) (l : LinkId) (c : PacketClass) (packet : Option α) (stream : Option StreamId)
    (join : α → Gate → Gate) : Gate :=
  if (g.link l).state = .down then g
  else
    match packet with
    | some p =>
      if (g.link l).partnerInit ∧ 0 < (g.link l).granted.get c then join p (g.modLink l (·.useGranted c))
      else g.discardMalformed l (some c) stream
    | none => g.discardMalformed l (some c) stream

/-! ### Packets that arrive, by kind -/

/-- INIT (R129, R132, R133): malformed, trunk reset, restart of an UP link, or the end of TRAINING. -/
def Gate.receiveInit (g : Gate) (l : LinkId) (body : List Byte) : Gate :=
  if (g.link l).state = .down then g
  else
    match readInit l body with
    | none => g.discardMalformed l none none
    | some p =>
      if l = .trunk ∧ p.reset = true then g.trunkReset p.figures
      else if (g.link l).state = .up then g.restart l p.figures
      else g.takeInit l p.figures

/-- CREDIT (R134): well-formed after the partner's INIT and where held credits stay at most 255, it adds its count. -/
def Gate.receiveCredit (g : Gate) (l : LinkId) (body : List Byte) : Gate :=
  if (g.link l).state = .down then g
  else
    match readCredit l body with
    | some (c, n) =>
      if (g.link l).partnerInit ∧ (g.link l).held.get c + n ≤ Config.maxHeld then
        g.modLink l fun r => { r with held := r.held.set c (r.held.get c + n) }
      else g.discardMalformed l none none
    | none => g.discardMalformed l none none

/-- The request of a device as it stands in its stream queue, with the stream it names (R51, R137). -/
def readBranchRequest (b : BranchNo) (kind : RequestKind) (body : List Byte) : Option (StreamId × Request) :=
  match readRequest kind body with
  | some p =>
    (streamNoOf p.origin).map fun n =>
      (streamIdOf b n, { kind := p.kind, tag := p.tag, address := p.address, length := p.length, payload := p.payload })
  | none => none

/-- A request joins the tail of its stream queue, is counted, and begins if it has become head (R51, R54, R63). -/
def Gate.joinStream (g : Gate) (s : StreamId) (r : Request) : Gate :=
  let joined :=
    (g.modStream s fun x => { x with queue := x.queue ++ [r] }).countBranch (branchOf s) fun x =>
      { x with queued := x.queued + 1 }
  if (g.stream s).queue.isEmpty then Gate.startHeads s [r] joined else joined

/-- PUSH, COMMIT or FETCH on a branch (R51). -/
def Gate.receiveBranchRequest (g : Gate) (b : BranchNo) (kind : RequestKind) (body : List Byte) : Gate :=
  g.arrive (.branch b) .request (readBranchRequest b kind body) (readableStream b body) fun p g' =>
    g'.joinStream p.1 p.2

/-- ANSWER on a branch (R124): it joins the branch's ingress answer buffer. -/
def Gate.receiveBranchAnswer (g : Gate) (b : BranchNo) (body : List Byte) : Gate :=
  g.arrive (.branch b) .answer (readAnswer body) none fun a g' =>
    g'.modBranch b fun x => { x with ingressAnswers := x.ingressAnswers ++ [a] }

/-- PUSH, COMMIT or FETCH on the trunk (R120, R135): it joins the trunk ingress request buffer. -/
def Gate.receiveTrunkRequest (g : Gate) (kind : RequestKind) (body : List Byte) : Gate :=
  g.arrive .trunk .request (readRequest kind body) none fun r g' =>
    g'.modTrunk fun t => { t with ingressRequests := t.ingressRequests ++ [r] }

/-- ANSWER on the trunk (R80, R135): it joins the trunk ingress answer buffer, from which the outstanding table takes every
answer at once, in arrival order. -/
def Gate.receiveTrunkAnswer (g : Gate) (body : List Byte) : Gate :=
  g.arrive .trunk .answer (readAnswer body) none fun a g' =>
    Gate.takeAnswers (g'.trunk.ingressAnswers ++ [a]) (g'.modTrunk fun t =>
      { t with ingressAnswers := t.ingressAnswers ++ [a] })

/-- CONTROL on the trunk (R135, R142): it joins the trunk ingress control buffer. -/
def Gate.receiveControl (g : Gate) (body : List Byte) : Gate :=
  g.arrive .trunk .control (readControl body) none fun p g' =>
    g'.modTrunk fun t => { t with ingressControl := t.ingressControl ++ [p] }

/-- The class whose credit a packet of an unaccepted kind spends: CONTROL for a CONTROL, REPLY or NOTICE (R155), none for an
unknown kind (R138). On a branch there is no such class, and its granted figure is 0. -/
def classOfUnaccepted : List Byte → Option PacketClass
  | kind :: _ => if kind = 0x30 ∨ kind = 0x31 ∨ kind = 0x32 then some .control else none
  | [] => none

/-- A packet of a kind that the gate does not accept on the link is malformed (R137, R138). -/
def Gate.receiveUnaccepted (g : Gate) (l : LinkId) (packet : List Byte) : Gate :=
  if (g.link l).state = .down then g else g.discardMalformed l (classOfUnaccepted packet) none

/-- A PUSH, COMMIT or FETCH on either kind of link. -/
def Gate.receiveRequest (g : Gate) (l : LinkId) (kind : RequestKind) (body : List Byte) : Gate :=
  match l with
  | .trunk => g.receiveTrunkRequest kind body
  | .branch b => g.receiveBranchRequest b kind body

/-- A packet arrives on a link, whatever its kind (R137, R155). -/
def Gate.receive (g : Gate) (l : LinkId) (packet : List Byte) : Gate :=
  match packet with
  | [] => g.receiveUnaccepted l []
  | kind :: body =>
    if kind = 0x01 then g.receiveInit l body
    else if kind = 0x02 then g.receiveCredit l body
    else if kind = 0x10 then g.receiveRequest l .push body
    else if kind = 0x11 then g.receiveRequest l .commit body
    else if kind = 0x12 then g.receiveRequest l .fetch body
    else if kind = 0x20 then
      (match l with | .trunk => g.receiveTrunkAnswer body | .branch b => g.receiveBranchAnswer b body)
    else if kind = 0x30 ∧ l = .trunk then g.receiveControl body
    else g.receiveUnaccepted l (kind :: body)

/-! ### The commands -/

/-- POWER_ON (R133): GATE_ID is sampled from the straps, every block takes its reset value, the reset cause is POWER and all
five links are DOWN. What was sent before stays sent. -/
def execPowerOn (straps : Byte) (s : State) : Host.Outcome State Fault Refusal :=
  s.act fun g => { Gate.reset straps .power with sent := g.sent }

/-- LINK_PRESENT (R129): a DOWN link enters TRAINING. A link that is not DOWN is present already (log entry 5). -/
def execLinkPresent (l : LinkId) (s : State) : Host.Outcome State Fault Refusal :=
  s.act fun g => if (g.link l).state = .down then g.enterTraining l else g

/-- TRUNK_LINK_LOSS (R130). A trunk that is DOWN is lost already (log entry 5). -/
def execTrunkLinkLoss (s : State) : Host.Outcome State Fault Refusal :=
  s.act fun g => if g.trunk.link.state = .down then g else g.linkDown .trunk

/-- BRANCH_LINK_LOSS (R131): a physical loss that reaches a branch already DOWN changes nothing. -/
def execBranchLinkLoss (b : BranchNo) (s : State) : Host.Outcome State Fault Refusal :=
  s.act fun g => if (g.branch b).link.state = .down then g else g.linkDown (.branch b)

/-- INIT_RECEIVED (R129, R132, R133). -/
def execInitReceived (l : LinkId) (body : List Byte) (s : State) : Host.Outcome State Fault Refusal :=
  s.act fun g => g.receiveInit l body

/-- CREDIT_RECEIVED (R134). -/
def execCreditReceived (l : LinkId) (body : List Byte) (s : State) : Host.Outcome State Fault Refusal :=
  s.act fun g => g.receiveCredit l body

/-- CREDIT_SEND (R135, R136): while the link is UP, the CREDIT that is due first is sent with the whole freed count, which
moves to granted. Where none is due, none is sent (log entry 5). -/
def execCreditSend (l : LinkId) (s : State) : Host.Outcome State Fault Refusal :=
  s.act fun g =>
    match (g.link l).creditOrder with
    | [] => g
    | c :: rest =>
      if (g.link l).state = .up then
        (g.emit l (.packet (creditBytes c ((g.link l).freed.get c)))).modLink l fun r =>
          { r with
            granted := r.granted.set c (r.granted.get c + r.freed.get c)
            freed := r.freed.set c 0
            creditOrder := rest }
      else g

/-- BRANCH_REQUEST_ARRIVAL (R51). -/
def execBranchRequestArrival (b : BranchNo) (kind : RequestKind) (body : List Byte) (s : State) :
    Host.Outcome State Fault Refusal :=
  s.act fun g => g.receiveBranchRequest b kind body

/-- BRANCH_ANSWER_ARRIVAL (R124). -/
def execBranchAnswerArrival (b : BranchNo) (body : List Byte) (s : State) : Host.Outcome State Fault Refusal :=
  s.act fun g => g.receiveBranchAnswer b body

/-- TRUNK_REQUEST_ARRIVAL (R135). -/
def execTrunkRequestArrival (kind : RequestKind) (body : List Byte) (s : State) : Host.Outcome State Fault Refusal :=
  s.act fun g => g.receiveTrunkRequest kind body

/-- TRUNK_ANSWER_ARRIVAL (R80). -/
def execTrunkAnswerArrival (body : List Byte) (s : State) : Host.Outcome State Fault Refusal :=
  s.act fun g => g.receiveTrunkAnswer body

/-- TRUNK_CONTROL_ARRIVAL (R135). -/
def execTrunkControlArrival (body : List Byte) (s : State) : Host.Outcome State Fault Refusal :=
  s.act fun g => g.receiveControl body

/-- UNACCEPTED_KIND_ARRIVAL (R137). A packet of an accepted kind is no instance of this row (`Instr.wellFormed`); it is
handled as the arrival it is (log entry 16). -/
def execUnacceptedKindArrival (l : LinkId) (packet : List Byte) (s : State) : Host.Outcome State Fault Refusal :=
  s.act fun g => g.receive l packet

end Sys2Proof.Machine
end

