-- ==== Sys2Proof/Machine/TableCommands.lean ====
section
/-! DEFINITION. The commands of the stream table (R47, R48, R50), of the route window table (R117, R118) and of the branch
ports (R139, R140). -/

namespace Sys2Proof.Machine

/-! ### STREAM-BIND (R47, R48) -/

/-- Bind one stream: mode and context of the command, generation one more (R48). -/
def Gate.bindStream (g : Gate) (s : StreamId) (mode : Mode) : Gate :=
  g.modStream s fun x => { x with mode := mode, generation := x.generation + 1 }

/-- What checks 1 to 4 of R47 leave: the mode to bind, or the status that refuses. -/
inductive BindCheck where
  | mode (m : Mode)
  | refused (status : ReplyStatus)
  deriving DecidableEq, Repr

/-- Checks 1 to 4 of R47; 2 to 4 are for MAPPED alone, and the context operand is not examined otherwise. -/
def Gate.bindCheck (g : Gate) (operands : List Byte) : BindCheck :=
  let mode := operandField operands 1 1
  if mode = 0 then .mode .blocked
  else if mode = 1 then .mode .direct
  else if mode = 2 then
    match operandBelow 16 operands 2 with
    | none => .refused .badArgument
    | some c =>
      if (g.context c).state ≠ .ready ∧ (g.context c).state ≠ .active then .refused .state
      else if (g.context c).pending.isSome then .refused .conflict
      else .mode (.mapped c)
  else .refused .badArgument

/-- STREAM-BIND (R47, R48). -/
def Gate.runStreamBind (p : ControlPacket) (g : Gate) : Gate :=
  match g.bindCheck p.operands with
  | .refused status => g.refuse p status
  | .mode m =>
    match operandBelow 64 p.operands 0 with
    | none => g.refuse p .badArgument
    | some s => (g.bindStream s m).answerDone p []

/-! ### STREAM-READ (R50, 10.3) -/

def modeCode : Mode → Byte
  | .blocked => 0
  | .direct => 1
  | .mapped _ => 2

def modeContext : Mode → Byte
  | .mapped c => BitVec.ofNat 8 c.val
  | _ => 0

def headStateCode : Option HeadState → Byte
  | none => 0
  | some .waitSlot => 1
  | some .translating => 2
  | some .waitWalk => 3
  | some .waitWalkSlot => 4
  | some (.ready _ _) => 5

/-- The stamp of the head, present only while it is READY. -/
def Stream.stamp (x : Stream) : Option Stamp :=
  match x.head with
  | some (.ready _ stamp) => some stamp
  | _ => none

/-- The device tag of the head: absent when there is no head or when it is a PUSH. -/
def Stream.headTag (x : Stream) : Option Byte :=
  match x.queue with
  | [] => none
  | r :: _ => if r.kind = .push then none else some r.tag

/-- The kind of the head request, 0 when there is none. -/
def Stream.headKindCode (x : Stream) : Byte :=
  match x.queue with
  | [] => 0
  | r :: _ => accessCode r.kind

/-- Request entries LIVE for the stream, orphans included. -/
def Gate.liveOfStream (g : Gate) (s : StreamId) : Nat := g.liveEntries.countP fun e => e.stream == s

/-- The 16 result bytes of STREAM-READ. -/
def Gate.streamReadResults (g : Gate) (s : StreamId) : List Byte :=
  let x := g.stream s
  let stampEpoch : Option Word16 := x.stamp.bind fun y => y.mapped.map Prod.snd
  [BitVec.ofNat 8 s.val, modeCode x.mode, modeContext x.mode, headStateCode x.head] ++
  bytesOfNat 2 x.generation.toNat ++
  [BitVec.ofNat 8 x.queue.length, x.headKindCode, x.headTag.getD 0,
   BitVec.ofNat 8 (presenceBit x.headTag 1 + presenceBit x.stamp 2 + presenceBit stampEpoch 4)] ++
  bytesOfNat 2 ((x.stamp.map fun y => y.generation.toNat).getD 0) ++
  bytesOfNat 2 ((stampEpoch.map fun y => y.toNat).getD 0) ++
  [BitVec.ofNat 8 (g.liveOfStream s), 0]

/-- STREAM-READ (R50). -/
def Gate.runStreamRead (p : ControlPacket) (g : Gate) : Gate :=
  match operandBelow 64 p.operands 0 with
  | none => g.refuse p .badArgument
  | some s => g.answerDone p (g.streamReadResults s)

/-! ### Route windows (R117, R118) -/

/-- Check 3 of R117: base and last multiples of 65,536, last not below base, the last granule below 2^48. -/
def rangeFits (base last : Nat) : Bool :=
  base % Config.granule == 0 && last % Config.granule == 0 && base ≤ last && last + Config.granule ≤ Config.addressSpace

/-- Check 4 of R117: the target base a multiple of 65,536, and every rebased address below 2^48. -/
def targetFits (base last target : Nat) : Bool :=
  target % Config.granule == 0 && target + (last - base) + Config.granule ≤ Config.addressSpace

def windowAccessOf (n : Nat) : Option WindowAccess :=
  if n = 0 then some .readWrite else if n = 1 then some .readOnly else none

/-- The window that the operands of WINDOW-SET describe, where checks 2 to 5 of R117 pass. -/
def readWindow (operands : List Byte) : Option Window :=
  let kind := operandField operands 1 1
  let base := operandField operands 4 6
  let last := operandField operands 10 6
  let target := operandField operands 16 6
  if kind ≠ 0 ∧ kind ≠ 1 then none
  else if !rangeFits base last then none
  else if kind = 0 then
    some { enabled := true, kind := .exclude, base := BitVec.ofNat 48 base, last := BitVec.ofNat 48 last }
  else if !targetFits base last target then none
  else
    match operandBelow 4 operands 2, windowAccessOf (operandField operands 3 1) with
    | some b, some access =>
      some { enabled := true, kind := .forward (BitVec.ofNat 48 target) b access, base := BitVec.ofNat 48 base,
             last := BitVec.ofNat 48 last }
    | _, _ => none

/-- WINDOW-SET (R117): the window is replaced whole and enabled, and a held host request is offered again (R120). -/
def Gate.runWindowSet (p : ControlPacket) (g : Gate) : Gate :=
  match operandBelow 8 p.operands 0, readWindow p.operands with
  | some i, some w => ((g.setWindow i w).answerDone p []).offerHeldAgain
  | _, _ => g.refuse p .badArgument

/-- WINDOW-CLEAR (R118): the window is disabled and keeps its other fields, and a held host request is offered again
(R120). -/
def Gate.runWindowClear (p : ControlPacket) (g : Gate) : Gate :=
  match operandBelow 8 p.operands 0 with
  | none => g.refuse p .badArgument
  | some i => ((g.setWindow i { g.window i with enabled := false }).answerDone p []).offerHeldAgain

def windowAccessCode : WindowAccess → Byte
  | .readWrite => 0
  | .readOnly => 1

/-- The 24 result bytes of WINDOW-READ (10.3); for EXCLUDE the branch, window access and target base are zero. -/
def windowReadResults (i : WindowNo) (w : Window) : List Byte :=
  (match w.kind with
    | .exclude => [BitVec.ofNat 8 i.val, 0, 0, 0]
    | .forward _ b access => [BitVec.ofNat 8 i.val, 1, BitVec.ofNat 8 b.val, windowAccessCode access]) ++
  bytesOfNat 6 w.base.toNat ++ bytesOfNat 6 w.last.toNat ++
  (match w.kind with
    | .exclude => bytesOfNat 6 0
    | .forward target _ _ => bytesOfNat 6 target.toNat) ++
  [boolByte w.enabled, 0]

/-- WINDOW-READ (R118). -/
def Gate.runWindowRead (p : ControlPacket) (g : Gate) : Gate :=
  match operandBelow 8 p.operands 0 with
  | none => g.refuse p .badArgument
  | some i => g.answerDone p (windowReadResults i (g.window i))

/-! ### Branches (R139, R140) -/

/-- Steps 1 and 2 of R139: reset owed; a branch in TRAINING or UP goes DOWN, and its physical link is dropped. -/
def Gate.resetBranch (g : Gate) (b : BranchNo) : Gate :=
  let owed := g.modLink (.branch b) fun r => { r with resetOwed := true }
  if (g.branch b).link.state = .down then owed else (owed.branchDown b).emit (.branch b) .linkDrop

/-- BRANCH-RESET (R139): the reply carries the state the branch had when the command was taken. -/
def Gate.runBranchReset (p : ControlPacket) (g : Gate) : Gate :=
  match operandBelow 4 p.operands 0 with
  | none => g.refuse p .badArgument
  | some b =>
    (g.resetBranch b).answerDone p [BitVec.ofNat 8 b.val, linkStateCode (g.branch b).link.state, 0, 0]

/-- Requests in all the stream queues of a branch (R140). -/
def Gate.queuedOn (g : Gate) (b : BranchNo) : Nat :=
  ((List.finRange 64).map fun s => if branchOf s = b then (g.stream s).queue.length else 0).sum

/-- Reserved answer slots (R140). -/
def Branch.reservedSlots (x : Branch) : Nat :=
  x.slots.toList.countP fun
    | .reserved _ _ => true
    | _ => false

/-- Occupied answer slots (R140). -/
def Branch.occupiedSlots (x : Branch) : Nat := x.slots.toList.countP (· == .occupied)

/-- The 40 result bytes of BRANCH-READ (10.3). -/
def Gate.branchReadResults (g : Gate) (b : BranchNo) : List Byte :=
  let x := g.branch b
  [BitVec.ofNat 8 b.val, linkStateCode x.link.state, boolByte x.link.resetOwed, 0,
   BitVec.ofNat 8 x.link.held.request, BitVec.ofNat 8 x.link.held.answer,
   BitVec.ofNat 8 x.link.granted.request, BitVec.ofNat 8 x.link.granted.answer,
   BitVec.ofNat 8 (g.queuedOn b), BitVec.ofNat 8 x.slotWait.length, BitVec.ofNat 8 x.reservedSlots,
   BitVec.ofNat 8 x.occupiedSlots, BitVec.ofNat 8 x.egressRequests.length, BitVec.ofNat 8 x.ingressAnswers.length,
   0, 0] ++
  bytesOfNat 4 x.counters.queued.toNat ++ bytesOfNat 4 x.counters.departed.toNat ++
  bytesOfNat 4 x.counters.refused.toNat ++ bytesOfNat 4 x.counters.answersSent.toNat ++
  bytesOfNat 4 x.counters.malformed.toNat ++ bytesOfNat 4 x.counters.linkDowns.toNat

/-- BRANCH-READ (R140). -/
def Gate.runBranchRead (p : ControlPacket) (g : Gate) : Gate :=
  match operandBelow 4 p.operands 0 with
  | none => g.refuse p .badArgument
  | some b => g.answerDone p (g.branchReadResults b)

/-! ### The commands -/

/-- STREAM-BIND (R48). -/
def execStreamBind (s : State) : Host.Outcome State Fault Refusal :=
  s.act (Gate.takeCommand .streamBind Gate.runStreamBind)

/-- STREAM-READ (R50). -/
def execStreamRead (s : State) : Host.Outcome State Fault Refusal :=
  s.act (Gate.takeCommand .streamRead Gate.runStreamRead)

/-- WINDOW-SET (R117). -/
def execWindowSet (s : State) : Host.Outcome State Fault Refusal :=
  s.act (Gate.takeCommand .windowSet Gate.runWindowSet)

/-- WINDOW-CLEAR (R118). -/
def execWindowClear (s : State) : Host.Outcome State Fault Refusal :=
  s.act (Gate.takeCommand .windowClear Gate.runWindowClear)

/-- WINDOW-READ (R118). -/
def execWindowRead (s : State) : Host.Outcome State Fault Refusal :=
  s.act (Gate.takeCommand .windowRead Gate.runWindowRead)

/-- BRANCH-RESET (R139). -/
def execBranchReset (s : State) : Host.Outcome State Fault Refusal :=
  s.act (Gate.takeCommand .branchReset Gate.runBranchReset)

/-- BRANCH-READ (R140). -/
def execBranchRead (s : State) : Host.Outcome State Fault Refusal :=
  s.act (Gate.takeCommand .branchRead Gate.runBranchRead)

end Sys2Proof.Machine
end

