-- ==== Sys2Proof/Machine/Dispatch.lean ====
section
/-! DEFINITION. The meaning of each command: one arm for each constructor, one direct call in each arm. A command acts on
the gate and leaves the queue of waiting commands as it was. -/

namespace Sys2Proof.Machine

def exec (i : Instr) (s : State) : Host.Outcome State Fault Refusal :=
  match i with
  | .powerOn straps => Sys2Proof.Machine.execPowerOn straps s
  | .linkPresent l => Sys2Proof.Machine.execLinkPresent l s
  | .trunkLinkLoss => Sys2Proof.Machine.execTrunkLinkLoss s
  | .branchLinkLoss b => Sys2Proof.Machine.execBranchLinkLoss b s
  | .initReceived l body => Sys2Proof.Machine.execInitReceived l body s
  | .creditReceived l body => Sys2Proof.Machine.execCreditReceived l body s
  | .creditSend l => Sys2Proof.Machine.execCreditSend l s
  | .branchRequestArrival b k body => Sys2Proof.Machine.execBranchRequestArrival b k body s
  | .branchAnswerArrival b body => Sys2Proof.Machine.execBranchAnswerArrival b body s
  | .trunkRequestArrival k body => Sys2Proof.Machine.execTrunkRequestArrival k body s
  | .trunkAnswerArrival body => Sys2Proof.Machine.execTrunkAnswerArrival body s
  | .trunkControlArrival body => Sys2Proof.Machine.execTrunkControlArrival body s
  | .hostRequestOffer => Sys2Proof.Machine.execHostRequestOffer s
  | .answerQueueGrant => Sys2Proof.Machine.execAnswerQueueGrant s
  | .departureGrant => Sys2Proof.Machine.execDepartureGrant s
  | .trunkAnswerTransmit => Sys2Proof.Machine.execTrunkAnswerTransmit s
  | .controlTransmit => Sys2Proof.Machine.execControlTransmit s
  | .branchAnswerTransmit b => Sys2Proof.Machine.execBranchAnswerTransmit b s
  | .branchRequestTransmit b => Sys2Proof.Machine.execBranchRequestTransmit b s
  | .entryExpiry t => Sys2Proof.Machine.execEntryExpiry t s
  | .quarantineEnd t => Sys2Proof.Machine.execQuarantineEnd t s
  | .walkExpiry w => Sys2Proof.Machine.execWalkExpiry w s
  | .walkQuarantineEnd w => Sys2Proof.Machine.execWalkQuarantineEnd w s
  | .retireComplete c => Sys2Proof.Machine.execRetireComplete c s
  | .invalidateComplete c => Sys2Proof.Machine.execInvalidateComplete c s
  | .noticePlace => Sys2Proof.Machine.execNoticePlace s
  | .claim => Sys2Proof.Machine.execClaim s
  | .release => Sys2Proof.Machine.execRelease s
  | .identify => Sys2Proof.Machine.execIdentify s
  | .gateRead => Sys2Proof.Machine.execGateRead s
  | .contextSetup => Sys2Proof.Machine.execContextSetup s
  | .contextOpen => Sys2Proof.Machine.execContextOpen s
  | .contextRetire => Sys2Proof.Machine.execContextRetire s
  | .contextRead => Sys2Proof.Machine.execContextRead s
  | .streamBind => Sys2Proof.Machine.execStreamBind s
  | .streamRead => Sys2Proof.Machine.execStreamRead s
  | .invalidate => Sys2Proof.Machine.execInvalidate s
  | .timeoutSet => Sys2Proof.Machine.execTimeoutSet s
  | .windowSet => Sys2Proof.Machine.execWindowSet s
  | .windowClear => Sys2Proof.Machine.execWindowClear s
  | .windowRead => Sys2Proof.Machine.execWindowRead s
  | .faultsTake => Sys2Proof.Machine.execFaultsTake s
  | .faultsPolicy => Sys2Proof.Machine.execFaultsPolicy s
  | .branchReset => Sys2Proof.Machine.execBranchReset s
  | .branchRead => Sys2Proof.Machine.execBranchRead s
  | .unknownCommand => Sys2Proof.Machine.execUnknownCommand s
  | .misdirectedControl => Sys2Proof.Machine.execMisdirectedControl s
  | .unacceptedKindArrival l packet => Sys2Proof.Machine.execUnacceptedKindArrival l packet s

end Sys2Proof.Machine
end

