-- ==== Sys2Proof/Safety.lean ====
section
/-! DEFINITION. What a sound gate is: the statements of the spec that hold at every moment, one predicate for each part of the
state. Nothing of the model stops (log entry 5), so a safe run is one whose every state is sound. -/

namespace Sys2Proof.Machine

/-! ### Translation cache (R24, R25) -/

/-- The cache holds at most 128 entries, at most one for each context and page, and all of ACTIVE contexts. -/
structure Gate.CacheSound (g : Gate) : Prop where
  bounded : g.cache.length ≤ Config.cacheEntries
  distinct : (g.cache.map fun e => (e.context, e.page)).Nodup
  active : ∀ e ∈ g.cache, (g.context e.context).state = .active

/-! ### Context table (R1, R4, R5, R8, R88) -/

/-- What holds of one context record: its map is one that CONTEXT-SETUP accepts or the one of reset, it is DRAINING exactly
while a RETIRE is pending, and it is ACTIVE while an INVALIDATE is pending. -/
structure Context.Sound (x : Context) : Prop where
  aligned : x.mapRoot.toNat % Config.pageSize = 0
  nonempty : 1 ≤ x.mapLength
  bounded : x.mapLength ≤ Config.maxMapLength
  inSpace : x.mapRoot.toNat + 8 * x.mapLength ≤ Config.addressSpace
  draining : x.state = .draining ↔ ∃ tag node, x.pending = some ⟨.retire, tag, node⟩
  active : ∀ first count tag node, x.pending = some ⟨.invalidate first count, tag, node⟩ → x.state = .active

/-- Every context record is sound. -/
def Gate.ContextsSound (g : Gate) : Prop := ∀ c, (g.context c).Sound

/-! ### Walk slots (R29, R30, R9) -/

/-- Every walk under way is of an ACTIVE or DRAINING context, of a page inside its map, at the address of that page's map
entry. -/
def Gate.WalksInMap (g : Gate) : Prop :=
  ∀ i w, g.walk i = .walking w →
    ((g.context w.context).state = .active ∨ (g.context w.context).state = .draining) ∧
    w.page < (g.context w.context).mapLength ∧
    w.entryAddress = BitVec.ofNat 48 ((g.context w.context).mapRoot.toNat + 8 * w.page)

/-- At most one WALKING slot holds a given key (R29). -/
def Gate.WalkKeysDistinct (g : Gate) : Prop :=
  ∀ i j w x, g.walk i = .walking w → g.walk j = .walking x →
    w.context = x.context → w.page = x.page → w.epoch = x.epoch → i = j

/-- What holds of the walk slots. -/
structure Gate.WalksSound (g : Gate) : Prop where
  inMap : g.WalksInMap
  distinct : g.WalkKeysDistinct

/-- The tables of contexts, translations and walks. -/
structure Gate.TablesSound (g : Gate) : Prop where
  cache : g.CacheSound
  contexts : g.ContextsSound
  walks : g.WalksSound

/-! ### Fault log (R102, R104) -/

/-- The fault log holds at most 32 records with consecutive sequence numbers, the last one below next sequence; repeats and
losses stay in their ranges. -/
structure FaultLog.Sound (l : FaultLog) : Prop where
  bounded : l.records.length ≤ Config.logRecords
  consecutive : ∀ i r, l.records[i]? = some r →
    r.sequence + BitVec.ofNat 16 (l.records.length - i) = l.nextSequence
  repeats : ∀ r ∈ l.records, 1 ≤ r.repeats ∧ r.repeats ≤ Config.saturation
  lost : ∀ r ∈ l.records, ∀ n, r.lostBefore = some n → 1 ≤ n ∧ n ≤ Config.saturation
  pendingLoss : l.pendingLoss ≤ Config.saturation

/-! ### Management unit (R142, R147, R4, R148, R112, R149) -/

/-- The entry of the pending list that stands for the pending long command of a context record. -/
def PendingLong.asEntry (c : ContextNo) (p : PendingLong) : PendingEntry :=
  { command := p.command, context := c, tag := p.tag, node := p.node }

/-- The control transmit queue has a place for every packet it holds and every long command pending; at most 8 are; and the
pending list holds exactly the pending long commands of the context records. -/
structure Gate.PlacesSound (g : Gate) : Prop where
  places : g.management.controlQueue.length + g.management.pendingList.length ≤ Config.controlPlaces
  bounded : g.management.pendingList.length ≤ Config.pendingCommands
  listed : ∀ c, g.management.pendingList.filter (fun e => e.context == c) =
    ((g.context c).pending.map (PendingLong.asEntry c)).toList

/-- A notice is owed only while there is a manager; a FAULTS notice only while the latch is set and the log holds a record;
and each FAULTS notice placed carries 1 to 32. -/
structure Gate.NoticesSound (g : Gate) : Prop where
  faultsManaged : g.management.faultsOwed = true → g.management.manager.isSome
  branchManaged : ∀ b : BranchNo, g.management.branchOwed[b.val] = true → g.management.manager.isSome
  latched : g.management.faultsOwed = true → g.log.latch = true ∧ g.log.records ≠ []
  logBounded : g.log.records.length ≤ Config.logRecords
  counted : ∀ node n, .faultsNotice node n ∈ g.management.controlQueue → 1 ≤ n ∧ n ≤ Config.logRecords

/-! ### Links and buffers (R128, R134 to R136) -/

/-- The packets of a class that the gate's ingress buffer of a link holds; for the branch REQUEST class, the requests in
all the branch's stream queues (R128). -/
def Gate.buffered (g : Gate) : LinkId → PacketClass → Nat
  | .trunk, .request => g.trunk.ingressRequests.length
  | .trunk, .answer => g.trunk.ingressAnswers.length
  | .trunk, .control => g.trunk.ingressControl.length
  | .branch b, .request => g.queuedOn b
  | .branch b, .answer => (g.branch b).ingressAnswers.length
  | .branch _, .control => 0

/-- The sum of R128: granted, buffered and freed credits of each class make the capacity, on each link. -/
def Gate.CreditsConserved (g : Gate) : Prop :=
  ∀ l c, (g.link l).granted.get c + g.buffered l c + (g.link l).freed.get c = (capacity l).get c

/-- What holds of one link record by itself: the partner's INIT has been received exactly while the link is UP; a link that
is not UP holds no credit, and one that is DOWN has granted none; held credits are at most 255; and while the link is not
DOWN the classes that wait to have a CREDIT sent are those with a freed credit. -/
structure LinkRecord.Sound (r : LinkRecord) : Prop where
  partner : r.partnerInit = true ↔ r.state = .up
  heldNotUp : r.state ≠ .up → r.held = ⟨0, 0, 0⟩
  grantedDown : r.state = .down → r.granted = ⟨0, 0, 0⟩
  held : ∀ c, r.held.get c ≤ Config.maxHeld
  orderNodup : r.creditOrder.Nodup
  orderFreed : ∀ c ∈ r.creditOrder, 0 < r.freed.get c
  freedOrder : r.state ≠ .down → ∀ c, 0 < r.freed.get c → c ∈ r.creditOrder

/-- What holds of the links. -/
structure Gate.LinksSound (g : Gate) : Prop where
  records : ∀ l, (g.link l).Sound
  conserved : g.CreditsConserved

/-- The queues that the gate fills by itself stay within their sizes (R121, R123). -/
structure Gate.QueuesBounded (g : Gate) : Prop where
  egress : ∀ b, (g.branch b).egressRequests.length ≤ Config.egressPlaces
  answers : g.trunk.answerQueue.length ≤ Config.answerPlaces

/-! ### Heads that wait, and answer slots (R32, R33, R52, R54, R57, R58) -/

/-- What holds of the heads: a stream with no request has none; a head on a list is in the state of that list, on the
slot-wait list of its own branch; and the slot-wait lists, the walk waiting list and the waiters of the walks each hold a
stream once, and no two walks hold the same stream. -/
structure Gate.HeadsSound (g : Gate) : Prop where
  idle : ∀ x, (g.stream x).queue = [] → (g.stream x).head = none
  slotWait : ∀ b, ∀ x ∈ (g.branch b).slotWait, branchOf x = b ∧ (g.stream x).head = some .waitSlot
  slotWaitOnce : ∀ b, (g.branch b).slotWait.Nodup
  walkWaiting : ∀ x ∈ g.walkWaiting, (g.stream x).head = some .waitWalkSlot
  walkWaitingOnce : g.walkWaiting.Nodup
  waiters : ∀ i w, g.walk i = .walking w → ∀ y ∈ w.waiters, (g.stream y.stream).head = some .waitWalk
  waitersOnce : ∀ i w, g.walk i = .walking w → (w.waiters.map Waiter.stream).Nodup
  waitersApart : ∀ i j w v, i ≠ j → g.walk i = .walking w → g.walk j = .walking v →
    ∀ y ∈ w.waiters, ∀ z ∈ v.waiters, y.stream ≠ z.stream

/-- A LIVE entry that is no orphan holds slot `k` of the branch of its stream (R57, R76). -/
def Gate.EntryHolds (g : Gate) (t : RequestTag) (e : LiveEntry) (k : SlotNo) : Prop :=
  g.entry t = .live e ∧ e.orphan = false ∧ e.slot = some k

/-- What holds of the answer slots of a branch: each answer in the answer egress queue has an occupied slot of its own; the
slot that a head or a LIVE entry holds is reserved, with the stream number and the device tag of the request; and no two of
the heads and the LIVE entries of a branch hold the same slot. -/
structure Gate.SlotsSound (g : Gate) : Prop where
  occupied : ∀ b, ∀ a ∈ (g.branch b).egressAnswers, (g.branch b).slots[a.slot.val] = .occupied
  occupiedOnce : ∀ b, ((g.branch b).egressAnswers.map EgressAnswer.slot).Nodup
  heads : ∀ x k, (g.stream x).slot = some k → ∃ r rest, (g.stream x).queue = r :: rest ∧
    (g.branch (branchOf x)).slots[k.val] = .reserved (numberOf x) r.tag
  entries : ∀ t e k, g.EntryHolds t e k →
    (g.branch (branchOf e.stream)).slots[k.val] = .reserved (numberOf e.stream) e.tag
  headsApart : ∀ x k t e, (g.stream x).slot = some k → g.EntryHolds t e k → branchOf e.stream ≠ branchOf x
  entriesApart : ∀ t u e f k, t ≠ u → g.EntryHolds t e k → g.EntryHolds u f k → branchOf e.stream ≠ branchOf f.stream

/-- A sound gate. -/
structure Gate.Sound (g : Gate) : Prop where
  tables : g.TablesSound
  log : g.log.Sound
  places : g.PlacesSound
  notices : g.NoticesSound
  links : g.LinksSound
  queues : g.QueuesBounded
  heads : g.HeadsSound
  slots : g.SlotsSound

/-! ### Terms that the statements about commands use -/

/-- The machine with another gate: the waiting commands are as they were. -/
def State.withGate (s : State) (g : Gate) : State := { s with gate := g }

/-- The command of each management row. -/
def Command.instr : Command → Instr
  | .claim => .claim
  | .release => .release
  | .identify => .identify
  | .gateRead => .gateRead
  | .contextSetup => .contextSetup
  | .contextOpen => .contextOpen
  | .contextRetire => .contextRetire
  | .contextRead => .contextRead
  | .streamBind => .streamBind
  | .streamRead => .streamRead
  | .invalidate => .invalidate
  | .timeoutSet => .timeoutSet
  | .windowSet => .windowSet
  | .windowClear => .windowClear
  | .windowRead => .windowRead
  | .faultsTake => .faultsTake
  | .faultsPolicy => .faultsPolicy
  | .branchReset => .branchReset
  | .branchRead => .branchRead

/-- The CONTROL packet `p` stands at the front of the trunk ingress control buffer, before `rest`, for this gate, with the
code of command `c`, and the control transmit queue has an open place (R142, checks 1 and 2 of R143). -/
structure Gate.Takes (g : Gate) (c : Command) (p : ControlPacket) (rest : List ControlPacket) : Prop where
  front : g.trunk.ingressControl = p :: rest
  forUs : p.gateId = g.gateId
  code : p.code = commandCode c
  place : g.management.controlQueue.length + g.management.pendingList.length < 12

/-- `p` is taken as command `c` and passes checks 3 and 4 of R143: a read, or from the manager; and the pending list has
room. -/
structure Gate.Passes (g : Gate) (c : Command) (p : ControlPacket) (rest : List ControlPacket) : Prop where
  takes : g.Takes c p rest
  sender : isRead c = true ∨ g.management.manager = some p.source
  room : g.management.pendingList.length < 8

/-- The gate with the front CONTROL packet taken (R142): it has left the buffer, its CONTROL credit is freed. -/
def Gate.taken (g : Gate) (rest : List ControlPacket) : Gate :=
  { g with trunk := { g.trunk with ingressControl := rest, link := g.trunk.link.free .control } }

/-- The gate with a REPLY to `p` added at the tail of the control transmit queue (R143). -/
def Gate.replying (g : Gate) (p : ControlPacket) (status : ReplyStatus) (results : List Byte) : Gate :=
  { g with
    management :=
      { g.management with
        controlQueue := g.management.controlQueue ++ [.reply p.source p.tag status p.code results] } }

/-- The front CONTROL packet `p` is taken, and the reply is the whole effect. -/
def Gate.replied (g : Gate) (p : ControlPacket) (rest : List ControlPacket) (status : ReplyStatus) (results : List Byte) :
    Gate :=
  (g.taken rest).replying p status results

/-- The gate with every block at its values after power-on or a trunk reset, but for the trunk link record (R133 and the
rules it names). -/
structure Gate.IsReset (g : Gate) (gateId : Byte) (cause : ResetCause) : Prop where
  gateId : g.gateId = gateId
  contexts : ∀ c, g.context c =
    { state := .free, mapRoot := 0, mapLength := 1, report := false, epoch := 0, pending := none,
      counters := ⟨0, 0, 0, 0, 0, 0, 0⟩ }
  cache : g.cache = []
  walks : ∀ i, g.walk i = .free
  walkWaiting : g.walkWaiting = []
  streams : ∀ s, g.stream s = { mode := .blocked, generation := 0, queue := [], head := none, slot := none }
  entries : ∀ t, g.entry t = .free
  exponent : g.exponent = 8
  lastGranted : g.lastGranted = 67
  windows : ∀ i, g.window i = { enabled := false, kind := .exclude, base := 0, last := 0 }
  log : g.log = { records := [], nextSequence := 0, pendingLoss := 0, latch := false, policy := true }
  manager : g.management.manager = none
  pendingList : g.management.pendingList = []
  controlQueue : g.management.controlQueue = []
  faultsOwed : g.management.faultsOwed = false
  branchOwed : ∀ b : BranchNo, g.management.branchOwed[b.val] = false
  cause : g.management.resetCause = cause
  counters : g.management.counters = ⟨0, 0, 0, 0, 0, 0⟩
  requests : g.trunk.ingressRequests = []
  answers : g.trunk.ingressAnswers = []
  control : g.trunk.ingressControl = []
  answerQueue : g.trunk.answerQueue = []
  lastSource : g.trunk.lastSource = .branch 3
  lastClass : g.trunk.lastClass = .control
  branchLinks : ∀ b, (g.branch b).link =
    { state := .down, partnerInit := false, held := ⟨0, 0, 0⟩, granted := ⟨0, 0, 0⟩, freed := ⟨32, 16, 0⟩,
      creditOrder := [], resetOwed := false }
  slots : ∀ b, ∀ k : SlotNo, (g.branch b).slots[k.val] = .free
  slotWait : ∀ b, (g.branch b).slotWait = []
  egressAnswers : ∀ b, (g.branch b).egressAnswers = []
  egressRequests : ∀ b, (g.branch b).egressRequests = []
  ingressAnswers : ∀ b, (g.branch b).ingressAnswers = []
  lastSent : ∀ b, (g.branch b).lastSent = .requests
  branchCounters : ∀ b, (g.branch b).counters = ⟨0, 0, 0, 0, 0, 0⟩

/-- The gate `d` is `g` with branch `b` taken DOWN and cleared (R64, R77, R125, R131, R141): its streams emptied with their
bindings kept, its heads out of the walks and of the walk waiting list, its port emptied with its counters kept but for
link downs, its LIVE entries orphans, a BRANCH notice owed where there is a manager, and nothing else changed. -/
structure Gate.BranchCleared (g : Gate) (b : BranchNo) (d : Gate) : Prop where
  nothingElse : d =
    { g with
      streams := d.streams, walks := d.walks, walkWaiting := d.walkWaiting, branches := d.branches, entries := d.entries,
      management := d.management }
  streams : ∀ x : StreamId, d.stream x =
    if x.val / 16 = b.val then { g.stream x with queue := [], head := none, slot := none } else g.stream x
  walks : ∀ i, d.walk i =
    match g.walk i with
    | .walking w => .walking { w with waiters := w.waiters.filter fun y => y.stream.val / 16 ≠ b.val }
    | other => other
  walkWaiting : d.walkWaiting = g.walkWaiting.filter fun x => x.val / 16 ≠ b.val
  branch : d.branch b =
    { link :=
        { state := .down, partnerInit := false, held := ⟨0, 0, 0⟩, granted := ⟨0, 0, 0⟩, freed := ⟨32, 16, 0⟩,
          creditOrder := [], resetOwed := (g.branch b).link.resetOwed }
      slots := Vector.replicate 64 .free, egressAnswers := [], slotWait := [], lastSent := .requests,
      egressRequests := [], ingressAnswers := []
      counters := { (g.branch b).counters with linkDowns := (g.branch b).counters.linkDowns + 1 } }
  otherBranches : ∀ c, c ≠ b → d.branch c = g.branch c
  entries : ∀ t, d.entry t =
    match g.entry t with
    | .live e => .live { e with orphan := e.orphan || decide (e.stream.val / 16 = b.val) }
    | other => other
  management : d.management =
    { g.management with
      branchOwed :=
        if g.management.manager.isSome then g.management.branchOwed.set b.val true else g.management.branchOwed }

/-- A candidate position of the departure arbiter (R67): position 0 to 63, a READY head that is a PUSH, or a COMMIT or FETCH
while a request tag is FREE; position 64 to 67, a walk slot WALKING with its FETCH unsent. -/
def Gate.Candidate (g : Gate) (n : Fin 68) : Prop :=
  (∃ (x : StreamId) (address : Addr) (stamp : Stamp) (r : Request) (rest : List Request), x.val = n.val ∧
    (g.stream x).head = some (.ready address stamp) ∧ (g.stream x).queue = r :: rest ∧
    (r.kind = .push ∨ ∃ t, g.entry t = .free)) ∨
  (∃ (i : WalkNo) (w : Walk), 64 + i.val = n.val ∧ g.walk i = .walking w ∧ w.sent = none)

/-- The position the arbiter grants next (R68, R69): of the candidates, but for the positions `sentBack` whose heads were sent
back in this turn, the first in rising order from the one after the last position granted, round to that position itself. -/
def Gate.NextGrant (g : Gate) (sentBack : List (Fin 68)) (n : Fin 68) : Prop :=
  g.Candidate n ∧ n ∉ sentBack ∧
    ∀ m : Fin 68, (m.val + 67 - g.lastGranted.val) % 68 < (n.val + 67 - g.lastGranted.val) % 68 → g.Candidate m → m ∈ sentBack

/-- The course of a REQUEST turn (R69): `Gate.Turn sentBack g g' departed` says that a turn that goes on from `g`, with the heads
at the positions `sentBack` sent back already, ends in `g'`, with a departure or without. A head that is sent back and stays
is not examined again; where it was refused, its position holds another head, which may be (log entry 21). -/
inductive Gate.Turn : List (Fin 68) → Gate → Gate → Bool → Prop where
  /-- No candidate is left to examine: the turn ends without a departure. -/
  | spent {sentBack : List (Fin 68)} {g : Gate} (none : ∀ n, g.Candidate n → n ∈ sentBack) : Gate.Turn sentBack g g false
  /-- The next candidate departs, and the turn ends. -/
  | departs {sentBack : List (Fin 68)} {g g' : Gate} {n : Fin 68} (next : g.NextGrant sentBack n)
      (granted : g.grant n = .departed g') : Gate.Turn sentBack g g' true
  /-- The next candidate is sent back, and the turn goes on. -/
  | goesOn {sentBack : List (Fin 68)} {g g' g'' : Gate} {n : Fin 68} {x : StreamId} {departed : Bool}
      (next : g.NextGrant sentBack n) (position : n.val = x.val) (granted : g.grant n = .sentBack g')
      (rest : Gate.Turn (if (g'.stream x).queue.length = (g.stream x).queue.length then n :: sentBack else sentBack) g' g''
        departed) : Gate.Turn sentBack g g'' departed

/-- An answer fills slot `k` of the branch of stream `x` and joins the tail of that branch's answer egress queue, with the
stream number and the device tag of the request (R59, R60). -/
def Gate.withAnswer (g : Gate) (x : StreamId) (k : SlotNo) (tag : Byte) (status : AnswerStatus) (payload : List Byte) :
    Gate :=
  let b := branchOf x
  { g with
    branches := g.branches.set b.val
      { g.branch b with
        slots := (g.branch b).slots.set k.val .occupied
        egressAnswers := (g.branch b).egressAnswers ++
          [{ slot := k, stream := numberOf x, tag := tag, status := status, payload := payload }] } }

/-- The head `r` of stream `x`, of whose queue `rest` remains, is refused with fault `f` (R62): a COMMIT or FETCH has DENIED
placed in its slot, the fault is offered, the request leaves its queue, its REQUEST credit is freed, and refused is
counted. -/
def Gate.refusal (g : Gate) (x : StreamId) (r : Request) (rest : List Request) (f : FaultReport) : Gate :=
  let answered :=
    match r.kind, (g.stream x).slot with
    | .push, _ => g
    | _, some k => g.withAnswer x k r.tag .denied []
    | _, none => g
  let told := answered.offerFault f
  let b := branchOf x
  { told with
    streams := told.streams.set x.val { told.stream x with queue := rest, head := none, slot := none }
    branches := told.branches.set b.val
      { told.branch b with
        link := (told.branch b).link.free .request
        counters := { (told.branch b).counters with refused := (told.branch b).counters.refused + 1 } } }

/-- What a check of the head `r` leaves: the gate where the head stays; else the refusal, and the stream's next request
begins (R62, R52). -/
def HeadOutcome.settled (x : StreamId) (r : Request) (rest : List Request) : HeadOutcome → Gate
  | .stays g => g
  | .refused g f => Gate.startHeads x rest (g.refusal x r rest f)

/-- The sources of the trunk answer transmit queue in the order of R123. -/
def sourceNumber : AnswerSource → Nat
  | .trunk => 0
  | .branch b => b.val + 1

/-- A source waits (R123): a branch with an answer in its ingress answer buffer; the trunk source, while the request at the
front, as matched at its last offer, is a refused COMMIT or FETCH. -/
def Gate.Waits (g : Gate) : AnswerSource → Prop
  | .branch b => (g.branch b).ingressAnswers ≠ []
  | .trunk => ∃ r rest status, g.trunk.ingressRequests = r :: rest ∧ g.trunk.hostOffer = some (.refuse status) ∧ r.kind ≠ .push

/-- The source that is considered first among those that wait (R123): round-robin from the one after the last served. -/
def Gate.NextSource (g : Gate) (x : AnswerSource) : Prop :=
  g.Waits x ∧ ∀ y, (sourceNumber y + 4 - sourceNumber g.trunk.lastSource) % 5 <
    (sourceNumber x + 4 - sourceNumber g.trunk.lastSource) % 5 → ¬ g.Waits y

end Sys2Proof.Machine
end

