-- ==== Sys2Proof/WellFormed.lean ====
section
/-! DEFINITION. Which commands are instances of their row. The types of the operands settle every range but one: the
packet of UNACCEPTED_KIND_ARRIVAL must not be of a kind that the gate accepts on that link (R137), which is another row. -/

namespace Sys2Proof

/-- The kind codes the gate accepts on a link (R137, R155): INIT, CREDIT, PUSH, COMMIT, FETCH and ANSWER on each, CONTROL
on the trunk alone. -/
def acceptedKinds : LinkId → List Byte
  | .trunk => [0x01, 0x02, 0x10, 0x11, 0x12, 0x20, 0x30]
  | .branch _ => [0x01, 0x02, 0x10, 0x11, 0x12, 0x20]

/-- Whether a packet is of a kind the gate does not accept on the link: its kind byte is none of `acceptedKinds`, or it has
no kind byte. -/
def isUnacceptedKind (link : LinkId) : List Byte → Bool
  | [] => true
  | kind :: _ => !(acceptedKinds link).contains kind

/-- A well-formed command. -/
def Instr.wellFormed : Instr → Bool
  | .unacceptedKindArrival link packet => isUnacceptedKind link packet
  | _ => true

end Sys2Proof
end

