-- ==== Sys2Proof/Certificates/Slice0/Obligations.lean ====
section
/-! DEFINITION. The statements for the provers. -/

open Sys2Proof Sys2Proof.Machine

/-! ### The machine as a whole -/

/-- A step takes the command at the front of the queue and runs it with the queue's rest; with an empty queue the block idles
(the form of the model: log entry 2). -/
def Obligations.StepRunsTheFrontCommand : Prop :=
  (∀ (c : Instr) (rest : List Instr) (s : State), s.pending = c :: rest → step s = exec c { s with pending := rest }) ∧
  (∀ s : State, s.pending = [] → step s = .next s)

/-- Every command answers a next state in every state, and leaves the queue of waiting commands alone. -/
def Obligations.EveryCommandAnswersNext : Prop :=
  ∀ (c : Instr) (s : State), ∃ g : Gate, exec c s = .next (s.withGate g)

/-- R133 and the rules it names: POWER_ON samples GATE_ID, gives every block its reset values, and holds the five links DOWN. -/
def Obligations.PowerOnResetsEveryBlock : Prop :=
  ∀ (straps : Byte) (s : State), ∃ g : Gate, exec (.powerOn straps) s = .next (s.withGate g) ∧ g.IsReset straps .power ∧
    g.trunk.link =
      { state := .down, partnerInit := false, held := ⟨0, 0, 0⟩, granted := ⟨0, 0, 0⟩, freed := ⟨16, 32, 4⟩,
        creditOrder := [], resetOwed := false } ∧
    g.sent = s.gate.sent

/-- The state after reset has every block at its power-on values and meets every invariant stated below. Its GATE_ID, 0, is
the model's choice (log entry 1). -/
def Obligations.ResetStateIsSound : Prop :=
  State.reset.gate.IsReset 0 .power ∧ State.reset.gate.Sound ∧ State.reset.pending = []

/-- R133: a well-formed INIT with the reset flag on the trunk, in TRAINING or UP, resets every block with cause TRUNK, keeps
GATE_ID, drops every branch's physical link, sends the gate's INIT, and leaves the trunk UP with the partner's figures. -/
def Obligations.TrunkResetResetsEveryBlock : Prop :=
  ∀ (request answer control : Byte) (s : State), request ≠ 0 → answer ≠ 0 → control ≠ 0 → s.gate.trunk.link.state ≠ .down →
    ∃ g : Gate, exec (.initReceived .trunk [1, request, answer, control, 0, 0, 0]) s = .next (s.withGate g) ∧
      g.IsReset s.gate.gateId .trunk ∧
      g.trunk.link =
        { state := .up, partnerInit := true, held := ⟨request.toNat, answer.toNat, control.toNat⟩, granted := ⟨16, 32, 4⟩,
          freed := ⟨0, 0, 0⟩, creditOrder := [], resetOwed := false } ∧
      g.sent = s.gate.sent ++
        [⟨.branch 0, .linkDrop⟩, ⟨.branch 1, .linkDrop⟩, ⟨.branch 2, .linkDrop⟩, ⟨.branch 3, .linkDrop⟩,
         ⟨.trunk, .packet [0x01, 0, 16, 32, 4, 0, 0, 0]⟩]

/-! ### Invariants that every step keeps -/

/-- R102, R104: the log stays within 32 records with consecutive sequence numbers, repeats and losses in their ranges. -/
def Obligations.FaultLogStaysSound : Prop :=
  ∀ s s' : State, s.gate.log.Sound → step s = .next s' → s'.gate.log.Sound

/-- R128: on every link, for every class, granted, buffered and freed credits always make the capacity; and every link record
stays sound. -/
def Obligations.CreditsAreConserved : Prop :=
  ∀ s s' : State, s.gate.LinksSound → step s = .next s' → s'.gate.LinksSound

/-- R142, R147: every packet and every pending long command has its place in the control transmit queue, at most 8 commands
are pending, and the pending list holds exactly the pending long commands of the contexts. -/
def Obligations.CompletionRepliesKeepTheirPlaces : Prop :=
  ∀ s s' : State, s.gate.PlacesSound → step s = .next s' → s'.gate.PlacesSound

/-- R112, R148, R149: a notice is owed only while there is a manager, and a FAULTS notice counts at least one record. -/
def Obligations.NoticesStaySound : Prop :=
  ∀ s s' : State, s.gate.NoticesSound → step s = .next s' → s'.gate.NoticesSound

/-- R4, R5, R9, R24, R25, R29, R30: the cache holds at most 128 translations, distinct and of ACTIVE contexts; every map lies
in its bounds; every walk is of a live context, of a page of its map, at that page's entry; no two walks share a key. -/
def Obligations.TranslationTablesStaySound : Prop :=
  ∀ s s' : State, s.gate.TablesSound → step s = .next s' → s'.gate.TablesSound

/-- R121, R123, R33, R54, R58: no request egress queue exceeds 16 packets, and the trunk answer transmit queue does not exceed 32;
the heads that wait, for a slot, for a walk slot or on a walk, stand once each where they wait and nowhere else, and every
answer slot is held as its state says. So no slot-wait list exceeds 16 heads, the walk waiting list does not exceed 64, and no
answer egress queue exceeds 64 answers. -/
def Obligations.QueuesStayBounded : Prop :=
  (∀ s s' : State, s.gate.QueuesBounded → step s = .next s' → s'.gate.QueuesBounded) ∧
  (∀ s s' : State, s.gate.HeadsSound → s.gate.SlotsSound → step s = .next s' →
    s'.gate.HeadsSound ∧ s'.gate.SlotsSound) ∧
  ∀ g : Gate,
    (g.HeadsSound → (∀ b, (g.branch b).slotWait.length ≤ 16) ∧ g.walkWaiting.length ≤ 64 ∧ g.walkWaiting.Nodup) ∧
    (g.SlotsSound → ∀ b, (g.branch b).egressAnswers.length ≤ 64)

/-! ### Which commands may change what -/

/-- R75, R76, R71: a request entry becomes LIVE only at a departure grant, from FREE, under the current generation of its stream's
binding and the current epoch of its context, with the exponent in force, no orphan; every other change is LIVE to FREE or
LATE, LATE to FREE, or the orphan mark. -/
def Obligations.EntriesGoLiveOnlyAtAGrant : Prop :=
  ∀ (c : Instr) (s : State) (g : Gate), exec c s = .next (s.withGate g) → ∀ t : RequestTag,
    match g.entry t with
    | .free => True
    | .late k => s.gate.entry t = .late k ∨ ∃ e, s.gate.entry t = .live e
    | .live e =>
      (∃ e', s.gate.entry t = .live e' ∧ (e = e' ∨ e = { e' with orphan := true })) ∨
      (c = .departureGrant ∧ s.gate.entry t = .free ∧ e.orphan = false ∧ e.timer = s.gate.exponent ∧
        e.generation = (s.gate.stream e.stream).generation ∧
        ∀ (x : ContextNo) (epoch : Word16), e.binding = .mapped x epoch → epoch = (s.gate.context x).epoch)

/-- R144, R133: only CLAIM, RELEASE and the whole-gate resets change the manager. -/
def Obligations.ManagerChangesOnlyByClaimReleaseReset : Prop :=
  ∀ (c : Instr) (s : State) (g : Gate), c.wellFormed = true → exec c s = .next (s.withGate g) →
    g.management.manager = s.gate.management.manager ∨ c = .claim ∨ c = .release ∨ (∃ straps, c = .powerOn straps) ∨
    (∃ body, c = .initReceived .trunk body)

/-- R13: only CONTEXT-RETIRE, INVALIDATE and the whole-gate resets change the epoch of a context. -/
def Obligations.EpochsChangeOnlyByRetireInvalidateReset : Prop :=
  ∀ (c : Instr) (s : State) (g : Gate), c.wellFormed = true → exec c s = .next (s.withGate g) → ∀ x : ContextNo,
    (g.context x).epoch = (s.gate.context x).epoch ∨ c = .contextRetire ∨ c = .invalidate ∨
    (∃ straps, c = .powerOn straps) ∨ (∃ body, c = .initReceived .trunk body)

/-- R10, R46, R48: a stream's mode and generation change only by STREAM-BIND, by the whole-gate resets, and by the completion of a
retire (at CONTEXT-RETIRE or at an event that completes one), which takes a MAPPED stream to BLOCKED with the generation one
more. -/
def Obligations.BindingsChangeOnlyByBindRetireReset : Prop :=
  ∀ (c : Instr) (s : State) (g : Gate), c.wellFormed = true → exec c s = .next (s.withGate g) → ∀ x : StreamId,
    ((g.stream x).mode = (s.gate.stream x).mode ∧ (g.stream x).generation = (s.gate.stream x).generation) ∨
    c = .streamBind ∨ (∃ straps, c = .powerOn straps) ∨ (∃ body, c = .initReceived .trunk body) ∨
    ((c = .contextRetire ∨ (∃ body, c = .trunkAnswerArrival body) ∨ (∃ t, c = .entryExpiry t) ∨
        (∃ i, c = .walkExpiry i) ∨ (∃ y, c = .retireComplete y)) ∧
      (∃ y, (s.gate.stream x).mode = .mapped y) ∧ (g.stream x).mode = .blocked ∧
      (g.stream x).generation = (s.gate.stream x).generation + 1)

/-- R78, R79, R107, R116 to R118, R133: GATE_ID, the timer exponent, the unattached policy and the route windows change only
by the commands that set them and by the whole-gate resets. -/
def Obligations.ConfigurationChangesOnlyByItsCommands : Prop :=
  ∀ (c : Instr) (s : State) (g : Gate), c.wellFormed = true → exec c s = .next (s.withGate g) →
    (∃ straps, c = .powerOn straps) ∨
    (g.gateId = s.gate.gateId ∧
      ((∃ body, c = .initReceived .trunk body) ∨
        (g.exponent = s.gate.exponent ∨ c = .timeoutSet) ∧
        (g.log.policy = s.gate.log.policy ∨ c = .faultsPolicy) ∧
        (g.windows = s.gate.windows ∨ c = .windowSet ∨ c = .windowClear)))

/-! ### The taking of CONTROL packets and the management unit (09) -/

/-- R142 to R144: checks 3 to 5 of each of the 19 commands, in their order. From a node that may not issue it: NOT_MANAGER;
with 8 commands pending: BUSY; with an operand block of another length or a reserved byte that is not zero: BAD_ARGUMENT.
The reply is the whole effect. -/
def Obligations.SharedChecksRefuseInOrder : Prop :=
  ∀ (c : Command) (s : State) (p : ControlPacket) (rest : List ControlPacket), s.gate.Takes c p rest →
    let reads := [Command.identify, .gateRead, .contextRead, .streamRead, .windowRead, .branchRead]
    let may := c ∈ reads ∨ s.gate.management.manager = some p.source ∨ (c = .claim ∧ s.gate.management.manager = none)
    let badLength := p.operands.length ≠ operandLength c
    let badReserved := ∃ i ∈ reservedOffsets c, p.operands.getD i 0 ≠ 0
    (¬ may → exec c.instr s = .next (s.withGate (s.gate.replied p rest .notManager []))) ∧
    (may → 8 ≤ s.gate.management.pendingList.length →
      exec c.instr s = .next (s.withGate (s.gate.replied p rest .busy []))) ∧
    (may → s.gate.management.pendingList.length < 8 → badLength ∨ badReserved →
      exec c.instr s = .next (s.withGate (s.gate.replied p rest .badArgument [])))

/-- R142: while the control transmit queue has no open place, a management row changes nothing: the packet stays at the front
with its credit. That such a row changes nothing too where the ingress control buffer is empty, or where the front packet is
another row's (for another gate, or with another code), is the model's choice (log entries 5 and 14). -/
def Obligations.PacketsWaitForAnOpenPlace : Prop :=
  (∀ (c : Instr) (s : State), (∃ d : Command, c = d.instr) ∨ c = .unknownCommand ∨ c = .misdirectedControl →
    12 ≤ s.gate.management.controlQueue.length + s.gate.management.pendingList.length ∨ s.gate.trunk.ingressControl = [] →
    exec c s = .next s) ∧
  ∀ (s : State) (p : ControlPacket) (rest : List ControlPacket), s.gate.trunk.ingressControl = p :: rest →
    (∀ d : Command, p.gateId ≠ s.gate.gateId ∨ p.code ≠ commandCode d → exec d.instr s = .next s) ∧
    (p.gateId ≠ s.gate.gateId ∨ (∃ d : Command, p.code = commandCode d) → exec .unknownCommand s = .next s) ∧
    (p.gateId = s.gate.gateId → exec .misdirectedControl s = .next s)

/-- R143, checks 1 and 2: a packet for another gate is discarded and counted, with no reply; a packet whose code is none of
the 19 is replied to with UNKNOWN. -/
def Obligations.MisdirectedAndUnknownPackets : Prop :=
  ∀ (s : State) (p : ControlPacket) (rest : List ControlPacket), s.gate.trunk.ingressControl = p :: rest →
    s.gate.management.controlQueue.length + s.gate.management.pendingList.length < 12 →
    (p.gateId ≠ s.gate.gateId →
      exec .misdirectedControl s = .next (s.withGate
        { s.gate.taken rest with
          management :=
            { s.gate.management with
              counters :=
                { s.gate.management.counters with misdirected := s.gate.management.counters.misdirected + 1 } } })) ∧
    (p.gateId = s.gate.gateId →
      p.code ∉ ([0x01, 0x02, 0x03, 0x04, 0x10, 0x11, 0x12, 0x13, 0x20, 0x21, 0x30, 0x40, 0x50, 0x51, 0x52, 0x60, 0x61, 0x70,
        0x71] : List Byte) →
      exec .unknownCommand s = .next (s.withGate (s.gate.replied p rest .unknown [])))

/-- R145: CLAIM makes its sender the manager where there is none, changes nothing where the sender is the manager, and is
refused with NOT_MANAGER where another node is. -/
def Obligations.ClaimOutcomes : Prop :=
  ∀ (s : State) (p : ControlPacket) (rest : List ControlPacket), s.gate.Takes .claim p rest →
    s.gate.management.pendingList.length < 8 → p.operands = [] →
    exec .claim s = .next (s.withGate
      (match s.gate.management.manager with
        | none => { s.gate with management := { s.gate.management with manager := some p.source } }.replied p rest .done []
        | some m => if m = p.source then s.gate.replied p rest .done [] else s.gate.replied p rest .notManager []))

/-- R146: RELEASE from the manager sets the manager to none, clears every owed flag and replies DONE; from another node, or
with no manager, it is refused with NOT_MANAGER. It withdraws nothing else. -/
def Obligations.ReleaseOutcomes : Prop :=
  ∀ (s : State) (p : ControlPacket) (rest : List ControlPacket), s.gate.Takes .release p rest →
    s.gate.management.pendingList.length < 8 → p.operands = [] →
    exec .release s = .next (s.withGate
      (if s.gate.management.manager = some p.source then
        { s.gate with
          management :=
            { s.gate.management with
              manager := none, faultsOwed := false, branchOwed := Vector.replicate 4 false } }.replied p rest .done []
      else s.gate.replied p rest .notManager []))

/-- R151: the results of IDENTIFY, figure by figure, and of GATE-READ, the six gate counters of 4 bytes each in their order.
The reply is the whole effect of each. -/
def Obligations.IdentifyAndGateReadResults : Prop :=
  (∀ (s : State) (p : ControlPacket) (rest : List ControlPacket), s.gate.Passes .identify p rest → p.operands = [] →
    exec .identify s = .next (s.withGate (s.gate.replied p rest .done
      ([0xB7, 3, 0x04, 0x16, (match s.gate.management.resetCause with | .power => 0 | .trunk => 1), s.gate.gateId] ++
        (match s.gate.management.manager with | none => [0, 0] | some m => [1, m]) ++ [64, 16, 128, 4, 252, 8, 32, 0])))) ∧
  (∀ (s : State) (p : ControlPacket) (rest : List ControlPacket), s.gate.Passes .gateRead p rest → p.operands = [] →
    ∃ results : List Byte, exec .gateRead s = .next (s.withGate (s.gate.replied p rest .done results)) ∧
      results.length = 24 ∧
      operandField results 0 4 = s.gate.management.counters.trunkMalformed.toNat ∧
      operandField results 4 4 = s.gate.management.counters.strayAnswers.toNat ∧
      operandField results 8 4 = s.gate.management.counters.lateAnswers.toNat ∧
      operandField results 12 4 = s.gate.management.counters.misdirected.toNat ∧
      operandField results 16 4 = s.gate.management.counters.hostRefused.toNat ∧
      operandField results 20 4 = s.gate.management.counters.lostFaults.toNat)

/-- R79: TIMEOUT-SET with an exponent 0 to 11 puts it in force and replies with the one before; a higher one is refused. -/
def Obligations.TimeoutSetOutcomes : Prop :=
  ∀ (s : State) (p : ControlPacket) (rest : List ControlPacket) (k : Byte), s.gate.Passes .timeoutSet p rest →
    p.operands = [k, 0, 0, 0] →
    (∀ h : k.toNat < 12, exec .timeoutSet s = .next (s.withGate
      ({ s.gate with exponent := ⟨k.toNat, h⟩ }.replied p rest .done [BitVec.ofNat 8 s.gate.exponent.val, 0, 0, 0]))) ∧
    (12 ≤ k.toNat → exec .timeoutSet s = .next (s.withGate (s.gate.replied p rest .badArgument [])))

/-! ### The fault log (06) -/

/-- R107: FAULTS-POLICY sets the unattached policy and replies with the one before; an operand that is neither is refused. -/
def Obligations.FaultsPolicyOutcomes : Prop :=
  ∀ (s : State) (p : ControlPacket) (rest : List ControlPacket) (x : Byte), s.gate.Passes .faultsPolicy p rest →
    p.operands = [x, 0, 0, 0] →
    let before : Byte := if s.gate.log.policy then 1 else 0
    exec .faultsPolicy s = .next (s.withGate
      (if x = 0 then { s.gate with log := { s.gate.log with policy := false } }.replied p rest .done [before, 0, 0, 0]
      else if x = 1 then { s.gate with log := { s.gate.log with policy := true } }.replied p rest .done [before, 0, 0, 0]
      else s.gate.replied p rest .badArgument []))

/-- R113: FAULTS-TAKE with 1 to 8 removes that many of the oldest records, or all, clears the latch, withdraws an owed FAULTS
notice, and replies with the number removed, the number left, two bytes of zero (R154) and 16 bytes for each; another operand
is refused. -/
def Obligations.FaultsTakeOutcomes : Prop :=
  ∀ (s : State) (p : ControlPacket) (rest : List ControlPacket) (n : Byte), s.gate.Passes .faultsTake p rest →
    p.operands = [n, 0, 0, 0] → s.gate.log.Sound →
    (1 ≤ n.toNat → n.toNat ≤ 8 → ∃ results : List Byte,
      exec .faultsTake s = .next (s.withGate
        ({ s.gate with
          log := { s.gate.log with records := s.gate.log.records.drop n.toNat, latch := false }
          management := { s.gate.management with faultsOwed := false } }.replied p rest .done results)) ∧
      operandField results 0 1 = min n.toNat s.gate.log.records.length ∧
      operandField results 1 1 = s.gate.log.records.length - n.toNat ∧
      operandField results 2 2 = 0 ∧
      results.drop 4 = (s.gate.log.records.take n.toNat).flatMap faultRecordBytes) ∧
    (n = 0 ∨ 8 < n.toNat → exec .faultsTake s = .next (s.withGate (s.gate.replied p rest .badArgument [])))

/-- 10.5 and R104: the 16 bytes of a fault record say every field of it, and an absent field is sent as zero with its
presence bit clear. -/
def Obligations.FaultRecordBytesSayTheRecord : Prop :=
  ∀ r : FaultRecord, 1 ≤ r.repeats → r.repeats ≤ 255 → (∀ n, r.lostBefore = some n → n ≤ 255) →
    (∀ n, r.fault.page = some n → n < 2 ^ 36) →
    (faultRecordBytes r).length = 16 ∧
    operandField (faultRecordBytes r) 0 2 = r.sequence.toNat ∧
    operandField (faultRecordBytes r) 2 1 =
      (match r.fault.kind with
        | .blockedStream => 1 | .contextClosed => 2 | .splitPage => 3 | .outOfMap => 4 | .notPresent => 5 | .badEntry => 6
        | .readDenied => 7 | .writeDenied => 8 | .mapReadError => 9 | .answerTimeout => 10 | .corruptData => 11
        | .malformed => 12) ∧
    operandField (faultRecordBytes r) 6 1 =
      (match r.fault.access with | none => 0 | some .push => 1 | some .commit => 2 | some .fetch => 3) ∧
    operandField (faultRecordBytes r) 7 1 =
      (match r.fault.detail with
        | none => 0 | some .done => 0 | some .denied => 1 | some .noroute => 2 | some .timeout => 3 | some .corrupt => 4) ∧
    operandField (faultRecordBytes r) 8 1 = r.repeats ∧
    operandField (faultRecordBytes r) 9 1 = r.lostBefore.getD 0 ∧
    operandField (faultRecordBytes r) 10 6 = r.fault.page.getD 0 ∧
    operandField (faultRecordBytes r) 4 1 = (r.fault.stream.map Fin.val).getD 0 ∧
    operandField (faultRecordBytes r) 5 1 = (r.fault.context.map Fin.val).getD 0 ∧
    operandField (faultRecordBytes r) 3 1 =
      (if r.fault.stream.isSome then 1 else 0) + (if r.fault.context.isSome then 2 else 0) +
      (if r.fault.page.isSome then 4 else 0) + (if r.fault.access.isSome then 8 else 0) +
      (if r.fault.detail.isSome then 16 else 0) + (if r.lostBefore.isSome then 32 else 0)

/-- R105, R108 to R110, R112, R148: what offering a fault does: silenced by the report flag or the policy, merged into the
newest record, joined as a new record, or lost. Nothing but the contexts' fault counters, the log and the management unit
changes. -/
def Obligations.OfferedFaultOutcomes : Prop :=
  ∀ (g : Gate) (f : FaultReport),
    let silenced := match f.context with | some c => (g.context c).report = false | none => g.log.policy = false
    let merges := ∃ before r, g.log.records = before ++ [r] ∧ r.fault = f ∧ r.repeats < 255
    g.offerFault f =
      { g with
        contexts := (g.offerFault f).contexts, log := (g.offerFault f).log, management := (g.offerFault f).management } ∧
    (g.offerFault f).contexts = (match f.context with
      | none => g.contexts
      | some c => g.contexts.set c.val
          { g.context c with
            counters :=
              if (g.context c).report then
                { (g.context c).counters with faultsRecorded := (g.context c).counters.faultsRecorded + 1 }
              else { (g.context c).counters with faultsSilenced := (g.context c).counters.faultsSilenced + 1 } }) ∧
    (silenced → (g.offerFault f).log = g.log ∧ (g.offerFault f).management = g.management) ∧
    (¬ silenced → ∀ before r, g.log.records = before ++ [r] → r.fault = f → r.repeats < 255 →
      (g.offerFault f).log = { g.log with records := before ++ [{ r with repeats := r.repeats + 1 }] } ∧
      (g.offerFault f).management = g.management) ∧
    (¬ silenced → ¬ merges → g.log.records.length < 32 →
      (g.offerFault f).log =
        { g.log with
          records := g.log.records ++
            [{ sequence := g.log.nextSequence, fault := f, repeats := 1,
               lostBefore := if g.log.pendingLoss = 0 then none else some g.log.pendingLoss }]
          nextSequence := g.log.nextSequence + 1, pendingLoss := 0, latch := true } ∧
      (g.offerFault f).management =
        { g.management with
          faultsOwed := g.management.faultsOwed || (!g.log.latch && g.management.manager.isSome) }) ∧
    (¬ silenced → ¬ merges → 32 ≤ g.log.records.length →
      (g.offerFault f).log = { g.log with pendingLoss := min (g.log.pendingLoss + 1) 255 } ∧
      (g.offerFault f).management =
        { g.management with counters := { g.management.counters with lostFaults := g.management.counters.lostFaults + 1 } })

/-- R148, R149: NOTICE_PLACE places the first notice owed in the order FAULTS, branch 0 to 3, addressed to the manager, a
FAULTS notice with the record count now, and clears its flag; one notice at a time is the model's choice (log entry 12).
Without a manager, an open place or an owed notice, nothing is placed. -/
def Obligations.NoticePlaceOutcomes : Prop :=
  ∀ (s : State),
    let m := s.gate.management
    (∀ node, m.manager = some node → m.controlQueue.length + m.pendingList.length < 12 → m.faultsOwed = true →
      exec .noticePlace s = .next (s.withGate
        { s.gate with
          management :=
            { m with
              controlQueue := m.controlQueue ++ [.faultsNotice node s.gate.log.records.length], faultsOwed := false } })) ∧
    (∀ (node : Byte) (b : BranchNo), m.manager = some node → m.controlQueue.length + m.pendingList.length < 12 →
      m.faultsOwed = false → m.branchOwed[b.val] = true → (∀ d : BranchNo, d < b → m.branchOwed[d.val] = false) →
      exec .noticePlace s = .next (s.withGate
        { s.gate with
          management :=
            { m with
              controlQueue := m.controlQueue ++ [.branchNotice node b], branchOwed := m.branchOwed.set b.val false } })) ∧
    (m.manager = none ∨ 12 ≤ m.controlQueue.length + m.pendingList.length ∨
      (m.faultsOwed = false ∧ ∀ d : BranchNo, m.branchOwed[d.val] = false) → exec .noticePlace s = .next s)

/-! ### Contexts and invalidation (01, 05) -/

/-- R5: CONTEXT-SETUP of a FREE or READY context with a map root that is a multiple of 4096, a length of 1 to 1,048,576 and a
map below 2^48 makes it READY with that description and its counters 0; in another state it is refused with STATE, and with
operands out of range with BAD_ARGUMENT. A context number above 15 gives each of the five context commands BAD_ARGUMENT,
whatever its other operands (R3, R12, R88). -/
def Obligations.ContextSetupOutcomes : Prop :=
  (∀ (s : State) (p : ControlPacket) (rest : List ControlPacket) (c : ContextNo) (report : Byte) (length root : List Byte),
    s.gate.Passes .contextSetup p rest → length.length = 4 → root.length = 6 →
    p.operands = [BitVec.ofNat 8 c.val, report, 0, 0] ++ length ++ root ++ [0, 0] →
    let open' := (s.gate.context c).state = .free ∨ (s.gate.context c).state = .ready
    let fits := natOfBytes root % 4096 = 0 ∧ 1 ≤ natOfBytes length ∧ natOfBytes length ≤ 1048576 ∧
      natOfBytes root + 8 * natOfBytes length ≤ 2 ^ 48 ∧ (report = 0 ∨ report = 1)
    ((s.gate.context c).pending = none → open' → fits → exec .contextSetup s = .next (s.withGate
      ({ s.gate with
        contexts := s.gate.contexts.set c.val
          { s.gate.context c with
            state := .ready, mapRoot := BitVec.ofNat 48 (natOfBytes root), mapLength := natOfBytes length,
            report := decide (report = 1), counters := ⟨0, 0, 0, 0, 0, 0, 0⟩ } }.replied p rest .done []))) ∧
    (¬ open' → exec .contextSetup s = .next (s.withGate (s.gate.replied p rest .state []))) ∧
    ((s.gate.context c).pending = none → open' → ¬ fits →
      exec .contextSetup s = .next (s.withGate (s.gate.replied p rest .badArgument [])))) ∧
  (∀ (c : Command) (s : State) (p : ControlPacket) (rest : List ControlPacket), s.gate.Passes c p rest →
    c ∈ [Command.contextSetup, .contextOpen, .contextRetire, .contextRead, .invalidate] → 15 < (p.operands.getD 0 0).toNat →
    exec c.instr s = .next (s.withGate (s.gate.replied p rest .badArgument [])))

/-- R6: CONTEXT-OPEN makes a READY context ACTIVE and changes nothing else of it; in FREE, ACTIVE and DRAINING it is refused
with STATE. (A READY context has no pending long command: R4.) -/
def Obligations.ContextOpenOutcomes : Prop :=
  ∀ (s : State) (p : ControlPacket) (rest : List ControlPacket) (c : ContextNo), s.gate.Passes .contextOpen p rest →
    p.operands = [BitVec.ofNat 8 c.val, 0, 0, 0] → (s.gate.context c).Sound →
    exec .contextOpen s = .next (s.withGate
      (if (s.gate.context c).state = .ready then
        { s.gate with
          contexts := s.gate.contexts.set c.val { s.gate.context c with state := .active } }.replied p rest .done []
      else s.gate.replied p rest .state []))

/-- R7: CONTEXT-RETIRE of a READY context raises its epoch, changes every binding MAPPED to it to BLOCKED with the generation
one more, frees it and replies DONE; of a FREE or DRAINING one it is refused with STATE, and of an ACTIVE one with an INVALIDATE pending with CONFLICT (R3). -/
def Obligations.RetireReadyOrRefused : Prop :=
  ∀ (s : State) (p : ControlPacket) (rest : List ControlPacket) (c : ContextNo), s.gate.Passes .contextRetire p rest →
    p.operands = [BitVec.ofNat 8 c.val, 0, 0, 0] →
    ((s.gate.context c).state = .ready → (s.gate.context c).pending = none →
      ∃ g : Gate, exec .contextRetire s = .next (s.withGate (g.replied p rest .done [])) ∧
        g = { s.gate with
          contexts := s.gate.contexts.set c.val
            { s.gate.context c with state := .free, epoch := (s.gate.context c).epoch + 1 }
          streams := g.streams } ∧
        ∀ x : StreamId, g.stream x =
          if (s.gate.stream x).mode = .mapped c then
            { s.gate.stream x with mode := .blocked, generation := (s.gate.stream x).generation + 1 }
          else s.gate.stream x) ∧
    ((s.gate.context c).state = .free ∨ (s.gate.context c).state = .draining →
      exec .contextRetire s = .next (s.withGate (s.gate.replied p rest .state []))) ∧
    ((s.gate.context c).state = .active → (s.gate.context c).pending.isSome →
      exec .contextRetire s = .next (s.withGate (s.gate.replied p rest .conflict [])))

/-- R8, R9, R10, R27: CONTEXT-RETIRE of an ACTIVE context raises its epoch, removes its cache entries and makes it DRAINING;
while an entry is LIVE under it or a slot is WALKING for it, the command is recorded as pending, without a reply; otherwise
it completes: bindings BLOCKED, the context FREE, DONE. -/
def Obligations.RetireActiveDrainsOrCompletes : Prop :=
  ∀ (s : State) (p : ControlPacket) (rest : List ControlPacket) (c : ContextNo), s.gate.Passes .contextRetire p rest →
    p.operands = [BitVec.ofNat 8 c.val, 0, 0, 0] → (s.gate.context c).state = .active → (s.gate.context c).pending = none →
    (∀ e ∈ s.gate.management.pendingList, e.context ≠ c) →
    let cache := s.gate.cache.filter fun e => e.context != c
    let held := (∃ t e epoch, s.gate.entry t = .live e ∧ e.binding = .mapped c epoch) ∨
      (∃ i w, s.gate.walk i = .walking w ∧ w.context = c)
    (held → exec .contextRetire s = .next (s.withGate
      { s.gate.taken rest with
        cache := cache
        contexts := s.gate.contexts.set c.val
          { s.gate.context c with
            state := .draining, epoch := (s.gate.context c).epoch + 1, pending := some ⟨.retire, p.tag, p.source⟩ }
        management :=
          { s.gate.management with
            pendingList := s.gate.management.pendingList ++ [⟨.retire, c, p.tag, p.source⟩] } })) ∧
    (¬ held → ∃ g : Gate, exec .contextRetire s = .next (s.withGate (g.replied p rest .done [])) ∧
      g = { s.gate with
        cache := cache
        contexts := s.gate.contexts.set c.val
          { s.gate.context c with state := .free, epoch := (s.gate.context c).epoch + 1 }
        streams := g.streams } ∧
      ∀ x : StreamId, g.stream x =
        if (s.gate.stream x).mode = .mapped c then
          { s.gate.stream x with mode := .blocked, generation := (s.gate.stream x).generation + 1 }
        else s.gate.stream x)

/-- R88, R89: INVALIDATE of a READY context with a range inside its map raises its epoch and replies DONE with the context
and the new epoch; of a FREE or DRAINING one it is refused with STATE; with a range outside the map, with BAD_ARGUMENT. -/
def Obligations.InvalidateReadyOrRefused : Prop :=
  ∀ (s : State) (p : ControlPacket) (rest : List ControlPacket) (c : ContextNo) (first count : List Byte),
    s.gate.Passes .invalidate p rest → first.length = 4 → count.length = 4 →
    p.operands = [BitVec.ofNat 8 c.val, 0, 0, 0] ++ first ++ count →
    let x := s.gate.context c
    let inside := 1 ≤ natOfBytes count ∧ natOfBytes count ≤ 1048576 ∧ natOfBytes first + natOfBytes count ≤ x.mapLength
    (x.state = .ready → x.pending = none → inside → exec .invalidate s = .next (s.withGate
      ({ s.gate with contexts := s.gate.contexts.set c.val { x with epoch := x.epoch + 1 } }.replied p rest .done
        ([BitVec.ofNat 8 c.val, 0] ++ bytesOfNat 2 (x.epoch + 1).toNat)))) ∧
    (x.state = .free ∨ x.state = .draining → exec .invalidate s = .next (s.withGate (s.gate.replied p rest .state []))) ∧
    (x.state = .active → x.pending.isSome → exec .invalidate s = .next (s.withGate (s.gate.replied p rest .conflict []))) ∧
    (x.state = .ready ∨ x.state = .active → x.pending = none → ¬ inside →
      exec .invalidate s = .next (s.withGate (s.gate.replied p rest .badArgument [])))

/-- R26, R90, R91, R92: INVALIDATE of an ACTIVE context removes its cache entries of the range, raises its epoch, and is
recorded as pending, without a reply, while an entry is LIVE or a walk is under way at the old epoch; otherwise it replies
DONE with the new epoch. -/
def Obligations.InvalidateActiveDrainsOrCompletes : Prop :=
  ∀ (s : State) (p : ControlPacket) (rest : List ControlPacket) (c : ContextNo) (first count : List Byte),
    s.gate.Passes .invalidate p rest → first.length = 4 → count.length = 4 →
    p.operands = [BitVec.ofNat 8 c.val, 0, 0, 0] ++ first ++ count →
    (s.gate.context c).state = .active → (s.gate.context c).pending = none →
    (∀ e ∈ s.gate.management.pendingList, e.context ≠ c) →
    1 ≤ natOfBytes count → natOfBytes count ≤ 1048576 →
    natOfBytes first + natOfBytes count ≤ (s.gate.context c).mapLength →
    let x := s.gate.context c
    let cache := s.gate.cache.filter fun e =>
      !decide (e.context = c ∧ natOfBytes first ≤ e.page ∧ e.page < natOfBytes first + natOfBytes count)
    let held := (∃ t e, s.gate.entry t = .live e ∧ e.binding = .mapped c x.epoch) ∨
      (∃ i w, s.gate.walk i = .walking w ∧ w.context = c ∧ w.epoch = x.epoch)
    (held → exec .invalidate s = .next (s.withGate
      { s.gate.taken rest with
        cache := cache
        contexts := s.gate.contexts.set c.val
          { x with
            epoch := x.epoch + 1
            pending := some ⟨.invalidate (natOfBytes first) (natOfBytes count), p.tag, p.source⟩ }
        management :=
          { s.gate.management with
            pendingList := s.gate.management.pendingList ++
              [⟨.invalidate (natOfBytes first) (natOfBytes count), c, p.tag, p.source⟩] } })) ∧
    (¬ held → exec .invalidate s = .next (s.withGate
      ({ s.gate with
        cache := cache
        contexts := s.gate.contexts.set c.val { x with epoch := x.epoch + 1 } }.replied p rest .done
          ([BitVec.ofNat 8 c.val, 0] ++ bytesOfNat 2 (x.epoch + 1).toNat))))

/-- R9, R10, R91, R92: where the drain of a pending retire is found complete, RETIRE_COMPLETE makes the bindings to the context
BLOCKED, frees it, clears the pending command and queues DONE to the recorded node with the recorded tag; where that of a
pending INVALIDATE is, INVALIDATE_COMPLETE clears it and queues DONE with the context and its current epoch, and changes no
cache entry, epoch, binding, entry or walk. Where an entry is LIVE under the context (for an INVALIDATE, at the epoch one
less), or a walk is under way for it, or the command is not pending, nothing is found (log entries 5 and 13). -/
def Obligations.DrainCompletionOutcomes : Prop :=
  (∀ (s : State) (c : ContextNo),
    let held := (∃ t e epoch, s.gate.entry t = .live e ∧ e.binding = .mapped c epoch) ∨
      (∃ i w, s.gate.walk i = .walking w ∧ w.context = c)
    (∀ tag node, (s.gate.context c).pending = some ⟨.retire, tag, node⟩ → ¬ held →
      ∃ g : Gate, exec (.retireComplete c) s = .next (s.withGate g) ∧
        g = { s.gate with
          contexts := s.gate.contexts.set c.val { s.gate.context c with state := .free, pending := none }
          streams := g.streams
          management :=
            { s.gate.management with
              pendingList := s.gate.management.pendingList.filter fun e => e.context != c
              controlQueue := s.gate.management.controlQueue ++ [.reply node tag .done 0x12 []] } } ∧
        ∀ x : StreamId, g.stream x =
          if (s.gate.stream x).mode = .mapped c then
            { s.gate.stream x with mode := .blocked, generation := (s.gate.stream x).generation + 1 }
          else s.gate.stream x) ∧
    (held ∨ (∀ tag node, (s.gate.context c).pending ≠ some ⟨.retire, tag, node⟩) → exec (.retireComplete c) s = .next s)) ∧
  (∀ (s : State) (c : ContextNo),
    let x := s.gate.context c
    let held := (∃ t e, s.gate.entry t = .live e ∧ e.binding = .mapped c (x.epoch - 1)) ∨
      (∃ i w, s.gate.walk i = .walking w ∧ w.context = c ∧ w.epoch = x.epoch - 1)
    (∀ first count tag node, x.pending = some ⟨.invalidate first count, tag, node⟩ → ¬ held →
      exec (.invalidateComplete c) s = .next (s.withGate
        { s.gate with
          contexts := s.gate.contexts.set c.val { x with pending := none }
          management :=
            { s.gate.management with
              pendingList := s.gate.management.pendingList.filter fun e => e.context != c
              controlQueue := s.gate.management.controlQueue ++
                [.reply node tag .done 0x30 ([BitVec.ofNat 8 c.val, 0] ++ bytesOfNat 2 x.epoch.toNat)] } })) ∧
    (held ∨ (∀ first count tag node, x.pending ≠ some ⟨.invalidate first count, tag, node⟩) →
      exec (.invalidateComplete c) s = .next s))

/-- R12, 10.3: CONTEXT-READ replies with the record, the counters and the drain figures of the context, the reserved bytes zero
and the range zero where no INVALIDATE is pending, and changes nothing else. -/
def Obligations.ContextReadResults : Prop :=
  ∀ (s : State) (p : ControlPacket) (rest : List ControlPacket) (c : ContextNo), s.gate.Passes .contextRead p rest →
    p.operands = [BitVec.ofNat 8 c.val, 0, 0, 0] → (s.gate.context c).Sound →
    let x := s.gate.context c
    ∃ results : List Byte, exec .contextRead s = .next (s.withGate (s.gate.replied p rest .done results)) ∧
      results.length = 60 ∧
      operandField results 0 1 = c.val ∧
      operandField results 1 1 = (match x.state with | .free => 0 | .ready => 1 | .active => 2 | .draining => 3) ∧
      operandField results 2 1 = (if x.report then 1 else 0) ∧
      operandField results 3 1 =
        (match x.pending with | none => 0 | some ⟨.invalidate _ _, _, _⟩ => 1 | some ⟨.retire, _, _⟩ => 2) ∧
      operandField results 4 2 = x.epoch.toNat ∧
      operandField results 8 4 = x.mapLength ∧
      operandField results 12 6 = x.mapRoot.toNat ∧
      operandField results 18 2 = 0 ∧
      operandField results 6 1 = (match x.pending with | none => 0 | some l => l.tag.toNat) ∧
      operandField results 7 1 = (match x.pending with | none => 0 | some l => l.node.toNat) ∧
      (∀ first count tag node, x.pending = some ⟨.invalidate first count, tag, node⟩ →
        first < 2 ^ 32 → count < 2 ^ 32 →
        operandField results 20 4 = first ∧ operandField results 24 4 = count) ∧
      ((∀ first count tag node, x.pending ≠ some ⟨.invalidate first count, tag, node⟩) →
        operandField results 20 4 = 0 ∧ operandField results 24 4 = 0) ∧
      operandField results 28 1 = s.gate.entries.toList.countP (fun e =>
        match e with | .live e => (match e.binding with | .mapped d _ => d == c | .direct => false) | _ => false) ∧
      operandField results 29 1 = s.gate.entries.toList.countP (fun e =>
        match e with
        | .live e => (match e.binding with | .mapped d epoch => d == c && epoch == x.epoch - 1 | .direct => false)
        | _ => false) ∧
      operandField results 30 1 = s.gate.walks.toList.countP (fun w =>
        match w with | .walking w => w.context == c | _ => false) ∧
      operandField results 31 1 = s.gate.streams.toList.countP (fun y => y.mode == .mapped c) ∧
      operandField results 32 4 = x.counters.lookups.toNat ∧ operandField results 36 4 = x.counters.cacheHits.toNat ∧
      operandField results 40 4 = x.counters.walksStarted.toNat ∧
      operandField results 44 4 = x.counters.faultsRecorded.toNat ∧
      operandField results 48 4 = x.counters.faultsSilenced.toNat ∧
      operandField results 52 4 = x.counters.answerTimeouts.toNat ∧
      operandField results 56 4 = x.counters.corruptAnswers.toNat

/-! ### Streams (03) -/

/-- R47, R48: STREAM-BIND to BLOCKED, to DIRECT, or to a READY or ACTIVE context without a pending long command sets the mode
and raises the generation; it is refused with STATE for a FREE or DRAINING context, with CONFLICT where an INVALIDATE is
pending, and with BAD_ARGUMENT for a stream above 63 or another mode. Heads and queues are not touched. -/
def Obligations.StreamBindOutcomes : Prop :=
  (∀ (s : State) (p : ControlPacket) (rest : List ControlPacket) (x : StreamId) (mode context : Byte),
    s.gate.Passes .streamBind p rest → p.operands = [BitVec.ofNat 8 x.val, mode, context, 0] →
    let bound (m : Mode) : Gate :=
      { s.gate with
        streams := s.gate.streams.set x.val
          { s.gate.stream x with mode := m, generation := (s.gate.stream x).generation + 1 } }.replied p rest .done []
    (mode = 0 → exec .streamBind s = .next (s.withGate (bound .blocked))) ∧
    (mode = 1 → exec .streamBind s = .next (s.withGate (bound .direct))) ∧
    (mode = 2 → ∀ c : ContextNo, context = BitVec.ofNat 8 c.val →
      exec .streamBind s = .next (s.withGate
        (if (s.gate.context c).state = .free ∨ (s.gate.context c).state = .draining then s.gate.replied p rest .state []
        else if (s.gate.context c).pending.isSome then s.gate.replied p rest .conflict []
        else bound (.mapped c)))) ∧
    (2 < mode.toNat ∨ (mode = 2 ∧ 15 < context.toNat) →
      exec .streamBind s = .next (s.withGate (s.gate.replied p rest .badArgument [])))) ∧
  (∀ (s : State) (p : ControlPacket) (rest : List ControlPacket) (stream mode context : Byte),
    s.gate.Passes .streamBind p rest → p.operands = [stream, mode, context, 0] → 63 < stream.toNat →
    (mode ≠ 2 → exec .streamBind s = .next (s.withGate (s.gate.replied p rest .badArgument []))) ∧
    (mode = 2 → 15 < context.toNat → exec .streamBind s = .next (s.withGate (s.gate.replied p rest .badArgument []))) ∧
    (mode = 2 → ∀ c : ContextNo, context = BitVec.ofNat 8 c.val →
      exec .streamBind s = .next (s.withGate (s.gate.replied p rest
        (if (s.gate.context c).state = .free ∨ (s.gate.context c).state = .draining then .state
        else if (s.gate.context c).pending.isSome then .conflict
        else .badArgument) []))))

/-- R50, 10.3: STREAM-READ replies with the binding, the queue length, the head and its stamp, which is zero for a head that is
not READY, and the LIVE entries of the stream, the reserved byte zero, and changes nothing else; a stream above 63 gives
BAD_ARGUMENT. -/
def Obligations.StreamReadResults : Prop :=
  (∀ (s : State) (p : ControlPacket) (rest : List ControlPacket) (i : StreamId), s.gate.Passes .streamRead p rest →
    p.operands = [BitVec.ofNat 8 i.val, 0, 0, 0] → (s.gate.stream i).queue.length ≤ 32 →
    let x := s.gate.stream i
    ∃ results : List Byte, exec .streamRead s = .next (s.withGate (s.gate.replied p rest .done results)) ∧
      results.length = 16 ∧
      operandField results 0 1 = i.val ∧
      operandField results 1 1 = (match x.mode with | .blocked => 0 | .direct => 1 | .mapped _ => 2) ∧
      operandField results 2 1 = (match x.mode with | .mapped c => c.val | _ => 0) ∧
      operandField results 3 1 =
        (match x.head with
          | none => 0 | some .waitSlot => 1 | some .translating => 2 | some .waitWalk => 3 | some .waitWalkSlot => 4
          | some (.ready _ _) => 5) ∧
      operandField results 4 2 = x.generation.toNat ∧
      operandField results 6 1 = x.queue.length ∧
      operandField results 7 1 =
        (match x.queue with
          | [] => 0 | r :: _ => (match r.kind with | .push => 1 | .commit => 2 | .fetch => 3)) ∧
      operandField results 8 1 = (match x.queue with | [] => 0 | r :: _ => if r.kind = .push then 0 else r.tag.toNat) ∧
      operandField results 9 1 =
        (match x.queue with | [] => 0 | r :: _ => if r.kind = .push then 0 else 1) +
        (match x.head with
          | some (.ready _ stamp) => (match stamp.mapped with | none => 2 | some _ => 6)
          | _ => 0) ∧
      (∀ address stamp, x.head = some (.ready address stamp) →
        operandField results 10 2 = stamp.generation.toNat ∧
        operandField results 12 2 = (match stamp.mapped with | none => 0 | some (_, epoch) => epoch.toNat)) ∧
      ((∀ address stamp, x.head ≠ some (.ready address stamp)) →
        operandField results 10 2 = 0 ∧ operandField results 12 2 = 0) ∧
      operandField results 15 1 = 0 ∧
      operandField results 14 1 = s.gate.entries.toList.countP (fun e =>
        match e with | .live e => e.stream == i | _ => false)) ∧
  (∀ (s : State) (p : ControlPacket) (rest : List ControlPacket), s.gate.Passes .streamRead p rest →
    63 < (p.operands.getD 0 0).toNat → exec .streamRead s = .next (s.withGate (s.gate.replied p rest .badArgument [])))

/-! ### Route windows and branches (07, 08) -/

/-- R117, R118: WINDOW-SET with operands in range replaces the window whole and enables it; WINDOW-CLEAR disables it and keeps
its other fields; both reply DONE without results and offer a held host request again (R120). An index above 7, and for
WINDOW-SET a kind, range, target, branch or access out of range, gives BAD_ARGUMENT and changes no window. For EXCLUDE the
target, branch and access are not examined. That a refused command does not offer a held host request again, so that the reply
is its whole effect, is the model's reading (log entry 19). -/
def Obligations.WindowSetAndClearOutcomes : Prop :=
  (∀ (s : State) (p : ControlPacket) (rest : List ControlPacket) (index kind branch access : Byte)
    (base last target : List Byte), s.gate.Passes .windowSet p rest →
    base.length = 6 → last.length = 6 → target.length = 6 →
    p.operands = [index, kind, branch, access] ++ base ++ last ++ target ++ [0, 0] →
    let inRange := natOfBytes base % 65536 = 0 ∧ natOfBytes last % 65536 = 0 ∧ natOfBytes base ≤ natOfBytes last ∧
      natOfBytes last + 65536 ≤ 2 ^ 48
    let inTarget := natOfBytes target % 65536 = 0 ∧
      natOfBytes target + (natOfBytes last - natOfBytes base) + 65536 ≤ 2 ^ 48
    let set (i : WindowNo) (k : WindowKind) : Gate :=
      ({ s.gate with
        windows := s.gate.windows.set i.val
          { enabled := true, kind := k, base := BitVec.ofNat 48 (natOfBytes base),
            last := BitVec.ofNat 48 (natOfBytes last) } }.replied p rest .done []).offerHeldAgain
    (∀ i : WindowNo, index = BitVec.ofNat 8 i.val → kind = 0 → inRange →
      exec .windowSet s = .next (s.withGate (set i .exclude))) ∧
    (∀ (i : WindowNo) (b : BranchNo) (a : WindowAccess), index = BitVec.ofNat 8 i.val → kind = 1 → inRange → inTarget →
      branch = BitVec.ofNat 8 b.val → access = (match a with | .readWrite => 0 | .readOnly => 1) →
      exec .windowSet s = .next (s.withGate (set i (.forward (BitVec.ofNat 48 (natOfBytes target)) b a)))) ∧
    (7 < index.toNat ∨ 1 < kind.toNat ∨ ¬ inRange ∨ (kind = 1 ∧ (¬ inTarget ∨ 3 < branch.toNat ∨ 1 < access.toNat)) →
      exec .windowSet s = .next (s.withGate (s.gate.replied p rest .badArgument [])))) ∧
  (∀ (s : State) (p : ControlPacket) (rest : List ControlPacket) (index : Byte), s.gate.Passes .windowClear p rest →
    p.operands = [index, 0, 0, 0] →
    (∀ i : WindowNo, index = BitVec.ofNat 8 i.val →
      exec .windowClear s = .next (s.withGate
        ({ s.gate with
          windows := s.gate.windows.set i.val { s.gate.window i with enabled := false } }.replied p rest .done
            []).offerHeldAgain)) ∧
    (7 < index.toNat → exec .windowClear s = .next (s.withGate (s.gate.replied p rest .badArgument []))))

/-- R118, R140: WINDOW-READ replies with every field of the window, DISABLED or not; BRANCH-READ with the link state, the credits,
the queue and slot figures and the counters of the branch; reserved bytes are zero. Each changes nothing else; an index above 7 or a branch above 3
gives BAD_ARGUMENT. -/
def Obligations.WindowAndBranchReadResults : Prop :=
  (∀ (s : State) (p : ControlPacket) (rest : List ControlPacket) (index : Byte), s.gate.Passes .windowRead p rest →
    p.operands = [index, 0, 0, 0] →
    (∀ i : WindowNo, index = BitVec.ofNat 8 i.val →
      let w := s.gate.window i
      ∃ results : List Byte, exec .windowRead s = .next (s.withGate (s.gate.replied p rest .done results)) ∧
        results.length = 24 ∧
        operandField results 0 1 = i.val ∧
        operandField results 1 1 = (match w.kind with | .exclude => 0 | .forward _ _ _ => 1) ∧
        operandField results 4 6 = w.base.toNat ∧
        operandField results 10 6 = w.last.toNat ∧
        operandField results 22 1 = (if w.enabled then 1 else 0) ∧
        operandField results 23 1 = 0 ∧
        (match w.kind with
          | .exclude =>
            operandField results 2 1 = 0 ∧ operandField results 3 1 = 0 ∧ operandField results 16 6 = 0
          | .forward target b access =>
            operandField results 2 1 = b.val ∧
            operandField results 3 1 = (match access with | .readWrite => 0 | .readOnly => 1) ∧
            operandField results 16 6 = target.toNat)) ∧
    (7 < index.toNat → exec .windowRead s = .next (s.withGate (s.gate.replied p rest .badArgument [])))) ∧
  (∀ (s : State) (p : ControlPacket) (rest : List ControlPacket) (x : Byte), s.gate.Passes .branchRead p rest →
    p.operands = [x, 0, 0, 0] →
    (∀ b : BranchNo, x = BitVec.ofNat 8 b.val → s.gate.LinksSound → (s.gate.branch b).slotWait.length ≤ 16 →
      (s.gate.branch b).egressRequests.length ≤ 16 →
      let y := s.gate.branch b
      ∃ results : List Byte, exec .branchRead s = .next (s.withGate (s.gate.replied p rest .done results)) ∧
        results.length = 40 ∧
        operandField results 0 1 = b.val ∧
        operandField results 1 1 = (match y.link.state with | .down => 0 | .training => 1 | .up => 2) ∧
        operandField results 2 1 = (if y.link.resetOwed then 1 else 0) ∧
        operandField results 3 1 = 0 ∧ operandField results 14 2 = 0 ∧
        operandField results 4 1 = y.link.held.request ∧ operandField results 5 1 = y.link.held.answer ∧
        operandField results 6 1 = y.link.granted.request ∧ operandField results 7 1 = y.link.granted.answer ∧
        operandField results 8 1 = s.gate.buffered (.branch b) .request ∧
        operandField results 9 1 = y.slotWait.length ∧
        operandField results 10 1 =
          y.slots.toList.countP (fun k => match k with | .reserved _ _ => true | _ => false) ∧
        operandField results 11 1 = y.slots.toList.countP (fun k => match k with | .occupied => true | _ => false) ∧
        operandField results 12 1 = y.egressRequests.length ∧
        operandField results 13 1 = y.ingressAnswers.length ∧
        operandField results 16 4 = y.counters.queued.toNat ∧ operandField results 20 4 = y.counters.departed.toNat ∧
        operandField results 24 4 = y.counters.refused.toNat ∧ operandField results 28 4 = y.counters.answersSent.toNat ∧
        operandField results 32 4 = y.counters.malformed.toNat ∧
        operandField results 36 4 = y.counters.linkDowns.toNat) ∧
    (3 < x.toNat → exec .branchRead s = .next (s.withGate (s.gate.replied p rest .badArgument []))))

/-- R139: BRANCH-RESET of a DOWN branch sets reset owed; of a branch in TRAINING or UP it sets reset owed, takes the branch
DOWN with every effect of R131 and drops its physical link. Both reply DONE with the state the branch had; a branch above 3
gives BAD_ARGUMENT. -/
def Obligations.BranchResetOutcomes : Prop :=
  ∀ (s : State) (p : ControlPacket) (rest : List ControlPacket) (x : Byte), s.gate.Passes .branchReset p rest →
    p.operands = [x, 0, 0, 0] →
    (∀ b : BranchNo, x = BitVec.ofNat 8 b.val →
      let owed : Gate :=
        { s.gate.taken rest with
          branches := s.gate.branches.set b.val
            { s.gate.branch b with link := { (s.gate.branch b).link with resetOwed := true } } }
      ((s.gate.branch b).link.state = .down →
        exec .branchReset s = .next (s.withGate (owed.replying p .done [x, 0, 0, 0]))) ∧
      ((s.gate.branch b).link.state ≠ .down →
        ∃ d : Gate, owed.BranchCleared b d ∧
          exec .branchReset s = .next (s.withGate
            (({ d.offerHeldAgain with sent := d.offerHeldAgain.sent ++ [⟨.branch b, .linkDrop⟩] } : Gate).replying p .done
              [x, (match (s.gate.branch b).link.state with | .down => 0 | .training => 1 | .up => 2), 0, 0])))) ∧
    (3 < x.toNat → exec .branchReset s = .next (s.withGate (s.gate.replied p rest .badArgument [])))

/-! ### Links (08) -/

/-- R129, R141: a DOWN link that is present sends one INIT with its freed credits, which become granted, and trains; on a
branch the INIT carries the reset flag if reset is owed. The partner's well-formed INIT on a TRAINING link sets the held
credits and the link is UP; a branch then owes a BRANCH notice where there is a manager. A change of a branch's link offers a
held host request again (R120). -/
def Obligations.LinksTrainAndComeUp : Prop :=
  (∀ (s : State) (l : LinkId), (s.gate.link l).state = .down →
    let r := s.gate.link l
    let flag : Byte := match l with | .trunk => 0 | .branch _ => if r.resetOwed then 1 else 0
    let trained : Gate := s.gate.modLink l fun _ =>
      { state := .training, partnerInit := false, held := r.held, granted := r.freed, freed := ⟨0, 0, 0⟩,
        creditOrder := [], resetOwed := false }
    let g : Gate :=
      { trained with
        sent := s.gate.sent ++
          [⟨l, .packet [0x01, flag, BitVec.ofNat 8 r.freed.request, BitVec.ofNat 8 r.freed.answer,
            BitVec.ofNat 8 r.freed.control, 0, 0, 0]⟩] }
    exec (.linkPresent l) s = .next (s.withGate (match l with | .trunk => g | .branch _ => g.offerHeldAgain))) ∧
  (∀ (s : State) (l : LinkId) (flags request answer control : Byte), (s.gate.link l).state = .training →
    request ≠ 0 → answer ≠ 0 →
    (match l with | .trunk => flags = 0 ∧ control ≠ 0 | .branch _ => (flags = 0 ∨ flags = 1) ∧ control = 0) →
    let up : Gate := s.gate.modLink l fun r =>
      { r with state := .up, partnerInit := true, held := ⟨request.toNat, answer.toNat, control.toNat⟩ }
    exec (.initReceived l [flags, request, answer, control, 0, 0, 0]) s = .next (s.withGate
      (match l with
        | .trunk => up
        | .branch b =>
          ({ up with
            management :=
              { s.gate.management with
                branchOwed :=
                  if s.gate.management.manager.isSome then s.gate.management.branchOwed.set b.val true
                  else s.gate.management.branchOwed } }).offerHeldAgain)))

/-- R132: a well-formed INIT on an UP link, with its reset flag clear on the trunk, does what the physical loss, the return of
the link and the same INIT in TRAINING do one after the other. (Each of the three offers a held host request again on a
branch: log entry 18.) -/
def Obligations.InitRestartsAnUpLink : Prop :=
  ∀ (s : State) (l : LinkId) (flags request answer control : Byte), (s.gate.link l).state = .up →
    request ≠ 0 → answer ≠ 0 →
    (match l with | .trunk => flags = 0 ∧ control ≠ 0 | .branch _ => (flags = 0 ∨ flags = 1) ∧ control = 0) →
    let init : Instr := .initReceived l [flags, request, answer, control, 0, 0, 0]
    ∃ lost trained up : Gate,
      exec (match l with | .trunk => .trunkLinkLoss | .branch b => .branchLinkLoss b) s = .next (s.withGate lost) ∧
      (lost.link l).state = .down ∧
      exec (.linkPresent l) (s.withGate lost) = .next (s.withGate trained) ∧ (trained.link l).state = .training ∧
      exec init (s.withGate trained) = .next (s.withGate up) ∧ (up.link l).state = .up ∧
      (up.link l).held = ⟨request.toNat, answer.toNat, control.toNat⟩ ∧
      exec init s = .next (s.withGate up)

/-- R130, R131, R64: the loss of the trunk link changes its link record alone: held credits are lost, granted credits become
freed, partner INIT is no. The loss of a branch link in TRAINING or UP clears the branch and offers a held host request
again. A loss that reaches a DOWN link changes nothing. -/
def Obligations.LinkLosses : Prop :=
  ∀ s : State,
    let t := s.gate.trunk.link
    (t.state ≠ .down → exec .trunkLinkLoss s = .next (s.withGate
      { s.gate with
        trunk :=
          { s.gate.trunk with
            link :=
              { t with
                state := .down, partnerInit := false, held := ⟨0, 0, 0⟩, granted := ⟨0, 0, 0⟩
                freed := ⟨t.freed.request + t.granted.request, t.freed.answer + t.granted.answer,
                  t.freed.control + t.granted.control⟩
                creditOrder := [] } } })) ∧
    (t.state = .down → exec .trunkLinkLoss s = .next s) ∧
    ∀ b : BranchNo,
      ((s.gate.branch b).link.state ≠ .down →
        ∃ d : Gate, s.gate.BranchCleared b d ∧ exec (.branchLinkLoss b) s = .next (s.withGate d.offerHeldAgain)) ∧
      ((s.gate.branch b).link.state = .down → exec (.branchLinkLoss b) s = .next s)

/-- R134, R135, R136: a CREDIT of a class of the link, with a count above 0 that keeps held credits at most 255, after the
partner's INIT, raises the held credits of its class; any other is malformed, one of another size among them (log entry 11).
On an UP link the CREDIT that is due first is
sent with the whole freed count of its class, which moves from freed to granted; where the link is not UP or none is due,
nothing is sent (log entry 5). -/
def Obligations.CreditOutcomes : Prop :=
  (∀ (s : State) (l : LinkId) (code count reserved : Byte), (s.gate.link l).state ≠ .down →
    let malformed := exec (.creditReceived l [code, count, reserved]) s =
      .next (s.withGate (s.gate.discardMalformed l none none))
    (∀ c : PacketClass, code = (match c with | .request => 1 | .answer => 2 | .control => 3) →
      (c = .control → l = .trunk) → count ≠ 0 → reserved = 0 → (s.gate.link l).partnerInit = true →
      (s.gate.link l).held.get c + count.toNat ≤ 255 →
      exec (.creditReceived l [code, count, reserved]) s = .next (s.withGate
        (s.gate.modLink l fun r => { r with held := r.held.set c (r.held.get c + count.toNat) }))) ∧
    (code = 0 ∨ 3 < code.toNat ∨ (code = 3 ∧ l ≠ .trunk) ∨ count = 0 ∨ reserved ≠ 0 ∨
      (s.gate.link l).partnerInit = false → malformed) ∧
    (∀ c : PacketClass, code = (match c with | .request => 1 | .answer => 2 | .control => 3) →
      255 < (s.gate.link l).held.get c + count.toNat → malformed)) ∧
  (∀ (s : State) (l : LinkId) (body : List Byte), (s.gate.link l).state ≠ .down → body.length ≠ 3 →
    exec (.creditReceived l body) s = .next (s.withGate (s.gate.discardMalformed l none none))) ∧
  (∀ (s : State) (l : LinkId),
    let r := s.gate.link l
    (∀ (c : PacketClass) (later : List PacketClass), r.state = .up → r.creditOrder = c :: later →
      let code : Byte := match c with | .request => 1 | .answer => 2 | .control => 3
      let moved : Gate := s.gate.modLink l fun _ =>
        { r with
          granted := r.granted.set c (r.granted.get c + r.freed.get c), freed := r.freed.set c 0, creditOrder := later }
      exec (.creditSend l) s = .next (s.withGate
        { moved with sent := s.gate.sent ++ [⟨l, .packet [0x02, code, BitVec.ofNat 8 (r.freed.get c), 0]⟩] })) ∧
    (r.state ≠ .up ∨ r.creditOrder = [] → exec (.creditSend l) s = .next s))

/-- R138: what the discarding of a malformed packet does, on the trunk and on a branch: it is counted, the credit it spent is
freed where one was granted, and a branch offers an unattached MALFORMED fault with the stream where it is known. R137, R129:
a packet of a kind the link does not accept, and an INIT with a figure out of range, are discarded so; and so are an INIT of
another size and a packet without a kind (log entry 11). (A REPLY or NOTICE is taken to spend a CONTROL credit on the trunk:
log entry 17.) -/
def Obligations.MalformedPacketsAreDiscarded : Prop :=
  (∀ (g : Gate) (cls : Option PacketClass) (x : Option StreamId),
    let returned (r : LinkRecord) : LinkRecord :=
      match cls with
      | none => r
      | some c =>
        if r.granted.get c = 0 then r
        else
          { r with
            granted := r.granted.set c (r.granted.get c - 1), freed := r.freed.set c (r.freed.get c + 1)
            creditOrder := if r.freed.get c = 0 then r.creditOrder ++ [c] else r.creditOrder }
    g.discardMalformed .trunk cls x =
      { g with
        trunk := { g.trunk with link := returned g.trunk.link }
        management :=
          { g.management with
            counters := { g.management.counters with trunkMalformed := g.management.counters.trunkMalformed + 1 } } } ∧
    ∀ b : BranchNo, g.discardMalformed (.branch b) cls x =
      ({ g with
        branches := g.branches.set b.val
          { g.branch b with
            link := returned (g.branch b).link
            counters := { (g.branch b).counters with malformed := (g.branch b).counters.malformed + 1 } } }).offerFault
        { kind := .malformed, stream := x, context := none, page := none, access := none, detail := none }) ∧
  (∀ (s : State) (l : LinkId) (kind : Byte) (body : List Byte), (s.gate.link l).state ≠ .down →
    (kind ∉ ([0x01, 0x02, 0x10, 0x11, 0x12, 0x20, 0x30] : List Byte) ∨ (kind = 0x30 ∧ l ≠ .trunk)) →
    exec (.unacceptedKindArrival l (kind :: body)) s = .next (s.withGate (s.gate.discardMalformed l
      (if kind = 0x30 ∨ kind = 0x31 ∨ kind = 0x32 then some .control else none) none))) ∧
  (∀ (s : State) (l : LinkId) (flags request answer control r5 r6 r7 : Byte), (s.gate.link l).state ≠ .down →
    (1 < flags.toNat ∨ request = 0 ∨ answer = 0 ∨ (l = .trunk ∧ control = 0) ∨ (l ≠ .trunk ∧ control ≠ 0) ∨ r5 ≠ 0 ∨
      r6 ≠ 0 ∨ r7 ≠ 0) →
    exec (.initReceived l [flags, request, answer, control, r5, r6, r7]) s =
      .next (s.withGate (s.gate.discardMalformed l none none))) ∧
  ∀ (s : State) (l : LinkId), (s.gate.link l).state ≠ .down →
    (∀ body : List Byte, body.length ≠ 7 →
      exec (.initReceived l body) s = .next (s.withGate (s.gate.discardMalformed l none none))) ∧
    exec (.unacceptedKindArrival l []) s = .next (s.withGate (s.gate.discardMalformed l none none))

/-- The model's reading of events that cannot occur as the state stands (log entries 5, 14 and 15): no packet arrives on a
DOWN link, a link that is not DOWN does not become present, no timer expires that does not run, and nothing is taken or sent
from an empty queue. The state is unchanged. -/
def Obligations.EventsThatCannotOccurChangeNothing : Prop :=
  ∀ s : State,
    (∀ l body packet, (s.gate.link l).state = .down →
      exec (.initReceived l body) s = .next s ∧ exec (.creditReceived l body) s = .next s ∧
      exec (.unacceptedKindArrival l packet) s = .next s) ∧
    (∀ kind body, s.gate.trunk.link.state = .down →
      exec (.trunkRequestArrival kind body) s = .next s ∧ exec (.trunkAnswerArrival body) s = .next s ∧
      exec (.trunkControlArrival body) s = .next s) ∧
    (∀ b kind body, (s.gate.branch b).link.state = .down →
      exec (.branchRequestArrival b kind body) s = .next s ∧ exec (.branchAnswerArrival b body) s = .next s) ∧
    (∀ l, (s.gate.link l).state ≠ .down → exec (.linkPresent l) s = .next s) ∧
    (∀ t, (∀ e, s.gate.entry t ≠ .live e) → exec (.entryExpiry t) s = .next s) ∧
    (∀ t, (∀ k, s.gate.entry t ≠ .late k) → exec (.quarantineEnd t) s = .next s) ∧
    (∀ i, (∀ w, s.gate.walk i = .walking w → w.sent = none) → exec (.walkExpiry i) s = .next s) ∧
    (∀ i, (∀ k, s.gate.walk i ≠ .quarantined k) → exec (.walkQuarantineEnd i) s = .next s) ∧
    (s.gate.trunk.ingressRequests = [] → exec .hostRequestOffer s = .next s) ∧
    (32 ≤ s.gate.trunk.answerQueue.length → exec .answerQueueGrant s = .next s) ∧
    (s.gate.trunk.answerQueue = [] → exec .trunkAnswerTransmit s = .next s) ∧
    (s.gate.management.controlQueue = [] → exec .controlTransmit s = .next s) ∧
    (∀ b, (s.gate.branch b).egressAnswers = [] → exec (.branchAnswerTransmit b) s = .next s) ∧
    (∀ b, (s.gate.branch b).egressRequests = [] → exec (.branchRequestTransmit b) s = .next s)

/-! ### Arrivals (08) and stream heads (02, 03) -/

/-- R135, R137: on the trunk a REQUEST, CONTROL or ANSWER packet, and on a branch an ANSWER packet, that is well-formed and
has a granted credit uses the credit and joins the tail of its buffer; any other is malformed, a packet shorter than its
header among them (log entry 11). The answers of the trunk are taken from their buffer at once, in arrival order (R80). -/
def Obligations.ClassPacketsJoinTheirBuffers : Prop :=
  (∀ (s : State) (kind : RequestKind) (origin tag reserved : Byte) (length address payload : List Byte),
    s.gate.trunk.link.state ≠ .down → length.length = 2 → address.length = 6 →
    let t := s.gate.trunk
    let size := natOfBytes length
    let fits := (kind = .push → tag = 0) ∧ reserved = 0 ∧ 1 ≤ size ∧ size ≤ 256 ∧ natOfBytes address + size ≤ 2 ^ 48 ∧
      payload.length = (match kind with | .fetch => 0 | _ => size) ∧ t.link.partnerInit = true ∧ 0 < t.link.granted.request
    let arrives := exec (.trunkRequestArrival kind ([origin, tag, reserved] ++ length ++ address ++ payload)) s
    (fits → arrives = .next (s.withGate
      { s.gate with
        trunk :=
          { t with
            link := { t.link with granted := { t.link.granted with request := t.link.granted.request - 1 } }
            ingressRequests := t.ingressRequests ++
              [⟨kind, origin, tag, BitVec.ofNat 48 (natOfBytes address), size, payload⟩] } })) ∧
    (¬ fits → arrives = .next (s.withGate (s.gate.discardMalformed .trunk (some .request) none)))) ∧
  (∀ (s : State) (source gateId tag code reserved : Byte) (length operands : List Byte),
    s.gate.trunk.link.state ≠ .down → length.length = 2 →
    let t := s.gate.trunk
    let fits := reserved = 0 ∧ operands.length = natOfBytes length ∧ t.link.partnerInit = true ∧ 0 < t.link.granted.control
    let arrives := exec (.trunkControlArrival ([source, gateId, tag, code, reserved] ++ length ++ operands)) s
    (fits → arrives = .next (s.withGate
      { s.gate with
        trunk :=
          { t with
            link := { t.link with granted := { t.link.granted with control := t.link.granted.control - 1 } }
            ingressControl := t.ingressControl ++ [⟨source, gateId, tag, code, operands⟩] } })) ∧
    (¬ fits → arrives = .next (s.withGate (s.gate.discardMalformed .trunk (some .control) none)))) ∧
  (∀ (s : State) (l : LinkId) (destination tag code r6 r7 : Byte) (length payload : List Byte),
    (s.gate.link l).state ≠ .down → length.length = 2 →
    let fits (status : AnswerStatus) :=
      code = (match status with | .done => 0 | .denied => 1 | .noroute => 2 | .timeout => 3 | .corrupt => 4) ∧
      r6 = 0 ∧ r7 = 0 ∧ payload.length = natOfBytes length ∧ payload.length ≤ 256 ∧ (status ≠ .done → payload = []) ∧
      (s.gate.link l).partnerInit = true ∧ 0 < (s.gate.link l).granted.answer
    let used (r : LinkRecord) : LinkRecord := { r with granted := { r.granted with answer := r.granted.answer - 1 } }
    let body := [destination, tag, code] ++ length ++ [r6, r7] ++ payload
    let arrives := exec (match l with | .trunk => .trunkAnswerArrival body | .branch b => .branchAnswerArrival b body) s
    (∀ status, fits status →
      let a : Answer := ⟨destination, tag, status, payload⟩
      arrives = .next (s.withGate
        (match l with
          | .branch b =>
            { s.gate with
              branches := s.gate.branches.set b.val
                { s.gate.branch b with
                  link := used (s.gate.branch b).link, ingressAnswers := (s.gate.branch b).ingressAnswers ++ [a] } }
          | .trunk =>
            Gate.takeAnswers (s.gate.trunk.ingressAnswers ++ [a])
              { s.gate with
                trunk :=
                  { s.gate.trunk with
                    link := used s.gate.trunk.link, ingressAnswers := s.gate.trunk.ingressAnswers ++ [a] } }))) ∧
    ((∀ status, ¬ fits status) → arrives = .next (s.withGate (s.gate.discardMalformed l (some .answer) none)))) ∧
  (∀ (g : Gate) (a : Answer) (rest : List Answer),
    Gate.takeAnswers [] g = g ∧
    Gate.takeAnswers (a :: rest) g = Gate.takeAnswers rest
      ({ g with
        trunk := { g.trunk with ingressAnswers := rest, link := g.trunk.link.free .answer } }.takeAnswer a)) ∧
  (∀ (s : State) (kind : RequestKind) (body : List Byte), s.gate.trunk.link.state ≠ .down →
    (body.length < 11 → exec (.trunkRequestArrival kind body) s =
      .next (s.withGate (s.gate.discardMalformed .trunk (some .request) none))) ∧
    (body.length < 7 →
      exec (.trunkControlArrival body) s = .next (s.withGate (s.gate.discardMalformed .trunk (some .control) none)) ∧
      exec (.trunkAnswerArrival body) s = .next (s.withGate (s.gate.discardMalformed .trunk (some .answer) none)))) ∧
  (∀ (s : State) (b : BranchNo) (body : List Byte), (s.gate.branch b).link.state ≠ .down → body.length < 7 →
    exec (.branchAnswerArrival b body) s = .next (s.withGate (s.gate.discardMalformed (.branch b) (some .answer) none)))

/-- R51, R137, R138: a well-formed request of a device that has a granted credit uses it, joins the tail of the queue of its
stream and is counted, and begins at once where that queue was empty; any other is malformed, with its stream where the
origin is 0 to 15, a packet shorter than its header among them (log entry 11). -/
def Obligations.RequestsJoinTheirStreams : Prop :=
  (∀ (s : State) (b : BranchNo) (kind : RequestKind) (origin tag reserved : Byte) (length address payload : List Byte),
    (s.gate.branch b).link.state ≠ .down → length.length = 2 → address.length = 6 →
    let y := s.gate.branch b
    let size := natOfBytes length
    let fits := (kind = .push → tag = 0) ∧ reserved = 0 ∧ 1 ≤ size ∧ size ≤ 256 ∧ natOfBytes address + size ≤ 2 ^ 48 ∧
      payload.length = (match kind with | .fetch => 0 | _ => size) ∧ y.link.partnerInit = true ∧ 0 < y.link.granted.request
    let arrives := exec (.branchRequestArrival b kind ([origin, tag, reserved] ++ length ++ address ++ payload)) s
    (∀ x : StreamId, x.val = 16 * b.val + origin.toNat → origin.toNat < 16 → fits →
      let r : Request := ⟨kind, tag, BitVec.ofNat 48 (natOfBytes address), size, payload⟩
      let joined : Gate :=
        { s.gate with
          streams := s.gate.streams.set x.val { s.gate.stream x with queue := (s.gate.stream x).queue ++ [r] }
          branches := s.gate.branches.set b.val
            { y with
              link := { y.link with granted := { y.link.granted with request := y.link.granted.request - 1 } }
              counters := { y.counters with queued := y.counters.queued + 1 } } }
      arrives = .next (s.withGate (if (s.gate.stream x).queue = [] then Gate.startHeads x [r] joined else joined))) ∧
    (∀ x : StreamId, x.val = 16 * b.val + origin.toNat → origin.toNat < 16 → ¬ fits →
      arrives = .next (s.withGate (s.gate.discardMalformed (.branch b) (some .request) (some x)))) ∧
    (16 ≤ origin.toNat → arrives = .next (s.withGate (s.gate.discardMalformed (.branch b) (some .request) none)))) ∧
  ∀ (s : State) (b : BranchNo) (kind : RequestKind) (body : List Byte),
    (s.gate.branch b).link.state ≠ .down → body.length < 11 →
    let discards (x : Option StreamId) := exec (.branchRequestArrival b kind body) s =
      .next (s.withGate (s.gate.discardMalformed (.branch b) (some .request) x))
    (body = [] → discards none) ∧
    ∀ (origin : Byte) (more : List Byte), body = origin :: more →
      (16 ≤ origin.toNat → discards none) ∧
      (∀ x : StreamId, x.val = 16 * b.val + origin.toNat → origin.toNat < 16 → discards (some x))

/-- R52, R54, R62, R63: how the requests of a stream begin. A PUSH is checked at once; a COMMIT or FETCH first takes a free
answer slot, or joins the slot-wait list where that list is not empty or no slot is free; one that the check refuses leaves,
and the next begins. A head that returns to TRANSLATING is checked again with the slot it holds. Which free slot is taken
is the model's choice (log entry 4). -/
def Obligations.HeadsBegin : Prop :=
  ∀ (g : Gate) (x : StreamId),
    let b := branchOf x
    Gate.startHeads x [] g = g ∧
    ∀ (r : Request) (rest : List Request),
      (r.kind = .push → Gate.startHeads x (r :: rest) g =
        (Gate.checkHead
          { g with streams := g.streams.set x.val { g.stream x with head := some .translating } } x r).settled x r rest) ∧
      (r.kind ≠ .push → (g.branch b).slotWait ≠ [] ∨ (∀ k : SlotNo, (g.branch b).slots[k.val] ≠ .free) →
        Gate.startHeads x (r :: rest) g =
          { g with
            streams := g.streams.set x.val { g.stream x with head := some .waitSlot }
            branches := g.branches.set b.val { g.branch b with slotWait := (g.branch b).slotWait ++ [x] } }) ∧
      (r.kind ≠ .push → (g.branch b).slotWait = [] → (∃ k : SlotNo, (g.branch b).slots[k.val] = .free) →
        ∃ k : SlotNo, (g.branch b).slots[k.val] = .free ∧
          Gate.startHeads x (r :: rest) g =
            (Gate.checkHead
              { g with
                streams := g.streams.set x.val { g.stream x with slot := some k, head := some .translating }
                branches := g.branches.set b.val
                  { g.branch b with slots := (g.branch b).slots.set k.val (.reserved (numberOf x) r.tag) } } x r).settled
              x r rest) ∧
      ((g.stream x).queue = r :: rest → g.recheckHead x =
        (Gate.checkHead
          { g with streams := g.streams.set x.val { g.stream x with head := some .translating } } x r).settled x r rest)

/-- R56, R19 to R22, R30: what the check of a head finds. BLOCKED refuses it; DIRECT makes it READY with its own address; MAPPED
looks it up: a context that is not ACTIVE, a split page and a page outside the map refuse it; a cached translation makes it
READY at frame × 4096 + offset with the stamp of the moment, or refuses it for want of permission; a miss joins a walk of
its key, or starts one in the lowest FREE slot, or waits for one. -/
def Obligations.HeadChecks : Prop :=
  ∀ (g : Gate) (x : StreamId) (r : Request),
    let y := g.stream x
    (y.mode = .blocked → g.checkHead x r = .refused g ⟨.blockedStream, some x, none, none, some r.kind, none⟩) ∧
    (y.mode = .direct → g.checkHead x r = .stays
      { g with streams := g.streams.set x.val { y with head := some (.ready r.address ⟨y.generation, none⟩) } }) ∧
    ∀ c : ContextNo, y.mode = .mapped c →
      let k := g.context c
      let page := r.address.toNat / 4096
      let samePage := (r.address.toNat + r.length - 1) / 4096 = page
      let fault (kind : FaultKind) : FaultReport := ⟨kind, some x, some c, some page, some r.kind, none⟩
      let searched (hits walks : Counter) : Gate :=
        { g with
          contexts := g.contexts.set c.val
            { k with
              counters :=
                { k.counters with
                  lookups := k.counters.lookups + 1, cacheHits := k.counters.cacheHits + hits
                  walksStarted := k.counters.walksStarted + walks } } }
      let headed (h : HeadState) : Vector Stream 64 := g.streams.set x.val { y with head := some h }
      let keyed (w : Walk) := w.context = c ∧ w.page = page ∧ w.epoch = k.epoch
      (k.state ≠ .active → g.checkHead x r = .refused g (fault .contextClosed)) ∧
      (k.state = .active → ¬ samePage → g.checkHead x r = .refused g (fault .splitPage)) ∧
      (k.state = .active → samePage → k.mapLength ≤ page → g.checkHead x r = .refused g (fault .outOfMap)) ∧
      (k.state = .active → samePage → page < k.mapLength →
        (∀ e ∈ g.cache, e.context = c → e.page = page → (g.cache.map fun e => (e.context, e.page)).Nodup →
          let allowed := match r.kind with | .fetch => e.readable | .push => e.writable | .commit => e.writable
          (allowed = true → g.checkHead x r = .stays
            { searched 1 0 with
              streams := headed (.ready (BitVec.ofNat 48 (e.frame.toNat * 4096 + r.address.toNat % 4096))
                ⟨y.generation, some (c, k.epoch)⟩) }) ∧
          (allowed = false → g.checkHead x r =
            .refused (searched 1 0) (fault (match r.kind with | .fetch => .readDenied | _ => .writeDenied)))) ∧
        ((∀ e ∈ g.cache, e.context = c → e.page ≠ page) →
          (∀ i w, g.walk i = .walking w → keyed w → g.WalkKeysDistinct → g.checkHead x r = .stays
            { searched 0 0 with
              walks := g.walks.set i.val (.walking { w with waiters := w.waiters ++ [⟨x, y.generation⟩] })
              streams := headed .waitWalk }) ∧
          ((∀ i w, g.walk i = .walking w → ¬ keyed w) →
            (∀ i, g.walk i = .free → (∀ j, j < i → g.walk j ≠ .free) → g.checkHead x r = .stays
              { searched 0 1 with
                walks := g.walks.set i.val
                  (.walking ⟨c, page, k.epoch, BitVec.ofNat 48 (k.mapRoot.toNat + 8 * page), none, [⟨x, y.generation⟩]⟩)
                streams := headed .waitWalk }) ∧
            ((∀ i, g.walk i ≠ .free) → g.checkHead x r = .stays
              { searched 0 0 with walkWaiting := g.walkWaiting ++ [x], streams := headed .waitWalkSlot }))))

/-! ### Answers, expiries and quarantines (02, 04) -/

/-- R80, R81, R84, R85: what the outstanding table does with an answer to another destination or to a request tag: a stray or
late answer is counted, the late one frees its tag; one whose payload does not fit its LIVE entry is malformed; a fitting one
frees the tag, places the answer as received unless the entry is an orphan, for CORRUPT counts in the context and offers
CORRUPT_DATA, and for a MAPPED entry the drain of its context is judged. That the judging is what RETIRE_COMPLETE and
INVALIDATE_COMPLETE do one after the other is the model's choice (log entry 13). -/
def Obligations.AnswersToRequestTags : Prop :=
  (∀ (g : Gate) (a : Answer),
    let m := g.management
    let stray : Gate :=
      { g with management := { m with counters := { m.counters with strayAnswers := m.counters.strayAnswers + 1 } } }
    (a.destination ≠ g.gateId → g.takeAnswer a = stray) ∧
    ∀ t : RequestTag, a.destination = g.gateId → a.tag = BitVec.ofNat 8 t.val →
      let freed : Gate := { g with entries := g.entries.set t.val .free }
      (g.entry t = .free → g.takeAnswer a = stray) ∧
      (∀ k, g.entry t = .late k → g.takeAnswer a =
        { freed with
          management := { m with counters := { m.counters with lateAnswers := m.counters.lateAnswers + 1 } } }) ∧
      (∀ e, g.entry t = .live e →
        let size := if a.status = .done ∧ e.kind = .fetch then e.length else 0
        let answered :=
          match e.orphan, e.slot with
          | false, some k => freed.withAnswer e.stream k e.tag a.status a.payload
          | _, _ => freed
        let counted : Gate :=
          match e.binding with
          | .direct => answered
          | .mapped c _ =>
            { answered with
              contexts := g.contexts.set c.val
                { g.context c with
                  counters :=
                    { (g.context c).counters with
                      corruptAnswers := (g.context c).counters.corruptAnswers + 1 } } }
        let context := match e.binding with | .direct => none | .mapped c _ => some c
        let noted :=
          if a.status = .corrupt then
            counted.offerFault ⟨.corruptData, some e.stream, context, some e.page, some e.kind, none⟩
          else answered
        (a.payload.length ≠ size → g.takeAnswer a =
          { g with
            management := { m with counters := { m.counters with trunkMalformed := m.counters.trunkMalformed + 1 } } }) ∧
        (a.payload.length = size → g.takeAnswer a =
          match e.binding with | .direct => noted | .mapped c _ => noted.judgeDrain c))) ∧
  ∀ (s : State) (c : ContextNo), ∃ g : Gate,
    exec (.retireComplete c) s = .next (s.withGate g) ∧
    exec (.invalidateComplete c) (s.withGate g) = .next (s.withGate (s.gate.judgeDrain c))

/-- R35 to R41, R15, R25, R32: what an answer to the tag of a walk slot does. A current result installs the translation where the
entry is valid, retained and its reserved bits are zero, unless its context and page are cached already. The waiters are
settled in joining order: each is refused or made READY by the entry, refused with MAP_READ_ERROR by a failure, or, where its
binding has changed or the result is stale, returned to TRANSLATING; behind a refused one the next request of its stream
begins. Then the slot is FREE, the drain is judged, the walk waiting list is served, and the returned heads are checked again in
joining order. (While the waiters are settled the slot is neither WALKING nor FREE: log entry 6.) -/
def Obligations.AnswersToWalkTags : Prop :=
  (∀ (g : Gate) (a : Answer) (i : WalkNo), a.destination = g.gateId → a.tag = BitVec.ofNat 8 (252 + i.val) →
    let m := g.management
    let stray : Gate :=
      { g with management := { m with counters := { m.counters with strayAnswers := m.counters.strayAnswers + 1 } } }
    (g.walk i = .free → g.takeAnswer a = stray) ∧
    (∀ k, g.walk i = .quarantined k → g.takeAnswer a =
      Gate.serveWaiting
        { g with
          walks := g.walks.set i.val .free
          management := { m with counters := { m.counters with lateAnswers := m.counters.lateAnswers + 1 } } }) ∧
    ∀ w, g.walk i = .walking w →
      (w.sent = none → g.takeAnswer a = stray) ∧
      (w.sent ≠ none → a.status = .done → a.payload.length ≠ 8 → g.takeAnswer a =
        { g with
          management := { m with counters := { m.counters with trunkMalformed := m.counters.trunkMalformed + 1 } } }) ∧
      (w.sent ≠ none → (a.status = .done → a.payload.length = 8) →
        let c := w.context
        let n := natOfBytes a.payload
        let current := a.status = .done ∧ w.epoch = (g.context c).epoch ∧ (g.context c).state = .active
        let clean := n / 16 % 256 = 0 ∧ n / 2 ^ 48 = 0
        let kept := n % 2 = 1 ∧ clean ∧ n / 8 % 2 = 1
        let entry : MapEntry :=
          { valid := decide (n % 2 = 1), reservedZero := decide clean, readable := decide (n / 2 % 2 = 1)
            writable := decide (n / 4 % 2 = 1), retain := decide (n / 8 % 2 = 1), frame := BitVec.ofNat 36 (n / 4096 % 2 ^ 36) }
        let result : WalkResult :=
          if current then .current entry else if a.status = .done then .stale else .failed a.status
        let cached := ∃ e ∈ g.cache, e.context = c ∧ e.page = w.page
        ∃ installed : Gate,
          (¬ (current ∧ kept) ∨ cached → installed = g) ∧
          (current → kept → ¬ cached → installed =
            { g with
              cache := (if g.cache.length < 128 then g.cache else g.cache.tail) ++
                [⟨c, w.page, entry.frame, entry.readable, entry.writable⟩] }) ∧
          ∃ (settled : Gate) (returned : List StreamId),
            Gate.settleWaiters c result w.waiters { installed with walks := g.walks.set i.val (.quarantined g.exponent) } =
              (settled, returned) ∧
            g.takeAnswer a = Gate.recheckAll returned
              ({ settled with walks := settled.walks.set i.val .free }.judgeDrain c).serveWaiting)) ∧
  (∀ (c : ContextNo) (result : WalkResult) (g : Gate),
    Gate.settleWaiters c result [] g = (g, []) ∧
    ∀ (x : StreamId) (generation : Word16) (more : List Waiter),
      let settles (h : Gate) := Gate.settleWaiters c result (⟨x, generation⟩ :: more) g = Gate.settleWaiters c result more h
      let same := (g.stream x).generation = generation
      let headed (h : HeadState) : Gate := { g with streams := g.streams.set x.val { g.stream x with head := some h } }
      (¬ same ∨ result = .stale → Gate.settleWaiters c result (⟨x, generation⟩ :: more) g =
        ((Gate.settleWaiters c result more (headed .translating)).1,
          x :: (Gate.settleWaiters c result more (headed .translating)).2)) ∧
      ∀ (r : Request) (rest : List Request), same → (g.stream x).queue = r :: rest →
        let refused (kind : FaultKind) (detail : Option AnswerStatus) : Gate :=
          Gate.startHeads x rest (g.refusal x r rest
            ⟨kind, some x, some c, some (r.address.toNat / 4096), some r.kind, detail⟩)
        (∀ status, result = .failed status → settles (refused .mapReadError (some status))) ∧
        ∀ e, result = .current e →
          (e.valid = false → settles (refused .notPresent none)) ∧
          (e.valid = true → e.reservedZero = false → settles (refused .badEntry none)) ∧
          (e.valid = true → e.reservedZero = true → r.kind = .fetch → e.readable = false →
            settles (refused .readDenied none)) ∧
          (e.valid = true → e.reservedZero = true → r.kind ≠ .fetch → e.writable = false →
            settles (refused .writeDenied none)) ∧
          (e.valid = true → e.reservedZero = true → (if r.kind = .fetch then e.readable else e.writable) = true →
            settles (headed (.ready (BitVec.ofNat 48 (e.frame.toNat * 4096 + r.address.toNat % 4096))
              ⟨(g.stream x).generation, some (c, (g.context c).epoch)⟩)))) ∧
  ∀ (g : Gate) (x : StreamId) (more : List StreamId),
    Gate.recheckAll [] g = g ∧ Gate.recheckAll (x :: more) g = Gate.recheckAll more (g.recheckHead x)

/-- R82, R77, R84: the expiry of a LIVE entry places TIMEOUT unless it is an orphan, counts in its context, offers
ANSWER_TIMEOUT, makes the entry LATE with the T in force, and has the drain of its context judged; the end of the
quarantine frees the tag. -/
def Obligations.EntryExpiryAndQuarantine : Prop :=
  ∀ (s : State) (t : RequestTag),
    let g := s.gate
    (∀ e, g.entry t = .live e →
      let answered :=
        match e.orphan, e.slot with
        | false, some k => g.withAnswer e.stream k e.tag .timeout []
        | _, _ => g
      let counted : Gate :=
        match e.binding with
        | .direct => answered
        | .mapped c _ =>
          { answered with
            contexts := g.contexts.set c.val
              { g.context c with
                counters :=
                  { (g.context c).counters with answerTimeouts := (g.context c).counters.answerTimeouts + 1 } } }
      let context := match e.binding with | .direct => none | .mapped c _ => some c
      let told := counted.offerFault ⟨.answerTimeout, some e.stream, context, some e.page, some e.kind, none⟩
      let late : Gate := { told with entries := g.entries.set t.val (.late g.exponent) }
      exec (.entryExpiry t) s = .next (s.withGate
        (match e.binding with | .direct => late | .mapped c _ => late.judgeDrain c))) ∧
    (∀ k, g.entry t = .late k →
      exec (.quarantineEnd t) s = .next (s.withGate { g with entries := g.entries.set t.val .free }))

/-- R39, R40, R34, R41: the expiry of a walk settles its waiters in joining order, each refused with MAP_READ_ERROR and detail
TIMEOUT or, where its binding has changed, returned to TRANSLATING; its slot is QUARANTINED with the T in force, the drain of
its context is judged, and the returned heads are checked again in joining order. The end of the quarantine frees the slot and
serves the walk waiting list: while a slot is FREE, the oldest head is taken from the list and checked again, and so on. -/
def Obligations.WalkExpiryAndQuarantine : Prop :=
  (∀ (s : State) (i : WalkNo) (w : Walk), s.gate.walk i = .walking w → w.sent ≠ none →
    let g := s.gate
    ∃ (settled : Gate) (returned : List StreamId),
      Gate.settleWaiters w.context (.failed .timeout) w.waiters
        { g with walks := g.walks.set i.val (.quarantined g.exponent) } = (settled, returned) ∧
      settled.walk i = .quarantined g.exponent ∧
      exec (.walkExpiry i) s = .next (s.withGate (Gate.recheckAll returned (settled.judgeDrain w.context)))) ∧
  (∀ (c : ContextNo) (g : Gate) (x : StreamId) (generation : Word16) (more : List Waiter) (r : Request)
    (rest : List Request), (g.stream x).queue = r :: rest →
    Gate.settleWaiters c (.failed .timeout) (⟨x, generation⟩ :: more) g =
      if (g.stream x).generation = generation then
        Gate.settleWaiters c (.failed .timeout) more (Gate.startHeads x rest (g.refusal x r rest
          ⟨.mapReadError, some x, some c, some (r.address.toNat / 4096), some r.kind, some .timeout⟩))
      else
        let later := Gate.settleWaiters c (.failed .timeout) more
          { g with streams := g.streams.set x.val { g.stream x with head := some .translating } }
        (later.1, x :: later.2)) ∧
  (∀ (s : State) (i : WalkNo) (k : Exponent), s.gate.walk i = .quarantined k →
    exec (.walkQuarantineEnd i) s = .next (s.withGate
      (Gate.serveWaiting { s.gate with walks := s.gate.walks.set i.val .free }))) ∧
  ∀ g : Gate,
    g.serveWaiting = Gate.serveHeads g.walkWaiting g ∧
    Gate.serveHeads [] g = g ∧
    ∀ (x : StreamId) (more : List StreamId), g.walkWaiting = x :: more →
      ((∃ i, g.walk i = .free) → Gate.serveHeads (x :: more) g =
        Gate.serveHeads more (Gate.recheckHead { g with walkWaiting := more } x)) ∧
      ((∀ i, g.walk i ≠ .free) → Gate.serveHeads (x :: more) g = g)

/-! ### The host path (07) -/

/-- R119 to R122: how a host request is matched, and what HOST_REQUEST_OFFER does with the one at the front: forwarded with its
rebased address where its branch's queue has room, a refused PUSH dropped and counted, any other held with nothing carried
out; a request that is held is offered again in the same way. -/
def Obligations.HostRequestOfferOutcomes : Prop :=
  (∀ (g : Gate) (r : HostRequest),
    let covers (i : WindowNo) (a : Nat) := (g.window i).base.toNat ≤ a ∧ a ≤ (g.window i).last.toNat + 65535
    let final := r.address.toNat + r.length - 1
    let first (i : WindowNo) := (g.window i).enabled = true ∧ covers i r.address.toNat
    ((∀ i, ¬ first i) → g.matchHost r = .refuse .noroute) ∧
    ∀ i, first i → (∀ j, j < i → ¬ first j) →
      ((g.window i).kind = .exclude → g.matchHost r = .refuse .noroute) ∧
      ∀ target b access, (g.window i).kind = .forward target b access →
        let up := (g.branch b).link.state = .up
        let forbidden := r.kind ≠ .fetch ∧ access = .readOnly
        (¬ covers i final ∨ ¬ up → g.matchHost r = .refuse .noroute) ∧
        (covers i final → up → forbidden → g.matchHost r = .refuse .denied) ∧
        (covers i final → up → ¬ forbidden →
          g.matchHost r = .forward b (r.address - (g.window i).base + target))) ∧
  (∀ (s : State) (r : HostRequest) (rest : List HostRequest), s.gate.trunk.ingressRequests = r :: rest →
    let t := s.gate.trunk
    let m := s.gate.management
    let taken : TrunkPort := { t with ingressRequests := rest, hostOffer := none, link := t.link.free .request }
    let held (o : HostOutcome) := exec .hostRequestOffer s =
      .next (s.withGate { s.gate with trunk := { t with hostOffer := some o } })
    (∀ b address, s.gate.matchHost r = .forward b address → (s.gate.branch b).egressRequests.length < 16 →
      exec .hostRequestOffer s = .next (s.withGate
        { s.gate with
          trunk := taken
          branches := s.gate.branches.set b.val
            { s.gate.branch b with
              egressRequests := (s.gate.branch b).egressRequests ++ [{ r with address := address }] } })) ∧
    (∀ b address, s.gate.matchHost r = .forward b address → 16 ≤ (s.gate.branch b).egressRequests.length →
      held (.forward b address)) ∧
    (∀ status, s.gate.matchHost r = .refuse status → r.kind = .push →
      exec .hostRequestOffer s = .next (s.withGate
        { s.gate with
          trunk := taken
          management := { m with counters := { m.counters with hostRefused := m.counters.hostRefused + 1 } } })) ∧
    (∀ status, s.gate.matchHost r = .refuse status → r.kind ≠ .push → held (.refuse status))) ∧
  (∀ s : State,
    (s.gate.trunk.hostOffer = none → s.gate.offerHeldAgain = s.gate) ∧
    (s.gate.trunk.hostOffer ≠ none → exec .hostRequestOffer s = .next (s.withGate s.gate.offerHeldAgain)))

/-- R123, R124, R122: while the trunk answer transmit queue has room, the first source that waits, in round-robin order, is
served: a branch's answer moves there unchanged and frees its credit; a host request still refused is taken, counted and
answered with the status found now; one that is no longer refused is dealt with as an offer does, and the place goes to the
next source that waits. -/
def Obligations.AnswerQueueGrantOutcomes : Prop :=
  ∀ s : State, s.gate.trunk.answerQueue.length < 32 →
    let t := s.gate.trunk
    let m := s.gate.management
    ((∀ x, ¬ s.gate.Waits x) → exec .answerQueueGrant s = .next s) ∧
    (∀ (b : BranchNo) (a : Answer) (rest : List Answer), s.gate.NextSource (.branch b) →
      (s.gate.branch b).ingressAnswers = a :: rest → exec .answerQueueGrant s = .next (s.withGate
        { s.gate with
          trunk := { t with answerQueue := t.answerQueue ++ [a], lastSource := .branch b }
          branches := s.gate.branches.set b.val
            { s.gate.branch b with ingressAnswers := rest, link := (s.gate.branch b).link.free .answer } })) ∧
    (∀ (r : HostRequest) (rest : List HostRequest), s.gate.NextSource .trunk → t.ingressRequests = r :: rest →
      (∀ status, s.gate.matchHost r = .refuse status → exec .answerQueueGrant s = .next (s.withGate
        { s.gate with
          trunk :=
            { t with
              ingressRequests := rest, hostOffer := none, link := t.link.free .request
              answerQueue := t.answerQueue ++ [⟨r.origin, r.tag, status, []⟩], lastSource := .trunk }
          management := { m with counters := { m.counters with hostRefused := m.counters.hostRefused + 1 } } })) ∧
      (∀ b address, s.gate.matchHost r = .forward b address →
        ∃ g : Gate, exec .hostRequestOffer s = .next (s.withGate g) ∧ ¬ g.Waits .trunk ∧
          exec .answerQueueGrant s = exec .answerQueueGrant (s.withGate g)))

/-! ### Departures and transmitters (04, 03) -/

/-- R68 to R72, R31, R76, R78: at a REQUEST turn candidates are granted in round-robin order, from the one after the last position
granted, until one departs or none is left to examine; one that is sent back is checked again, and the same turn goes on. A
walk slot sends its FETCH; a head whose stamp is current departs with its translated address under GATE_ID, a COMMIT or FETCH
with the lowest FREE tag, whose entry becomes LIVE with the generation, context and epoch found current and the fields of R76,
and the stream's next request begins; one REQUEST credit is used. A head whose stamp is stale is sent back. A turn without a
departure sends nothing and is offered to the other classes (log entry 9). A head that comes up behind one refused in the turn
may be granted in it (log entry 21). Without a REQUEST turn nothing is granted (log entry 5). -/
def Obligations.DepartureGrantOutcomes : Prop :=
  (∀ s : State, s.gate.trunkTurn ≠ some .request → exec .departureGrant s = .next s) ∧
  (∀ s : State, s.gate.trunkTurn = some .request →
    (∀ (n : Fin 68) (g : Gate), s.gate.NextGrant [] n → s.gate.grant n = .departed g →
      exec .departureGrant s = .next (s.withGate g)) ∧
    ∃ (g : Gate) (departed : Bool), s.gate.Turn [] g departed ∧ exec .departureGrant s = .next (s.withGate
      (if departed then g
      else
        { g with
          trunk :=
            { g.trunk with
              requestPassed := decide
                ((g.trunk.answerQueue ≠ [] ∧ 0 < g.trunk.link.held.answer) ∨
                  (g.management.controlQueue ≠ [] ∧ 0 < g.trunk.link.held.control)) } }))) ∧
  ∀ (g : Gate) (n : Fin 68),
    let t := g.trunk
    let granted : Gate := { g with lastGranted := n }
    let sends (bytes : List Byte) : Gate :=
      { granted with
        sent := g.sent ++ [⟨.trunk, .packet bytes⟩]
        trunk :=
          { t with
            link := { t.link with held := { t.link.held with request := t.link.held.request - 1 } }
            lastClass := .request, requestPassed := false } }
    (∀ (i : WalkNo) (w : Walk), n.val = 64 + i.val → g.walk i = .walking w → g.grant n = .departed
      { sends ([0x12, g.gateId, BitVec.ofNat 8 (252 + i.val), 0, 0, 8] ++ bytesOfNat 6 w.entryAddress.toNat) with
        walks := g.walks.set i.val (.walking { w with sent := some g.exponent }) }) ∧
    ∀ (x : StreamId) (address : Addr) (stamp : Stamp) (r : Request) (rest : List Request), n.val = x.val →
      (g.stream x).head = some (.ready address stamp) → (g.stream x).queue = r :: rest →
      let b := branchOf x
      let isCurrent := stamp.generation = (g.stream x).generation ∧
        ∀ c epoch, stamp.mapped = some (c, epoch) → epoch = (g.context c).epoch
      let bytes (code tag : Byte) := [code, g.gateId, tag, 0] ++ bytesOfNat 2 r.length ++ bytesOfNat 6 address.toNat ++
        r.payload
      let left (h : Gate) : Gate :=
        { h with
          streams := g.streams.set x.val { g.stream x with queue := rest, head := none, slot := none }
          branches := g.branches.set b.val
            { g.branch b with
              link := (g.branch b).link.free .request
              counters := { (g.branch b).counters with departed := (g.branch b).counters.departed + 1 } } }
      (isCurrent → r.kind = .push → g.grant n = .departed (Gate.startHeads x rest (left (sends (bytes 0x10 0))))) ∧
      (isCurrent → r.kind ≠ .push →
        ∀ tag : RequestTag, g.entry tag = .free → (∀ u, u < tag → g.entry u ≠ .free) →
        let live : LiveEntry :=
          { stream := x, tag := r.tag, kind := r.kind, length := r.length, page := r.address.toNat / 4096
            slot := (g.stream x).slot, generation := stamp.generation
            binding := (match stamp.mapped with | none => .direct | some (c, epoch) => .mapped c epoch)
            orphan := false, timer := g.exponent }
        g.grant n = .departed (Gate.startHeads x rest
          { left (sends (bytes (if r.kind = .commit then 0x11 else 0x12) (BitVec.ofNat 8 tag.val))) with
            entries := g.entries.set tag.val (.live live) })) ∧
      (¬ isCurrent → g.grant n = .sentBack (granted.recheckHead x))

/-- R73, R74, R134, R136, R149: the turn of the trunk transmitter belongs to the first class, in the order after the class that last
sent (or after REQUEST, where its turn ended without a departure: log entry 9), that has a packet and a held credit while
the link is UP and no CREDIT waits (log entry 8). The front answer, REPLY or NOTICE is sent at its class's turn, and
otherwise stays. -/
def Obligations.TrunkTransmitterOutcomes : Prop :=
  (∀ (g : Gate) (c : PacketClass),
    let number (d : PacketClass) : Nat := match d with | .request => 0 | .answer => 1 | .control => 2
    let start := if g.trunk.requestPassed then 0 else number g.trunk.lastClass
    let can (d : PacketClass) := g.trunk.link.state = .up ∧ 0 < g.trunk.link.held.get d ∧ g.trunk.link.creditOrder = [] ∧
      (match d with
        | .request => ∃ n, g.Candidate n
        | .answer => g.trunk.answerQueue ≠ []
        | .control => g.management.controlQueue ≠ [])
    g.trunkTurn = some c ↔
      can c ∧ ∀ d, (number d + 2 - start) % 3 < (number c + 2 - start) % 3 → ¬ can d) ∧
  (∀ (s : State) (a : Answer) (rest : List Answer), s.gate.trunk.answerQueue = a :: rest →
    let t := s.gate.trunk
    let status : Byte :=
      match a.status with | .done => 0 | .denied => 1 | .noroute => 2 | .timeout => 3 | .corrupt => 4
    (s.gate.trunkTurn = some .answer → exec .trunkAnswerTransmit s = .next (s.withGate
      { s.gate with
        sent := s.gate.sent ++
          [⟨.trunk, .packet ([0x20, a.destination, a.tag, status] ++ bytesOfNat 2 a.payload.length ++ [0, 0] ++ a.payload)⟩]
        trunk :=
          { t with
            link := { t.link with held := { t.link.held with answer := t.link.held.answer - 1 } }
            lastClass := .answer, requestPassed := false, answerQueue := rest } })) ∧
    (s.gate.trunkTurn ≠ some .answer → exec .trunkAnswerTransmit s = .next s)) ∧
  (∀ (s : State) (p : ControlOut) (rest : List ControlOut), s.gate.management.controlQueue = p :: rest →
    let t := s.gate.trunk
    let bytes : List Byte :=
      match p with
      | .reply destination tag status code results =>
        [0x31, destination, tag, (match status with
          | .done => 0 | .busy => 1 | .notManager => 2 | .badArgument => 3 | .state => 4 | .conflict => 5 | .unknown => 6),
          code, 0] ++ bytesOfNat 2 results.length ++ results
      | .faultsNotice destination count => [0x32, destination, 1, 0, BitVec.ofNat 8 count, 0, 0, 0]
      | .branchNotice destination b =>
        [0x32, destination, 2, 0, BitVec.ofNat 8 b.val,
          (match (s.gate.branch b).link.state with | .down => 0 | .training => 1 | .up => 2), 0, 0]
    (s.gate.trunkTurn = some .control → exec .controlTransmit s = .next (s.withGate
      { s.gate with
        sent := s.gate.sent ++ [⟨.trunk, .packet bytes⟩]
        trunk :=
          { t with
            link := { t.link with held := { t.link.held with control := t.link.held.control - 1 } }
            lastClass := .control, requestPassed := false }
        management := { s.gate.management with controlQueue := rest } })) ∧
    (s.gate.trunkTurn ≠ some .control → exec .controlTransmit s = .next s))

/-- R61, R55, R121, R134, R136: the turn of a branch transmitter belongs first to the queue that did not send the last packet, among
those with a packet and a held credit while the link is UP and no CREDIT waits (log entry 8). The front answer is sent, its
slot becomes free or goes to the oldest head that waits for one, which is checked at once; the front host request is sent
and a held one is offered again. -/
def Obligations.BranchTransmitterOutcomes : Prop :=
  ∀ (s : State) (b : BranchNo),
    let y := s.gate.branch b
    let can (q : BranchQueue) := y.link.state = .up ∧ y.link.creditOrder = [] ∧
      (match q with
        | .answers => y.egressAnswers ≠ [] ∧ 0 < y.link.held.answer
        | .requests => y.egressRequests ≠ [] ∧ 0 < y.link.held.request)
    (∀ q, y.turn = some q ↔ can q ∧ (y.lastSent ≠ q ∨ ∀ p, p ≠ q → ¬ can p)) ∧
    (∀ (a : EgressAnswer) (rest : List EgressAnswer), y.egressAnswers = a :: rest →
      let status : Byte :=
        match a.status with | .done => 0 | .denied => 1 | .noroute => 2 | .timeout => 3 | .corrupt => 4
      let sent := s.gate.sent ++
        [⟨.branch b, .packet ([0x20, BitVec.ofNat 8 a.stream.val, a.tag, status] ++ bytesOfNat 2 a.payload.length ++ [0, 0] ++
          a.payload)⟩]
      let port (slot : AnswerSlot) (waiting : List StreamId) : Branch :=
        { y with
          link := { y.link with held := { y.link.held with answer := y.link.held.answer - 1 } }
          lastSent := .answers, egressAnswers := rest, slots := y.slots.set a.slot.val slot, slotWait := waiting
          counters := { y.counters with answersSent := y.counters.answersSent + 1 } }
      (y.turn = some .answers → y.slotWait = [] → exec (.branchAnswerTransmit b) s = .next (s.withGate
        { s.gate with sent := sent, branches := s.gate.branches.set b.val (port .free []) })) ∧
      (∀ (x : StreamId) (waiting : List StreamId) (r : Request) (later : List Request), y.turn = some .answers →
        y.slotWait = x :: waiting → branchOf x = b → (s.gate.stream x).queue = r :: later →
        exec (.branchAnswerTransmit b) s = .next (s.withGate
          ((Gate.checkHead
            { s.gate with
              sent := sent
              branches := s.gate.branches.set b.val (port (.reserved (numberOf x) r.tag) waiting)
              streams := s.gate.streams.set x.val
                { s.gate.stream x with slot := some a.slot, head := some .translating } } x r).settled x r later))) ∧
      (y.turn ≠ some .answers → exec (.branchAnswerTransmit b) s = .next s)) ∧
    (∀ (r : HostRequest) (rest : List HostRequest), y.egressRequests = r :: rest →
      let code : Byte := match r.kind with | .push => 0x10 | .commit => 0x11 | .fetch => 0x12
      let tag : Byte := match r.kind with | .push => 0 | .commit => r.tag | .fetch => r.tag
      let g : Gate :=
        { s.gate with
          sent := s.gate.sent ++
            [⟨.branch b, .packet ([code, r.origin, tag, 0] ++ bytesOfNat 2 r.length ++ bytesOfNat 6 r.address.toNat ++
              r.payload)⟩]
          branches := s.gate.branches.set b.val
            { y with
              link := { y.link with held := { y.link.held with request := y.link.held.request - 1 } }
              lastSent := .requests, egressRequests := rest } }
      (y.turn = some .requests → exec (.branchRequestTransmit b) s = .next (s.withGate g.offerHeldAgain)) ∧
      (y.turn ≠ some .requests → exec (.branchRequestTransmit b) s = .next s))
end

