-- ==== Sys2Proof/Laws/Arbiters.lean ====
section
/-! SUPPORT. What the arbiters find, said once: the lowest place of a vector, the candidates and the next grant of the departure
arbiter (R67, R68), the sources of the answer arbiter that do not wait (R123); and the refusal of a head and the placing of an
answer in one update (R59, R62). -/

namespace Sys2Proof.Machine

/-! ### The lowest place -/

theorem lowest_eq_none {α : Type} {n : Nat} (v : Vector α n) (p : α → Bool) :
    lowest v p = none ↔ ∀ i : Fin n, p v[i.val] = false := by
  simp [lowest, List.find?_eq_none]

theorem lowest_isSome {α : Type} {n : Nat} (v : Vector α n) (p : α → Bool) :
    (lowest v p).isSome = true ↔ ∃ i : Fin n, p v[i.val] = true := by
  simp [lowest, List.find?_isSome]

theorem lowest_eq_some {α : Type} {n : Nat} (v : Vector α n) (p : α → Bool) (i : Fin n) :
    lowest v p = some i ↔ p v[i.val] = true ∧ ∀ j : Fin n, j < i → p v[j.val] = false := by
  unfold lowest
  rw [List.find?_eq_some_iff_getElem]
  refine and_congr_right fun _ => ⟨fun ⟨k, hk, e, before⟩ j hj => ?_, fun before => ⟨i.val, by simp, by simp, fun j hj => ?_⟩⟩
  · have ki : k = i.val := by simpa using congrArg Fin.val e
    simpa using before j.val (by omega)
  · simpa using before ⟨j, by omega⟩ hj

/-! ### The departure arbiter (R67, R68) -/

theorem freeTag_isSome (g : Gate) : g.freeTag.isSome = true ↔ ∃ t, g.entry t = .free := by
  unfold Gate.freeTag
  rw [lowest_isSome]
  simp [Gate.entry]

/-- The candidates are those of R67. -/
theorem isCandidate_iff (g : Gate) (n : Fin 68) : g.isCandidate n = true ↔ g.Candidate n := by
  unfold Gate.isCandidate positionOf Gate.Candidate
  by_cases h : n.val < 64
  · simp only [h, dif_pos, Gate.streamIsCandidate]
    constructor
    · intro q
      split at q
      · rename_i address stamp r rest head queue
        simp only [Bool.or_eq_true, beq_iff_eq, freeTag_isSome] at q
        exact .inl ⟨⟨n.val, h⟩, address, stamp, r, rest, rfl, head, queue, q⟩
      · cases q
    · rintro (⟨x, address, stamp, r, rest, e, head, queue, kind⟩ | ⟨i, w, e, _⟩)
      · obtain rfl : x = ⟨n.val, h⟩ := Fin.ext e
        rw [head, queue]
        simpa only [Bool.or_eq_true, beq_iff_eq, freeTag_isSome] using kind
      · omega
  · simp only [h, dif_neg, not_false_eq_true, Gate.walkIsCandidate]
    constructor
    · intro q
      split at q
      · rename_i w slot
        exact .inr ⟨_, w, by simp; omega, slot, by simpa using q⟩
      · cases q
    · rintro (⟨x, _, _, _, _, e, _⟩ | ⟨i, w, e, slot, sent⟩)
      · have := x.isLt
        omega
      · have same : (⟨n.val - 64, by omega⟩ : WalkNo) = i := by
          apply Fin.ext
          simp
          omega
        rw [same, slot]
        simp [sent]

/-- The place of a position in the round-robin order. -/
theorem roundRobin_place (last m : Fin 68) (i : Nat) (h : i < 68) :
    last + 1 + (⟨i, h⟩ : Fin 68) = m ↔ i = (m.val + 67 - last.val) % 68 := by
  have one : ((1 : Fin 68) : Nat) = 1 := rfl
  have := last.isLt
  have := m.isLt
  rw [Fin.ext_iff]
  simp only [Fin.val_add, one]
  omega

/-- The arbiter finds the next grant of R68. -/
theorem nextCandidate_iff (g : Gate) (sentBack : List (Fin 68)) (n : Fin 68) :
    g.nextCandidate sentBack = some n ↔ g.NextGrant sentBack n := by
  unfold Gate.nextCandidate roundRobin Gate.NextGrant
  rw [List.find?_eq_some_iff_getElem]
  simp only [Bool.and_eq_true, isCandidate_iff, Bool.not_eq_true', List.contains_eq_mem, List.getElem_map, List.length_map,
    List.length_finRange, List.getElem_finRange, Bool.eq_false_iff, ne_eq, decide_eq_true_eq, and_assoc]
  refine and_congr_right fun _ => and_congr_right fun _ => ?_
  constructor
  · rintro ⟨i, hi, e, before⟩ m hm c
    have place := (roundRobin_place g.lastGranted n i (by simpa using hi)).mp e
    have this := before ((m.val + 67 - g.lastGranted.val) % 68) (by omega)
    rw [show (Fin.cast (by simp) (⟨(m.val + 67 - g.lastGranted.val) % 68, by simp; omega⟩ :
        Fin (List.finRange 68).length)) = (⟨(m.val + 67 - g.lastGranted.val) % 68, by omega⟩ : Fin 68) from rfl,
      (roundRobin_place g.lastGranted m _ (by omega)).mpr rfl] at this
    exact not_not.mp fun back => this ⟨c, back⟩
  · intro before
    have inRange : (n.val + 67 - g.lastGranted.val) % 68 < 68 := by omega
    refine ⟨(n.val + 67 - g.lastGranted.val) % 68, inRange, (roundRobin_place g.lastGranted n _ inRange).mpr rfl,
      fun j hj => ?_⟩
    have small : j < 68 := by omega
    have here := before (g.lastGranted + 1 + (⟨j, small⟩ : Fin 68)) (by
      rwa [← (roundRobin_place g.lastGranted _ j small).mp rfl])
    exact fun ⟨c, back⟩ => back (here c)

theorem nextCandidate_none (g : Gate) (sentBack : List (Fin 68)) :
    g.nextCandidate sentBack = none ↔ ∀ n, g.Candidate n → n ∈ sentBack := by
  unfold Gate.nextCandidate roundRobin
  rw [List.find?_eq_none]
  simp only [List.mem_map, List.mem_finRange, true_and, forall_exists_index, forall_apply_eq_imp_iff, Bool.and_eq_true,
    isCandidate_iff, Bool.not_eq_true', List.contains_eq_mem, decide_eq_false_iff_not, not_and, not_not]
  refine ⟨fun h n c => ?_, fun h i c => h _ c⟩
  have := h (n - (g.lastGranted + 1))
  rw [add_sub_cancel] at this
  exact this c

/-! ### The answer arbiter (R123) -/

/-- A source that does not wait is passed over. -/
theorem grantPlace_skip (g : Gate) (x : AnswerSource) (rest : List AnswerSource) (h : ¬ g.Waits x) :
    Gate.grantPlace (x :: rest) g = Gate.grantPlace rest g := by
  cases x with
  | branch b =>
    have none : (g.branch b).ingressAnswers = [] := by simpa [Gate.Waits] using h
    conv_lhs => unfold Gate.grantPlace
    rw [none]
  | trunk =>
    conv_lhs => unfold Gate.grantPlace
    split
    · rename_i r more waits front
      unfold TrunkPort.sourceWaits at waits
      rw [front] at waits
      split at waits
      · rename_i front' offer
        cases front'
        exact absurd ⟨_, _, _, front, offer, by simpa using waits⟩ h
      · cases waits
    · rfl

/-! ### One update each (R59, R62) -/

theorem placeAnswer_eq (g : Gate) (x : StreamId) (k : SlotNo) (tag : Byte) (status : AnswerStatus) (payload : List Byte) :
    g.placeAnswer x k tag status payload = g.withAnswer x k tag status payload := by
  simp [Gate.placeAnswer, Gate.withAnswer, Gate.setSlot, Gate.modBranch, Gate.branch]

theorem leaveRefused_eq (g : Gate) (x : StreamId) (rest : List Request) :
    (g.leaveQueue x rest).countBranch (branchOf x) (fun y => { y with refused := y.refused + 1 }) =
    { g with
      streams := g.streams.set x.val { g.stream x with queue := rest, head := none, slot := none }
      branches := g.branches.set (branchOf x).val
        { g.branch (branchOf x) with
          link := (g.branch (branchOf x)).link.free .request
          counters :=
            { (g.branch (branchOf x)).counters with refused := (g.branch (branchOf x)).counters.refused + 1 } } } := by
  simp [Gate.leaveQueue, Gate.modStream, Gate.freeCredit, Gate.modLink, Gate.countBranch, Gate.modBranch, Gate.branch]

/-- The refusal of R62 as one update after the offer of its fault. -/
theorem refuseHead_eq (g : Gate) (x : StreamId) (r : Request) (rest : List Request) (f : FaultReport) :
    g.refuseHead x r rest f = g.refusal x r rest f := by
  have answered : (if r.kind = .push then g else g.placeAnswerIn x (g.stream x).slot r.tag .denied []) =
      (match r.kind, (g.stream x).slot with
        | .push, _ => g
        | _, some k => g.withAnswer x k r.tag .denied []
        | _, none => g) := by
    rcases r.kind <;> rcases (g.stream x).slot <;> simp [Gate.placeAnswerIn, placeAnswer_eq]
  unfold Gate.refuseHead Gate.refusal
  simp only [leaveRefused_eq, answered]
  first | done | rfl

end Sys2Proof.Machine
end

