-- ==== Sys2Proof/Laws/Bytes.lean ====
section
/-! SUPPORT. Numbers as bytes, most significant first (R153): what is written is what is read. -/

namespace Sys2Proof.Machine

@[simp] theorem bytesOfNat_length (w n : Nat) : (bytesOfNat w n).length = w := by
  induction w generalizing n with
  | zero => rfl
  | succ w ih => simp [bytesOfNat, ih]

theorem natOfBytes_append_one (bytes : List Byte) (b : Byte) : natOfBytes (bytes ++ [b]) = natOfBytes bytes * 256 + b.toNat := by
  simp [natOfBytes]

/-- The bytes of a number spell the number, modulo the size of the field. -/
theorem natOfBytes_bytesOfNat (w n : Nat) : natOfBytes (bytesOfNat w n) = n % 256 ^ w := by
  induction w generalizing n with
  | zero => simp [bytesOfNat, natOfBytes, Nat.mod_one]
  | succ w ih =>
    have step : n % 256 ^ (w + 1) = n % 256 + 256 * (n / 256 % 256 ^ w) := by rw [pow_succ', Nat.mod_mul]
    have byte : (BitVec.ofNat 8 n).toNat = n % 256 := BitVec.toNat_ofNat n 8
    rw [bytesOfNat, natOfBytes_append_one, ih, step, byte]
    omega

/-- The field of an operand block is the bytes at its offset. -/
theorem operandField_at (before field after : List Byte) :
    operandField (before ++ field ++ after) before.length field.length = natOfBytes field := by
  unfold operandField
  congr 1
  refine List.ext_getElem (by simp) fun i h h' => ?_
  simp only [List.getElem_map, List.getElem_range, List.append_assoc]
  rw [List.getD_eq_getElem _ _ (by simp; omega), List.getElem_append_right (by omega)]
  simp only [Nat.add_sub_cancel_left]
  rw [List.getElem_append_left h']

/-- A one-byte field is the byte at its offset. -/
theorem operandField_one (operands : List Byte) (offset : Nat) :
    operandField operands offset 1 = (operands.getD offset 0).toNat := by
  simp [operandField, natOfBytes]

end Sys2Proof.Machine
end

