-- ==== Sys2Proof/Laws/State.lean ====
section
/-! SUPPORT. What each update of the gate leaves in each field, and what reading a record gives after an update. One lemma per
field per update, by rfl. -/

namespace Sys2Proof.Machine

variable (g : Gate)

/-! ### modStream -/

@[simp] theorem Gate.modStream_gateId (s : StreamId) (f : Stream → Stream) : (g.modStream s f).gateId = g.gateId := rfl
@[simp] theorem Gate.modStream_contexts (s : StreamId) (f : Stream → Stream) : (g.modStream s f).contexts = g.contexts := rfl
@[simp] theorem Gate.modStream_cache (s : StreamId) (f : Stream → Stream) : (g.modStream s f).cache = g.cache := rfl
@[simp] theorem Gate.modStream_walks (s : StreamId) (f : Stream → Stream) : (g.modStream s f).walks = g.walks := rfl
@[simp] theorem Gate.modStream_walkWaiting (s : StreamId) (f : Stream → Stream) :
    (g.modStream s f).walkWaiting = g.walkWaiting := rfl
@[simp] theorem Gate.modStream_entries (s : StreamId) (f : Stream → Stream) : (g.modStream s f).entries = g.entries := rfl
@[simp] theorem Gate.modStream_exponent (s : StreamId) (f : Stream → Stream) : (g.modStream s f).exponent = g.exponent := rfl
@[simp] theorem Gate.modStream_lastGranted (s : StreamId) (f : Stream → Stream) :
    (g.modStream s f).lastGranted = g.lastGranted := rfl
@[simp] theorem Gate.modStream_windows (s : StreamId) (f : Stream → Stream) : (g.modStream s f).windows = g.windows := rfl
@[simp] theorem Gate.modStream_log (s : StreamId) (f : Stream → Stream) : (g.modStream s f).log = g.log := rfl
@[simp] theorem Gate.modStream_management (s : StreamId) (f : Stream → Stream) :
    (g.modStream s f).management = g.management := rfl
@[simp] theorem Gate.modStream_trunk (s : StreamId) (f : Stream → Stream) : (g.modStream s f).trunk = g.trunk := rfl
@[simp] theorem Gate.modStream_branches (s : StreamId) (f : Stream → Stream) : (g.modStream s f).branches = g.branches := rfl
@[simp] theorem Gate.modStream_sent (s : StreamId) (f : Stream → Stream) : (g.modStream s f).sent = g.sent := rfl

/-! ### modContext -/

@[simp] theorem Gate.modContext_gateId (c : ContextNo) (f : Context → Context) : (g.modContext c f).gateId = g.gateId := rfl
@[simp] theorem Gate.modContext_cache (c : ContextNo) (f : Context → Context) : (g.modContext c f).cache = g.cache := rfl
@[simp] theorem Gate.modContext_walks (c : ContextNo) (f : Context → Context) : (g.modContext c f).walks = g.walks := rfl
@[simp] theorem Gate.modContext_walkWaiting (c : ContextNo) (f : Context → Context) :
    (g.modContext c f).walkWaiting = g.walkWaiting := rfl
@[simp] theorem Gate.modContext_streams (c : ContextNo) (f : Context → Context) :
    (g.modContext c f).streams = g.streams := rfl
@[simp] theorem Gate.modContext_entries (c : ContextNo) (f : Context → Context) :
    (g.modContext c f).entries = g.entries := rfl
@[simp] theorem Gate.modContext_exponent (c : ContextNo) (f : Context → Context) :
    (g.modContext c f).exponent = g.exponent := rfl
@[simp] theorem Gate.modContext_lastGranted (c : ContextNo) (f : Context → Context) :
    (g.modContext c f).lastGranted = g.lastGranted := rfl
@[simp] theorem Gate.modContext_windows (c : ContextNo) (f : Context → Context) :
    (g.modContext c f).windows = g.windows := rfl
@[simp] theorem Gate.modContext_log (c : ContextNo) (f : Context → Context) : (g.modContext c f).log = g.log := rfl
@[simp] theorem Gate.modContext_management (c : ContextNo) (f : Context → Context) :
    (g.modContext c f).management = g.management := rfl
@[simp] theorem Gate.modContext_trunk (c : ContextNo) (f : Context → Context) : (g.modContext c f).trunk = g.trunk := rfl
@[simp] theorem Gate.modContext_branches (c : ContextNo) (f : Context → Context) :
    (g.modContext c f).branches = g.branches := rfl
@[simp] theorem Gate.modContext_sent (c : ContextNo) (f : Context → Context) : (g.modContext c f).sent = g.sent := rfl

/-! ### count -/

@[simp] theorem Gate.count_gateId (c : ContextNo) (f : ContextCounters → ContextCounters) :
    (g.count c f).gateId = g.gateId := rfl
@[simp] theorem Gate.count_cache (c : ContextNo) (f : ContextCounters → ContextCounters) :
    (g.count c f).cache = g.cache := rfl
@[simp] theorem Gate.count_walks (c : ContextNo) (f : ContextCounters → ContextCounters) :
    (g.count c f).walks = g.walks := rfl
@[simp] theorem Gate.count_walkWaiting (c : ContextNo) (f : ContextCounters → ContextCounters) :
    (g.count c f).walkWaiting = g.walkWaiting := rfl
@[simp] theorem Gate.count_streams (c : ContextNo) (f : ContextCounters → ContextCounters) :
    (g.count c f).streams = g.streams := rfl
@[simp] theorem Gate.count_entries (c : ContextNo) (f : ContextCounters → ContextCounters) :
    (g.count c f).entries = g.entries := rfl
@[simp] theorem Gate.count_exponent (c : ContextNo) (f : ContextCounters → ContextCounters) :
    (g.count c f).exponent = g.exponent := rfl
@[simp] theorem Gate.count_lastGranted (c : ContextNo) (f : ContextCounters → ContextCounters) :
    (g.count c f).lastGranted = g.lastGranted := rfl
@[simp] theorem Gate.count_windows (c : ContextNo) (f : ContextCounters → ContextCounters) :
    (g.count c f).windows = g.windows := rfl
@[simp] theorem Gate.count_log (c : ContextNo) (f : ContextCounters → ContextCounters) : (g.count c f).log = g.log := rfl
@[simp] theorem Gate.count_management (c : ContextNo) (f : ContextCounters → ContextCounters) :
    (g.count c f).management = g.management := rfl
@[simp] theorem Gate.count_trunk (c : ContextNo) (f : ContextCounters → ContextCounters) :
    (g.count c f).trunk = g.trunk := rfl
@[simp] theorem Gate.count_branches (c : ContextNo) (f : ContextCounters → ContextCounters) :
    (g.count c f).branches = g.branches := rfl
@[simp] theorem Gate.count_sent (c : ContextNo) (f : ContextCounters → ContextCounters) : (g.count c f).sent = g.sent := rfl

/-! ### modBranch -/

@[simp] theorem Gate.modBranch_gateId (b : BranchNo) (f : Branch → Branch) : (g.modBranch b f).gateId = g.gateId := rfl
@[simp] theorem Gate.modBranch_contexts (b : BranchNo) (f : Branch → Branch) : (g.modBranch b f).contexts = g.contexts := rfl
@[simp] theorem Gate.modBranch_cache (b : BranchNo) (f : Branch → Branch) : (g.modBranch b f).cache = g.cache := rfl
@[simp] theorem Gate.modBranch_walks (b : BranchNo) (f : Branch → Branch) : (g.modBranch b f).walks = g.walks := rfl
@[simp] theorem Gate.modBranch_walkWaiting (b : BranchNo) (f : Branch → Branch) :
    (g.modBranch b f).walkWaiting = g.walkWaiting := rfl
@[simp] theorem Gate.modBranch_streams (b : BranchNo) (f : Branch → Branch) : (g.modBranch b f).streams = g.streams := rfl
@[simp] theorem Gate.modBranch_entries (b : BranchNo) (f : Branch → Branch) : (g.modBranch b f).entries = g.entries := rfl
@[simp] theorem Gate.modBranch_exponent (b : BranchNo) (f : Branch → Branch) : (g.modBranch b f).exponent = g.exponent := rfl
@[simp] theorem Gate.modBranch_lastGranted (b : BranchNo) (f : Branch → Branch) :
    (g.modBranch b f).lastGranted = g.lastGranted := rfl
@[simp] theorem Gate.modBranch_windows (b : BranchNo) (f : Branch → Branch) : (g.modBranch b f).windows = g.windows := rfl
@[simp] theorem Gate.modBranch_log (b : BranchNo) (f : Branch → Branch) : (g.modBranch b f).log = g.log := rfl
@[simp] theorem Gate.modBranch_management (b : BranchNo) (f : Branch → Branch) :
    (g.modBranch b f).management = g.management := rfl
@[simp] theorem Gate.modBranch_trunk (b : BranchNo) (f : Branch → Branch) : (g.modBranch b f).trunk = g.trunk := rfl
@[simp] theorem Gate.modBranch_sent (b : BranchNo) (f : Branch → Branch) : (g.modBranch b f).sent = g.sent := rfl

/-! ### countBranch -/

@[simp] theorem Gate.countBranch_gateId (b : BranchNo) (f : BranchCounters → BranchCounters) :
    (g.countBranch b f).gateId = g.gateId := rfl
@[simp] theorem Gate.countBranch_contexts (b : BranchNo) (f : BranchCounters → BranchCounters) :
    (g.countBranch b f).contexts = g.contexts := rfl
@[simp] theorem Gate.countBranch_cache (b : BranchNo) (f : BranchCounters → BranchCounters) :
    (g.countBranch b f).cache = g.cache := rfl
@[simp] theorem Gate.countBranch_walks (b : BranchNo) (f : BranchCounters → BranchCounters) :
    (g.countBranch b f).walks = g.walks := rfl
@[simp] theorem Gate.countBranch_walkWaiting (b : BranchNo) (f : BranchCounters → BranchCounters) :
    (g.countBranch b f).walkWaiting = g.walkWaiting := rfl
@[simp] theorem Gate.countBranch_streams (b : BranchNo) (f : BranchCounters → BranchCounters) :
    (g.countBranch b f).streams = g.streams := rfl
@[simp] theorem Gate.countBranch_entries (b : BranchNo) (f : BranchCounters → BranchCounters) :
    (g.countBranch b f).entries = g.entries := rfl
@[simp] theorem Gate.countBranch_exponent (b : BranchNo) (f : BranchCounters → BranchCounters) :
    (g.countBranch b f).exponent = g.exponent := rfl
@[simp] theorem Gate.countBranch_lastGranted (b : BranchNo) (f : BranchCounters → BranchCounters) :
    (g.countBranch b f).lastGranted = g.lastGranted := rfl
@[simp] theorem Gate.countBranch_windows (b : BranchNo) (f : BranchCounters → BranchCounters) :
    (g.countBranch b f).windows = g.windows := rfl
@[simp] theorem Gate.countBranch_log (b : BranchNo) (f : BranchCounters → BranchCounters) :
    (g.countBranch b f).log = g.log := rfl
@[simp] theorem Gate.countBranch_management (b : BranchNo) (f : BranchCounters → BranchCounters) :
    (g.countBranch b f).management = g.management := rfl
@[simp] theorem Gate.countBranch_trunk (b : BranchNo) (f : BranchCounters → BranchCounters) :
    (g.countBranch b f).trunk = g.trunk := rfl
@[simp] theorem Gate.countBranch_sent (b : BranchNo) (f : BranchCounters → BranchCounters) :
    (g.countBranch b f).sent = g.sent := rfl

/-! ### setEntry -/

@[simp] theorem Gate.setEntry_gateId (t : RequestTag) (e : Entry) : (g.setEntry t e).gateId = g.gateId := rfl
@[simp] theorem Gate.setEntry_contexts (t : RequestTag) (e : Entry) : (g.setEntry t e).contexts = g.contexts := rfl
@[simp] theorem Gate.setEntry_cache (t : RequestTag) (e : Entry) : (g.setEntry t e).cache = g.cache := rfl
@[simp] theorem Gate.setEntry_walks (t : RequestTag) (e : Entry) : (g.setEntry t e).walks = g.walks := rfl
@[simp] theorem Gate.setEntry_walkWaiting (t : RequestTag) (e : Entry) : (g.setEntry t e).walkWaiting = g.walkWaiting := rfl
@[simp] theorem Gate.setEntry_streams (t : RequestTag) (e : Entry) : (g.setEntry t e).streams = g.streams := rfl
@[simp] theorem Gate.setEntry_exponent (t : RequestTag) (e : Entry) : (g.setEntry t e).exponent = g.exponent := rfl
@[simp] theorem Gate.setEntry_lastGranted (t : RequestTag) (e : Entry) : (g.setEntry t e).lastGranted = g.lastGranted := rfl
@[simp] theorem Gate.setEntry_windows (t : RequestTag) (e : Entry) : (g.setEntry t e).windows = g.windows := rfl
@[simp] theorem Gate.setEntry_log (t : RequestTag) (e : Entry) : (g.setEntry t e).log = g.log := rfl
@[simp] theorem Gate.setEntry_management (t : RequestTag) (e : Entry) : (g.setEntry t e).management = g.management := rfl
@[simp] theorem Gate.setEntry_trunk (t : RequestTag) (e : Entry) : (g.setEntry t e).trunk = g.trunk := rfl
@[simp] theorem Gate.setEntry_branches (t : RequestTag) (e : Entry) : (g.setEntry t e).branches = g.branches := rfl
@[simp] theorem Gate.setEntry_sent (t : RequestTag) (e : Entry) : (g.setEntry t e).sent = g.sent := rfl

/-! ### setWalk -/

@[simp] theorem Gate.setWalk_gateId (i : WalkNo) (x : WalkSlot) : (g.setWalk i x).gateId = g.gateId := rfl
@[simp] theorem Gate.setWalk_contexts (i : WalkNo) (x : WalkSlot) : (g.setWalk i x).contexts = g.contexts := rfl
@[simp] theorem Gate.setWalk_cache (i : WalkNo) (x : WalkSlot) : (g.setWalk i x).cache = g.cache := rfl
@[simp] theorem Gate.setWalk_walkWaiting (i : WalkNo) (x : WalkSlot) : (g.setWalk i x).walkWaiting = g.walkWaiting := rfl
@[simp] theorem Gate.setWalk_streams (i : WalkNo) (x : WalkSlot) : (g.setWalk i x).streams = g.streams := rfl
@[simp] theorem Gate.setWalk_entries (i : WalkNo) (x : WalkSlot) : (g.setWalk i x).entries = g.entries := rfl
@[simp] theorem Gate.setWalk_exponent (i : WalkNo) (x : WalkSlot) : (g.setWalk i x).exponent = g.exponent := rfl
@[simp] theorem Gate.setWalk_lastGranted (i : WalkNo) (x : WalkSlot) : (g.setWalk i x).lastGranted = g.lastGranted := rfl
@[simp] theorem Gate.setWalk_windows (i : WalkNo) (x : WalkSlot) : (g.setWalk i x).windows = g.windows := rfl
@[simp] theorem Gate.setWalk_log (i : WalkNo) (x : WalkSlot) : (g.setWalk i x).log = g.log := rfl
@[simp] theorem Gate.setWalk_management (i : WalkNo) (x : WalkSlot) : (g.setWalk i x).management = g.management := rfl
@[simp] theorem Gate.setWalk_trunk (i : WalkNo) (x : WalkSlot) : (g.setWalk i x).trunk = g.trunk := rfl
@[simp] theorem Gate.setWalk_branches (i : WalkNo) (x : WalkSlot) : (g.setWalk i x).branches = g.branches := rfl
@[simp] theorem Gate.setWalk_sent (i : WalkNo) (x : WalkSlot) : (g.setWalk i x).sent = g.sent := rfl

/-! ### setWindow -/

@[simp] theorem Gate.setWindow_gateId (i : WindowNo) (w : Window) : (g.setWindow i w).gateId = g.gateId := rfl
@[simp] theorem Gate.setWindow_contexts (i : WindowNo) (w : Window) : (g.setWindow i w).contexts = g.contexts := rfl
@[simp] theorem Gate.setWindow_cache (i : WindowNo) (w : Window) : (g.setWindow i w).cache = g.cache := rfl
@[simp] theorem Gate.setWindow_walks (i : WindowNo) (w : Window) : (g.setWindow i w).walks = g.walks := rfl
@[simp] theorem Gate.setWindow_walkWaiting (i : WindowNo) (w : Window) : (g.setWindow i w).walkWaiting = g.walkWaiting := rfl
@[simp] theorem Gate.setWindow_streams (i : WindowNo) (w : Window) : (g.setWindow i w).streams = g.streams := rfl
@[simp] theorem Gate.setWindow_entries (i : WindowNo) (w : Window) : (g.setWindow i w).entries = g.entries := rfl
@[simp] theorem Gate.setWindow_exponent (i : WindowNo) (w : Window) : (g.setWindow i w).exponent = g.exponent := rfl
@[simp] theorem Gate.setWindow_lastGranted (i : WindowNo) (w : Window) : (g.setWindow i w).lastGranted = g.lastGranted := rfl
@[simp] theorem Gate.setWindow_log (i : WindowNo) (w : Window) : (g.setWindow i w).log = g.log := rfl
@[simp] theorem Gate.setWindow_management (i : WindowNo) (w : Window) : (g.setWindow i w).management = g.management := rfl
@[simp] theorem Gate.setWindow_trunk (i : WindowNo) (w : Window) : (g.setWindow i w).trunk = g.trunk := rfl
@[simp] theorem Gate.setWindow_branches (i : WindowNo) (w : Window) : (g.setWindow i w).branches = g.branches := rfl
@[simp] theorem Gate.setWindow_sent (i : WindowNo) (w : Window) : (g.setWindow i w).sent = g.sent := rfl

/-! ### modTrunk -/

@[simp] theorem Gate.modTrunk_gateId (f : TrunkPort → TrunkPort) : (g.modTrunk f).gateId = g.gateId := rfl
@[simp] theorem Gate.modTrunk_contexts (f : TrunkPort → TrunkPort) : (g.modTrunk f).contexts = g.contexts := rfl
@[simp] theorem Gate.modTrunk_cache (f : TrunkPort → TrunkPort) : (g.modTrunk f).cache = g.cache := rfl
@[simp] theorem Gate.modTrunk_walks (f : TrunkPort → TrunkPort) : (g.modTrunk f).walks = g.walks := rfl
@[simp] theorem Gate.modTrunk_walkWaiting (f : TrunkPort → TrunkPort) : (g.modTrunk f).walkWaiting = g.walkWaiting := rfl
@[simp] theorem Gate.modTrunk_streams (f : TrunkPort → TrunkPort) : (g.modTrunk f).streams = g.streams := rfl
@[simp] theorem Gate.modTrunk_entries (f : TrunkPort → TrunkPort) : (g.modTrunk f).entries = g.entries := rfl
@[simp] theorem Gate.modTrunk_exponent (f : TrunkPort → TrunkPort) : (g.modTrunk f).exponent = g.exponent := rfl
@[simp] theorem Gate.modTrunk_lastGranted (f : TrunkPort → TrunkPort) : (g.modTrunk f).lastGranted = g.lastGranted := rfl
@[simp] theorem Gate.modTrunk_windows (f : TrunkPort → TrunkPort) : (g.modTrunk f).windows = g.windows := rfl
@[simp] theorem Gate.modTrunk_log (f : TrunkPort → TrunkPort) : (g.modTrunk f).log = g.log := rfl
@[simp] theorem Gate.modTrunk_management (f : TrunkPort → TrunkPort) : (g.modTrunk f).management = g.management := rfl
@[simp] theorem Gate.modTrunk_branches (f : TrunkPort → TrunkPort) : (g.modTrunk f).branches = g.branches := rfl
@[simp] theorem Gate.modTrunk_sent (f : TrunkPort → TrunkPort) : (g.modTrunk f).sent = g.sent := rfl
@[simp] theorem Gate.modTrunk_trunk (f : TrunkPort → TrunkPort) : (g.modTrunk f).trunk = f g.trunk := rfl

/-! ### modManagement -/

@[simp] theorem Gate.modManagement_gateId (f : Management → Management) : (g.modManagement f).gateId = g.gateId := rfl
@[simp] theorem Gate.modManagement_contexts (f : Management → Management) : (g.modManagement f).contexts = g.contexts := rfl
@[simp] theorem Gate.modManagement_cache (f : Management → Management) : (g.modManagement f).cache = g.cache := rfl
@[simp] theorem Gate.modManagement_walks (f : Management → Management) : (g.modManagement f).walks = g.walks := rfl
@[simp] theorem Gate.modManagement_walkWaiting (f : Management → Management) :
    (g.modManagement f).walkWaiting = g.walkWaiting := rfl
@[simp] theorem Gate.modManagement_streams (f : Management → Management) : (g.modManagement f).streams = g.streams := rfl
@[simp] theorem Gate.modManagement_entries (f : Management → Management) : (g.modManagement f).entries = g.entries := rfl
@[simp] theorem Gate.modManagement_exponent (f : Management → Management) : (g.modManagement f).exponent = g.exponent := rfl
@[simp] theorem Gate.modManagement_lastGranted (f : Management → Management) :
    (g.modManagement f).lastGranted = g.lastGranted := rfl
@[simp] theorem Gate.modManagement_windows (f : Management → Management) : (g.modManagement f).windows = g.windows := rfl
@[simp] theorem Gate.modManagement_log (f : Management → Management) : (g.modManagement f).log = g.log := rfl
@[simp] theorem Gate.modManagement_trunk (f : Management → Management) : (g.modManagement f).trunk = g.trunk := rfl
@[simp] theorem Gate.modManagement_branches (f : Management → Management) : (g.modManagement f).branches = g.branches := rfl
@[simp] theorem Gate.modManagement_sent (f : Management → Management) : (g.modManagement f).sent = g.sent := rfl
@[simp] theorem Gate.modManagement_management (f : Management → Management) :
    (g.modManagement f).management = f g.management := rfl

/-! ### countGate -/

@[simp] theorem Gate.countGate_gateId (f : GateCounters → GateCounters) : (g.countGate f).gateId = g.gateId := rfl
@[simp] theorem Gate.countGate_contexts (f : GateCounters → GateCounters) : (g.countGate f).contexts = g.contexts := rfl
@[simp] theorem Gate.countGate_cache (f : GateCounters → GateCounters) : (g.countGate f).cache = g.cache := rfl
@[simp] theorem Gate.countGate_walks (f : GateCounters → GateCounters) : (g.countGate f).walks = g.walks := rfl
@[simp] theorem Gate.countGate_walkWaiting (f : GateCounters → GateCounters) :
    (g.countGate f).walkWaiting = g.walkWaiting := rfl
@[simp] theorem Gate.countGate_streams (f : GateCounters → GateCounters) : (g.countGate f).streams = g.streams := rfl
@[simp] theorem Gate.countGate_entries (f : GateCounters → GateCounters) : (g.countGate f).entries = g.entries := rfl
@[simp] theorem Gate.countGate_exponent (f : GateCounters → GateCounters) : (g.countGate f).exponent = g.exponent := rfl
@[simp] theorem Gate.countGate_lastGranted (f : GateCounters → GateCounters) :
    (g.countGate f).lastGranted = g.lastGranted := rfl
@[simp] theorem Gate.countGate_windows (f : GateCounters → GateCounters) : (g.countGate f).windows = g.windows := rfl
@[simp] theorem Gate.countGate_log (f : GateCounters → GateCounters) : (g.countGate f).log = g.log := rfl
@[simp] theorem Gate.countGate_trunk (f : GateCounters → GateCounters) : (g.countGate f).trunk = g.trunk := rfl
@[simp] theorem Gate.countGate_branches (f : GateCounters → GateCounters) : (g.countGate f).branches = g.branches := rfl
@[simp] theorem Gate.countGate_sent (f : GateCounters → GateCounters) : (g.countGate f).sent = g.sent := rfl
@[simp] theorem Gate.countGate_management (f : GateCounters → GateCounters) :
    (g.countGate f).management = { g.management with counters := f g.management.counters } := rfl

/-! ### emit -/

@[simp] theorem Gate.emit_gateId (l : LinkId) (e : WireEvent) : (g.emit l e).gateId = g.gateId := rfl
@[simp] theorem Gate.emit_contexts (l : LinkId) (e : WireEvent) : (g.emit l e).contexts = g.contexts := rfl
@[simp] theorem Gate.emit_cache (l : LinkId) (e : WireEvent) : (g.emit l e).cache = g.cache := rfl
@[simp] theorem Gate.emit_walks (l : LinkId) (e : WireEvent) : (g.emit l e).walks = g.walks := rfl
@[simp] theorem Gate.emit_walkWaiting (l : LinkId) (e : WireEvent) : (g.emit l e).walkWaiting = g.walkWaiting := rfl
@[simp] theorem Gate.emit_streams (l : LinkId) (e : WireEvent) : (g.emit l e).streams = g.streams := rfl
@[simp] theorem Gate.emit_entries (l : LinkId) (e : WireEvent) : (g.emit l e).entries = g.entries := rfl
@[simp] theorem Gate.emit_exponent (l : LinkId) (e : WireEvent) : (g.emit l e).exponent = g.exponent := rfl
@[simp] theorem Gate.emit_lastGranted (l : LinkId) (e : WireEvent) : (g.emit l e).lastGranted = g.lastGranted := rfl
@[simp] theorem Gate.emit_windows (l : LinkId) (e : WireEvent) : (g.emit l e).windows = g.windows := rfl
@[simp] theorem Gate.emit_log (l : LinkId) (e : WireEvent) : (g.emit l e).log = g.log := rfl
@[simp] theorem Gate.emit_management (l : LinkId) (e : WireEvent) : (g.emit l e).management = g.management := rfl
@[simp] theorem Gate.emit_trunk (l : LinkId) (e : WireEvent) : (g.emit l e).trunk = g.trunk := rfl
@[simp] theorem Gate.emit_branches (l : LinkId) (e : WireEvent) : (g.emit l e).branches = g.branches := rfl
@[simp] theorem Gate.emit_sent (l : LinkId) (e : WireEvent) : (g.emit l e).sent = g.sent ++ [⟨l, e⟩] := rfl

/-! ### Reading a record after an update -/

theorem Gate.stream_modStream (s t : StreamId) (f : Stream → Stream) :
    (g.modStream s f).stream t = if s = t then f (g.stream s) else g.stream t := by
  simp [Gate.modStream, Gate.stream, Vector.getElem_set, Fin.ext_iff]

theorem Gate.context_modContext (c d : ContextNo) (f : Context → Context) :
    (g.modContext c f).context d = if c = d then f (g.context c) else g.context d := by
  simp [Gate.modContext, Gate.context, Vector.getElem_set, Fin.ext_iff]

theorem Gate.branch_modBranch (b d : BranchNo) (f : Branch → Branch) :
    (g.modBranch b f).branch d = if b = d then f (g.branch b) else g.branch d := by
  simp [Gate.modBranch, Gate.branch, Vector.getElem_set, Fin.ext_iff]

theorem Gate.entry_setEntry (t u : RequestTag) (e : Entry) :
    (g.setEntry t e).entry u = if t = u then e else g.entry u := by
  simp [Gate.setEntry, Gate.entry, Vector.getElem_set, Fin.ext_iff]

theorem Gate.walk_setWalk (i j : WalkNo) (x : WalkSlot) :
    (g.setWalk i x).walk j = if i = j then x else g.walk j := by
  simp [Gate.setWalk, Gate.walk, Vector.getElem_set, Fin.ext_iff]

theorem Gate.window_setWindow (i j : WindowNo) (w : Window) :
    (g.setWindow i w).window j = if i = j then w else g.window j := by
  simp [Gate.setWindow, Gate.window, Vector.getElem_set, Fin.ext_iff]


/-! ### Reading a record that another update leaves alone -/

@[simp] theorem Gate.stream_modContext (c : ContextNo) (f : Context → Context) (y : StreamId) :
    (g.modContext c f).stream y = g.stream y := rfl
@[simp] theorem Gate.stream_count (c : ContextNo) (f : ContextCounters → ContextCounters) (y : StreamId) :
    (g.count c f).stream y = g.stream y := rfl
@[simp] theorem Gate.stream_modBranch (b : BranchNo) (f : Branch → Branch) (y : StreamId) :
    (g.modBranch b f).stream y = g.stream y := rfl
@[simp] theorem Gate.stream_countBranch (b : BranchNo) (f : BranchCounters → BranchCounters) (y : StreamId) :
    (g.countBranch b f).stream y = g.stream y := rfl
@[simp] theorem Gate.stream_setEntry (t : RequestTag) (e : Entry) (y : StreamId) :
    (g.setEntry t e).stream y = g.stream y := rfl
@[simp] theorem Gate.stream_setWalk (i : WalkNo) (x : WalkSlot) (y : StreamId) : (g.setWalk i x).stream y = g.stream y := rfl
@[simp] theorem Gate.stream_setWindow (i : WindowNo) (w : Window) (y : StreamId) :
    (g.setWindow i w).stream y = g.stream y := rfl
@[simp] theorem Gate.stream_modTrunk (f : TrunkPort → TrunkPort) (y : StreamId) : (g.modTrunk f).stream y = g.stream y := rfl
@[simp] theorem Gate.stream_modManagement (f : Management → Management) (y : StreamId) :
    (g.modManagement f).stream y = g.stream y := rfl
@[simp] theorem Gate.stream_countGate (f : GateCounters → GateCounters) (y : StreamId) :
    (g.countGate f).stream y = g.stream y := rfl
@[simp] theorem Gate.stream_emit (l : LinkId) (e : WireEvent) (y : StreamId) : (g.emit l e).stream y = g.stream y := rfl

@[simp] theorem Gate.context_modStream (s : StreamId) (f : Stream → Stream) (y : ContextNo) :
    (g.modStream s f).context y = g.context y := rfl
@[simp] theorem Gate.context_modBranch (b : BranchNo) (f : Branch → Branch) (y : ContextNo) :
    (g.modBranch b f).context y = g.context y := rfl
@[simp] theorem Gate.context_countBranch (b : BranchNo) (f : BranchCounters → BranchCounters) (y : ContextNo) :
    (g.countBranch b f).context y = g.context y := rfl
@[simp] theorem Gate.context_setEntry (t : RequestTag) (e : Entry) (y : ContextNo) :
    (g.setEntry t e).context y = g.context y := rfl
@[simp] theorem Gate.context_setWalk (i : WalkNo) (x : WalkSlot) (y : ContextNo) :
    (g.setWalk i x).context y = g.context y := rfl
@[simp] theorem Gate.context_setWindow (i : WindowNo) (w : Window) (y : ContextNo) :
    (g.setWindow i w).context y = g.context y := rfl
@[simp] theorem Gate.context_modTrunk (f : TrunkPort → TrunkPort) (y : ContextNo) :
    (g.modTrunk f).context y = g.context y := rfl
@[simp] theorem Gate.context_modManagement (f : Management → Management) (y : ContextNo) :
    (g.modManagement f).context y = g.context y := rfl
@[simp] theorem Gate.context_countGate (f : GateCounters → GateCounters) (y : ContextNo) :
    (g.countGate f).context y = g.context y := rfl
@[simp] theorem Gate.context_emit (l : LinkId) (e : WireEvent) (y : ContextNo) : (g.emit l e).context y = g.context y := rfl

@[simp] theorem Gate.branch_modStream (s : StreamId) (f : Stream → Stream) (y : BranchNo) :
    (g.modStream s f).branch y = g.branch y := rfl
@[simp] theorem Gate.branch_modContext (c : ContextNo) (f : Context → Context) (y : BranchNo) :
    (g.modContext c f).branch y = g.branch y := rfl
@[simp] theorem Gate.branch_count (c : ContextNo) (f : ContextCounters → ContextCounters) (y : BranchNo) :
    (g.count c f).branch y = g.branch y := rfl
@[simp] theorem Gate.branch_setEntry (t : RequestTag) (e : Entry) (y : BranchNo) :
    (g.setEntry t e).branch y = g.branch y := rfl
@[simp] theorem Gate.branch_setWalk (i : WalkNo) (x : WalkSlot) (y : BranchNo) : (g.setWalk i x).branch y = g.branch y := rfl
@[simp] theorem Gate.branch_setWindow (i : WindowNo) (w : Window) (y : BranchNo) :
    (g.setWindow i w).branch y = g.branch y := rfl
@[simp] theorem Gate.branch_modTrunk (f : TrunkPort → TrunkPort) (y : BranchNo) : (g.modTrunk f).branch y = g.branch y := rfl
@[simp] theorem Gate.branch_modManagement (f : Management → Management) (y : BranchNo) :
    (g.modManagement f).branch y = g.branch y := rfl
@[simp] theorem Gate.branch_countGate (f : GateCounters → GateCounters) (y : BranchNo) :
    (g.countGate f).branch y = g.branch y := rfl
@[simp] theorem Gate.branch_emit (l : LinkId) (e : WireEvent) (y : BranchNo) : (g.emit l e).branch y = g.branch y := rfl

@[simp] theorem Gate.entry_modStream (s : StreamId) (f : Stream → Stream) (y : RequestTag) :
    (g.modStream s f).entry y = g.entry y := rfl
@[simp] theorem Gate.entry_modContext (c : ContextNo) (f : Context → Context) (y : RequestTag) :
    (g.modContext c f).entry y = g.entry y := rfl
@[simp] theorem Gate.entry_count (c : ContextNo) (f : ContextCounters → ContextCounters) (y : RequestTag) :
    (g.count c f).entry y = g.entry y := rfl
@[simp] theorem Gate.entry_modBranch (b : BranchNo) (f : Branch → Branch) (y : RequestTag) :
    (g.modBranch b f).entry y = g.entry y := rfl
@[simp] theorem Gate.entry_countBranch (b : BranchNo) (f : BranchCounters → BranchCounters) (y : RequestTag) :
    (g.countBranch b f).entry y = g.entry y := rfl
@[simp] theorem Gate.entry_setWalk (i : WalkNo) (x : WalkSlot) (y : RequestTag) : (g.setWalk i x).entry y = g.entry y := rfl
@[simp] theorem Gate.entry_setWindow (i : WindowNo) (w : Window) (y : RequestTag) :
    (g.setWindow i w).entry y = g.entry y := rfl
@[simp] theorem Gate.entry_modTrunk (f : TrunkPort → TrunkPort) (y : RequestTag) : (g.modTrunk f).entry y = g.entry y := rfl
@[simp] theorem Gate.entry_modManagement (f : Management → Management) (y : RequestTag) :
    (g.modManagement f).entry y = g.entry y := rfl
@[simp] theorem Gate.entry_countGate (f : GateCounters → GateCounters) (y : RequestTag) :
    (g.countGate f).entry y = g.entry y := rfl
@[simp] theorem Gate.entry_emit (l : LinkId) (e : WireEvent) (y : RequestTag) : (g.emit l e).entry y = g.entry y := rfl

@[simp] theorem Gate.walk_modStream (s : StreamId) (f : Stream → Stream) (y : WalkNo) :
    (g.modStream s f).walk y = g.walk y := rfl
@[simp] theorem Gate.walk_modContext (c : ContextNo) (f : Context → Context) (y : WalkNo) :
    (g.modContext c f).walk y = g.walk y := rfl
@[simp] theorem Gate.walk_count (c : ContextNo) (f : ContextCounters → ContextCounters) (y : WalkNo) :
    (g.count c f).walk y = g.walk y := rfl
@[simp] theorem Gate.walk_modBranch (b : BranchNo) (f : Branch → Branch) (y : WalkNo) :
    (g.modBranch b f).walk y = g.walk y := rfl
@[simp] theorem Gate.walk_countBranch (b : BranchNo) (f : BranchCounters → BranchCounters) (y : WalkNo) :
    (g.countBranch b f).walk y = g.walk y := rfl
@[simp] theorem Gate.walk_setEntry (t : RequestTag) (e : Entry) (y : WalkNo) : (g.setEntry t e).walk y = g.walk y := rfl
@[simp] theorem Gate.walk_setWindow (i : WindowNo) (w : Window) (y : WalkNo) : (g.setWindow i w).walk y = g.walk y := rfl
@[simp] theorem Gate.walk_modTrunk (f : TrunkPort → TrunkPort) (y : WalkNo) : (g.modTrunk f).walk y = g.walk y := rfl
@[simp] theorem Gate.walk_modManagement (f : Management → Management) (y : WalkNo) :
    (g.modManagement f).walk y = g.walk y := rfl
@[simp] theorem Gate.walk_countGate (f : GateCounters → GateCounters) (y : WalkNo) : (g.countGate f).walk y = g.walk y := rfl
@[simp] theorem Gate.walk_emit (l : LinkId) (e : WireEvent) (y : WalkNo) : (g.emit l e).walk y = g.walk y := rfl

@[simp] theorem Gate.window_modStream (s : StreamId) (f : Stream → Stream) (y : WindowNo) :
    (g.modStream s f).window y = g.window y := rfl
@[simp] theorem Gate.window_modContext (c : ContextNo) (f : Context → Context) (y : WindowNo) :
    (g.modContext c f).window y = g.window y := rfl
@[simp] theorem Gate.window_count (c : ContextNo) (f : ContextCounters → ContextCounters) (y : WindowNo) :
    (g.count c f).window y = g.window y := rfl
@[simp] theorem Gate.window_modBranch (b : BranchNo) (f : Branch → Branch) (y : WindowNo) :
    (g.modBranch b f).window y = g.window y := rfl
@[simp] theorem Gate.window_countBranch (b : BranchNo) (f : BranchCounters → BranchCounters) (y : WindowNo) :
    (g.countBranch b f).window y = g.window y := rfl
@[simp] theorem Gate.window_setEntry (t : RequestTag) (e : Entry) (y : WindowNo) :
    (g.setEntry t e).window y = g.window y := rfl
@[simp] theorem Gate.window_setWalk (i : WalkNo) (x : WalkSlot) (y : WindowNo) : (g.setWalk i x).window y = g.window y := rfl
@[simp] theorem Gate.window_modTrunk (f : TrunkPort → TrunkPort) (y : WindowNo) : (g.modTrunk f).window y = g.window y := rfl
@[simp] theorem Gate.window_modManagement (f : Management → Management) (y : WindowNo) :
    (g.modManagement f).window y = g.window y := rfl
@[simp] theorem Gate.window_countGate (f : GateCounters → GateCounters) (y : WindowNo) :
    (g.countGate f).window y = g.window y := rfl
@[simp] theorem Gate.window_emit (l : LinkId) (e : WireEvent) (y : WindowNo) : (g.emit l e).window y = g.window y := rfl

/-! ### Link records -/

@[simp] theorem Gate.modLink_trunk (f : LinkRecord → LinkRecord) :
    g.modLink .trunk f = g.modTrunk fun t => { t with link := f t.link } := rfl

@[simp] theorem Gate.modLink_branch (b : BranchNo) (f : LinkRecord → LinkRecord) :
    g.modLink (.branch b) f = g.modBranch b fun x => { x with link := f x.link } := rfl

theorem Gate.link_modLink (l m : LinkId) (f : LinkRecord → LinkRecord) :
    (g.modLink l f).link m = if l = m then f (g.link l) else g.link m := by
  cases l <;> cases m <;> simp [Gate.modLink, Gate.link, Gate.branch_modBranch]
  split <;> simp_all

/-! ### Records of the gate after reset -/

theorem context_reset (id : Byte) (cause : ResetCause) (c : ContextNo) : (Gate.reset id cause).context c = .reset := by
  simp [Gate.reset, Gate.context]

theorem walk_reset (id : Byte) (cause : ResetCause) (i : WalkNo) : (Gate.reset id cause).walk i = .free := by
  simp [Gate.reset, Gate.walk]

theorem branch_reset (id : Byte) (cause : ResetCause) (b : BranchNo) : (Gate.reset id cause).branch b = .reset := by
  simp [Gate.reset, Gate.branch]

theorem stream_reset (id : Byte) (cause : ResetCause) (s : StreamId) : (Gate.reset id cause).stream s = .reset := by
  simp [Gate.reset, Gate.stream]

theorem entry_reset (id : Byte) (cause : ResetCause) (t : RequestTag) : (Gate.reset id cause).entry t = .free := by
  simp [Gate.reset, Gate.entry]

theorem window_reset (id : Byte) (cause : ResetCause) (i : WindowNo) : (Gate.reset id cause).window i = .reset := by
  simp [Gate.reset, Gate.window]

end Sys2Proof.Machine
end

