-- ==== Sys2Proof/Laws/Frames.lean ====
section
/-! SUPPORT. The fields that each shared operation leaves alone: one lemma per field per operation. -/

namespace Sys2Proof.Machine

variable (g : Gate)

/-! ### modLink -/

@[simp] theorem Gate.modLink_gateId (l : LinkId) (f : LinkRecord → LinkRecord) : (g.modLink l f).gateId = g.gateId := by
  cases l <;> rfl
@[simp] theorem Gate.modLink_contexts (l : LinkId) (f : LinkRecord → LinkRecord) :
    (g.modLink l f).contexts = g.contexts := by
  cases l <;> rfl
@[simp] theorem Gate.modLink_cache (l : LinkId) (f : LinkRecord → LinkRecord) : (g.modLink l f).cache = g.cache := by
  cases l <;> rfl
@[simp] theorem Gate.modLink_walks (l : LinkId) (f : LinkRecord → LinkRecord) : (g.modLink l f).walks = g.walks := by
  cases l <;> rfl
@[simp] theorem Gate.modLink_walkWaiting (l : LinkId) (f : LinkRecord → LinkRecord) :
    (g.modLink l f).walkWaiting = g.walkWaiting := by
  cases l <;> rfl
@[simp] theorem Gate.modLink_streams (l : LinkId) (f : LinkRecord → LinkRecord) : (g.modLink l f).streams = g.streams := by
  cases l <;> rfl
@[simp] theorem Gate.modLink_entries (l : LinkId) (f : LinkRecord → LinkRecord) : (g.modLink l f).entries = g.entries := by
  cases l <;> rfl
@[simp] theorem Gate.modLink_exponent (l : LinkId) (f : LinkRecord → LinkRecord) :
    (g.modLink l f).exponent = g.exponent := by
  cases l <;> rfl
@[simp] theorem Gate.modLink_lastGranted (l : LinkId) (f : LinkRecord → LinkRecord) :
    (g.modLink l f).lastGranted = g.lastGranted := by
  cases l <;> rfl
@[simp] theorem Gate.modLink_windows (l : LinkId) (f : LinkRecord → LinkRecord) : (g.modLink l f).windows = g.windows := by
  cases l <;> rfl
@[simp] theorem Gate.modLink_log (l : LinkId) (f : LinkRecord → LinkRecord) : (g.modLink l f).log = g.log := by
  cases l <;> rfl
@[simp] theorem Gate.modLink_management (l : LinkId) (f : LinkRecord → LinkRecord) :
    (g.modLink l f).management = g.management := by
  cases l <;> rfl
@[simp] theorem Gate.modLink_sent (l : LinkId) (f : LinkRecord → LinkRecord) : (g.modLink l f).sent = g.sent := by
  cases l <;> rfl

/-! ### freeCredit -/

@[simp] theorem Gate.freeCredit_gateId (l : LinkId) (c : PacketClass) : (g.freeCredit l c).gateId = g.gateId := by
  cases l <;> rfl
@[simp] theorem Gate.freeCredit_contexts (l : LinkId) (c : PacketClass) : (g.freeCredit l c).contexts = g.contexts := by
  cases l <;> rfl
@[simp] theorem Gate.freeCredit_cache (l : LinkId) (c : PacketClass) : (g.freeCredit l c).cache = g.cache := by
  cases l <;> rfl
@[simp] theorem Gate.freeCredit_walks (l : LinkId) (c : PacketClass) : (g.freeCredit l c).walks = g.walks := by
  cases l <;> rfl
@[simp] theorem Gate.freeCredit_walkWaiting (l : LinkId) (c : PacketClass) :
    (g.freeCredit l c).walkWaiting = g.walkWaiting := by
  cases l <;> rfl
@[simp] theorem Gate.freeCredit_streams (l : LinkId) (c : PacketClass) : (g.freeCredit l c).streams = g.streams := by
  cases l <;> rfl
@[simp] theorem Gate.freeCredit_entries (l : LinkId) (c : PacketClass) : (g.freeCredit l c).entries = g.entries := by
  cases l <;> rfl
@[simp] theorem Gate.freeCredit_exponent (l : LinkId) (c : PacketClass) : (g.freeCredit l c).exponent = g.exponent := by
  cases l <;> rfl
@[simp] theorem Gate.freeCredit_lastGranted (l : LinkId) (c : PacketClass) :
    (g.freeCredit l c).lastGranted = g.lastGranted := by
  cases l <;> rfl
@[simp] theorem Gate.freeCredit_windows (l : LinkId) (c : PacketClass) : (g.freeCredit l c).windows = g.windows := by
  cases l <;> rfl
@[simp] theorem Gate.freeCredit_log (l : LinkId) (c : PacketClass) : (g.freeCredit l c).log = g.log := by
  cases l <;> rfl
@[simp] theorem Gate.freeCredit_management (l : LinkId) (c : PacketClass) :
    (g.freeCredit l c).management = g.management := by
  cases l <;> rfl
@[simp] theorem Gate.freeCredit_sent (l : LinkId) (c : PacketClass) : (g.freeCredit l c).sent = g.sent := by
  cases l <;> rfl

/-! ### leaveQueue -/

@[simp] theorem Gate.leaveQueue_gateId (s : StreamId) (rest : List Request) : (g.leaveQueue s rest).gateId = g.gateId := rfl
@[simp] theorem Gate.leaveQueue_contexts (s : StreamId) (rest : List Request) :
    (g.leaveQueue s rest).contexts = g.contexts := rfl
@[simp] theorem Gate.leaveQueue_cache (s : StreamId) (rest : List Request) : (g.leaveQueue s rest).cache = g.cache := rfl
@[simp] theorem Gate.leaveQueue_walks (s : StreamId) (rest : List Request) : (g.leaveQueue s rest).walks = g.walks := rfl
@[simp] theorem Gate.leaveQueue_walkWaiting (s : StreamId) (rest : List Request) :
    (g.leaveQueue s rest).walkWaiting = g.walkWaiting := rfl
@[simp] theorem Gate.leaveQueue_entries (s : StreamId) (rest : List Request) :
    (g.leaveQueue s rest).entries = g.entries := rfl
@[simp] theorem Gate.leaveQueue_exponent (s : StreamId) (rest : List Request) :
    (g.leaveQueue s rest).exponent = g.exponent := rfl
@[simp] theorem Gate.leaveQueue_lastGranted (s : StreamId) (rest : List Request) :
    (g.leaveQueue s rest).lastGranted = g.lastGranted := rfl
@[simp] theorem Gate.leaveQueue_windows (s : StreamId) (rest : List Request) :
    (g.leaveQueue s rest).windows = g.windows := rfl
@[simp] theorem Gate.leaveQueue_log (s : StreamId) (rest : List Request) : (g.leaveQueue s rest).log = g.log := rfl
@[simp] theorem Gate.leaveQueue_management (s : StreamId) (rest : List Request) :
    (g.leaveQueue s rest).management = g.management := rfl
@[simp] theorem Gate.leaveQueue_trunk (s : StreamId) (rest : List Request) : (g.leaveQueue s rest).trunk = g.trunk := rfl
@[simp] theorem Gate.leaveQueue_sent (s : StreamId) (rest : List Request) : (g.leaveQueue s rest).sent = g.sent := rfl

/-! ### oweFaults -/

@[simp] theorem Gate.oweFaults_gateId : g.oweFaults.gateId = g.gateId := by
  unfold Gate.oweFaults; split <;> rfl
@[simp] theorem Gate.oweFaults_contexts : g.oweFaults.contexts = g.contexts := by
  unfold Gate.oweFaults; split <;> rfl
@[simp] theorem Gate.oweFaults_cache : g.oweFaults.cache = g.cache := by
  unfold Gate.oweFaults; split <;> rfl
@[simp] theorem Gate.oweFaults_walks : g.oweFaults.walks = g.walks := by
  unfold Gate.oweFaults; split <;> rfl
@[simp] theorem Gate.oweFaults_walkWaiting : g.oweFaults.walkWaiting = g.walkWaiting := by
  unfold Gate.oweFaults; split <;> rfl
@[simp] theorem Gate.oweFaults_streams : g.oweFaults.streams = g.streams := by
  unfold Gate.oweFaults; split <;> rfl
@[simp] theorem Gate.oweFaults_entries : g.oweFaults.entries = g.entries := by
  unfold Gate.oweFaults; split <;> rfl
@[simp] theorem Gate.oweFaults_exponent : g.oweFaults.exponent = g.exponent := by
  unfold Gate.oweFaults; split <;> rfl
@[simp] theorem Gate.oweFaults_lastGranted : g.oweFaults.lastGranted = g.lastGranted := by
  unfold Gate.oweFaults; split <;> rfl
@[simp] theorem Gate.oweFaults_windows : g.oweFaults.windows = g.windows := by
  unfold Gate.oweFaults; split <;> rfl
@[simp] theorem Gate.oweFaults_log : g.oweFaults.log = g.log := by
  unfold Gate.oweFaults; split <;> rfl
@[simp] theorem Gate.oweFaults_trunk : g.oweFaults.trunk = g.trunk := by
  unfold Gate.oweFaults; split <;> rfl
@[simp] theorem Gate.oweFaults_branches : g.oweFaults.branches = g.branches := by
  unfold Gate.oweFaults; split <;> rfl
@[simp] theorem Gate.oweFaults_sent : g.oweFaults.sent = g.sent := by
  unfold Gate.oweFaults; split <;> rfl

/-! ### oweBranch -/

@[simp] theorem Gate.oweBranch_gateId (b : BranchNo) : (g.oweBranch b).gateId = g.gateId := by
  unfold Gate.oweBranch; split <;> rfl
@[simp] theorem Gate.oweBranch_contexts (b : BranchNo) : (g.oweBranch b).contexts = g.contexts := by
  unfold Gate.oweBranch; split <;> rfl
@[simp] theorem Gate.oweBranch_cache (b : BranchNo) : (g.oweBranch b).cache = g.cache := by
  unfold Gate.oweBranch; split <;> rfl
@[simp] theorem Gate.oweBranch_walks (b : BranchNo) : (g.oweBranch b).walks = g.walks := by
  unfold Gate.oweBranch; split <;> rfl
@[simp] theorem Gate.oweBranch_walkWaiting (b : BranchNo) : (g.oweBranch b).walkWaiting = g.walkWaiting := by
  unfold Gate.oweBranch; split <;> rfl
@[simp] theorem Gate.oweBranch_streams (b : BranchNo) : (g.oweBranch b).streams = g.streams := by
  unfold Gate.oweBranch; split <;> rfl
@[simp] theorem Gate.oweBranch_entries (b : BranchNo) : (g.oweBranch b).entries = g.entries := by
  unfold Gate.oweBranch; split <;> rfl
@[simp] theorem Gate.oweBranch_exponent (b : BranchNo) : (g.oweBranch b).exponent = g.exponent := by
  unfold Gate.oweBranch; split <;> rfl
@[simp] theorem Gate.oweBranch_lastGranted (b : BranchNo) : (g.oweBranch b).lastGranted = g.lastGranted := by
  unfold Gate.oweBranch; split <;> rfl
@[simp] theorem Gate.oweBranch_windows (b : BranchNo) : (g.oweBranch b).windows = g.windows := by
  unfold Gate.oweBranch; split <;> rfl
@[simp] theorem Gate.oweBranch_log (b : BranchNo) : (g.oweBranch b).log = g.log := by
  unfold Gate.oweBranch; split <;> rfl
@[simp] theorem Gate.oweBranch_trunk (b : BranchNo) : (g.oweBranch b).trunk = g.trunk := by
  unfold Gate.oweBranch; split <;> rfl
@[simp] theorem Gate.oweBranch_branches (b : BranchNo) : (g.oweBranch b).branches = g.branches := by
  unfold Gate.oweBranch; split <;> rfl
@[simp] theorem Gate.oweBranch_sent (b : BranchNo) : (g.oweBranch b).sent = g.sent := by
  unfold Gate.oweBranch; split <;> rfl

/-! ### keepFault -/

@[simp] theorem Gate.keepFault_gateId (f : FaultReport) : (g.keepFault f).gateId = g.gateId := by
  unfold Gate.keepFault; repeat' split
  all_goals first | rfl | simp
@[simp] theorem Gate.keepFault_contexts (f : FaultReport) : (g.keepFault f).contexts = g.contexts := by
  unfold Gate.keepFault; repeat' split
  all_goals first | rfl | simp
@[simp] theorem Gate.keepFault_cache (f : FaultReport) : (g.keepFault f).cache = g.cache := by
  unfold Gate.keepFault; repeat' split
  all_goals first | rfl | simp
@[simp] theorem Gate.keepFault_walks (f : FaultReport) : (g.keepFault f).walks = g.walks := by
  unfold Gate.keepFault; repeat' split
  all_goals first | rfl | simp
@[simp] theorem Gate.keepFault_walkWaiting (f : FaultReport) : (g.keepFault f).walkWaiting = g.walkWaiting := by
  unfold Gate.keepFault; repeat' split
  all_goals first | rfl | simp
@[simp] theorem Gate.keepFault_streams (f : FaultReport) : (g.keepFault f).streams = g.streams := by
  unfold Gate.keepFault; repeat' split
  all_goals first | rfl | simp
@[simp] theorem Gate.keepFault_entries (f : FaultReport) : (g.keepFault f).entries = g.entries := by
  unfold Gate.keepFault; repeat' split
  all_goals first | rfl | simp
@[simp] theorem Gate.keepFault_exponent (f : FaultReport) : (g.keepFault f).exponent = g.exponent := by
  unfold Gate.keepFault; repeat' split
  all_goals first | rfl | simp
@[simp] theorem Gate.keepFault_lastGranted (f : FaultReport) : (g.keepFault f).lastGranted = g.lastGranted := by
  unfold Gate.keepFault; repeat' split
  all_goals first | rfl | simp
@[simp] theorem Gate.keepFault_windows (f : FaultReport) : (g.keepFault f).windows = g.windows := by
  unfold Gate.keepFault; repeat' split
  all_goals first | rfl | simp
@[simp] theorem Gate.keepFault_trunk (f : FaultReport) : (g.keepFault f).trunk = g.trunk := by
  unfold Gate.keepFault; repeat' split
  all_goals first | rfl | simp
@[simp] theorem Gate.keepFault_branches (f : FaultReport) : (g.keepFault f).branches = g.branches := by
  unfold Gate.keepFault; repeat' split
  all_goals first | rfl | simp
@[simp] theorem Gate.keepFault_sent (f : FaultReport) : (g.keepFault f).sent = g.sent := by
  unfold Gate.keepFault; repeat' split
  all_goals first | rfl | simp

/-! ### offerFault -/

@[simp] theorem Gate.offerFault_gateId (f : FaultReport) : (g.offerFault f).gateId = g.gateId := by
  unfold Gate.offerFault; repeat' split
  all_goals simp
@[simp] theorem Gate.offerFault_cache (f : FaultReport) : (g.offerFault f).cache = g.cache := by
  unfold Gate.offerFault; repeat' split
  all_goals simp
@[simp] theorem Gate.offerFault_walks (f : FaultReport) : (g.offerFault f).walks = g.walks := by
  unfold Gate.offerFault; repeat' split
  all_goals simp
@[simp] theorem Gate.offerFault_walkWaiting (f : FaultReport) : (g.offerFault f).walkWaiting = g.walkWaiting := by
  unfold Gate.offerFault; repeat' split
  all_goals simp
@[simp] theorem Gate.offerFault_streams (f : FaultReport) : (g.offerFault f).streams = g.streams := by
  unfold Gate.offerFault; repeat' split
  all_goals simp
@[simp] theorem Gate.offerFault_entries (f : FaultReport) : (g.offerFault f).entries = g.entries := by
  unfold Gate.offerFault; repeat' split
  all_goals simp
@[simp] theorem Gate.offerFault_exponent (f : FaultReport) : (g.offerFault f).exponent = g.exponent := by
  unfold Gate.offerFault; repeat' split
  all_goals simp
@[simp] theorem Gate.offerFault_lastGranted (f : FaultReport) : (g.offerFault f).lastGranted = g.lastGranted := by
  unfold Gate.offerFault; repeat' split
  all_goals simp
@[simp] theorem Gate.offerFault_windows (f : FaultReport) : (g.offerFault f).windows = g.windows := by
  unfold Gate.offerFault; repeat' split
  all_goals simp
@[simp] theorem Gate.offerFault_trunk (f : FaultReport) : (g.offerFault f).trunk = g.trunk := by
  unfold Gate.offerFault; repeat' split
  all_goals simp
@[simp] theorem Gate.offerFault_branches (f : FaultReport) : (g.offerFault f).branches = g.branches := by
  unfold Gate.offerFault; repeat' split
  all_goals simp
@[simp] theorem Gate.offerFault_sent (f : FaultReport) : (g.offerFault f).sent = g.sent := by
  unfold Gate.offerFault; repeat' split
  all_goals simp

/-! ### install -/

@[simp] theorem Gate.install_gateId (c : ContextNo) (page : Nat) (e : MapEntry) :
    (g.install c page e).gateId = g.gateId := by
  unfold Gate.install; split <;> rfl
@[simp] theorem Gate.install_contexts (c : ContextNo) (page : Nat) (e : MapEntry) :
    (g.install c page e).contexts = g.contexts := by
  unfold Gate.install; split <;> rfl
@[simp] theorem Gate.install_walks (c : ContextNo) (page : Nat) (e : MapEntry) : (g.install c page e).walks = g.walks := by
  unfold Gate.install; split <;> rfl
@[simp] theorem Gate.install_walkWaiting (c : ContextNo) (page : Nat) (e : MapEntry) :
    (g.install c page e).walkWaiting = g.walkWaiting := by
  unfold Gate.install; split <;> rfl
@[simp] theorem Gate.install_streams (c : ContextNo) (page : Nat) (e : MapEntry) :
    (g.install c page e).streams = g.streams := by
  unfold Gate.install; split <;> rfl
@[simp] theorem Gate.install_entries (c : ContextNo) (page : Nat) (e : MapEntry) :
    (g.install c page e).entries = g.entries := by
  unfold Gate.install; split <;> rfl
@[simp] theorem Gate.install_exponent (c : ContextNo) (page : Nat) (e : MapEntry) :
    (g.install c page e).exponent = g.exponent := by
  unfold Gate.install; split <;> rfl
@[simp] theorem Gate.install_lastGranted (c : ContextNo) (page : Nat) (e : MapEntry) :
    (g.install c page e).lastGranted = g.lastGranted := by
  unfold Gate.install; split <;> rfl
@[simp] theorem Gate.install_windows (c : ContextNo) (page : Nat) (e : MapEntry) :
    (g.install c page e).windows = g.windows := by
  unfold Gate.install; split <;> rfl
@[simp] theorem Gate.install_log (c : ContextNo) (page : Nat) (e : MapEntry) : (g.install c page e).log = g.log := by
  unfold Gate.install; split <;> rfl
@[simp] theorem Gate.install_management (c : ContextNo) (page : Nat) (e : MapEntry) :
    (g.install c page e).management = g.management := by
  unfold Gate.install; split <;> rfl
@[simp] theorem Gate.install_trunk (c : ContextNo) (page : Nat) (e : MapEntry) : (g.install c page e).trunk = g.trunk := by
  unfold Gate.install; split <;> rfl
@[simp] theorem Gate.install_branches (c : ContextNo) (page : Nat) (e : MapEntry) :
    (g.install c page e).branches = g.branches := by
  unfold Gate.install; split <;> rfl
@[simp] theorem Gate.install_sent (c : ContextNo) (page : Nat) (e : MapEntry) : (g.install c page e).sent = g.sent := by
  unfold Gate.install; split <;> rfl

/-! ### takeHost -/

@[simp] theorem Gate.takeHost_gateId (rest : List HostRequest) : (g.takeHost rest).gateId = g.gateId := rfl
@[simp] theorem Gate.takeHost_contexts (rest : List HostRequest) : (g.takeHost rest).contexts = g.contexts := rfl
@[simp] theorem Gate.takeHost_cache (rest : List HostRequest) : (g.takeHost rest).cache = g.cache := rfl
@[simp] theorem Gate.takeHost_walks (rest : List HostRequest) : (g.takeHost rest).walks = g.walks := rfl
@[simp] theorem Gate.takeHost_walkWaiting (rest : List HostRequest) : (g.takeHost rest).walkWaiting = g.walkWaiting := rfl
@[simp] theorem Gate.takeHost_streams (rest : List HostRequest) : (g.takeHost rest).streams = g.streams := rfl
@[simp] theorem Gate.takeHost_entries (rest : List HostRequest) : (g.takeHost rest).entries = g.entries := rfl
@[simp] theorem Gate.takeHost_exponent (rest : List HostRequest) : (g.takeHost rest).exponent = g.exponent := rfl
@[simp] theorem Gate.takeHost_lastGranted (rest : List HostRequest) : (g.takeHost rest).lastGranted = g.lastGranted := rfl
@[simp] theorem Gate.takeHost_windows (rest : List HostRequest) : (g.takeHost rest).windows = g.windows := rfl
@[simp] theorem Gate.takeHost_log (rest : List HostRequest) : (g.takeHost rest).log = g.log := rfl
@[simp] theorem Gate.takeHost_management (rest : List HostRequest) : (g.takeHost rest).management = g.management := rfl
@[simp] theorem Gate.takeHost_branches (rest : List HostRequest) : (g.takeHost rest).branches = g.branches := rfl
@[simp] theorem Gate.takeHost_sent (rest : List HostRequest) : (g.takeHost rest).sent = g.sent := rfl

/-! ### forwardHost -/

@[simp] theorem Gate.forwardHost_gateId (b : BranchNo) (r : HostRequest) (a : Addr) :
    (g.forwardHost b r a).gateId = g.gateId := rfl
@[simp] theorem Gate.forwardHost_contexts (b : BranchNo) (r : HostRequest) (a : Addr) :
    (g.forwardHost b r a).contexts = g.contexts := rfl
@[simp] theorem Gate.forwardHost_cache (b : BranchNo) (r : HostRequest) (a : Addr) :
    (g.forwardHost b r a).cache = g.cache := rfl
@[simp] theorem Gate.forwardHost_walks (b : BranchNo) (r : HostRequest) (a : Addr) :
    (g.forwardHost b r a).walks = g.walks := rfl
@[simp] theorem Gate.forwardHost_walkWaiting (b : BranchNo) (r : HostRequest) (a : Addr) :
    (g.forwardHost b r a).walkWaiting = g.walkWaiting := rfl
@[simp] theorem Gate.forwardHost_streams (b : BranchNo) (r : HostRequest) (a : Addr) :
    (g.forwardHost b r a).streams = g.streams := rfl
@[simp] theorem Gate.forwardHost_entries (b : BranchNo) (r : HostRequest) (a : Addr) :
    (g.forwardHost b r a).entries = g.entries := rfl
@[simp] theorem Gate.forwardHost_exponent (b : BranchNo) (r : HostRequest) (a : Addr) :
    (g.forwardHost b r a).exponent = g.exponent := rfl
@[simp] theorem Gate.forwardHost_lastGranted (b : BranchNo) (r : HostRequest) (a : Addr) :
    (g.forwardHost b r a).lastGranted = g.lastGranted := rfl
@[simp] theorem Gate.forwardHost_windows (b : BranchNo) (r : HostRequest) (a : Addr) :
    (g.forwardHost b r a).windows = g.windows := rfl
@[simp] theorem Gate.forwardHost_log (b : BranchNo) (r : HostRequest) (a : Addr) : (g.forwardHost b r a).log = g.log := rfl
@[simp] theorem Gate.forwardHost_management (b : BranchNo) (r : HostRequest) (a : Addr) :
    (g.forwardHost b r a).management = g.management := rfl
@[simp] theorem Gate.forwardHost_trunk (b : BranchNo) (r : HostRequest) (a : Addr) :
    (g.forwardHost b r a).trunk = g.trunk := rfl
@[simp] theorem Gate.forwardHost_sent (b : BranchNo) (r : HostRequest) (a : Addr) :
    (g.forwardHost b r a).sent = g.sent := rfl

/-! ### placeTrunkAnswer -/

@[simp] theorem Gate.placeTrunkAnswer_gateId (source : AnswerSource) (a : Answer) :
    (g.placeTrunkAnswer source a).gateId = g.gateId := rfl
@[simp] theorem Gate.placeTrunkAnswer_contexts (source : AnswerSource) (a : Answer) :
    (g.placeTrunkAnswer source a).contexts = g.contexts := rfl
@[simp] theorem Gate.placeTrunkAnswer_cache (source : AnswerSource) (a : Answer) :
    (g.placeTrunkAnswer source a).cache = g.cache := rfl
@[simp] theorem Gate.placeTrunkAnswer_walks (source : AnswerSource) (a : Answer) :
    (g.placeTrunkAnswer source a).walks = g.walks := rfl
@[simp] theorem Gate.placeTrunkAnswer_walkWaiting (source : AnswerSource) (a : Answer) :
    (g.placeTrunkAnswer source a).walkWaiting = g.walkWaiting := rfl
@[simp] theorem Gate.placeTrunkAnswer_streams (source : AnswerSource) (a : Answer) :
    (g.placeTrunkAnswer source a).streams = g.streams := rfl
@[simp] theorem Gate.placeTrunkAnswer_entries (source : AnswerSource) (a : Answer) :
    (g.placeTrunkAnswer source a).entries = g.entries := rfl
@[simp] theorem Gate.placeTrunkAnswer_exponent (source : AnswerSource) (a : Answer) :
    (g.placeTrunkAnswer source a).exponent = g.exponent := rfl
@[simp] theorem Gate.placeTrunkAnswer_lastGranted (source : AnswerSource) (a : Answer) :
    (g.placeTrunkAnswer source a).lastGranted = g.lastGranted := rfl
@[simp] theorem Gate.placeTrunkAnswer_windows (source : AnswerSource) (a : Answer) :
    (g.placeTrunkAnswer source a).windows = g.windows := rfl
@[simp] theorem Gate.placeTrunkAnswer_log (source : AnswerSource) (a : Answer) :
    (g.placeTrunkAnswer source a).log = g.log := rfl
@[simp] theorem Gate.placeTrunkAnswer_management (source : AnswerSource) (a : Answer) :
    (g.placeTrunkAnswer source a).management = g.management := rfl
@[simp] theorem Gate.placeTrunkAnswer_branches (source : AnswerSource) (a : Answer) :
    (g.placeTrunkAnswer source a).branches = g.branches := rfl
@[simp] theorem Gate.placeTrunkAnswer_sent (source : AnswerSource) (a : Answer) :
    (g.placeTrunkAnswer source a).sent = g.sent := rfl

/-! ### clearStreams -/

@[simp] theorem Gate.clearStreams_gateId (b : BranchNo) : (g.clearStreams b).gateId = g.gateId := rfl
@[simp] theorem Gate.clearStreams_contexts (b : BranchNo) : (g.clearStreams b).contexts = g.contexts := rfl
@[simp] theorem Gate.clearStreams_cache (b : BranchNo) : (g.clearStreams b).cache = g.cache := rfl
@[simp] theorem Gate.clearStreams_walks (b : BranchNo) : (g.clearStreams b).walks = g.walks := rfl
@[simp] theorem Gate.clearStreams_walkWaiting (b : BranchNo) : (g.clearStreams b).walkWaiting = g.walkWaiting := rfl
@[simp] theorem Gate.clearStreams_entries (b : BranchNo) : (g.clearStreams b).entries = g.entries := rfl
@[simp] theorem Gate.clearStreams_exponent (b : BranchNo) : (g.clearStreams b).exponent = g.exponent := rfl
@[simp] theorem Gate.clearStreams_lastGranted (b : BranchNo) : (g.clearStreams b).lastGranted = g.lastGranted := rfl
@[simp] theorem Gate.clearStreams_windows (b : BranchNo) : (g.clearStreams b).windows = g.windows := rfl
@[simp] theorem Gate.clearStreams_log (b : BranchNo) : (g.clearStreams b).log = g.log := rfl
@[simp] theorem Gate.clearStreams_management (b : BranchNo) : (g.clearStreams b).management = g.management := rfl
@[simp] theorem Gate.clearStreams_trunk (b : BranchNo) : (g.clearStreams b).trunk = g.trunk := rfl
@[simp] theorem Gate.clearStreams_branches (b : BranchNo) : (g.clearStreams b).branches = g.branches := rfl
@[simp] theorem Gate.clearStreams_sent (b : BranchNo) : (g.clearStreams b).sent = g.sent := rfl

/-! ### dropHeads -/

@[simp] theorem Gate.dropHeads_gateId (b : BranchNo) : (g.dropHeads b).gateId = g.gateId := rfl
@[simp] theorem Gate.dropHeads_contexts (b : BranchNo) : (g.dropHeads b).contexts = g.contexts := rfl
@[simp] theorem Gate.dropHeads_cache (b : BranchNo) : (g.dropHeads b).cache = g.cache := rfl
@[simp] theorem Gate.dropHeads_streams (b : BranchNo) : (g.dropHeads b).streams = g.streams := rfl
@[simp] theorem Gate.dropHeads_entries (b : BranchNo) : (g.dropHeads b).entries = g.entries := rfl
@[simp] theorem Gate.dropHeads_exponent (b : BranchNo) : (g.dropHeads b).exponent = g.exponent := rfl
@[simp] theorem Gate.dropHeads_lastGranted (b : BranchNo) : (g.dropHeads b).lastGranted = g.lastGranted := rfl
@[simp] theorem Gate.dropHeads_windows (b : BranchNo) : (g.dropHeads b).windows = g.windows := rfl
@[simp] theorem Gate.dropHeads_log (b : BranchNo) : (g.dropHeads b).log = g.log := rfl
@[simp] theorem Gate.dropHeads_management (b : BranchNo) : (g.dropHeads b).management = g.management := rfl
@[simp] theorem Gate.dropHeads_trunk (b : BranchNo) : (g.dropHeads b).trunk = g.trunk := rfl
@[simp] theorem Gate.dropHeads_branches (b : BranchNo) : (g.dropHeads b).branches = g.branches := rfl
@[simp] theorem Gate.dropHeads_sent (b : BranchNo) : (g.dropHeads b).sent = g.sent := rfl

/-! ### markOrphans -/

@[simp] theorem Gate.markOrphans_gateId (b : BranchNo) : (g.markOrphans b).gateId = g.gateId := rfl
@[simp] theorem Gate.markOrphans_contexts (b : BranchNo) : (g.markOrphans b).contexts = g.contexts := rfl
@[simp] theorem Gate.markOrphans_cache (b : BranchNo) : (g.markOrphans b).cache = g.cache := rfl
@[simp] theorem Gate.markOrphans_walks (b : BranchNo) : (g.markOrphans b).walks = g.walks := rfl
@[simp] theorem Gate.markOrphans_walkWaiting (b : BranchNo) : (g.markOrphans b).walkWaiting = g.walkWaiting := rfl
@[simp] theorem Gate.markOrphans_streams (b : BranchNo) : (g.markOrphans b).streams = g.streams := rfl
@[simp] theorem Gate.markOrphans_exponent (b : BranchNo) : (g.markOrphans b).exponent = g.exponent := rfl
@[simp] theorem Gate.markOrphans_lastGranted (b : BranchNo) : (g.markOrphans b).lastGranted = g.lastGranted := rfl
@[simp] theorem Gate.markOrphans_windows (b : BranchNo) : (g.markOrphans b).windows = g.windows := rfl
@[simp] theorem Gate.markOrphans_log (b : BranchNo) : (g.markOrphans b).log = g.log := rfl
@[simp] theorem Gate.markOrphans_management (b : BranchNo) : (g.markOrphans b).management = g.management := rfl
@[simp] theorem Gate.markOrphans_trunk (b : BranchNo) : (g.markOrphans b).trunk = g.trunk := rfl
@[simp] theorem Gate.markOrphans_branches (b : BranchNo) : (g.markOrphans b).branches = g.branches := rfl
@[simp] theorem Gate.markOrphans_sent (b : BranchNo) : (g.markOrphans b).sent = g.sent := rfl

/-! ### bindStream -/

@[simp] theorem Gate.bindStream_gateId (s : StreamId) (mode : Mode) : (g.bindStream s mode).gateId = g.gateId := rfl
@[simp] theorem Gate.bindStream_contexts (s : StreamId) (mode : Mode) : (g.bindStream s mode).contexts = g.contexts := rfl
@[simp] theorem Gate.bindStream_cache (s : StreamId) (mode : Mode) : (g.bindStream s mode).cache = g.cache := rfl
@[simp] theorem Gate.bindStream_walks (s : StreamId) (mode : Mode) : (g.bindStream s mode).walks = g.walks := rfl
@[simp] theorem Gate.bindStream_walkWaiting (s : StreamId) (mode : Mode) :
    (g.bindStream s mode).walkWaiting = g.walkWaiting := rfl
@[simp] theorem Gate.bindStream_entries (s : StreamId) (mode : Mode) : (g.bindStream s mode).entries = g.entries := rfl
@[simp] theorem Gate.bindStream_exponent (s : StreamId) (mode : Mode) : (g.bindStream s mode).exponent = g.exponent := rfl
@[simp] theorem Gate.bindStream_lastGranted (s : StreamId) (mode : Mode) :
    (g.bindStream s mode).lastGranted = g.lastGranted := rfl
@[simp] theorem Gate.bindStream_windows (s : StreamId) (mode : Mode) : (g.bindStream s mode).windows = g.windows := rfl
@[simp] theorem Gate.bindStream_log (s : StreamId) (mode : Mode) : (g.bindStream s mode).log = g.log := rfl
@[simp] theorem Gate.bindStream_management (s : StreamId) (mode : Mode) :
    (g.bindStream s mode).management = g.management := rfl
@[simp] theorem Gate.bindStream_trunk (s : StreamId) (mode : Mode) : (g.bindStream s mode).trunk = g.trunk := rfl
@[simp] theorem Gate.bindStream_branches (s : StreamId) (mode : Mode) : (g.bindStream s mode).branches = g.branches := rfl
@[simp] theorem Gate.bindStream_sent (s : StreamId) (mode : Mode) : (g.bindStream s mode).sent = g.sent := rfl

/-! ### takeControl -/

@[simp] theorem Gate.takeControl_gateId (rest : List ControlPacket) : (g.takeControl rest).gateId = g.gateId := rfl
@[simp] theorem Gate.takeControl_contexts (rest : List ControlPacket) : (g.takeControl rest).contexts = g.contexts := rfl
@[simp] theorem Gate.takeControl_cache (rest : List ControlPacket) : (g.takeControl rest).cache = g.cache := rfl
@[simp] theorem Gate.takeControl_walks (rest : List ControlPacket) : (g.takeControl rest).walks = g.walks := rfl
@[simp] theorem Gate.takeControl_walkWaiting (rest : List ControlPacket) :
    (g.takeControl rest).walkWaiting = g.walkWaiting := rfl
@[simp] theorem Gate.takeControl_streams (rest : List ControlPacket) : (g.takeControl rest).streams = g.streams := rfl
@[simp] theorem Gate.takeControl_entries (rest : List ControlPacket) : (g.takeControl rest).entries = g.entries := rfl
@[simp] theorem Gate.takeControl_exponent (rest : List ControlPacket) : (g.takeControl rest).exponent = g.exponent := rfl
@[simp] theorem Gate.takeControl_lastGranted (rest : List ControlPacket) :
    (g.takeControl rest).lastGranted = g.lastGranted := rfl
@[simp] theorem Gate.takeControl_windows (rest : List ControlPacket) : (g.takeControl rest).windows = g.windows := rfl
@[simp] theorem Gate.takeControl_log (rest : List ControlPacket) : (g.takeControl rest).log = g.log := rfl
@[simp] theorem Gate.takeControl_management (rest : List ControlPacket) :
    (g.takeControl rest).management = g.management := rfl
@[simp] theorem Gate.takeControl_branches (rest : List ControlPacket) : (g.takeControl rest).branches = g.branches := rfl
@[simp] theorem Gate.takeControl_sent (rest : List ControlPacket) : (g.takeControl rest).sent = g.sent := rfl

/-! ### queueReply -/

@[simp] theorem Gate.queueReply_gateId (node tag : Byte) (status : ReplyStatus) (code : Byte) (results : List Byte) :
    (g.queueReply node tag status code results).gateId = g.gateId := rfl
@[simp] theorem Gate.queueReply_contexts (node tag : Byte) (status : ReplyStatus) (code : Byte) (results : List Byte) :
    (g.queueReply node tag status code results).contexts = g.contexts := rfl
@[simp] theorem Gate.queueReply_cache (node tag : Byte) (status : ReplyStatus) (code : Byte) (results : List Byte) :
    (g.queueReply node tag status code results).cache = g.cache := rfl
@[simp] theorem Gate.queueReply_walks (node tag : Byte) (status : ReplyStatus) (code : Byte) (results : List Byte) :
    (g.queueReply node tag status code results).walks = g.walks := rfl
@[simp] theorem Gate.queueReply_walkWaiting (node tag : Byte) (status : ReplyStatus) (code : Byte) (results : List Byte) :
    (g.queueReply node tag status code results).walkWaiting = g.walkWaiting := rfl
@[simp] theorem Gate.queueReply_streams (node tag : Byte) (status : ReplyStatus) (code : Byte) (results : List Byte) :
    (g.queueReply node tag status code results).streams = g.streams := rfl
@[simp] theorem Gate.queueReply_entries (node tag : Byte) (status : ReplyStatus) (code : Byte) (results : List Byte) :
    (g.queueReply node tag status code results).entries = g.entries := rfl
@[simp] theorem Gate.queueReply_exponent (node tag : Byte) (status : ReplyStatus) (code : Byte) (results : List Byte) :
    (g.queueReply node tag status code results).exponent = g.exponent := rfl
@[simp] theorem Gate.queueReply_lastGranted (node tag : Byte) (status : ReplyStatus) (code : Byte) (results : List Byte) :
    (g.queueReply node tag status code results).lastGranted = g.lastGranted := rfl
@[simp] theorem Gate.queueReply_windows (node tag : Byte) (status : ReplyStatus) (code : Byte) (results : List Byte) :
    (g.queueReply node tag status code results).windows = g.windows := rfl
@[simp] theorem Gate.queueReply_log (node tag : Byte) (status : ReplyStatus) (code : Byte) (results : List Byte) :
    (g.queueReply node tag status code results).log = g.log := rfl
@[simp] theorem Gate.queueReply_trunk (node tag : Byte) (status : ReplyStatus) (code : Byte) (results : List Byte) :
    (g.queueReply node tag status code results).trunk = g.trunk := rfl
@[simp] theorem Gate.queueReply_branches (node tag : Byte) (status : ReplyStatus) (code : Byte) (results : List Byte) :
    (g.queueReply node tag status code results).branches = g.branches := rfl
@[simp] theorem Gate.queueReply_sent (node tag : Byte) (status : ReplyStatus) (code : Byte) (results : List Byte) :
    (g.queueReply node tag status code results).sent = g.sent := rfl

/-! ### placeNotice -/

@[simp] theorem Gate.placeNotice_gateId : g.placeNotice.gateId = g.gateId := by
  unfold Gate.placeNotice; repeat' split
  all_goals rfl
@[simp] theorem Gate.placeNotice_contexts : g.placeNotice.contexts = g.contexts := by
  unfold Gate.placeNotice; repeat' split
  all_goals rfl
@[simp] theorem Gate.placeNotice_cache : g.placeNotice.cache = g.cache := by
  unfold Gate.placeNotice; repeat' split
  all_goals rfl
@[simp] theorem Gate.placeNotice_walks : g.placeNotice.walks = g.walks := by
  unfold Gate.placeNotice; repeat' split
  all_goals rfl
@[simp] theorem Gate.placeNotice_walkWaiting : g.placeNotice.walkWaiting = g.walkWaiting := by
  unfold Gate.placeNotice; repeat' split
  all_goals rfl
@[simp] theorem Gate.placeNotice_streams : g.placeNotice.streams = g.streams := by
  unfold Gate.placeNotice; repeat' split
  all_goals rfl
@[simp] theorem Gate.placeNotice_entries : g.placeNotice.entries = g.entries := by
  unfold Gate.placeNotice; repeat' split
  all_goals rfl
@[simp] theorem Gate.placeNotice_exponent : g.placeNotice.exponent = g.exponent := by
  unfold Gate.placeNotice; repeat' split
  all_goals rfl
@[simp] theorem Gate.placeNotice_lastGranted : g.placeNotice.lastGranted = g.lastGranted := by
  unfold Gate.placeNotice; repeat' split
  all_goals rfl
@[simp] theorem Gate.placeNotice_windows : g.placeNotice.windows = g.windows := by
  unfold Gate.placeNotice; repeat' split
  all_goals rfl
@[simp] theorem Gate.placeNotice_log : g.placeNotice.log = g.log := by
  unfold Gate.placeNotice; repeat' split
  all_goals rfl
@[simp] theorem Gate.placeNotice_trunk : g.placeNotice.trunk = g.trunk := by
  unfold Gate.placeNotice; repeat' split
  all_goals rfl
@[simp] theorem Gate.placeNotice_branches : g.placeNotice.branches = g.branches := by
  unfold Gate.placeNotice; repeat' split
  all_goals rfl
@[simp] theorem Gate.placeNotice_sent : g.placeNotice.sent = g.sent := by
  unfold Gate.placeNotice; repeat' split
  all_goals rfl

/-! ### takeRecords -/

@[simp] theorem Gate.takeRecords_gateId (n : Nat) : (g.takeRecords n).gateId = g.gateId := rfl
@[simp] theorem Gate.takeRecords_contexts (n : Nat) : (g.takeRecords n).contexts = g.contexts := rfl
@[simp] theorem Gate.takeRecords_cache (n : Nat) : (g.takeRecords n).cache = g.cache := rfl
@[simp] theorem Gate.takeRecords_walks (n : Nat) : (g.takeRecords n).walks = g.walks := rfl
@[simp] theorem Gate.takeRecords_walkWaiting (n : Nat) : (g.takeRecords n).walkWaiting = g.walkWaiting := rfl
@[simp] theorem Gate.takeRecords_streams (n : Nat) : (g.takeRecords n).streams = g.streams := rfl
@[simp] theorem Gate.takeRecords_entries (n : Nat) : (g.takeRecords n).entries = g.entries := rfl
@[simp] theorem Gate.takeRecords_exponent (n : Nat) : (g.takeRecords n).exponent = g.exponent := rfl
@[simp] theorem Gate.takeRecords_lastGranted (n : Nat) : (g.takeRecords n).lastGranted = g.lastGranted := rfl
@[simp] theorem Gate.takeRecords_windows (n : Nat) : (g.takeRecords n).windows = g.windows := rfl
@[simp] theorem Gate.takeRecords_trunk (n : Nat) : (g.takeRecords n).trunk = g.trunk := rfl
@[simp] theorem Gate.takeRecords_branches (n : Nat) : (g.takeRecords n).branches = g.branches := rfl
@[simp] theorem Gate.takeRecords_sent (n : Nat) : (g.takeRecords n).sent = g.sent := rfl

/-! ### setupContext -/

@[simp] theorem Gate.setupContext_gateId (c : ContextNo) (root : Addr) (length : Nat) (report : Bool) :
    (g.setupContext c root length report).gateId = g.gateId := rfl
@[simp] theorem Gate.setupContext_cache (c : ContextNo) (root : Addr) (length : Nat) (report : Bool) :
    (g.setupContext c root length report).cache = g.cache := rfl
@[simp] theorem Gate.setupContext_walks (c : ContextNo) (root : Addr) (length : Nat) (report : Bool) :
    (g.setupContext c root length report).walks = g.walks := rfl
@[simp] theorem Gate.setupContext_walkWaiting (c : ContextNo) (root : Addr) (length : Nat) (report : Bool) :
    (g.setupContext c root length report).walkWaiting = g.walkWaiting := rfl
@[simp] theorem Gate.setupContext_streams (c : ContextNo) (root : Addr) (length : Nat) (report : Bool) :
    (g.setupContext c root length report).streams = g.streams := rfl
@[simp] theorem Gate.setupContext_entries (c : ContextNo) (root : Addr) (length : Nat) (report : Bool) :
    (g.setupContext c root length report).entries = g.entries := rfl
@[simp] theorem Gate.setupContext_exponent (c : ContextNo) (root : Addr) (length : Nat) (report : Bool) :
    (g.setupContext c root length report).exponent = g.exponent := rfl
@[simp] theorem Gate.setupContext_lastGranted (c : ContextNo) (root : Addr) (length : Nat) (report : Bool) :
    (g.setupContext c root length report).lastGranted = g.lastGranted := rfl
@[simp] theorem Gate.setupContext_windows (c : ContextNo) (root : Addr) (length : Nat) (report : Bool) :
    (g.setupContext c root length report).windows = g.windows := rfl
@[simp] theorem Gate.setupContext_log (c : ContextNo) (root : Addr) (length : Nat) (report : Bool) :
    (g.setupContext c root length report).log = g.log := rfl
@[simp] theorem Gate.setupContext_management (c : ContextNo) (root : Addr) (length : Nat) (report : Bool) :
    (g.setupContext c root length report).management = g.management := rfl
@[simp] theorem Gate.setupContext_trunk (c : ContextNo) (root : Addr) (length : Nat) (report : Bool) :
    (g.setupContext c root length report).trunk = g.trunk := rfl
@[simp] theorem Gate.setupContext_branches (c : ContextNo) (root : Addr) (length : Nat) (report : Bool) :
    (g.setupContext c root length report).branches = g.branches := rfl
@[simp] theorem Gate.setupContext_sent (c : ContextNo) (root : Addr) (length : Nat) (report : Bool) :
    (g.setupContext c root length report).sent = g.sent := rfl

/-! ### raiseEpoch -/

@[simp] theorem Gate.raiseEpoch_gateId (c : ContextNo) : (g.raiseEpoch c).gateId = g.gateId := rfl
@[simp] theorem Gate.raiseEpoch_cache (c : ContextNo) : (g.raiseEpoch c).cache = g.cache := rfl
@[simp] theorem Gate.raiseEpoch_walks (c : ContextNo) : (g.raiseEpoch c).walks = g.walks := rfl
@[simp] theorem Gate.raiseEpoch_walkWaiting (c : ContextNo) : (g.raiseEpoch c).walkWaiting = g.walkWaiting := rfl
@[simp] theorem Gate.raiseEpoch_streams (c : ContextNo) : (g.raiseEpoch c).streams = g.streams := rfl
@[simp] theorem Gate.raiseEpoch_entries (c : ContextNo) : (g.raiseEpoch c).entries = g.entries := rfl
@[simp] theorem Gate.raiseEpoch_exponent (c : ContextNo) : (g.raiseEpoch c).exponent = g.exponent := rfl
@[simp] theorem Gate.raiseEpoch_lastGranted (c : ContextNo) : (g.raiseEpoch c).lastGranted = g.lastGranted := rfl
@[simp] theorem Gate.raiseEpoch_windows (c : ContextNo) : (g.raiseEpoch c).windows = g.windows := rfl
@[simp] theorem Gate.raiseEpoch_log (c : ContextNo) : (g.raiseEpoch c).log = g.log := rfl
@[simp] theorem Gate.raiseEpoch_management (c : ContextNo) : (g.raiseEpoch c).management = g.management := rfl
@[simp] theorem Gate.raiseEpoch_trunk (c : ContextNo) : (g.raiseEpoch c).trunk = g.trunk := rfl
@[simp] theorem Gate.raiseEpoch_branches (c : ContextNo) : (g.raiseEpoch c).branches = g.branches := rfl
@[simp] theorem Gate.raiseEpoch_sent (c : ContextNo) : (g.raiseEpoch c).sent = g.sent := rfl

/-! ### removeCached -/

@[simp] theorem Gate.removeCached_gateId (c : ContextNo) (inRange : Nat → Bool) :
    (g.removeCached c inRange).gateId = g.gateId := rfl
@[simp] theorem Gate.removeCached_contexts (c : ContextNo) (inRange : Nat → Bool) :
    (g.removeCached c inRange).contexts = g.contexts := rfl
@[simp] theorem Gate.removeCached_walks (c : ContextNo) (inRange : Nat → Bool) :
    (g.removeCached c inRange).walks = g.walks := rfl
@[simp] theorem Gate.removeCached_walkWaiting (c : ContextNo) (inRange : Nat → Bool) :
    (g.removeCached c inRange).walkWaiting = g.walkWaiting := rfl
@[simp] theorem Gate.removeCached_streams (c : ContextNo) (inRange : Nat → Bool) :
    (g.removeCached c inRange).streams = g.streams := rfl
@[simp] theorem Gate.removeCached_entries (c : ContextNo) (inRange : Nat → Bool) :
    (g.removeCached c inRange).entries = g.entries := rfl
@[simp] theorem Gate.removeCached_exponent (c : ContextNo) (inRange : Nat → Bool) :
    (g.removeCached c inRange).exponent = g.exponent := rfl
@[simp] theorem Gate.removeCached_lastGranted (c : ContextNo) (inRange : Nat → Bool) :
    (g.removeCached c inRange).lastGranted = g.lastGranted := rfl
@[simp] theorem Gate.removeCached_windows (c : ContextNo) (inRange : Nat → Bool) :
    (g.removeCached c inRange).windows = g.windows := rfl
@[simp] theorem Gate.removeCached_log (c : ContextNo) (inRange : Nat → Bool) : (g.removeCached c inRange).log = g.log := rfl
@[simp] theorem Gate.removeCached_management (c : ContextNo) (inRange : Nat → Bool) :
    (g.removeCached c inRange).management = g.management := rfl
@[simp] theorem Gate.removeCached_trunk (c : ContextNo) (inRange : Nat → Bool) :
    (g.removeCached c inRange).trunk = g.trunk := rfl
@[simp] theorem Gate.removeCached_branches (c : ContextNo) (inRange : Nat → Bool) :
    (g.removeCached c inRange).branches = g.branches := rfl
@[simp] theorem Gate.removeCached_sent (c : ContextNo) (inRange : Nat → Bool) :
    (g.removeCached c inRange).sent = g.sent := rfl

/-! ### setPending -/

@[simp] theorem Gate.setPending_gateId (c : ContextNo) (command : LongCommand) (tag node : Byte) :
    (g.setPending c command tag node).gateId = g.gateId := rfl
@[simp] theorem Gate.setPending_cache (c : ContextNo) (command : LongCommand) (tag node : Byte) :
    (g.setPending c command tag node).cache = g.cache := rfl
@[simp] theorem Gate.setPending_walks (c : ContextNo) (command : LongCommand) (tag node : Byte) :
    (g.setPending c command tag node).walks = g.walks := rfl
@[simp] theorem Gate.setPending_walkWaiting (c : ContextNo) (command : LongCommand) (tag node : Byte) :
    (g.setPending c command tag node).walkWaiting = g.walkWaiting := rfl
@[simp] theorem Gate.setPending_streams (c : ContextNo) (command : LongCommand) (tag node : Byte) :
    (g.setPending c command tag node).streams = g.streams := rfl
@[simp] theorem Gate.setPending_entries (c : ContextNo) (command : LongCommand) (tag node : Byte) :
    (g.setPending c command tag node).entries = g.entries := rfl
@[simp] theorem Gate.setPending_exponent (c : ContextNo) (command : LongCommand) (tag node : Byte) :
    (g.setPending c command tag node).exponent = g.exponent := rfl
@[simp] theorem Gate.setPending_lastGranted (c : ContextNo) (command : LongCommand) (tag node : Byte) :
    (g.setPending c command tag node).lastGranted = g.lastGranted := rfl
@[simp] theorem Gate.setPending_windows (c : ContextNo) (command : LongCommand) (tag node : Byte) :
    (g.setPending c command tag node).windows = g.windows := rfl
@[simp] theorem Gate.setPending_log (c : ContextNo) (command : LongCommand) (tag node : Byte) :
    (g.setPending c command tag node).log = g.log := rfl
@[simp] theorem Gate.setPending_trunk (c : ContextNo) (command : LongCommand) (tag node : Byte) :
    (g.setPending c command tag node).trunk = g.trunk := rfl
@[simp] theorem Gate.setPending_branches (c : ContextNo) (command : LongCommand) (tag node : Byte) :
    (g.setPending c command tag node).branches = g.branches := rfl
@[simp] theorem Gate.setPending_sent (c : ContextNo) (command : LongCommand) (tag node : Byte) :
    (g.setPending c command tag node).sent = g.sent := rfl

/-! ### clearPending -/

@[simp] theorem Gate.clearPending_gateId (c : ContextNo) : (g.clearPending c).gateId = g.gateId := rfl
@[simp] theorem Gate.clearPending_cache (c : ContextNo) : (g.clearPending c).cache = g.cache := rfl
@[simp] theorem Gate.clearPending_walks (c : ContextNo) : (g.clearPending c).walks = g.walks := rfl
@[simp] theorem Gate.clearPending_walkWaiting (c : ContextNo) : (g.clearPending c).walkWaiting = g.walkWaiting := rfl
@[simp] theorem Gate.clearPending_streams (c : ContextNo) : (g.clearPending c).streams = g.streams := rfl
@[simp] theorem Gate.clearPending_entries (c : ContextNo) : (g.clearPending c).entries = g.entries := rfl
@[simp] theorem Gate.clearPending_exponent (c : ContextNo) : (g.clearPending c).exponent = g.exponent := rfl
@[simp] theorem Gate.clearPending_lastGranted (c : ContextNo) : (g.clearPending c).lastGranted = g.lastGranted := rfl
@[simp] theorem Gate.clearPending_windows (c : ContextNo) : (g.clearPending c).windows = g.windows := rfl
@[simp] theorem Gate.clearPending_log (c : ContextNo) : (g.clearPending c).log = g.log := rfl
@[simp] theorem Gate.clearPending_trunk (c : ContextNo) : (g.clearPending c).trunk = g.trunk := rfl
@[simp] theorem Gate.clearPending_branches (c : ContextNo) : (g.clearPending c).branches = g.branches := rfl
@[simp] theorem Gate.clearPending_sent (c : ContextNo) : (g.clearPending c).sent = g.sent := rfl

/-! ### unbindContext -/

@[simp] theorem Gate.unbindContext_gateId (c : ContextNo) : (g.unbindContext c).gateId = g.gateId := rfl
@[simp] theorem Gate.unbindContext_contexts (c : ContextNo) : (g.unbindContext c).contexts = g.contexts := rfl
@[simp] theorem Gate.unbindContext_cache (c : ContextNo) : (g.unbindContext c).cache = g.cache := rfl
@[simp] theorem Gate.unbindContext_walks (c : ContextNo) : (g.unbindContext c).walks = g.walks := rfl
@[simp] theorem Gate.unbindContext_walkWaiting (c : ContextNo) : (g.unbindContext c).walkWaiting = g.walkWaiting := rfl
@[simp] theorem Gate.unbindContext_entries (c : ContextNo) : (g.unbindContext c).entries = g.entries := rfl
@[simp] theorem Gate.unbindContext_exponent (c : ContextNo) : (g.unbindContext c).exponent = g.exponent := rfl
@[simp] theorem Gate.unbindContext_lastGranted (c : ContextNo) : (g.unbindContext c).lastGranted = g.lastGranted := rfl
@[simp] theorem Gate.unbindContext_windows (c : ContextNo) : (g.unbindContext c).windows = g.windows := rfl
@[simp] theorem Gate.unbindContext_log (c : ContextNo) : (g.unbindContext c).log = g.log := rfl
@[simp] theorem Gate.unbindContext_management (c : ContextNo) : (g.unbindContext c).management = g.management := rfl
@[simp] theorem Gate.unbindContext_trunk (c : ContextNo) : (g.unbindContext c).trunk = g.trunk := rfl
@[simp] theorem Gate.unbindContext_branches (c : ContextNo) : (g.unbindContext c).branches = g.branches := rfl
@[simp] theorem Gate.unbindContext_sent (c : ContextNo) : (g.unbindContext c).sent = g.sent := rfl

/-! ### completeRetire -/

@[simp] theorem Gate.completeRetire_gateId (c : ContextNo) (tag node : Byte) :
    (g.completeRetire c tag node).gateId = g.gateId := by
  simp [Gate.completeRetire]
@[simp] theorem Gate.completeRetire_cache (c : ContextNo) (tag node : Byte) :
    (g.completeRetire c tag node).cache = g.cache := by
  simp [Gate.completeRetire]
@[simp] theorem Gate.completeRetire_walks (c : ContextNo) (tag node : Byte) :
    (g.completeRetire c tag node).walks = g.walks := by
  simp [Gate.completeRetire]
@[simp] theorem Gate.completeRetire_walkWaiting (c : ContextNo) (tag node : Byte) :
    (g.completeRetire c tag node).walkWaiting = g.walkWaiting := by
  simp [Gate.completeRetire]
@[simp] theorem Gate.completeRetire_entries (c : ContextNo) (tag node : Byte) :
    (g.completeRetire c tag node).entries = g.entries := by
  simp [Gate.completeRetire]
@[simp] theorem Gate.completeRetire_exponent (c : ContextNo) (tag node : Byte) :
    (g.completeRetire c tag node).exponent = g.exponent := by
  simp [Gate.completeRetire]
@[simp] theorem Gate.completeRetire_lastGranted (c : ContextNo) (tag node : Byte) :
    (g.completeRetire c tag node).lastGranted = g.lastGranted := by
  simp [Gate.completeRetire]
@[simp] theorem Gate.completeRetire_windows (c : ContextNo) (tag node : Byte) :
    (g.completeRetire c tag node).windows = g.windows := by
  simp [Gate.completeRetire]
@[simp] theorem Gate.completeRetire_log (c : ContextNo) (tag node : Byte) : (g.completeRetire c tag node).log = g.log := by
  simp [Gate.completeRetire]
@[simp] theorem Gate.completeRetire_trunk (c : ContextNo) (tag node : Byte) :
    (g.completeRetire c tag node).trunk = g.trunk := by
  simp [Gate.completeRetire]
@[simp] theorem Gate.completeRetire_branches (c : ContextNo) (tag node : Byte) :
    (g.completeRetire c tag node).branches = g.branches := by
  simp [Gate.completeRetire]
@[simp] theorem Gate.completeRetire_sent (c : ContextNo) (tag node : Byte) :
    (g.completeRetire c tag node).sent = g.sent := by
  simp [Gate.completeRetire]

/-! ### completeInvalidate -/

@[simp] theorem Gate.completeInvalidate_gateId (c : ContextNo) (tag node : Byte) :
    (g.completeInvalidate c tag node).gateId = g.gateId := by
  simp [Gate.completeInvalidate]
@[simp] theorem Gate.completeInvalidate_cache (c : ContextNo) (tag node : Byte) :
    (g.completeInvalidate c tag node).cache = g.cache := by
  simp [Gate.completeInvalidate]
@[simp] theorem Gate.completeInvalidate_walks (c : ContextNo) (tag node : Byte) :
    (g.completeInvalidate c tag node).walks = g.walks := by
  simp [Gate.completeInvalidate]
@[simp] theorem Gate.completeInvalidate_walkWaiting (c : ContextNo) (tag node : Byte) :
    (g.completeInvalidate c tag node).walkWaiting = g.walkWaiting := by
  simp [Gate.completeInvalidate]
@[simp] theorem Gate.completeInvalidate_streams (c : ContextNo) (tag node : Byte) :
    (g.completeInvalidate c tag node).streams = g.streams := by
  simp [Gate.completeInvalidate]
@[simp] theorem Gate.completeInvalidate_entries (c : ContextNo) (tag node : Byte) :
    (g.completeInvalidate c tag node).entries = g.entries := by
  simp [Gate.completeInvalidate]
@[simp] theorem Gate.completeInvalidate_exponent (c : ContextNo) (tag node : Byte) :
    (g.completeInvalidate c tag node).exponent = g.exponent := by
  simp [Gate.completeInvalidate]
@[simp] theorem Gate.completeInvalidate_lastGranted (c : ContextNo) (tag node : Byte) :
    (g.completeInvalidate c tag node).lastGranted = g.lastGranted := by
  simp [Gate.completeInvalidate]
@[simp] theorem Gate.completeInvalidate_windows (c : ContextNo) (tag node : Byte) :
    (g.completeInvalidate c tag node).windows = g.windows := by
  simp [Gate.completeInvalidate]
@[simp] theorem Gate.completeInvalidate_log (c : ContextNo) (tag node : Byte) :
    (g.completeInvalidate c tag node).log = g.log := by
  simp [Gate.completeInvalidate]
@[simp] theorem Gate.completeInvalidate_trunk (c : ContextNo) (tag node : Byte) :
    (g.completeInvalidate c tag node).trunk = g.trunk := by
  simp [Gate.completeInvalidate]
@[simp] theorem Gate.completeInvalidate_branches (c : ContextNo) (tag node : Byte) :
    (g.completeInvalidate c tag node).branches = g.branches := by
  simp [Gate.completeInvalidate]
@[simp] theorem Gate.completeInvalidate_sent (c : ContextNo) (tag node : Byte) :
    (g.completeInvalidate c tag node).sent = g.sent := by
  simp [Gate.completeInvalidate]

end Sys2Proof.Machine
end

