-- ==== Sys2Proof/Laws/Steps.lean ====
section
/-! SUPPORT. What a command can do to the gate, said once: `GateStep` lists the single acts with the conditions under which the
model performs them, and Laws/Reach.lean shows that every command is a sequence of them. An invariant of the gate needs a
look at each act, and no look at the commands. -/

namespace Sys2Proof.Machine

/-- What an act may change: counters, the log, the cache and completions of invalidations (`inner`), heads with their
waiting lists, walks and answer slots (`head`), the ports, links and queues (`traffic`), everything that a branch going DOWN
clears (`down`), the entries of departed requests (`settle`), the arbiter's position and the entries of departing requests
(`grant`), the context records by a command (`context`), what the completion of a retire changes, bindings among it (`bind`),
one binding by a command (`rebind`), the manager, the gate's configuration, or everything. -/
inductive Kind where
  | inner
  | head
  | traffic
  | down
  | settle
  | grant
  | context
  | bind
  | rebind
  | claim
  | config
  | reset
  deriving DecidableEq, Repr

/-- A walk slot after an act that starts no walk: WALKING only where it was, with the same walk but for `sent` and waiters. -/
def WalkSlot.Follows (old new : WalkSlot) : Prop :=
  match new with
  | .walking w' => ∃ w, old = .walking w ∧ w'.context = w.context ∧ w'.page = w.page ∧ w'.epoch = w.epoch ∧
      w'.entryAddress = w.entryAddress
  | _ => True

/-- A request entry after an act that is no departure (R75, R76): LIVE only where it was, with the same fields but for the
orphan mark, which an act may set; LATE only where it was LATE with that timer or LIVE. -/
def Entry.Follows (old new : Entry) : Prop :=
  match new with
  | .free => True
  | .late k => old = .late k ∨ ∃ e, old = .live e
  | .live e => ∃ e', old = .live e' ∧ (e = e' ∨ e = { e' with orphan := true })

/-- One act on the gate. -/
inductive GateStep : Kind → Gate → Gate → Prop where
  -- inside the gate
  | fault (g : Gate) (f : FaultReport) : GateStep .inner g (g.offerFault f)
  | count (g : Gate) (c : ContextNo) (f : ContextCounters → ContextCounters) : GateStep .inner g (g.count c f)
  | countBranch (g : Gate) (b : BranchNo) (f : BranchCounters → BranchCounters) : GateStep .inner g (g.countBranch b f)
  | gateCount (g : Gate) (f : GateCounters → GateCounters) : GateStep .inner g (g.countGate f)
  | install (g : Gate) (c : ContextNo) (page : Nat) (e : MapEntry) (active : (g.context c).state = .active) :
      GateStep .inner g (g.install c page e)
  -- heads, their waiting lists and slots, walks
  | stream (g : Gate) (s : StreamId) (f : Stream → Stream)
      (keeps : ∀ x, (f x).queue = x.queue ∧ (f x).mode = x.mode ∧ (f x).generation = x.generation) :
      GateStep .head g (g.modStream s f)
  | port (g : Gate) (b : BranchNo) (f : Branch → Branch)
      (keeps : ∀ x, (f x).link = x.link ∧ (f x).ingressAnswers = x.ingressAnswers ∧
        (f x).egressRequests = x.egressRequests) :
      GateStep .head g (g.modBranch b f)
  | leave (g : Gate) (s : StreamId) (r : Request) (rest : List Request) (queued : (g.stream s).queue = r :: rest) :
      GateStep .head g (g.leaveQueue s rest)
  | slots (g : Gate) (v : Vector WalkSlot 4) (follows : ∀ i : WalkNo, (g.walk i).Follows v[i.val]) :
      GateStep .head g { g with walks := v }
  | startWalk (g : Gate) (i : WalkNo) (w : Walk) (active : (g.context w.context).state = .active)
      (inMap : w.page < (g.context w.context).mapLength)
      (address : w.entryAddress = BitVec.ofNat 48 ((g.context w.context).mapRoot.toNat + 8 * w.page))
      (fresh : ∀ j, (g.walk j).hasKey w.context w.page w.epoch = false) :
      GateStep .head g (g.setWalk i (.walking w))
  | waiting (g : Gate) (l : List StreamId) : GateStep .head g { g with walkWaiting := l }
  -- outstanding table and arbiter
  | entries (g : Gate) (v : Vector Entry 252) (follows : ∀ t : RequestTag, (g.entry t).Follows v[t.val]) :
      GateStep .settle g { g with entries := v }
  | granted (g : Gate) (n : Fin 68) : GateStep .grant g { g with lastGranted := n }
  | depart (g : Gate) (t : RequestTag) (e : LiveEntry) (free : g.entry t = .free) (young : e.orphan = false)
      (timer : e.timer = g.exponent) (bound : e.generation = (g.stream e.stream).generation)
      (current : ∀ c epoch, e.binding = .mapped c epoch → epoch = (g.context c).epoch) :
      GateStep .grant g (g.setEntry t (.live e))
  -- host path
  | takeHost (g : Gate) (r : HostRequest) (rest : List HostRequest) (front : g.trunk.ingressRequests = r :: rest) :
      GateStep .traffic g (g.takeHost rest)
  | forward (g : Gate) (b : BranchNo) (r : HostRequest) (address : Addr)
      (room : (g.branch b).egressRequests.length < Config.egressPlaces) :
      GateStep .traffic g (g.forwardHost b r address)
  | trunkPort (g : Gate) (f : TrunkPort → TrunkPort)
      (keeps : ∀ x, (f x).link = x.link ∧ (f x).ingressRequests = x.ingressRequests ∧
        (f x).ingressAnswers = x.ingressAnswers ∧ (f x).ingressControl = x.ingressControl ∧
        (f x).answerQueue = x.answerQueue) :
      GateStep .traffic g (g.modTrunk f)
  | placeAnswer (g : Gate) (source : AnswerSource) (a : Answer)
      (room : g.trunk.answerQueue.length < Config.answerPlaces) :
      GateStep .traffic g (g.placeTrunkAnswer source a)
  | takeBranchAnswer (g : Gate) (b : BranchNo) (a : Answer) (rest : List Answer)
      (front : (g.branch b).ingressAnswers = a :: rest) :
      GateStep .traffic g ((g.modBranch b fun x => { x with ingressAnswers := rest }).freeCredit (.branch b) .answer)
  -- transmitters
  | emit (g : Gate) (l : LinkId) (e : WireEvent) : GateStep .traffic g (g.emit l e)
  | lastSent (g : Gate) (b : BranchNo) (q : BranchQueue) :
      GateStep .traffic g (g.modBranch b fun x => { x with lastSent := q })
  | useHeld (g : Gate) (l : LinkId) (c : PacketClass) : GateStep .traffic g (g.modLink l (·.useHeld c))
  | popAnswer (g : Gate) (a : Answer) (rest : List Answer) (front : g.trunk.answerQueue = a :: rest) :
      GateStep .traffic g (g.modTrunk fun t => { t with answerQueue := rest })
  | popControl (g : Gate) (p : ControlOut) (rest : List ControlOut) (front : g.management.controlQueue = p :: rest) :
      GateStep .traffic g (g.modManagement fun m => { m with controlQueue := rest })
  | popEgress (g : Gate) (b : BranchNo) (r : HostRequest) (rest : List HostRequest)
      (front : (g.branch b).egressRequests = r :: rest) :
      GateStep .traffic g (g.modBranch b fun x => { x with egressRequests := rest })
  -- links
  | clearBranch (g : Gate) (b : BranchNo) :
      GateStep .down g ((((g.clearStreams b).dropHeads b).modBranch b Branch.clear).markOrphans b)
  | oweBranch (g : Gate) (b : BranchNo) : GateStep .traffic g (g.oweBranch b)
  | train (g : Gate) (l : LinkId) (down : (g.link l).state = .down) : GateStep .traffic g (g.modLink l LinkRecord.train)
  | goUp (g : Gate) (l : LinkId) (x : Credits) (training : (g.link l).state = .training)
      (fits : ∀ c, x.get c ≤ Config.maxHeld) : GateStep .traffic g (g.modLink l (·.goUp x))
  | trunkDown (g : Gate) : GateStep .traffic g (g.modLink .trunk LinkRecord.trunkDown)
  | oweReset (g : Gate) (b : BranchNo) :
      GateStep .traffic g (g.modLink (.branch b) fun r => { r with resetOwed := true })
  | returnSpent (g : Gate) (l : LinkId) (c : PacketClass) : GateStep .traffic g (g.modLink l (·.returnSpent c))
  | credit (g : Gate) (l : LinkId) (c : PacketClass) (n : Nat) (partner : (g.link l).partnerInit = true)
      (fits : (g.link l).held.get c + n ≤ Config.maxHeld) :
      GateStep .traffic g (g.modLink l fun r => { r with held := r.held.set c (r.held.get c + n) })
  | sendCredit (g : Gate) (l : LinkId) (c : PacketClass) (rest : List PacketClass)
      (due : (g.link l).creditOrder = c :: rest) (up : (g.link l).state = .up) :
      GateStep .traffic g (g.modLink l fun r =>
        { r with
          granted := r.granted.set c (r.granted.get c + r.freed.get c)
          freed := r.freed.set c 0
          creditOrder := rest })
  -- arrivals
  | arriveRequest (g : Gate) (s : StreamId) (r : Request)
      (spent : 0 < (g.link (.branch (branchOf s))).granted.get .request) :
      GateStep .traffic g ((g.modLink (.branch (branchOf s)) (·.useGranted .request)).modStream s fun x =>
        { x with queue := x.queue ++ [r] })
  | arriveBranchAnswer (g : Gate) (b : BranchNo) (a : Answer) (spent : 0 < (g.link (.branch b)).granted.get .answer) :
      GateStep .traffic g ((g.modLink (.branch b) (·.useGranted .answer)).modBranch b fun x =>
        { x with ingressAnswers := x.ingressAnswers ++ [a] })
  | arriveTrunkRequest (g : Gate) (r : HostRequest) (spent : 0 < (g.link .trunk).granted.get .request) :
      GateStep .traffic g ((g.modLink .trunk (·.useGranted .request)).modTrunk fun t =>
        { t with ingressRequests := t.ingressRequests ++ [r] })
  | arriveTrunkAnswer (g : Gate) (a : Answer) (spent : 0 < (g.link .trunk).granted.get .answer) :
      GateStep .traffic g ((g.modLink .trunk (·.useGranted .answer)).modTrunk fun t =>
        { t with ingressAnswers := t.ingressAnswers ++ [a] })
  | takeTrunkAnswer (g : Gate) (a : Answer) (rest : List Answer) (front : g.trunk.ingressAnswers = a :: rest) :
      GateStep .traffic g ((g.modTrunk fun t => { t with ingressAnswers := rest }).freeCredit .trunk .answer)
  | arriveControl (g : Gate) (p : ControlPacket) (spent : 0 < (g.link .trunk).granted.get .control) :
      GateStep .traffic g ((g.modLink .trunk (·.useGranted .control)).modTrunk fun t =>
        { t with ingressControl := t.ingressControl ++ [p] })
  -- management
  | takeControl (g : Gate) (p : ControlPacket) (rest : List ControlPacket)
      (front : g.trunk.ingressControl = p :: rest) : GateStep .traffic g (g.takeControl rest)
  | reply (g : Gate) (node tag : Byte) (status : ReplyStatus) (code : Byte) (results : List Byte)
      (room : 0 < g.management.openPlaces) : GateStep .traffic g (g.queueReply node tag status code results)
  | notice (g : Gate) : GateStep .traffic g g.placeNotice
  | takeRecords (g : Gate) (n : Nat) : GateStep .traffic g (g.takeRecords n)
  | claim (g : Gate) (node : Byte) : GateStep .claim g (g.modManagement fun m => { m with manager := some node })
  | release (g : Gate) :
      GateStep .claim g (g.modManagement fun m =>
        { m with manager := none, faultsOwed := false, branchOwed := Vector.replicate 4 false })
  -- configuration
  | exponent (g : Gate) (k : Exponent) : GateStep .config g { g with exponent := k }
  | policy (g : Gate) (p : Bool) : GateStep .config g { g with log := { g.log with policy := p } }
  | window (g : Gate) (i : WindowNo) (w : Window) : GateStep .config g (g.setWindow i w)
  -- contexts
  | setup (g : Gate) (c : ContextNo) (root : Nat) (length : Nat) (report : Bool)
      (state : (g.context c).state = .free ∨ (g.context c).state = .ready) (idle : (g.context c).pending = none)
      (fits : mapFits root length = true) :
      GateStep .context g (g.setupContext c (BitVec.ofNat 48 root) length report)
  | openContext (g : Gate) (c : ContextNo) (ready : (g.context c).state = .ready) (idle : (g.context c).pending = none) :
      GateStep .context g (g.modContext c fun x => { x with state := .active })
  | raiseEpoch (g : Gate) (c : ContextNo) : GateStep .context g (g.raiseEpoch c)
  | removeCached (g : Gate) (c : ContextNo) (inRange : Nat → Bool) : GateStep .context g (g.removeCached c inRange)
  | freeReady (g : Gate) (c : ContextNo) (ready : (g.context c).state = .ready) (idle : (g.context c).pending = none) :
      GateStep .context g (g.modContext c fun x => { x with state := .free })
  | pendRetire (g : Gate) (c : ContextNo) (tag node : Byte) (active : (g.context c).state = .active)
      (idle : (g.context c).pending = none) (uncached : ∀ e ∈ g.cache, e.context ≠ c)
      (room : 0 < g.management.openPlaces) (few : g.management.pendingList.length < Config.pendingCommands) :
      GateStep .context g ((g.modContext c fun x => { x with state := .draining }).setPending c .retire tag node)
  | retireNow (g : Gate) (c : ContextNo) (tag node : Byte) (active : (g.context c).state = .active)
      (idle : (g.context c).pending = none) (uncached : ∀ e ∈ g.cache, e.context ≠ c) (drained : g.retireDrained c = true)
      (room : 0 < g.management.openPlaces) :
      GateStep .bind g ((g.modContext c fun x => { x with state := .draining }).completeRetire c tag node)
  | retireJudged (g : Gate) (c : ContextNo) (tag node : Byte) (pending : (g.context c).pending = some ⟨.retire, tag, node⟩)
      (drained : g.retireDrained c = true) : GateStep .bind g (g.completeRetire c tag node)
  | pendInvalidate (g : Gate) (c : ContextNo) (first count : Nat) (tag node : Byte) (active : (g.context c).state = .active)
      (idle : (g.context c).pending = none) (room : 0 < g.management.openPlaces)
      (few : g.management.pendingList.length < Config.pendingCommands) :
      GateStep .context g (g.setPending c (.invalidate first count) tag node)
  | invalidateNow (g : Gate) (c : ContextNo) (tag node : Byte) (idle : (g.context c).pending = none)
      (room : 0 < g.management.openPlaces) : GateStep .context g (g.completeInvalidate c tag node)
  | invalidateJudged (g : Gate) (c : ContextNo) (first count : Nat) (tag node : Byte)
      (pending : (g.context c).pending = some ⟨.invalidate first count, tag, node⟩) :
      GateStep .inner g (g.completeInvalidate c tag node)
  -- bindings
  | unbind (g : Gate) (c : ContextNo) : GateStep .bind g (g.unbindContext c)
  | rebind (g : Gate) (s : StreamId) (mode : Mode) : GateStep .rebind g (g.bindStream s mode)
  -- whole-gate resets
  | powerOn (g : Gate) (straps : Byte) : GateStep .reset g { Gate.reset straps .power with sent := g.sent }
  | trunkReset (g : Gate) (x : Credits) (fits : ∀ c, x.get c ≤ Config.maxHeld) : GateStep .reset g (g.trunkReset x)

/-- The gate `g'` comes from `g` by acts of these kinds. -/
inductive Reaches (K : List Kind) (g : Gate) : Gate → Prop where
  | refl : Reaches K g g
  | act {g' g'' : Gate} {k : Kind} (before : Reaches K g g') (step : GateStep k g' g'') (mem : k ∈ K) : Reaches K g g''

theorem GateStep.reaches {k : Kind} {K : List Kind} {g g' : Gate} (h : GateStep k g g') (mem : k ∈ K := by decide) :
    Reaches K g g' := .act .refl h mem

theorem Reaches.trans {K : List Kind} {g g' g'' : Gate} (h : Reaches K g g') (h' : Reaches K g' g'') : Reaches K g g'' := by
  induction h' with
  | refl => exact h
  | act _ step mem ih => exact .act ih step mem

theorem Reaches.mono {K L : List Kind} {g g' : Gate} (h : Reaches K g g') (sub : ∀ k ∈ K, k ∈ L) : Reaches L g g' := by
  induction h with
  | refl => exact .refl
  | act _ step mem ih => exact .act ih step (sub _ mem)

/-- An invariant that each act keeps is kept by every sequence of acts. -/
theorem Reaches.keeps {K : List Kind} {g g' : Gate} (h : Reaches K g g') (P : Gate → Prop)
    (act : ∀ k ∈ K, ∀ a b, GateStep k a b → P a → P b) (start : P g) : P g' := by
  induction h with
  | refl => exact start
  | act _ step mem ih => exact act _ mem _ _ step ih

end Sys2Proof.Machine
end

