-- ==== Sys2Proof/Laws/Reach.lean ====
section
/-! SUPPORT. Every shared operation, and then every command, as a sequence of the acts of Laws/Steps.lean. -/

namespace Sys2Proof.Machine

-- One proof after the other: side by side, the many short proofs of this file hold more threads than a check allows.
set_option Elab.async false

/-- The kinds of acts inside the gate. -/
abbrev inner : List Kind := [.inner, .head]

/-- The kinds of acts of traffic that touches no head. -/
abbrev traffic : List Kind := [.inner, .traffic]

/-- The kinds of acts of traffic that moves heads. -/
abbrev moving : List Kind := [.inner, .head, .traffic]

/-- The kinds of acts of the judging of a drain. -/
abbrev judging : List Kind := [.inner, .bind]

/-- The kinds of acts of the end of a walk. -/
abbrev draining : List Kind := [.inner, .head, .bind]

/-- The kinds of acts of an answer or an expiry of a request entry. -/
abbrev settling : List Kind := [.inner, .head, .settle, .bind]

/-- The kinds of acts of a link that may go DOWN. -/
abbrev downing : List Kind := [.inner, .traffic, .down]

/-- The kinds of acts of the departure arbiter. -/
abbrev granting : List Kind := [.inner, .head, .traffic, .grant]

variable {K : List Kind} {g g' : Gate}

theorem Reaches.widen {g₀ : Gate} (h : Reaches inner g₀ g) : Reaches draining g₀ g := h.mono (by decide)

theorem Reaches.outer {g₀ : Gate} (h : Reaches inner g₀ g) : Reaches moving g₀ g := h.mono (by decide)

/-- An update of a stream that keeps its queue and its binding. -/
theorem reaches_stream (s : StreamId) (f : Stream → Stream)
    (keeps : ∀ x, (f x).queue = x.queue ∧ (f x).mode = x.mode ∧ (f x).generation = x.generation) :
    Reaches inner g (g.modStream s f) := (GateStep.stream g s f keeps).reaches

/-- An update of a branch port that keeps its link, its ingress answer buffer and its request egress queue. -/
theorem reaches_port (b : BranchNo) (f : Branch → Branch)
    (keeps : ∀ x, (f x).link = x.link ∧ (f x).ingressAnswers = x.ingressAnswers ∧
      (f x).egressRequests = x.egressRequests) : Reaches inner g (g.modBranch b f) :=
  (GateStep.port g b f keeps).reaches

theorem Reaches.thenInner {g₀ : Gate} (h : Reaches K g₀ g) (h' : Reaches inner g g') (mem : .inner ∈ K := by decide)
    (mem' : .head ∈ K := by decide) : Reaches K g₀ g' :=
  h.trans (h'.mono fun k hk => by
    simp only [inner, List.mem_cons, List.not_mem_nil, or_false] at hk
    rcases hk with rfl | rfl
    · exact mem
    · exact mem')

/-! ### Heads -/

theorem reaches_setHead (s : StreamId) (h : HeadState) : Reaches inner g (g.setHead s h) :=
  (GateStep.stream g s _ (by intro; exact ⟨rfl, rfl, rfl⟩)).reaches

theorem reaches_setSlot (b : BranchNo) (k : SlotNo) (x : AnswerSlot) : Reaches inner g (g.setSlot b k x) :=
  (GateStep.port g b _ (by intro; exact ⟨rfl, rfl, rfl⟩)).reaches

theorem reaches_countBranch (b : BranchNo) (f : BranchCounters → BranchCounters) (mem : .inner ∈ K := by decide) :
    Reaches K g (g.countBranch b f) := (GateStep.countBranch g b f).reaches mem

theorem reaches_count (c : ContextNo) (f : ContextCounters → ContextCounters) (mem : .inner ∈ K := by decide) :
    Reaches K g (g.count c f) := (GateStep.count g c f).reaches mem

theorem reaches_reserve (s : StreamId) (tag : Byte) (k : SlotNo) : Reaches inner g (g.reserve s tag k) :=
  (reaches_setSlot _ _ _).trans (GateStep.stream _ s _ (by intro; exact ⟨rfl, rfl, rfl⟩)).reaches

theorem reaches_placeAnswerIn (s : StreamId) (slot : Option SlotNo) (tag : Byte) (status : AnswerStatus)
    (payload : List Byte) : Reaches inner g (g.placeAnswerIn s slot tag status payload) := by
  cases slot with
  | none => exact .refl
  | some k =>
    unfold Gate.placeAnswerIn Gate.placeAnswer
    refine (reaches_setSlot _ _ _).trans (reaches_port _ _ ?_)
    exact fun _ => ⟨rfl, rfl, rfl⟩

/-- The queues of the streams are the same. -/
def SameQueues (g g' : Gate) : Prop := ∀ s, (g'.stream s).queue = (g.stream s).queue

@[simp] theorem Gate.offerFault_stream (f : FaultReport) (s : StreamId) : (g.offerFault f).stream s = g.stream s := by
  simp [Gate.stream]

@[simp] theorem Gate.placeAnswerIn_stream (s t : StreamId) (slot : Option SlotNo) (tag : Byte) (status : AnswerStatus)
    (payload : List Byte) : (g.placeAnswerIn s slot tag status payload).stream t = g.stream t := by
  cases slot <;> rfl

theorem Gate.stream_setHead (s t : StreamId) (h : HeadState) :
    (g.setHead s h).stream t = if s = t then { g.stream s with head := some h } else g.stream t :=
  g.stream_modStream s t _

theorem Gate.queue_setHead (s : StreamId) (h : HeadState) : SameQueues g (g.setHead s h) := by
  intro t; rw [Gate.stream_setHead]; split
  · subst_vars; rfl
  · rfl

theorem SameQueues.trans {a b c : Gate} (h : SameQueues a b) (h' : SameQueues b c) : SameQueues a c :=
  fun s => (h' s).trans (h s)

/-- Joining a walk: the same walk with one more waiter. -/
theorem reaches_joinWalk (s : StreamId) (i : WalkNo) : Reaches inner g (g.joinWalk s i) := by
  unfold Gate.joinWalk
  split
  · rename_i w hw
    refine Reaches.thenInner (GateStep.slots g _ fun j => ?_).reaches (reaches_setHead _ _)
    show (g.walk j).Follows ((g.setWalk i (.walking { w with waiters := w.waiters ++ [⟨s, (g.stream s).generation⟩] })).walk j)
    rw [Gate.walk_setWalk]
    split
    · subst_vars; exact ⟨w, hw, rfl, rfl, rfl, rfl⟩
    · cases h : g.walk j <;> simp [WalkSlot.Follows]
  · exact .refl

theorem lowest_none {α : Type} {n : Nat} {v : Vector α n} {p : α → Bool} (h : lowest v p = none) (i : Fin n) :
    p v[i.val] = false := by
  have := List.find?_eq_none.mp h i (List.mem_finRange i)
  simpa using this

theorem lowest_some {α : Type} {n : Nat} {v : Vector α n} {p : α → Bool} {i : Fin n} (h : lowest v p = some i) :
    p v[i.val] = true := by
  simpa using List.find?_some h

/-- What a miss does, for a page inside the map of an ACTIVE context (R22). -/
theorem reaches_handleMiss (s : StreamId) (c : ContextNo) (page : Nat) (active : (g.context c).state = .active)
    (inMap : page < (g.context c).mapLength) : Reaches inner g (g.handleMiss s c page) := by
  unfold Gate.handleMiss
  split
  · exact reaches_joinWalk _ _
  · rename_i none
    split
    · rename_i i _
      unfold Gate.startWalk
      dsimp only
      refine Reaches.trans (Reaches.trans ?_ (reaches_setHead _ _)) (reaches_count _ _)
      refine (GateStep.startWalk g i _ active inMap rfl ?_).reaches
      exact fun j => lowest_none none j
    · exact (GateStep.waiting g _).reaches.trans (reaches_setHead _ _)

theorem queue_handleMiss (s : StreamId) (c : ContextNo) (page : Nat) : SameQueues g (g.handleMiss s c page) := by
  unfold Gate.handleMiss Gate.joinWalk Gate.startWalk
  repeat' split
  all_goals first
    | exact fun t => Gate.queue_setHead (g := g.setWalk _ _) s _ t
    | exact fun t => Gate.queue_setHead (g := { g with walkWaiting := _ }) s _ t
    | exact fun _ => rfl

/-- The gate a check of a head leaves. -/
def HeadOutcome.gate : HeadOutcome → Gate
  | .stays g => g
  | .refused g _ => g

theorem reaches_lookup (s : StreamId) (c : ContextNo) (r : Request) : Reaches inner g (g.lookup s c r).gate := by
  have counted (c : ContextNo) (f : ContextCounters → ContextCounters) : (g.count c f).context c =
      { g.context c with counters := f (g.context c).counters } := by
    simp [Gate.count, Gate.context_modContext]
  unfold Gate.lookup
  dsimp only
  split
  · exact .refl
  split
  · exact .refl
  split
  · exact .refl
  rename_i active _ inMap
  split
  · split
    · exact ((reaches_count _ _).trans (reaches_count _ _)).trans (reaches_setHead _ _)
    · unfold HeadOutcome.gate
      exact (reaches_count _ _).trans (reaches_count _ _)
  · refine (reaches_count _ _).trans (reaches_handleMiss _ _ _ ?_ ?_)
    · rw [counted]; simpa using active
    · rw [counted]; simpa using inMap

theorem queue_lookup (s : StreamId) (c : ContextNo) (r : Request) : SameQueues g (g.lookup s c r).gate := by
  unfold Gate.lookup
  dsimp only
  repeat' split
  all_goals first
    | exact fun _ => rfl
    | exact fun t => Gate.queue_setHead (g := (g.count _ _).count _ _) s _ t
    | exact fun t => queue_handleMiss (g := g.count _ _) s _ _ t

theorem reaches_checkHead (s : StreamId) (r : Request) : Reaches inner g (g.checkHead s r).gate := by
  unfold Gate.checkHead
  split
  · exact .refl
  · exact reaches_setHead _ _
  · exact reaches_lookup _ _ _

theorem queue_checkHead (s : StreamId) (r : Request) : SameQueues g (g.checkHead s r).gate := by
  unfold Gate.checkHead
  split
  · exact fun _ => rfl
  · exact Gate.queue_setHead _ _
  · exact queue_lookup _ _ _

/-- A refused head leaves its queue, whatever is done for it before (R62). -/
theorem reaches_refuseHead (s : StreamId) (r : Request) (rest : List Request) (f : FaultReport)
    (queued : (g.stream s).queue = r :: rest) : Reaches inner g (g.refuseHead s r rest f) := by
  unfold Gate.refuseHead
  refine Reaches.trans ?_ (reaches_countBranch _ _)
  split
  · exact (GateStep.fault g f).reaches.trans (GateStep.leave _ s r rest (by simpa using queued)).reaches
  · exact (reaches_placeAnswerIn _ _ _ _ _).trans
      ((GateStep.fault _ f).reaches.trans (GateStep.leave _ s r rest (by simpa using queued)).reaches)

theorem stream_leaveQueue (s t : StreamId) (rest : List Request) :
    (g.leaveQueue s rest).stream t =
      if s = t then { g.stream s with queue := rest, head := none, slot := none } else g.stream t := by
  simp only [Gate.leaveQueue, Gate.freeCredit, Gate.modLink_branch, Gate.stream_modBranch, Gate.stream_modStream]

theorem queue_refuseHead (s : StreamId) (r : Request) (rest : List Request) (f : FaultReport) :
    ((g.refuseHead s r rest f).stream s).queue = rest := by
  unfold Gate.refuseHead
  dsimp only
  simp [stream_leaveQueue]

/-- The gate an admission leaves. -/
def Admission.gate : Admission → Gate
  | .waits g => g
  | .admitted g => g

theorem reaches_admitHead (s : StreamId) (r : Request) : Reaches inner g (g.admitHead s r).gate := by
  unfold Gate.admitHead
  dsimp only
  split
  · exact reaches_setHead _ _
  · split
    · exact (reaches_reserve _ _ _).trans (reaches_setHead _ _)
    · unfold Admission.gate
      refine Reaches.trans (reaches_port _ _ ?_) (reaches_setHead _ _)
      exact fun _ => ⟨rfl, rfl, rfl⟩

theorem queue_reserve (s : StreamId) (tag : Byte) (k : SlotNo) : SameQueues g (g.reserve s tag k) := by
  intro t; simp only [Gate.reserve, Gate.stream_modStream, Gate.setSlot, Gate.stream_modBranch]; split <;> simp_all

theorem queue_admitHead (s : StreamId) (r : Request) : SameQueues g (g.admitHead s r).gate := by
  unfold Gate.admitHead
  dsimp only
  split
  · exact Gate.queue_setHead _ _
  · split
    · exact (queue_reserve _ _ _).trans (Gate.queue_setHead _ _)
    · exact fun t => Gate.queue_setHead (g := g.modBranch _ _) s _ t

/-- The heads of a stream that begin one after the other (R52, R54). -/
theorem reaches_startHeads (s : StreamId) (queue : List Request) (g : Gate) (queued : (g.stream s).queue = queue) :
    Reaches inner g (Gate.startHeads s queue g) := by
  induction queue generalizing g with
  | nil => exact .refl
  | cons r rest ih =>
    unfold Gate.startHeads
    have admitted := reaches_admitHead (g := g) s r
    have same := queue_admitHead (g := g) s r
    split
    · rename_i h; rw [h] at admitted; exact admitted
    · rename_i g₁ h
      rw [h] at admitted same
      have checked := reaches_checkHead (g := g₁) s r
      have same' := queue_checkHead (g := g₁) s r
      split
      · rename_i h; rw [h] at checked; exact admitted.trans checked
      · rename_i g₂ f h
        rw [h] at checked same'
        have here : (g₂.stream s).queue = r :: rest := ((same' s).trans (same s)).trans queued
        exact admitted.trans (checked.trans ((reaches_refuseHead s r rest f here).trans (ih _ (queue_refuseHead s r rest f))))

theorem reaches_refuseAndGoOn (s : StreamId) (f : FaultReport) : Reaches inner g (g.refuseAndGoOn s f) := by
  unfold Gate.refuseAndGoOn
  split
  · exact .refl
  · rename_i r rest queued
    exact (reaches_refuseHead s r rest f queued).trans (reaches_startHeads _ _ _ (queue_refuseHead s r rest f))

theorem reaches_recheckHead (s : StreamId) : Reaches inner g (g.recheckHead s) := by
  unfold Gate.recheckHead
  split
  · exact .refl
  · rename_i r rest queued
    have checked := reaches_checkHead (g := g.setHead s .translating) s r
    have same := queue_checkHead (g := g.setHead s .translating) s r
    split
    · rename_i h; rw [h] at checked; exact (reaches_setHead _ _).trans checked
    · rename_i g₁ f h
      rw [h] at checked same
      exact (reaches_setHead _ _).trans (checked.trans (reaches_refuseAndGoOn _ _))

theorem reaches_serveSlotWait (b : BranchNo) (k : SlotNo) : Reaches inner g (g.serveSlotWait b k) := by
  unfold Gate.serveSlotWait
  split
  · exact .refl
  · dsimp only
    split
    · exact reaches_port _ _ fun _ => ⟨rfl, rfl, rfl⟩
    · refine Reaches.trans (Reaches.trans (reaches_port _ _ ?_) (reaches_reserve _ _ _)) (reaches_recheckHead _)
      exact fun _ => ⟨rfl, rfl, rfl⟩

theorem reaches_serveHeads (waiting : List StreamId) (g : Gate) : Reaches inner g (Gate.serveHeads waiting g) := by
  induction waiting generalizing g with
  | nil => exact .refl
  | cons s rest ih =>
    unfold Gate.serveHeads
    split
    · exact (GateStep.waiting g _).reaches.trans ((reaches_recheckHead _).trans (ih _))
    · exact .refl

theorem reaches_serveWaiting : Reaches inner g g.serveWaiting := reaches_serveHeads _ _

/-! ### Drains -/

theorem reaches_judgeRetire (c : ContextNo) : Reaches judging g (g.judgeRetire c) := by
  unfold Gate.judgeRetire
  split
  · rename_i pending
    split
    · rename_i drained
      exact (GateStep.retireJudged g c _ _ pending drained).reaches
    · exact .refl
  · exact .refl

theorem reaches_judgeInvalidate (c : ContextNo) (mem : .inner ∈ K := by decide) : Reaches K g (g.judgeInvalidate c) := by
  unfold Gate.judgeInvalidate
  split
  · rename_i pending
    split
    · exact (GateStep.invalidateJudged g c _ _ _ _ pending).reaches mem
    · exact .refl
  · exact .refl

theorem reaches_judgeDrain (c : ContextNo) : Reaches judging g (g.judgeDrain c) := by
  unfold Gate.judgeDrain
  split
  · exact reaches_judgeRetire c
  · exact reaches_judgeInvalidate c
  · exact .refl

/-! ### Walks -/

theorem follows_setWalk {i : WalkNo} {x : WalkSlot} (h : (g.walk i).Follows x) (j : WalkNo) :
    (g.walk j).Follows (g.setWalk i x).walks[j.val] := by
  show (g.walk j).Follows ((g.setWalk i x).walk j)
  rw [Gate.walk_setWalk]
  split
  · subst_vars; exact h
  · cases h : g.walk j <;> simp [WalkSlot.Follows]

theorem reaches_setWalk (i : WalkNo) (x : WalkSlot) (h : (g.walk i).Follows x := by trivial) : Reaches inner g (g.setWalk i x) :=
  (GateStep.slots g _ (follows_setWalk h)).reaches

theorem reaches_settleMatching (c : ContextNo) (result : WalkResult) (s : StreamId) :
    Reaches inner g (g.settleMatching c result s) := by
  unfold Gate.settleMatching
  repeat' split
  all_goals first
    | exact .refl
    | exact reaches_refuseAndGoOn _ _
    | exact reaches_setHead _ _

theorem reaches_settleWaiters (c : ContextNo) (result : WalkResult) (ws : List Waiter) (g : Gate) :
    Reaches inner g (Gate.settleWaiters c result ws g).1 := by
  induction ws generalizing g with
  | nil => exact .refl
  | cons w ws ih =>
    unfold Gate.settleWaiters
    split
    · exact (reaches_setHead _ _).trans (ih _)
    · exact (reaches_settleMatching _ _ _).trans (ih _)

theorem reaches_recheckAll (l : List StreamId) (g : Gate) : Reaches inner g (Gate.recheckAll l g) := by
  induction l generalizing g with
  | nil => exact .refl
  | cons s rest ih => exact (reaches_recheckHead _).trans (ih _)

/-- A result that is current comes with an ACTIVE context (R35). -/
def WalkResult.Fits (g : Gate) (walk : Walk) : WalkResult → Prop
  | .current _ => (g.context walk.context).state = .active
  | _ => True

theorem reaches_settleWalk (i : WalkNo) (walk : Walk) (result : WalkResult) (fits : result.Fits g walk) :
    Reaches inner g (g.settleWalk i walk result).1 := by
  unfold Gate.settleWalk
  refine Reaches.trans ?_ (reaches_settleWaiters _ _ _ _)
  refine Reaches.trans ?_ (reaches_setWalk _ _ ?_)
  · unfold Gate.installResult
    split
    · split
      · exact (GateStep.install g _ _ _ fits).reaches
      · exact .refl
    · exact .refl
    · exact .refl
  · trivial

theorem reaches_endWalk (i : WalkNo) (walk : Walk) (result : WalkResult) (fits : result.Fits g walk) :
    Reaches draining g (g.endWalk i walk result) := by
  unfold Gate.endWalk
  dsimp only
  refine Reaches.thenInner (Reaches.thenInner (Reaches.trans ?_ ((reaches_judgeDrain _).mono (by decide)))
    reaches_serveWaiting) (reaches_recheckAll _ _)
  exact ((reaches_settleWalk i walk result fits).trans (reaches_setWalk _ _)).widen

theorem reaches_expireWalk (i : WalkNo) (walk : Walk) : Reaches draining g (g.expireWalk i walk) := by
  unfold Gate.expireWalk
  dsimp only
  refine Reaches.thenInner (Reaches.trans ?_ ((reaches_judgeDrain _).mono (by decide))) (reaches_recheckAll _ _)
  exact (reaches_settleWalk i walk (.failed .timeout) trivial).widen

theorem reaches_countGate (f : GateCounters → GateCounters) (mem : .inner ∈ K := by decide) :
    Reaches K g (g.countGate f) := (GateStep.gateCount g f).reaches mem

theorem walkResult_fits {walk : Walk} {a : Answer} {result : WalkResult} (h : g.walkResult walk a = some result) :
    result.Fits g walk := by
  unfold Gate.walkResult at h
  repeat' split at h
  all_goals first
    | (cases h; done)
    | (injection h with h; subst h; first | trivial | (rename_i current; exact current.2))

theorem reaches_takeWalkAnswer (i : WalkNo) (a : Answer) : Reaches draining g (g.takeWalkAnswer i a) := by
  unfold Gate.takeWalkAnswer
  split
  · exact reaches_countGate _
  · exact ((reaches_setWalk _ _).trans ((reaches_countGate _).trans reaches_serveWaiting)).widen
  · split
    · exact reaches_countGate _
    · split
      · exact reaches_countGate _
      · rename_i h; exact reaches_endWalk _ _ _ (walkResult_fits h)

/-! ### The outstanding table -/

theorem Entry.follows_refl (e : Entry) : e.Follows e := by
  cases e with
  | free => trivial
  | late k => exact .inl rfl
  | live e => exact ⟨e, rfl, .inl rfl⟩

theorem Entry.Follows.trans {a b c : Entry} (h : a.Follows b) (h' : b.Follows c) : a.Follows c := by
  cases c with
  | free => trivial
  | late k =>
    rcases h' with rfl | ⟨e, rfl⟩
    · exact h
    · obtain ⟨e', rfl, _⟩ := h; exact .inr ⟨e', rfl⟩
  | live e =>
    obtain ⟨e', rfl, same⟩ := h'
    obtain ⟨e'', rfl, same'⟩ := h
    refine ⟨e'', rfl, ?_⟩
    rcases same with rfl | rfl <;> rcases same' with rfl | rfl <;> simp

theorem reaches_setEntry (t : RequestTag) (e : Entry) (follows : (g.entry t).Follows e := by trivial) :
    Reaches [.settle] g (g.setEntry t e) := by
  refine (GateStep.entries g _ fun u => ?_).reaches
  have := g.entry_setEntry t u e
  rw [Gate.entry] at this
  rw [show (g.entries.set t.val e)[u.val] = _ from this]
  split
  · subst_vars; exact follows
  · exact Entry.follows_refl _

theorem entries_answerEntry (e : LiveEntry) (status : AnswerStatus) (payload : List Byte) :
    (g.answerEntry e status payload).entries = g.entries := by
  unfold Gate.answerEntry Gate.placeAnswerIn
  repeat' split
  all_goals rfl

theorem entries_countEntry (e : LiveEntry) (f : ContextCounters → ContextCounters) :
    (g.countEntry e f).entries = g.entries := by
  unfold Gate.countEntry; split <;> rfl

theorem reaches_answerEntry (e : LiveEntry) (status : AnswerStatus) (payload : List Byte) :
    Reaches inner g (g.answerEntry e status payload) := by
  unfold Gate.answerEntry
  split
  · exact .refl
  · exact reaches_placeAnswerIn _ _ _ _ _

theorem reaches_countEntry (e : LiveEntry) (f : ContextCounters → ContextCounters) :
    Reaches inner g (g.countEntry e f) := by
  unfold Gate.countEntry
  split
  · exact .refl
  · exact reaches_count _ _

theorem reaches_reportLeft (e : LiveEntry) : Reaches judging g (g.reportLeft e) := by
  unfold Gate.reportLeft
  split
  · exact .refl
  · exact reaches_judgeDrain _

theorem reaches_noteCorrupt (e : LiveEntry) (status : AnswerStatus) : Reaches inner g (g.noteCorrupt e status) := by
  unfold Gate.noteCorrupt
  split
  · exact (reaches_countEntry _ _).trans (GateStep.fault _ _).reaches
  · exact .refl

theorem reaches_settleEntry (t : RequestTag) (e : LiveEntry) (a : Answer) : Reaches settling g (g.settleEntry t e a) := by
  unfold Gate.settleEntry
  refine Reaches.trans ?_ ((reaches_reportLeft _).mono (by decide))
  refine Reaches.trans (Reaches.mono (reaches_setEntry t .free) (by decide)) ?_
  exact Reaches.mono (K := inner) ((reaches_answerEntry _ _ _).trans (reaches_noteCorrupt _ _)) (by decide)

theorem reaches_expireEntry (t : RequestTag) (e : LiveEntry) (live : g.entry t = .live e) :
    Reaches settling g (g.expireEntry t e) := by
  unfold Gate.expireEntry
  dsimp only
  refine Reaches.trans ?_ ((reaches_reportLeft _).mono (by decide))
  refine Reaches.trans (Reaches.mono (K := inner) (Reaches.trans ?_ (GateStep.fault _ _).reaches) (by decide))
    (Reaches.mono (reaches_setEntry _ _ (.inr ⟨e, ?_⟩)) (by decide))
  · exact (reaches_answerEntry _ _ _).trans (reaches_countEntry _ _)
  · unfold Gate.entry at live ⊢
    simp only [Gate.offerFault_entries, entries_countEntry, entries_answerEntry, live]

theorem reaches_takeAnswer (a : Answer) : Reaches settling g (g.takeAnswer a) := by
  have counted (g : Gate) (f : GateCounters → GateCounters) : Reaches settling g (g.countGate f) := reaches_countGate f
  unfold Gate.takeAnswer
  split
  · exact counted _ _
  split
  · unfold Gate.takeEntryAnswer
    split
    · exact counted _ _
    · exact Reaches.trans ((reaches_setEntry _ _).mono (by decide)) (counted _ _)
    · split
      · exact reaches_settleEntry _ _ _
      · exact counted _ _
  · exact (reaches_takeWalkAnswer _ _).mono (by decide)

/-! ### The host path -/

theorem reaches_trunkPort (f : TrunkPort → TrunkPort)
    (keeps : ∀ x, (f x).link = x.link ∧ (f x).ingressRequests = x.ingressRequests ∧
      (f x).ingressAnswers = x.ingressAnswers ∧ (f x).ingressControl = x.ingressControl ∧
      (f x).answerQueue = x.answerQueue) : Reaches traffic g (g.modTrunk f) :=
  (GateStep.trunkPort g f keeps).reaches

theorem reaches_holdHost (o : HostOutcome) : Reaches traffic g (g.holdHost o) :=
  reaches_trunkPort _ fun _ => ⟨rfl, rfl, rfl, rfl, rfl⟩

theorem reaches_offerHost : Reaches traffic g g.offerHost := by
  unfold Gate.offerHost
  split
  · exact .refl
  · rename_i r rest front
    split
    · split
      · rename_i room
        exact (GateStep.takeHost g r rest front).reaches.trans (GateStep.forward (g.takeHost rest) _ _ _ room).reaches
      · exact reaches_holdHost _
    · split
      · exact (GateStep.takeHost g r rest front).reaches.trans (reaches_countGate _)
      · exact reaches_holdHost _

theorem reaches_offerHeldAgain : Reaches traffic g g.offerHeldAgain := by
  unfold Gate.offerHeldAgain
  split
  · exact reaches_offerHost
  · exact .refl

theorem answerQueue_offerHost : g.offerHost.trunk.answerQueue = g.trunk.answerQueue := by
  unfold Gate.offerHost
  repeat' split
  all_goals rfl

theorem reaches_grantPlace (sources : List AnswerSource) (g : Gate)
    (room : g.trunk.answerQueue.length < Config.answerPlaces) : Reaches traffic g (Gate.grantPlace sources g) := by
  induction sources generalizing g with
  | nil => exact .refl
  | cons source rest ih =>
    cases source with
    | trunk =>
      unfold Gate.grantPlace
      split
      · rename_i r more _ front
        split
        · refine Reaches.trans ?_ (GateStep.placeAnswer ((g.takeHost more).countHostRefused) _ _ room).reaches
          exact (GateStep.takeHost g r more front).reaches.trans (reaches_countGate _)
        · exact reaches_offerHost.trans (ih _ (by rw [answerQueue_offerHost]; exact room))
      · exact ih _ room
    | branch b =>
      unfold Gate.grantPlace
      split
      · exact ih _ room
      · rename_i front
        refine Reaches.trans (GateStep.takeBranchAnswer g b _ _ front).reaches (GateStep.placeAnswer _ _ _ ?_).reaches
        exact room

/-! ### Departure and the transmitters -/

theorem reaches_sendTrunk (c : PacketClass) (bytes : List Byte) : Reaches traffic g (g.sendTrunk c bytes) := by
  refine Reaches.trans (GateStep.emit g .trunk (.packet bytes)).reaches
    (Reaches.trans (GateStep.useHeld _ .trunk c).reaches ?_)
  exact reaches_trunkPort (g := (g.emit .trunk (.packet bytes)).modLink .trunk (·.useHeld c))
    (fun t => { t with lastClass := c, requestPassed := false }) fun _ => ⟨rfl, rfl, rfl, rfl, rfl⟩

theorem reaches_sendBranch (b : BranchNo) (c : PacketClass) (q : BranchQueue) (bytes : List Byte) :
    Reaches traffic g (g.sendBranch b c q bytes) := by
  refine Reaches.trans (GateStep.emit g (.branch b) (.packet bytes)).reaches
    (Reaches.trans (GateStep.useHeld _ (.branch b) c).reaches ?_)
  have := (GateStep.lastSent ((g.emit (.branch b) (.packet bytes)).modLink (.branch b) (·.useHeld c)) b q).reaches
    (K := traffic)
  simpa [Gate.sendBranch, Gate.modBranch, Gate.branch] using this

theorem reaches_departWith (s : StreamId) (r : Request) (rest : List Request) (address : Addr) (tag : Byte)
    (queued : (g.stream s).queue = r :: rest) : Reaches moving g (g.departWith s r rest address tag) := by
  unfold Gate.departWith
  refine Reaches.trans ?_ (reaches_startHeads _ _ _ ?_).outer
  · refine Reaches.trans (Reaches.trans ((reaches_sendTrunk _ _).mono (by decide)) (GateStep.leave _ s r rest ?_).reaches)
      (reaches_countBranch _ _)
    simpa [Gate.sendTrunk] using queued
  · simp [Gate.countBranch, stream_leaveQueue]

theorem reaches_departHead (s : StreamId) (r : Request) (rest : List Request) (address : Addr) (stamp : Stamp)
    (queued : (g.stream s).queue = r :: rest) (current : g.stampIsCurrent s stamp = true) :
    Reaches granting g (g.departHead s r rest address stamp) := by
  unfold Gate.departHead
  split
  · exact (reaches_departWith _ _ _ _ _ queued).mono (by decide)
  · split
    · rename_i t free
      refine Reaches.trans (K := granting) (GateStep.depart g t (g.liveEntryOf s r stamp) ?_ rfl rfl ?_ ?_).reaches
        (Reaches.mono (L := granting) (reaches_departWith _ _ _ _ _ queued) (by decide))
      · simpa [Gate.entry] using lowest_some free
      · unfold Gate.stampIsCurrent at current
        rw [Bool.and_eq_true] at current
        simpa [Gate.liveEntryOf] using current.1
      · intro c epoch h
        simp only [Gate.liveEntryOf, Stamp.binding] at h
        split at h
        · cases h
        · rename_i mapped
          injection h with h1 h2
          subst h1 h2
          simp only [Gate.stampIsCurrent, mapped, Bool.and_eq_true, beq_iff_eq] at current
          exact current.2
    · exact .refl

theorem reaches_departWalk (i : WalkNo) : Reaches moving g (g.departWalk i) := by
  unfold Gate.departWalk
  split
  · rename_i w hw
    refine ((reaches_sendTrunk _ _).mono (by decide)).trans (Reaches.outer (reaches_setWalk _ _ ?_))
    exact ⟨w, hw, rfl, rfl, rfl, rfl⟩
  · exact .refl

/-- The gate a grant leaves. -/
def Grant.gate : Grant → Gate
  | .departed g => g
  | .sentBack g => g

theorem reaches_grant (n : Fin 68) : Reaches granting g (g.grant n).gate := by
  unfold Gate.grant
  dsimp only
  split
  · exact (GateStep.granted g n).reaches.trans ((reaches_departWalk _).mono (by decide))
  · split
    · rename_i queued
      split
      · rename_i current
        exact (GateStep.granted g n).reaches.trans (reaches_departHead _ _ _ _ _ queued current)
      · exact (GateStep.granted g n).reaches.trans ((reaches_recheckHead _).mono (by decide))
    · exact (GateStep.granted g n).reaches

theorem reaches_requestTurn (fuel : Nat) (sentBack : List (Fin 68)) (g : Gate) :
    Reaches granting g (Gate.requestTurn fuel sentBack g).1 := by
  induction fuel generalizing sentBack g with
  | zero => exact .refl
  | succ fuel ih =>
    unfold Gate.requestTurn
    split
    · exact .refl
    · rename_i n _
      have granted := reaches_grant (g := g) n
      split
      · rename_i h; rw [h] at granted; exact granted
      · rename_i h; rw [h] at granted; exact granted.trans (ih _ _)

/-! ### Links -/

theorem reaches_branchDown (b : BranchNo) : Reaches downing g (g.branchDown b) := by
  unfold Gate.branchDown
  refine Reaches.trans (Reaches.trans ?_ (GateStep.oweBranch _ b).reaches) (reaches_offerHeldAgain.mono (by decide))
  exact (GateStep.clearBranch g b).reaches

theorem reaches_linkDown (l : LinkId) : Reaches downing g (g.linkDown l) := by
  cases l with
  | trunk => exact (GateStep.trunkDown g).reaches
  | branch b => exact reaches_branchDown b

theorem reaches_linkChanged (l : LinkId) : Reaches traffic g (g.linkChanged l) := by
  cases l with
  | trunk => exact .refl
  | branch b => exact reaches_offerHeldAgain

theorem link_offerHost_state (l : LinkId) : (g.offerHost.link l).state = (g.link l).state := by
  unfold Gate.offerHost
  repeat' split
  all_goals
    cases l <;>
    simp [Gate.link, Gate.takeHost, Gate.freeCredit, Gate.forwardHost, Gate.holdHost, Gate.countHostRefused,
      Gate.branch_modBranch, LinkRecord.free] <;>
    first
      | done
      | (split <;> (try subst_vars) <;> rfl)

theorem link_offerHeldAgain_state (l : LinkId) : (g.offerHeldAgain.link l).state = (g.link l).state := by
  unfold Gate.offerHeldAgain
  split
  · exact link_offerHost_state l
  · rfl

theorem state_linkChanged (l m : LinkId) : ((g.linkChanged l).link m).state = (g.link m).state := by
  cases l with
  | trunk => rfl
  | branch b => exact link_offerHeldAgain_state m

theorem reaches_enterTraining (l : LinkId) (down : (g.link l).state = .down) : Reaches traffic g (g.enterTraining l) := by
  unfold Gate.enterTraining
  dsimp only
  refine Reaches.trans ?_ (reaches_linkChanged l)
  refine Reaches.trans (GateStep.emit g _ _).reaches (GateStep.train _ l ?_).reaches
  cases l <;> exact down

theorem state_enterTraining (l : LinkId) : ((g.enterTraining l).link l).state = .training := by
  unfold Gate.enterTraining
  rw [state_linkChanged, Gate.link_modLink]
  simp [LinkRecord.train]

theorem reaches_takeInit (l : LinkId) (x : Credits) (training : (g.link l).state = .training)
    (fits : ∀ c, x.get c ≤ Config.maxHeld) : Reaches traffic g (g.takeInit l x) := by
  unfold Gate.takeInit
  refine Reaches.trans (Reaches.trans (GateStep.goUp g l x training fits).reaches ?_) (reaches_linkChanged l)
  cases l with
  | trunk => exact .refl
  | branch b => exact (GateStep.oweBranch _ b).reaches

theorem state_linkDown (l : LinkId) : ((g.linkDown l).link l).state = .down := by
  cases l with
  | trunk => rfl
  | branch b =>
    show ((g.branchDown b).link (.branch b)).state = .down
    unfold Gate.branchDown
    rw [link_offerHeldAgain_state]
    have owe (g' : Gate) : (g'.oweBranch b).link (.branch b) = g'.link (.branch b) := by
      unfold Gate.oweBranch; split <;> rfl
    rw [owe]
    have cleared (g' : Gate) : (g'.modBranch b Branch.clear).branch b = (g'.branch b).clear := by
      simp [Gate.branch_modBranch]
    have same (g' : Gate) : (g'.markOrphans b).link (.branch b) = (g'.branch b).link := rfl
    rw [same, cleared]
    rfl

theorem reaches_restart (l : LinkId) (x : Credits) (fits : ∀ c, x.get c ≤ Config.maxHeld) :
    Reaches downing g (g.restart l x) := by
  unfold Gate.restart
  exact ((reaches_linkDown l).trans ((reaches_enterTraining l (state_linkDown l)).mono (by decide))).trans
    ((reaches_takeInit l x (state_enterTraining l) fits).mono (by decide))

theorem readInit_fits {l : LinkId} {body : List Byte} {p : InitPacket} (h : readInit l body = some p) :
    ∀ c, p.figures.get c ≤ Config.maxHeld := by
  unfold readInit at h
  split at h
  · dsimp only at h
    split at h
    · injection h with h; subst h
      intro c
      cases c <;> simp [Credits.get, Config.maxHeld] <;> omega
    · cases h
  · cases h

theorem reaches_discardMalformed (l : LinkId) (cls : Option PacketClass) (stream : Option StreamId) :
    Reaches traffic g (g.discardMalformed l cls stream) := by
  have returned : Reaches traffic g (match cls with | some c => g.modLink l (·.returnSpent c) | none => g) := by
    cases cls with
    | none => exact .refl
    | some c => exact (GateStep.returnSpent g l c).reaches
  unfold Gate.discardMalformed
  dsimp only
  split
  · exact returned.trans (reaches_countGate _)
  · exact (returned.trans (reaches_countBranch _ _)).trans (GateStep.fault _ _).reaches

theorem reaches_receiveInit (l : LinkId) (body : List Byte) : Reaches [.inner, .traffic, .down, .reset] g (g.receiveInit l body) := by
  unfold Gate.receiveInit
  split
  · exact .refl
  · rename_i notDown
    split
    · exact (reaches_discardMalformed _ _ _).mono (by decide)
    · rename_i p h
      split
      · exact (GateStep.trunkReset g _ (readInit_fits h)).reaches
      · split
        · exact (reaches_restart _ _ (readInit_fits h)).mono (by decide)
        · rename_i notUp
          refine (reaches_takeInit _ _ ?_ (readInit_fits h)).mono (by decide)
          revert notDown notUp
          cases (g.link l).state <;> simp

theorem reaches_receiveInit_branch (b : BranchNo) (body : List Byte) :
    Reaches downing g (g.receiveInit (.branch b) body) := by
  unfold Gate.receiveInit
  split
  · exact .refl
  · rename_i notDown
    split
    · exact (reaches_discardMalformed _ _ _).mono (by decide)
    · rename_i p h
      split
      · rename_i reset; exact absurd reset.1 (by simp)
      · split
        · exact reaches_restart _ _ (readInit_fits h)
        · rename_i notUp
          refine (reaches_takeInit _ _ ?_ (readInit_fits h)).mono (by decide)
          revert notDown notUp
          cases (g.link (.branch b)).state <;> simp

theorem reaches_receiveCredit (l : LinkId) (body : List Byte) : Reaches traffic g (g.receiveCredit l body) := by
  unfold Gate.receiveCredit
  split
  · exact .refl
  split
  · split
    · rename_i ok; exact (GateStep.credit g l _ _ ok.1 ok.2).reaches
    · exact reaches_discardMalformed _ _ _
  · exact reaches_discardMalformed _ _ _

/-- A class packet that arrives, where its joining is a sequence of acts. -/
theorem reaches_arrive {α : Type} (l : LinkId) (c : PacketClass) (packet : Option α) (stream : Option StreamId)
    (join : α → Gate → Gate) (wide : ∀ k ∈ traffic, k ∈ K)
    (joined : ∀ p, packet = some p → 0 < (g.link l).granted.get c → Reaches K g (join p (g.modLink l (·.useGranted c)))) :
    Reaches K g (g.arrive l c packet stream join) := by
  have discard : Reaches K g (g.discardMalformed l (some c) stream) :=
    (reaches_discardMalformed l _ _).mono wide
  unfold Gate.arrive
  split
  · exact .refl
  split
  · rename_i p
    split
    · rename_i ok; exact joined p rfl ok.2
    · exact discard
  · exact discard

theorem readBranchRequest_stream {b : BranchNo} {kind : RequestKind} {body : List Byte} {p : StreamId × Request}
    (h : readBranchRequest b kind body = some p) : branchOf p.1 = b := by
  unfold readBranchRequest at h
  split at h
  · rw [Option.map_eq_some_iff] at h
    obtain ⟨n, _, rfl⟩ := h
    apply Fin.ext
    simp [branchOf, streamIdOf]
    omega
  · cases h

theorem reaches_receiveBranchRequest (b : BranchNo) (kind : RequestKind) (body : List Byte) :
    Reaches moving g (g.receiveBranchRequest b kind body) := by
  unfold Gate.receiveBranchRequest
  refine reaches_arrive _ _ _ _ _ (by decide) fun p read spent => ?_
  obtain rfl := readBranchRequest_stream read
  unfold Gate.joinStream
  dsimp only
  have joined := ((GateStep.arriveRequest g p.1 p.2 spent).reaches (K := moving)).trans
    (reaches_countBranch (branchOf p.1) fun x => { x with queued := x.queued + 1 })
  split
  · rename_i empty
    refine joined.trans (Reaches.outer (reaches_startHeads _ _ _ ?_))
    simp only [Gate.countBranch, Gate.stream_modBranch, Gate.stream_modStream, if_pos]
    have : ((g.modLink (.branch (branchOf p.1)) (·.useGranted .request)).stream p.1).queue = [] := by simpa using empty
    rw [this]
    rfl
  · exact joined

theorem reaches_receiveBranchAnswer (b : BranchNo) (body : List Byte) :
    Reaches traffic g (g.receiveBranchAnswer b body) :=
  reaches_arrive _ _ _ _ _ (by decide) fun a _ spent => (GateStep.arriveBranchAnswer g b a spent).reaches

theorem reaches_receiveTrunkRequest (kind : RequestKind) (body : List Byte) :
    Reaches traffic g (g.receiveTrunkRequest kind body) :=
  reaches_arrive _ _ _ _ _ (by decide) fun r _ spent => (GateStep.arriveTrunkRequest g r spent).reaches

theorem reaches_receiveControl (body : List Byte) : Reaches traffic g (g.receiveControl body) :=
  reaches_arrive _ _ _ _ _ (by decide) fun p _ spent => (GateStep.arriveControl g p spent).reaches

end Sys2Proof.Machine
end

