-- ==== Sys2Proof/Laws/Commands.lean ====
section
/-! SUPPORT. Every command as a sequence of the acts of Laws/Steps.lean, with the kinds of acts it may perform. -/

namespace Sys2Proof.Machine

-- One proof after the other: side by side, the many short proofs of this file hold more threads than a check allows.
set_option Elab.async false

variable {g g' : Gate}

/-! ### What acts inside the gate leave alone -/

/-- An act inside the gate, or one that changes bindings, leaves the trunk port alone and sends nothing. -/
theorem GateStep.keepsTrunk {k : Kind} (h : GateStep k g g') (mem : k ∈ settling) : g'.trunk = g.trunk ∧ g'.sent = g.sent := by
  cases h <;> first
    | exact absurd mem (by decide)
    | (constructor <;> simp)

theorem Reaches.keepsTrunk (h : Reaches settling g g') : g'.trunk = g.trunk ∧ g'.sent = g.sent := by
  refine h.keeps (fun x => x.trunk = g.trunk ∧ x.sent = g.sent) (fun k hk a b st ih => ?_) ⟨rfl, rfl⟩
  have := st.keepsTrunk hk
  exact ⟨this.1.trans ih.1, this.2.trans ih.2⟩

/-! ### Answers from the trunk -/

/-- The kinds of acts of an answer from the trunk. -/
abbrev answers : List Kind := [.inner, .head, .traffic, .settle, .bind]

theorem reaches_takeAnswers (buffer : List Answer) (g : Gate) (held : g.trunk.ingressAnswers = buffer) :
    Reaches answers g (Gate.takeAnswers buffer g) := by
  induction buffer generalizing g with
  | nil => exact .refl
  | cons a rest ih =>
    unfold Gate.takeAnswers
    refine Reaches.trans (Reaches.trans (GateStep.takeTrunkAnswer g a rest held).reaches ?_) (ih _ ?_)
    · exact (reaches_takeAnswer a).mono (by decide)
    · rw [(reaches_takeAnswer a).keepsTrunk.1]; rfl

theorem reaches_receiveTrunkAnswer (body : List Byte) : Reaches answers g (g.receiveTrunkAnswer body) := by
  unfold Gate.receiveTrunkAnswer
  refine reaches_arrive _ _ _ _ _ (by decide) fun a _ spent => ?_
  exact Reaches.trans (GateStep.arriveTrunkAnswer g a spent).reaches (reaches_takeAnswers _ _ rfl)

theorem reaches_receiveUnaccepted (l : LinkId) (packet : List Byte) : Reaches traffic g (g.receiveUnaccepted l packet) := by
  unfold Gate.receiveUnaccepted
  split
  · exact .refl
  · exact reaches_discardMalformed _ _ _

theorem reaches_receive (l : LinkId) (packet : List Byte) :
    Reaches [.inner, .head, .traffic, .down, .settle, .bind, .reset] g (g.receive l packet) := by
  unfold Gate.receive
  split
  · exact (reaches_receiveUnaccepted _ _).mono (by decide)
  · have request (kind : RequestKind) (body : List Byte) : Reaches moving g (g.receiveRequest l kind body) := by
      cases l
      · exact (reaches_receiveTrunkRequest _ _).mono (by decide)
      · exact reaches_receiveBranchRequest _ _ _
    split
    · exact (reaches_receiveInit _ _).mono (by decide)
    split
    · exact (reaches_receiveCredit _ _).mono (by decide)
    split
    · exact (request _ _).mono (by decide)
    split
    · exact (request _ _).mono (by decide)
    split
    · exact (request _ _).mono (by decide)
    split
    · split
      · exact (reaches_receiveTrunkAnswer _).mono (by decide)
      · exact (reaches_receiveBranchAnswer _ _).mono (by decide)
    split
    · exact (reaches_receiveControl _).mono (by decide)
    · exact (reaches_receiveUnaccepted _ _).mono (by decide)

/-! ### CONTROL packets -/

variable {K : List Kind}

theorem reaches_reply (p : ControlPacket) (status : ReplyStatus) (results : List Byte)
    (room : 0 < g.management.openPlaces) (mem : .traffic ∈ K := by decide) : Reaches K g (g.reply p status results) :=
  (GateStep.reply g _ _ _ _ _ room).reaches mem

/-- What is known of the gate that a checked command runs on. -/
structure Checked (g : Gate) : Prop where
  room : 0 < g.management.openPlaces
  few : g.management.pendingList.length < Config.pendingCommands

/-- A command at the front, where its own part is a sequence of acts. -/
theorem reaches_takeCommand (c : Command) (run : ControlPacket → Gate → Gate) (wide : .traffic ∈ K)
    (runs : ∀ p g', Checked g' → Reaches K g' (run p g')) : Reaches K g (Gate.takeCommand c run g) := by
  unfold Gate.takeCommand Gate.takeFront
  split
  · exact .refl
  · rename_i p rest front
    split
    · rename_i mine
      refine Reaches.trans ((GateStep.takeControl g p rest front).reaches wide) ?_
      have room : 0 < (g.takeControl rest).management.openPlaces := mine.2
      unfold Gate.checked
      split
      · exact reaches_reply _ _ _ room wide
      split
      · exact reaches_reply _ _ _ room wide
      split
      · exact reaches_reply _ _ _ room wide
      · rename_i few _
        exact runs _ _ ⟨room, by omega⟩
    · exact .refl

theorem reaches_takeFront (mine : ControlPacket → Bool) (act : ControlPacket → Gate → Gate)
    (acts : ∀ p g', 0 < g'.management.openPlaces → Reaches traffic g' (act p g')) :
    Reaches traffic g (g.takeFront mine act) := by
  unfold Gate.takeFront
  split
  · exact .refl
  · rename_i p rest front
    split
    · rename_i ok
      exact Reaches.trans (GateStep.takeControl g p rest front).reaches (acts _ _ ok.2)
    · exact .refl

/-! ### The commands of the management unit, the outstanding table and the log -/

theorem reaches_runClaim (p : ControlPacket) (ok : Checked g) : Reaches [.traffic, .claim] g (g.runClaim p) :=
  Reaches.trans (GateStep.claim g p.source).reaches (reaches_reply _ _ _ ok.room)

theorem reaches_runRelease (p : ControlPacket) (ok : Checked g) : Reaches [.traffic, .claim] g (g.runRelease p) :=
  Reaches.trans (GateStep.release g).reaches (reaches_reply _ _ _ ok.room)

theorem reaches_runTimeoutSet (p : ControlPacket) (ok : Checked g) : Reaches [.traffic, .config] g (g.runTimeoutSet p) := by
  unfold Gate.runTimeoutSet
  split
  · exact reaches_reply _ _ _ ok.room
  · exact Reaches.trans (GateStep.exponent g _).reaches (reaches_reply _ _ _ ok.room)

theorem reaches_runFaultsTake (p : ControlPacket) (ok : Checked g) : Reaches traffic g (g.runFaultsTake p) := by
  unfold Gate.runFaultsTake
  dsimp only
  split
  · exact reaches_reply _ _ _ ok.room
  · exact Reaches.trans (GateStep.takeRecords g _).reaches (reaches_reply _ _ _ ok.room)

theorem reaches_runFaultsPolicy (p : ControlPacket) (ok : Checked g) :
    Reaches [.traffic, .config] g (g.runFaultsPolicy p) := by
  unfold Gate.runFaultsPolicy
  split
  · exact reaches_reply _ _ _ ok.room
  · exact Reaches.trans (GateStep.policy g _).reaches (reaches_reply _ _ _ ok.room)

/-! ### The commands of the context table -/

/-- The kinds of acts of a command on a context record. -/
abbrev contexts : List Kind := [.traffic, .context]

theorem context_raiseEpoch (c d : ContextNo) : (g.raiseEpoch c).context d =
    if c = d then { g.context c with epoch := (g.context c).epoch + 1 } else g.context d :=
  g.context_modContext c d _

theorem reaches_runContextSetup (p : ControlPacket) (ok : Checked g) : Reaches contexts g (g.runContextSetup p) := by
  unfold Gate.runContextSetup
  split
  · exact reaches_reply _ _ _ ok.room
  rename_i c _
  split
  · exact reaches_reply _ _ _ ok.room
  rename_i state
  split
  · exact reaches_reply _ _ _ ok.room
  rename_i idle
  dsimp only
  split
  · exact reaches_reply _ _ _ ok.room
  split
  · rename_i fits
    refine Reaches.trans (GateStep.setup g c _ _ _ ?_ (by simpa using idle) fits).reaches (reaches_reply _ _ _ ok.room)
    revert state; cases (g.context c).state <;> simp
  · exact reaches_reply _ _ _ ok.room

theorem reaches_runContextOpen (p : ControlPacket) (ok : Checked g) : Reaches contexts g (g.runContextOpen p) := by
  unfold Gate.runContextOpen
  split
  · exact reaches_reply _ _ _ ok.room
  split
  · exact reaches_reply _ _ _ ok.room
  rename_i state
  split
  · exact reaches_reply _ _ _ ok.room
  rename_i idle
  exact Reaches.trans (GateStep.openContext g _ (by simpa using state) (by simpa using idle)).reaches
    (reaches_reply _ _ _ ok.room)

theorem reaches_unbindContext (c : ContextNo) : Reaches [.bind] g (g.unbindContext c) := (GateStep.unbind g c).reaches

/-- The kinds of acts of a binding command. -/
abbrev binding : List Kind := [.traffic, .rebind]

/-- The kinds of acts of a retire. -/
abbrev retiring : List Kind := [.traffic, .context, .bind]

theorem reaches_retireReady (c : ContextNo) (p : ControlPacket) (ok : Checked g) (ready : (g.context c).state = .ready)
    (idle : (g.context c).pending = none) : Reaches retiring g (g.retireReady c p) := by
  unfold Gate.retireReady
  refine Reaches.trans (Reaches.trans (Reaches.trans (GateStep.raiseEpoch g c).reaches ?_)
    (GateStep.freeReady _ c ?_ ?_).reaches) (reaches_reply _ _ _ ok.room)
  · exact (reaches_unbindContext c).mono (by decide)
  · show ((g.raiseEpoch c).context c).state = .ready
    rw [context_raiseEpoch]; simpa using ready
  · show ((g.raiseEpoch c).context c).pending = none
    rw [context_raiseEpoch]; simpa using idle

theorem reaches_retireActive (c : ContextNo) (p : ControlPacket) (ok : Checked g) (active : (g.context c).state = .active)
    (idle : (g.context c).pending = none) : Reaches retiring g (g.retireActive c p) := by
  unfold Gate.retireActive
  dsimp only
  have start : Reaches retiring g ((g.raiseEpoch c).removeCached c fun _ => true) :=
    Reaches.trans (GateStep.raiseEpoch g c).reaches (GateStep.removeCached _ c _).reaches
  have isActive : (((g.raiseEpoch c).removeCached c fun _ => true).context c).state = .active := by
    show ((g.raiseEpoch c).context c).state = .active
    rw [context_raiseEpoch]; simpa using active
  have isIdle : (((g.raiseEpoch c).removeCached c fun _ => true).context c).pending = none := by
    show ((g.raiseEpoch c).context c).pending = none
    rw [context_raiseEpoch]; simpa using idle
  have uncached : ∀ e ∈ ((g.raiseEpoch c).removeCached c fun _ => true).cache, e.context ≠ c := by
    intro e he
    simp [Gate.removeCached] at he
    exact he.2
  split
  · rename_i drained
    exact start.trans (GateStep.retireNow _ c _ _ isActive isIdle uncached drained ok.room).reaches
  · exact start.trans (GateStep.pendRetire _ c _ _ isActive isIdle uncached ok.room ok.few).reaches

theorem reaches_runContextRetire (p : ControlPacket) (ok : Checked g) : Reaches retiring g (g.runContextRetire p) := by
  unfold Gate.runContextRetire
  split
  · exact reaches_reply _ _ _ ok.room
  split
  · exact reaches_reply _ _ _ ok.room
  rename_i state
  split
  · exact reaches_reply _ _ _ ok.room
  rename_i idle
  split
  · rename_i ready; exact reaches_retireReady _ _ ok ready (by simpa using idle)
  · rename_i notReady
    refine reaches_retireActive _ _ ok ?_ (by simpa using idle)
    by_contra h; exact state ⟨notReady, h⟩

theorem reaches_runContextRead (p : ControlPacket) (ok : Checked g) : Reaches traffic g (g.runContextRead p) := by
  unfold Gate.runContextRead; split <;> exact reaches_reply _ _ _ ok.room

theorem reaches_runInvalidate (p : ControlPacket) (ok : Checked g) : Reaches contexts g (g.runInvalidate p) := by
  unfold Gate.runInvalidate
  split
  · exact reaches_reply _ _ _ ok.room
  rename_i c _
  dsimp only
  split
  · exact reaches_reply _ _ _ ok.room
  rename_i state
  split
  · exact reaches_reply _ _ _ ok.room
  rename_i idle
  split
  · exact reaches_reply _ _ _ ok.room
  split
  · unfold Gate.invalidateReady
    exact Reaches.trans (GateStep.raiseEpoch g c).reaches (reaches_reply _ _ _ ok.room)
  · rename_i notReady
    unfold Gate.invalidateActive
    dsimp only
    have isActive : (g.context c).state = .active := by by_contra h; exact state ⟨notReady, h⟩
    have start (inRange : Nat → Bool) : Reaches contexts g ((g.removeCached c inRange).raiseEpoch c) :=
      Reaches.trans (GateStep.removeCached g c _).reaches (GateStep.raiseEpoch _ c).reaches
    have active (inRange : Nat → Bool) : (((g.removeCached c inRange).raiseEpoch c).context c).state = .active := by
      rw [context_raiseEpoch, if_pos rfl]; exact isActive
    have isIdle (inRange : Nat → Bool) : (((g.removeCached c inRange).raiseEpoch c).context c).pending = none := by
      rw [context_raiseEpoch, if_pos rfl]
      show (g.context c).pending = none
      simpa using idle
    split
    · exact (start _).trans (GateStep.invalidateNow _ c _ _ (isIdle _) ok.room).reaches
    · exact (start _).trans (GateStep.pendInvalidate _ c _ _ _ _ (active _) (isIdle _) ok.room ok.few).reaches

/-! ### The commands of the stream table, the window table and the branches -/

theorem reaches_bindStream (s : StreamId) (mode : Mode) : Reaches [.rebind] g (g.bindStream s mode) :=
  (GateStep.rebind g s mode).reaches

theorem reaches_runStreamBind (p : ControlPacket) (ok : Checked g) : Reaches binding g (g.runStreamBind p) := by
  unfold Gate.runStreamBind
  split
  · exact reaches_reply _ _ _ ok.room
  split
  · exact reaches_reply _ _ _ ok.room
  · exact Reaches.trans ((reaches_bindStream _ _).mono (by decide)) (reaches_reply _ _ _ ok.room)

theorem reaches_runStreamRead (p : ControlPacket) (ok : Checked g) : Reaches traffic g (g.runStreamRead p) := by
  unfold Gate.runStreamRead; split <;> exact reaches_reply _ _ _ ok.room

/-- The kinds of acts of a window command. -/
abbrev windows : List Kind := [.inner, .traffic, .config]

theorem reaches_runWindowSet (p : ControlPacket) (ok : Checked g) : Reaches windows g (g.runWindowSet p) := by
  unfold Gate.runWindowSet
  split
  · refine Reaches.trans ?_ (reaches_offerHeldAgain.mono (by decide))
    exact Reaches.trans (GateStep.window g _ _).reaches (reaches_reply _ _ _ ok.room)
  · exact reaches_reply _ _ _ ok.room

theorem reaches_runWindowClear (p : ControlPacket) (ok : Checked g) : Reaches windows g (g.runWindowClear p) := by
  unfold Gate.runWindowClear
  split
  · exact reaches_reply _ _ _ ok.room
  · refine Reaches.trans ?_ (reaches_offerHeldAgain.mono (by decide))
    exact Reaches.trans (GateStep.window g _ _).reaches (reaches_reply _ _ _ ok.room)

theorem reaches_runWindowRead (p : ControlPacket) (ok : Checked g) : Reaches traffic g (g.runWindowRead p) := by
  unfold Gate.runWindowRead; split <;> exact reaches_reply _ _ _ ok.room

theorem management_offerHost : (g.offerHost).management.controlQueue = g.management.controlQueue ∧
    (g.offerHost).management.pendingList = g.management.pendingList := by
  unfold Gate.offerHost
  repeat' split
  all_goals exact ⟨rfl, rfl⟩

theorem openPlaces_branchDown (b : BranchNo) : (g.branchDown b).management.openPlaces = g.management.openPlaces := by
  unfold Gate.branchDown Gate.offerHeldAgain
  have owe (x : Gate) : (x.oweBranch b).management.controlQueue = x.management.controlQueue ∧
      (x.oweBranch b).management.pendingList = x.management.pendingList := by
    unfold Gate.oweBranch; split <;> exact ⟨rfl, rfl⟩
  split
  · unfold Management.openPlaces
    rw [management_offerHost.1, management_offerHost.2, (owe _).1, (owe _).2]; rfl
  · unfold Management.openPlaces
    rw [(owe _).1, (owe _).2]; rfl

theorem reaches_resetBranch (b : BranchNo) : Reaches downing g (g.resetBranch b) := by
  unfold Gate.resetBranch
  dsimp only
  split
  · exact (GateStep.oweReset g b).reaches
  · exact Reaches.trans (Reaches.trans (GateStep.oweReset g b).reaches (reaches_branchDown b)) (GateStep.emit _ _ _).reaches

theorem openPlaces_resetBranch (b : BranchNo) : (g.resetBranch b).management.openPlaces = g.management.openPlaces := by
  unfold Gate.resetBranch
  dsimp only
  split
  · rfl
  · exact openPlaces_branchDown b

theorem reaches_runBranchReset (p : ControlPacket) (ok : Checked g) : Reaches downing g (g.runBranchReset p) := by
  unfold Gate.runBranchReset
  split
  · exact reaches_reply _ _ _ ok.room
  · refine Reaches.trans (reaches_resetBranch _) (reaches_reply _ _ _ ?_)
    rw [openPlaces_resetBranch]; exact ok.room

theorem reaches_runBranchRead (p : ControlPacket) (ok : Checked g) : Reaches traffic g (g.runBranchRead p) := by
  unfold Gate.runBranchRead; split <;> exact reaches_reply _ _ _ ok.room

/-! ### Every command -/

/-- Every kind of act. -/
abbrev allKinds : List Kind :=
  [.inner, .head, .traffic, .down, .settle, .grant, .context, .bind, .rebind, .claim, .config, .reset]

/-- The kinds of acts that a command may perform. -/
def kindsOf : Instr → List Kind
  | .powerOn _ => [.reset]
  | .linkPresent _ => traffic
  | .trunkLinkLoss => traffic
  | .branchLinkLoss _ => downing
  | .initReceived l _ => if l = .trunk then [.inner, .traffic, .down, .reset] else downing
  | .creditReceived _ _ => traffic
  | .creditSend _ => traffic
  | .branchRequestArrival _ _ _ => moving
  | .branchAnswerArrival _ _ => traffic
  | .trunkRequestArrival _ _ => traffic
  | .trunkAnswerArrival _ => answers
  | .trunkControlArrival _ => traffic
  | .hostRequestOffer => traffic
  | .answerQueueGrant => traffic
  | .departureGrant => granting
  | .trunkAnswerTransmit => traffic
  | .controlTransmit => traffic
  | .branchAnswerTransmit _ => moving
  | .branchRequestTransmit _ => traffic
  | .entryExpiry _ => settling
  | .quarantineEnd _ => [.settle]
  | .walkExpiry _ => draining
  | .walkQuarantineEnd _ => moving
  | .retireComplete _ => judging
  | .invalidateComplete _ => traffic
  | .noticePlace => traffic
  | .claim => [.traffic, .claim]
  | .release => [.traffic, .claim]
  | .identify => traffic
  | .gateRead => traffic
  | .contextSetup => contexts
  | .contextOpen => contexts
  | .contextRetire => retiring
  | .contextRead => traffic
  | .streamBind => binding
  | .streamRead => traffic
  | .invalidate => contexts
  | .timeoutSet => [.traffic, .config]
  | .windowSet => windows
  | .windowClear => windows
  | .windowRead => traffic
  | .faultsTake => traffic
  | .faultsPolicy => [.traffic, .config]
  | .branchReset => downing
  | .branchRead => traffic
  | .unknownCommand => traffic
  | .misdirectedControl => traffic
  | .unacceptedKindArrival l packet =>
    if isUnacceptedKind l packet then traffic else [.inner, .head, .traffic, .down, .settle, .bind, .reset]

theorem receive_unaccepted {l : LinkId} {packet : List Byte} (h : isUnacceptedKind l packet = true) :
    g.receive l packet = g.receiveUnaccepted l packet := by
  cases packet with
  | nil => rfl
  | cons kind body =>
    unfold Gate.receive
    cases l <;> simp only [isUnacceptedKind, acceptedKinds, List.contains_cons, List.contains_nil, Bool.or_false,
      Bool.not_eq_true', Bool.or_eq_false_iff, beq_eq_false_iff_ne, ne_eq] at h <;>
    · obtain ⟨h1, h2, h3⟩ := h
      simp_all

theorem exec_powerOn (straps : Byte) (s : State) :
    exec (.powerOn straps) s = s.act fun g => { Gate.reset straps .power with sent := g.sent } := by
  delta exec execPowerOn
  exact Eq.refl _

/-- Every command performs acts of its kinds on the gate, keeps the queue of waiting commands, and answers a next state. -/
theorem exec_reaches (c : Instr) (s : State) :
    ∃ g', exec c s = .next { s with gate := g' } ∧ Reaches (kindsOf c) s.gate g' := by
  cases c
  case powerOn straps =>
    have reach := (GateStep.powerOn s.gate straps).reaches (K := [.reset])
    refine ⟨_, ?_, reach⟩
    have next := exec_powerOn straps s
    unfold State.act at next
    exact next
  all_goals refine ⟨_, rfl, ?_⟩
  case linkPresent l =>
    dsimp only; split
    · rename_i down; exact reaches_enterTraining l down
    · exact .refl
  case trunkLinkLoss =>
    dsimp only; split
    · exact .refl
    · exact (GateStep.trunkDown s.gate).reaches
  case branchLinkLoss b =>
    dsimp only; split
    · exact .refl
    · exact reaches_linkDown (.branch b)
  case initReceived l body =>
    cases l with
    | trunk => exact reaches_receiveInit _ _
    | branch b => exact reaches_receiveInit_branch _ _
  case creditReceived l body => exact reaches_receiveCredit _ _
  case creditSend l =>
    dsimp only; split
    · exact .refl
    · rename_i c rest due
      split
      · rename_i up
        refine Reaches.trans (K := traffic) (GateStep.emit s.gate l _).reaches (GateStep.sendCredit _ l c rest ?_ ?_).reaches
        · cases l <;> exact due
        · cases l <;> exact up
      · exact .refl
  case branchRequestArrival => exact reaches_receiveBranchRequest _ _ _
  case branchAnswerArrival => exact reaches_receiveBranchAnswer _ _
  case trunkRequestArrival => exact reaches_receiveTrunkRequest _ _
  case trunkAnswerArrival => exact reaches_receiveTrunkAnswer _
  case trunkControlArrival => exact reaches_receiveControl _
  case hostRequestOffer => exact reaches_offerHost
  case answerQueueGrant =>
    dsimp only; split
    · rename_i room; exact reaches_grantPlace _ _ room
    · exact .refl
  case departureGrant =>
    dsimp only; split
    · split
      · exact reaches_requestTurn _ _ _
      · refine Reaches.trans (K := granting) (reaches_requestTurn 69 [] _) (Reaches.mono (K := traffic) ?_ (by decide))
        exact reaches_trunkPort _ fun _ => ⟨rfl, rfl, rfl, rfl, rfl⟩
    · exact .refl
  case trunkAnswerTransmit =>
    dsimp only; split
    · exact .refl
    · rename_i a rest front
      split
      · refine Reaches.trans (reaches_sendTrunk _ _) (GateStep.popAnswer _ a rest ?_).reaches
        exact front
      · exact .refl
  case controlTransmit =>
    dsimp only; split
    · exact .refl
    · rename_i p rest front
      split
      · refine Reaches.trans (reaches_sendTrunk _ _) (GateStep.popControl _ p rest ?_).reaches
        exact front
      · exact .refl
  case branchAnswerTransmit b =>
    dsimp only; split
    · exact .refl
    · split
      · refine Reaches.trans (K := moving) (Reaches.trans (Reaches.trans (Reaches.trans
          ((reaches_sendBranch _ _ _ _).mono (by decide)) (reaches_port b _ ?_).outer) (reaches_setSlot _ _ _).outer)
          (reaches_countBranch _ _))
          (reaches_serveSlotWait _ _).outer
        exact fun _ => ⟨rfl, rfl, rfl⟩
      · exact .refl
  case branchRequestTransmit b =>
    dsimp only; split
    · exact .refl
    · rename_i r rest front
      split
      · refine Reaches.trans (K := traffic) (Reaches.trans (reaches_sendBranch _ _ _ _)
          (GateStep.popEgress _ b r rest ?_).reaches) reaches_offerHeldAgain
        simpa [Gate.sendBranch, Gate.branch_modBranch] using front
      · exact .refl
  case entryExpiry t =>
    dsimp only; split
    · rename_i live; exact reaches_expireEntry _ _ live
    · exact .refl
  case quarantineEnd t =>
    dsimp only; split
    · exact reaches_setEntry _ _
    · exact .refl
  case walkExpiry i =>
    dsimp only; split
    · split
      · exact reaches_expireWalk _ _
      · exact .refl
    · exact .refl
  case walkQuarantineEnd i =>
    dsimp only; split
    · exact ((reaches_setWalk _ _).trans reaches_serveWaiting).outer
    · exact .refl
  case retireComplete c => exact reaches_judgeRetire c
  case invalidateComplete c => exact reaches_judgeInvalidate (K := traffic) c
  case noticePlace => exact (GateStep.notice s.gate).reaches
  case claim => exact reaches_takeCommand _ _ (by decide) fun p g ok => reaches_runClaim p ok
  case release => exact reaches_takeCommand _ _ (by decide) fun p g ok => reaches_runRelease p ok
  case identify => exact reaches_takeCommand _ _ (by decide) fun p g ok => reaches_reply _ _ _ ok.room
  case gateRead => exact reaches_takeCommand _ _ (by decide) fun p g ok => reaches_reply _ _ _ ok.room
  case contextSetup => exact reaches_takeCommand _ _ (by decide) fun p g ok => reaches_runContextSetup p ok
  case contextOpen => exact reaches_takeCommand _ _ (by decide) fun p g ok => reaches_runContextOpen p ok
  case contextRetire => exact reaches_takeCommand _ _ (by decide) fun p g ok => reaches_runContextRetire p ok
  case contextRead => exact reaches_takeCommand _ _ (by decide) fun p g ok => reaches_runContextRead p ok
  case streamBind => exact reaches_takeCommand _ _ (by decide) fun p g ok => reaches_runStreamBind p ok
  case streamRead => exact reaches_takeCommand _ _ (by decide) fun p g ok => reaches_runStreamRead p ok
  case invalidate => exact reaches_takeCommand _ _ (by decide) fun p g ok => reaches_runInvalidate p ok
  case timeoutSet => exact reaches_takeCommand _ _ (by decide) fun p g ok => reaches_runTimeoutSet p ok
  case windowSet => exact reaches_takeCommand _ _ (by decide) fun p g ok => reaches_runWindowSet p ok
  case windowClear => exact reaches_takeCommand _ _ (by decide) fun p g ok => reaches_runWindowClear p ok
  case windowRead => exact reaches_takeCommand _ _ (by decide) fun p g ok => reaches_runWindowRead p ok
  case faultsTake => exact reaches_takeCommand _ _ (by decide) fun p g ok => reaches_runFaultsTake p ok
  case faultsPolicy => exact reaches_takeCommand _ _ (by decide) fun p g ok => reaches_runFaultsPolicy p ok
  case branchReset => exact reaches_takeCommand _ _ (by decide) fun p g ok => reaches_runBranchReset p ok
  case branchRead => exact reaches_takeCommand _ _ (by decide) fun p g ok => reaches_runBranchRead p ok
  case unknownCommand => exact reaches_takeFront _ _ fun p g room => reaches_reply _ _ _ room
  case misdirectedControl => exact reaches_takeFront _ _ fun p g _ => reaches_countGate _
  case unacceptedKindArrival l packet =>
    show Reaches (if isUnacceptedKind l packet then traffic else _) _ _
    split
    · rename_i unaccepted
      dsimp only
      rw [receive_unaccepted unaccepted]
      exact reaches_receiveUnaccepted _ _
    · exact reaches_receive _ _

/-- A step of the machine performs acts on the gate, of any kind. -/
theorem step_reaches {s s' : State} (h : step s = .next s') : Reaches allKinds s.gate s'.gate := by
  unfold step at h
  split at h
  · injection h with h; subst h; exact .refl
  · rename_i c rest _
    obtain ⟨g', next, reach⟩ := exec_reaches c { s with pending := rest }
    rw [next] at h
    injection h with h; subst h
    exact reach.mono fun k _ => by cases k <;> decide

end Sys2Proof.Machine
end

