-- ==== Sys2Proof/Laws/Exec.lean ====
section
/-! SUPPORT. What exec answers, said once for each command, and how a CONTROL packet is taken (R142, R143). A proof about a
command rewrites with its lemma here and goes on with the gate alone. -/

namespace Sys2Proof.Machine

theorem State.act_eq (f : Gate → Gate) (s : State) : s.act f = .next (s.withGate (f s.gate)) := rfl

@[simp] theorem State.withGate_gate (s : State) (g : Gate) : (s.withGate g).gate = g := rfl
@[simp] theorem State.withGate_pending (s : State) (g : Gate) : (s.withGate g).pending = s.pending := rfl

variable (s : State)

theorem exec_linkPresent (l : LinkId) : exec (.linkPresent l) s =
    .next (s.withGate (if (s.gate.link l).state = .down then s.gate.enterTraining l else s.gate)) := rfl

theorem exec_trunkLinkLoss : exec .trunkLinkLoss s =
    .next (s.withGate (if s.gate.trunk.link.state = .down then s.gate else s.gate.linkDown .trunk)) := rfl

theorem exec_branchLinkLoss (b : BranchNo) : exec (.branchLinkLoss b) s =
    .next (s.withGate (if (s.gate.branch b).link.state = .down then s.gate else s.gate.linkDown (.branch b))) := rfl

theorem exec_initReceived (l : LinkId) (body : List Byte) : exec (.initReceived l body) s =
    .next (s.withGate (s.gate.receiveInit l body)) := rfl

theorem exec_creditReceived (l : LinkId) (body : List Byte) : exec (.creditReceived l body) s =
    .next (s.withGate (s.gate.receiveCredit l body)) := rfl

theorem exec_branchRequestArrival (b : BranchNo) (kind : RequestKind) (body : List Byte) :
    exec (.branchRequestArrival b kind body) s = .next (s.withGate (s.gate.receiveBranchRequest b kind body)) := rfl

theorem exec_branchAnswerArrival (b : BranchNo) (body : List Byte) :
    exec (.branchAnswerArrival b body) s = .next (s.withGate (s.gate.receiveBranchAnswer b body)) := rfl

theorem exec_trunkRequestArrival (kind : RequestKind) (body : List Byte) :
    exec (.trunkRequestArrival kind body) s = .next (s.withGate (s.gate.receiveTrunkRequest kind body)) := rfl

theorem exec_trunkAnswerArrival (body : List Byte) : exec (.trunkAnswerArrival body) s =
    .next (s.withGate (s.gate.receiveTrunkAnswer body)) := rfl

theorem exec_trunkControlArrival (body : List Byte) : exec (.trunkControlArrival body) s =
    .next (s.withGate (s.gate.receiveControl body)) := rfl

theorem exec_unacceptedKindArrival (l : LinkId) (packet : List Byte) : exec (.unacceptedKindArrival l packet) s =
    .next (s.withGate (s.gate.receive l packet)) := rfl

theorem exec_hostRequestOffer : exec .hostRequestOffer s = .next (s.withGate s.gate.offerHost) := rfl

theorem exec_retireComplete (c : ContextNo) : exec (.retireComplete c) s = .next (s.withGate (s.gate.judgeRetire c)) := rfl

theorem exec_invalidateComplete (c : ContextNo) :
    exec (.invalidateComplete c) s = .next (s.withGate (s.gate.judgeInvalidate c)) := rfl

theorem exec_noticePlace : exec .noticePlace s = .next (s.withGate s.gate.placeNotice) := rfl

/-- What each management command runs past the shared checks. -/
def Command.run : Command → ControlPacket → Gate → Gate
  | .claim => Gate.runClaim
  | .release => Gate.runRelease
  | .identify => Gate.runIdentify
  | .gateRead => Gate.runGateRead
  | .contextSetup => Gate.runContextSetup
  | .contextOpen => Gate.runContextOpen
  | .contextRetire => Gate.runContextRetire
  | .contextRead => Gate.runContextRead
  | .streamBind => Gate.runStreamBind
  | .streamRead => Gate.runStreamRead
  | .invalidate => Gate.runInvalidate
  | .timeoutSet => Gate.runTimeoutSet
  | .windowSet => Gate.runWindowSet
  | .windowClear => Gate.runWindowClear
  | .windowRead => Gate.runWindowRead
  | .faultsTake => Gate.runFaultsTake
  | .faultsPolicy => Gate.runFaultsPolicy
  | .branchReset => Gate.runBranchReset
  | .branchRead => Gate.runBranchRead

theorem exec_command (c : Command) : exec c.instr s = .next (s.withGate (Gate.takeCommand c c.run s.gate)) := by
  cases c <;> rfl

variable {s} {g : Gate} {c : Command} {p : ControlPacket} {rest : List ControlPacket}

theorem openPlaces_pos (h : g.management.controlQueue.length + g.management.pendingList.length < 12) :
    0 < g.management.openPlaces := by
  unfold Management.openPlaces Config.controlPlaces
  omega

/-- A packet that is taken as command `c` meets checks 3 to 5 of R143. -/
theorem takeCommand_takes (h : g.Takes c p rest) (run : ControlPacket → Gate → Gate) :
    Gate.takeCommand c run g = Gate.checked c run p (g.taken rest) := by
  unfold Gate.takeCommand Gate.takeFront
  rw [h.front]
  simp [isCommand, h.forUs, h.code, openPlaces_pos h.place]
  rfl

/-- A packet that passes checks 1 to 5 of R143 is carried out. -/
theorem takeCommand_passes (h : g.Passes c p rest) (fit : operandsFit c p.operands = true)
    (run : ControlPacket → Gate → Gate) : Gate.takeCommand c run g = run p (g.taken rest) := by
  rw [takeCommand_takes h.takes]
  unfold Gate.checked
  have may : mayIssue c g.management.manager p.source = true := by
    unfold mayIssue
    rcases h.sender with r | m
    · simp [r]
    · simp [m]
  have room : ¬ Config.pendingCommands ≤ g.management.pendingList.length := by
    have := h.room
    simp [Config.pendingCommands]
    omega
  have e : (g.taken rest).management = g.management := rfl
  rw [e]
  simp [may, room, fit]

/-- A command that passes checks 1 to 5 of R143 runs on the gate that has taken its packet. -/
theorem exec_passes (h : s.gate.Passes c p rest) (fit : operandsFit c p.operands = true) :
    exec c.instr s = .next (s.withGate (c.run p (s.gate.taken rest))) := by
  rw [exec_command, takeCommand_passes h fit]

theorem answerDone_eq (results : List Byte) : g.answerDone p results = g.replying p .done results := rfl

theorem refuse_eq (status : ReplyStatus) : g.refuse p status = g.replying p status [] := rfl

end Sys2Proof.Machine
end

