-- ==== Sys2Proof/Laws/Quiet.lean ====
section
/-! SUPPORT. The acts that leave the heads, their waiting lists and the answer slots alone (R33, R54, R58), and that a
sequence of such acts keeps what Safety.lean says of them. -/

namespace Sys2Proof.Machine

-- One proof after the other: side by side, the many short proofs of this file hold more threads than a check allows.
set_option Elab.async false

variable {g g' : Gate}

/-! ### What a quiet act leaves alone -/

/-- The lists and slots of the branch ports are the same. -/
def SamePorts (g g' : Gate) : Prop :=
  ∀ b, (g'.branch b).slotWait = (g.branch b).slotWait ∧ (g'.branch b).slots = (g.branch b).slots ∧
    (g'.branch b).egressAnswers = (g.branch b).egressAnswers

/-- Heads, slots, lists and waiters are the same; a stream queue may have grown at its tail, and a request entry may have
left LIVE or become an orphan. -/
structure Quiet (g g' : Gate) : Prop where
  heads : ∀ x, (g'.stream x).head = (g.stream x).head ∧ (g'.stream x).slot = (g.stream x).slot
  queues : ∀ x, ∃ more, (g'.stream x).queue = (g.stream x).queue ++ more
  ports : SamePorts g g'
  waiting : g'.walkWaiting = g.walkWaiting
  walks : ∀ i w', g'.walk i = .walking w' → ∃ w, g.walk i = .walking w ∧ w'.waiters = w.waiters
  entries : ∀ t, (g.entry t).Follows (g'.entry t)

theorem SamePorts.refl : SamePorts g g := fun _ => ⟨rfl, rfl, rfl⟩

theorem samePorts_of_branches (h : g'.branches = g.branches) : SamePorts g g' := fun b => by simp [Gate.branch, h]

theorem SamePorts.trans {a b c : Gate} (h : SamePorts a b) (h' : SamePorts b c) : SamePorts a c := fun d =>
  ⟨(h' d).1.trans (h d).1, (h' d).2.1.trans (h d).2.1, (h' d).2.2.trans (h d).2.2⟩

theorem samePorts_modBranch {b : BranchNo} {f : Branch → Branch}
    (keeps : (f (g.branch b)).slotWait = (g.branch b).slotWait ∧ (f (g.branch b)).slots = (g.branch b).slots ∧
      (f (g.branch b)).egressAnswers = (g.branch b).egressAnswers) : SamePorts g (g.modBranch b f) := by
  intro d
  rw [Gate.branch_modBranch]
  split
  · subst_vars; exact keeps
  · exact ⟨rfl, rfl, rfl⟩

theorem samePorts_modLink {l : LinkId} {f : LinkRecord → LinkRecord} : SamePorts g (g.modLink l f) := by
  cases l with
  | trunk => exact .refl
  | branch b => exact samePorts_modBranch ⟨rfl, rfl, rfl⟩

theorem Quiet.trans {a b c : Gate} (h : Quiet a b) (h' : Quiet b c) : Quiet a c where
  heads := fun x => ⟨(h'.heads x).1.trans (h.heads x).1, (h'.heads x).2.trans (h.heads x).2⟩
  queues := fun x => by
    obtain ⟨m, e⟩ := h.queues x
    obtain ⟨m', e'⟩ := h'.queues x
    exact ⟨m ++ m', by rw [e', e, List.append_assoc]⟩
  ports := h.ports.trans h'.ports
  waiting := h'.waiting.trans h.waiting
  walks := fun i w' hw' => by
    obtain ⟨w, hw, e⟩ := h'.walks i w' hw'
    obtain ⟨w₀, hw₀, e₀⟩ := h.walks i w hw
    exact ⟨w₀, hw₀, e.trans e₀⟩
  entries := fun t => (h.entries t).trans (h'.entries t)

/-- The parts a quiet act may have changed, where it changed nothing of the rest. -/
theorem Quiet.of (streams : g'.streams = g.streams) (ports : SamePorts g g') (waiting : g'.walkWaiting = g.walkWaiting)
    (walks : g'.walks = g.walks) (entries : g'.entries = g.entries) : Quiet g g' where
  heads := fun x => by simp [Gate.stream, streams]
  queues := fun x => ⟨[], by simp [Gate.stream, streams]⟩
  ports := ports
  waiting := waiting
  walks := fun i w' hw' => ⟨w', by simpa [Gate.walk, walks] using hw', rfl⟩
  entries := fun t => by simp [Gate.entry, entries, Entry.follows_refl]

theorem Quiet.refl : Quiet g g := .of rfl .refl rfl rfl rfl

theorem Quiet.withStreams (heads : ∀ x, (g'.stream x).head = (g.stream x).head ∧ (g'.stream x).slot = (g.stream x).slot)
    (queues : ∀ x, (g'.stream x).queue = (g.stream x).queue) (branches : g'.branches = g.branches)
    (waiting : g'.walkWaiting = g.walkWaiting) (walks : g'.walks = g.walks) (entries : g'.entries = g.entries) :
    Quiet g g' where
  heads := heads
  queues := fun x => ⟨[], by simp [queues x]⟩
  ports := samePorts_of_branches branches
  waiting := waiting
  walks := fun i w' hw' => ⟨w', by simpa [Gate.walk, walks] using hw', rfl⟩
  entries := fun t => by simp [Gate.entry, entries, Entry.follows_refl]

/-- The kinds of acts that are quiet. -/
abbrev quietKinds : List Kind := [.inner, .traffic, .settle, .context, .bind, .rebind, .claim, .config]

theorem quiet_unbindContext (c : ContextNo) : Quiet g (g.unbindContext c) := by
  have same (x : StreamId) : (g.unbindContext c).stream x =
      if (g.stream x).mode = .mapped c then
        { g.stream x with mode := .blocked, generation := (g.stream x).generation + 1 } else g.stream x := by
    show (g.streams.map _)[x.val] = _
    rw [Vector.getElem_map]
    rfl
  refine .withStreams (fun x => ?_) (fun x => ?_) rfl rfl rfl rfl
  all_goals rw [same]; split <;> simp

theorem quiet_completeRetire (c : ContextNo) (tag node : Byte) : Quiet g (g.completeRetire c tag node) :=
  (quiet_unbindContext c).trans (.of rfl .refl rfl rfl rfl)

theorem GateStep.quiet {k : Kind} (st : GateStep k g g') (mem : k ∈ quietKinds) : Quiet g g' := by
  have modLink (l : LinkId) (f : LinkRecord → LinkRecord) : Quiet g (g.modLink l f) :=
    .of (by simp) samePorts_modLink (by simp) (by simp) (by simp)
  have modBranch (b : BranchNo) (f : Branch → Branch)
      (keeps : ∀ x : Branch, (f x).slotWait = x.slotWait ∧ (f x).slots = x.slots ∧ (f x).egressAnswers = x.egressAnswers) :
      Quiet g (g.modBranch b f) := .of rfl (samePorts_modBranch (keeps _)) rfl rfl rfl
  cases st
  case countBranch => exact modBranch _ _ fun _ => ⟨rfl, rfl, rfl⟩
  case entries v follows =>
    exact ⟨fun _ => ⟨rfl, rfl⟩, fun _ => ⟨[], by simp [Gate.stream]⟩, .refl, rfl, fun i w h => ⟨w, h, rfl⟩, follows⟩
  case forward b r address room => exact modBranch _ _ fun _ => ⟨rfl, rfl, rfl⟩
  case takeBranchAnswer b a rest front =>
    exact (modBranch b (fun x => { x with ingressAnswers := rest }) fun _ => ⟨rfl, rfl, rfl⟩).trans
      (.of (by simp) samePorts_modLink (by simp) (by simp) (by simp))
  case lastSent => exact modBranch _ _ fun _ => ⟨rfl, rfl, rfl⟩
  case useHeld => exact modLink _ _
  case popEgress => exact modBranch _ _ fun _ => ⟨rfl, rfl, rfl⟩
  case train => exact modLink _ _
  case goUp => exact modLink _ _
  case trunkDown => exact modLink _ _
  case oweReset => exact modLink _ _
  case returnSpent => exact modLink _ _
  case credit => exact modLink _ _
  case sendCredit => exact modLink _ _
  case arriveRequest s r spent =>
    refine (modLink (.branch (branchOf s)) (·.useGranted .request)).trans
      ⟨fun x => ?_, fun x => ?_, .refl, rfl, fun i w h => ⟨w, h, rfl⟩, fun _ => Entry.follows_refl _⟩
    all_goals rw [Gate.stream_modStream]; split
    · subst_vars; exact ⟨rfl, rfl⟩
    · exact ⟨rfl, rfl⟩
    · subst_vars; exact ⟨_, rfl⟩
    · exact ⟨[], by simp⟩
  case arriveBranchAnswer b a spent =>
    exact (modLink (.branch b) (·.useGranted .answer)).trans
      (.of rfl (samePorts_modBranch ⟨rfl, rfl, rfl⟩) rfl rfl rfl)
  case unbind c => exact quiet_unbindContext c
  case retireNow c tag node _ _ _ _ _ =>
    refine Quiet.trans (b := g.modContext c fun x => { x with state := .draining }) (.of rfl .refl rfl rfl rfl) ?_
    exact quiet_completeRetire c tag node
  case retireJudged c tag node _ _ => exact quiet_completeRetire c tag node
  case rebind s mode =>
    refine .withStreams (fun x => ?_) (fun x => ?_) rfl rfl rfl rfl
    all_goals
      rw [Gate.bindStream, Gate.stream_modStream]
      split
      · subst_vars; simp
      · simp
  all_goals first
    | exact absurd mem (by decide)
    | exact .of rfl .refl rfl rfl rfl
    | exact .of (by simp) (samePorts_of_branches (by simp)) (by simp) (by simp) (by simp)

theorem Reaches.quiet {K : List Kind} (h : Reaches K g g') (sub : ∀ k ∈ K, k ∈ quietKinds := by decide) : Quiet g g' := by
  induction h with
  | refl => exact .refl
  | act _ step mem ih => exact ih.trans (step.quiet (sub _ mem))

/-! ### Quiet acts keep the invariants -/

theorem Quiet.keeps_heads (q : Quiet g g') (h : g.HeadsSound) : g'.HeadsSound where
  idle := fun x e => by
    obtain ⟨more, m⟩ := q.queues x
    rw [(q.heads x).1]
    exact h.idle x (by rw [m] at e; exact (List.append_eq_nil_iff.mp e).1)
  slotWait := fun b x m => by
    rw [(q.heads x).1]
    exact h.slotWait b x (by rw [← (q.ports b).1]; exact m)
  slotWaitOnce := fun b => by rw [(q.ports b).1]; exact h.slotWaitOnce b
  walkWaiting := fun x m => by
    rw [(q.heads x).1]
    exact h.walkWaiting x (by rw [← q.waiting]; exact m)
  walkWaitingOnce := by rw [q.waiting]; exact h.walkWaitingOnce
  waiters := fun i w e y m => by
    obtain ⟨w₀, e₀, same⟩ := q.walks i w e
    rw [(q.heads y.stream).1]
    exact h.waiters i w₀ e₀ y (by rw [← same]; exact m)
  waitersOnce := fun i w e => by
    obtain ⟨w₀, e₀, same⟩ := q.walks i w e
    rw [same]; exact h.waitersOnce i w₀ e₀
  waitersApart := fun i j w v ne e e' y m z m' => by
    obtain ⟨w₀, e₀, same⟩ := q.walks i w e
    obtain ⟨v₀, e₀', same'⟩ := q.walks j v e'
    exact h.waitersApart i j w₀ v₀ ne e₀ e₀' y (same ▸ m) z (same' ▸ m')

/-- An entry that holds a slot after it held it before. -/
theorem holds_follows (follows : ∀ t, (g.entry t).Follows (g'.entry t)) {t : RequestTag} {e : LiveEntry} {k : SlotNo}
    (h : g'.EntryHolds t e k) : g.EntryHolds t e k := by
  obtain ⟨live, young, slot⟩ := h
  have f := follows t
  rw [live] at f
  obtain ⟨e', live', rfl | rfl⟩ := f
  · exact ⟨live', young, slot⟩
  · cases young

theorem Quiet.keeps_slots (q : Quiet g g') (h : g.SlotsSound) : g'.SlotsSound where
  occupied := fun b a m => by
    rw [(q.ports b).2.2] at m
    rw [getElem_congr_coll (q.ports b).2.1]
    exact h.occupied b a m
  occupiedOnce := fun b => by rw [(q.ports b).2.2]; exact h.occupiedOnce b
  heads := fun x k e => by
    rw [(q.heads x).2] at e
    obtain ⟨r, rest, queue, slot⟩ := h.heads x k e
    obtain ⟨more, m⟩ := q.queues x
    refine ⟨r, rest ++ more, by rw [m, queue]; rfl, ?_⟩
    rw [getElem_congr_coll (q.ports _).2.1]
    exact slot
  entries := fun t e k held => by
    rw [getElem_congr_coll (q.ports _).2.1]
    exact h.entries t e k (holds_follows q.entries held)
  headsApart := fun x k t e slot held => by
    rw [(q.heads x).2] at slot
    exact h.headsApart x k t e slot (holds_follows q.entries held)
  entriesApart := fun t u e f k ne held held' =>
    h.entriesApart t u e f k ne (holds_follows q.entries held) (holds_follows q.entries held')

/-- The head of a stream is on no list and among no waiters. -/
structure Gate.Loose (g : Gate) (x : StreamId) : Prop where
  slotWait : ∀ b, x ∉ (g.branch b).slotWait
  walkWaiting : x ∉ g.walkWaiting
  waiters : ∀ i w, g.walk i = .walking w → ∀ y ∈ w.waiters, y.stream ≠ x

theorem Quiet.keeps_loose (q : Quiet g g') {x : StreamId} (h : g.Loose x) : g'.Loose x where
  slotWait := fun b => by rw [(q.ports b).1]; exact h.slotWait b
  walkWaiting := by rw [q.waiting]; exact h.walkWaiting
  waiters := fun i w e y m => by
    obtain ⟨w₀, e₀, same⟩ := q.walks i w e
    exact h.waiters i w₀ e₀ y (same ▸ m)

/-- A head in no waiting state is on no list. -/
theorem Gate.HeadsSound.loose (h : g.HeadsSound) {x : StreamId} (slot : (g.stream x).head ≠ some .waitSlot)
    (walkSlot : (g.stream x).head ≠ some .waitWalkSlot) (walk : (g.stream x).head ≠ some .waitWalk) : g.Loose x where
  slotWait := fun b m => slot (h.slotWait b x m).2
  walkWaiting := fun m => walkSlot (h.walkWaiting x m)
  waiters := fun i w e y m eq => walk (eq ▸ h.waiters i w e y m)

end Sys2Proof.Machine
end

