-- ==== Sys2Proof/Laws/Holds.lean ====
section
/-! SUPPORT. What each single update of a head, a list or a slot does to the invariants of heads and answer slots (R33, R54,
R58): `Gate.Holds` says the invariants together with a set of streams whose heads are on no list. -/

namespace Sys2Proof.Machine

-- One proof after the other: side by side, the many short proofs of this file hold more threads than a check allows.
set_option Elab.async false

variable {g g' : Gate} {L : StreamId → Prop} {x : StreamId}

/-- Heads and slots are sound, and the streams of `L` have a head that is on no list. -/
structure Gate.Holds (g : Gate) (L : StreamId → Prop) : Prop where
  heads : g.HeadsSound
  slots : g.SlotsSound
  loose : ∀ x, L x → g.Loose x ∧ (g.stream x).queue ≠ []

/-- No head and no LIVE entry holds slot `k` of branch `b`. -/
structure Gate.Spare (g : Gate) (b : BranchNo) (k : SlotNo) : Prop where
  heads : ∀ y, branchOf y = b → (g.stream y).slot ≠ some k
  entries : ∀ t e, g.EntryHolds t e k → branchOf e.stream ≠ b

theorem Gate.Holds.quiet (h : g.Holds L) (q : Quiet g g') : g'.Holds L where
  heads := q.keeps_heads h.heads
  slots := q.keeps_slots h.slots
  loose := fun x l => by
    obtain ⟨more, m⟩ := q.queues x
    exact ⟨q.keeps_loose (h.loose x l).1, by rw [m]; simp [(h.loose x l).2]⟩

theorem Gate.Holds.weaken {L' : StreamId → Prop} (h : g.Holds L) (sub : ∀ x, L' x → L x) : g.Holds L' :=
  ⟨h.heads, h.slots, fun x l => h.loose x (sub x l)⟩

/-! ### Single updates -/

/-- An update of one stream leaves every list as it is. -/
theorem loose_modStream {y : StreamId} {f : Stream → Stream} (h : g.Loose y) : (g.modStream x f).Loose y :=
  ⟨h.slotWait, h.walkWaiting, h.waiters⟩

/-- An update of a stream whose head is on no list. -/
theorem holds_modStream {f : Stream → Stream} (h : g.Holds L) (loose : g.Loose x)
    (idle : (f (g.stream x)).queue = [] → (f (g.stream x)).head = none) (queued : L x → (f (g.stream x)).queue ≠ [])
    (slot : ∀ k, (f (g.stream x)).slot = some k →
      (g.stream x).slot = some k ∧ (f (g.stream x)).queue = (g.stream x).queue) : (g.modStream x f).Holds L := by
  have other (y : StreamId) (ne : x ≠ y) : (g.modStream x f).stream y = g.stream y := by
    rw [Gate.stream_modStream, if_neg ne]
  have self : (g.modStream x f).stream x = f (g.stream x) := by rw [Gate.stream_modStream, if_pos rfl]
  have slotOf (y : StreamId) (k : SlotNo) (e : ((g.modStream x f).stream y).slot = some k) :
      (g.stream y).slot = some k ∧ ((g.modStream x f).stream y).queue = (g.stream y).queue := by
    by_cases ne : x = y
    · subst ne; rw [self] at e ⊢; exact slot k e
    · rw [other y ne] at e ⊢; exact ⟨e, rfl⟩
  refine ⟨⟨fun y e => ?_, fun b y m => ?_, h.heads.slotWaitOnce, fun y m => ?_, h.heads.walkWaitingOnce,
    fun i w e y m => ?_, h.heads.waitersOnce, h.heads.waitersApart⟩,
    ⟨h.slots.occupied, h.slots.occupiedOnce, fun y k e => ?_, h.slots.entries, fun y k t e s => ?_, h.slots.entriesApart⟩,
    fun y l => ⟨loose_modStream (h.loose y l).1, ?_⟩⟩
  · by_cases ne : x = y
    · subst ne; rw [self] at e ⊢; exact idle e
    · rw [other y ne] at e ⊢; exact h.heads.idle y e
  · rw [other y fun ne => loose.slotWait b (ne ▸ m)]; exact h.heads.slotWait b y m
  · rw [other y fun ne => loose.walkWaiting (ne ▸ m)]; exact h.heads.walkWaiting y m
  · rw [other y.stream fun ne => loose.waiters i w e y m ne.symm]; exact h.heads.waiters i w e y m
  · obtain ⟨r, rest, queue, reserved⟩ := h.slots.heads y k (slotOf y k e).1
    exact ⟨r, rest, (slotOf y k e).2.trans queue, reserved⟩
  · exact h.slots.headsApart y k t e (slotOf y k s).1
  · by_cases ne : x = y
    · subst ne; rw [self]; exact queued l
    · rw [other y ne]; exact (h.loose y l).2

theorem holds_setHead {s : HeadState} (h : g.Holds L) (loose : g.Loose x) (queued : (g.stream x).queue ≠ []) :
    (g.setHead x s).Holds L :=
  holds_modStream h loose (fun e => absurd e queued) (fun _ => queued) fun _ e => ⟨e, rfl⟩

theorem queue_stream_setHead (s : HeadState) (y : StreamId) : ((g.setHead x s).stream y).queue = (g.stream y).queue :=
  Gate.queue_setHead x s y

/-- A head reserves a free slot of its branch. -/
theorem holds_reserve {k : SlotNo} {r : Request} {rest : List Request} (h : g.Holds L)
    (free : (g.branch (branchOf x)).slots[k.val] = .free) (queued : (g.stream x).queue = r :: rest) :
    (g.reserve x r.tag k).Holds L := by
  have stream (y : StreamId) : (g.reserve x r.tag k).stream y =
      if x = y then { g.stream x with slot := some k } else g.stream y := Gate.stream_modStream ..
  have port (b : BranchNo) : (g.reserve x r.tag k).branch b =
      if branchOf x = b then
        { g.branch (branchOf x) with slots := (g.branch (branchOf x)).slots.set k.val (.reserved (numberOf x) r.tag) }
      else g.branch b := by
    show (g.modBranch (branchOf x) fun y =>
      { y with slots := y.slots.set k.val (.reserved (numberOf x) r.tag) }).branch b = _
    rw [Gate.branch_modBranch]
  have lists (b : BranchNo) : ((g.reserve x r.tag k).branch b).slotWait = (g.branch b).slotWait ∧
      ((g.reserve x r.tag k).branch b).egressAnswers = (g.branch b).egressAnswers := by
    rw [port]; split
    · subst_vars; exact ⟨rfl, rfl⟩
    · exact ⟨rfl, rfl⟩
  have kept (b : BranchNo) (i : SlotNo) (used : (g.branch b).slots[i.val] ≠ .free) :
      ((g.reserve x r.tag k).branch b).slots[i.val] = (g.branch b).slots[i.val] := by
    rw [getElem_congr_coll (congrArg Branch.slots (port b))]
    split
    · rename_i e
      subst e
      rw [Vector.getElem_set]
      split
      · rename_i eq; exact absurd (by simpa only [eq] using free) used
      · rfl
    · rfl
  have same (y : StreamId) : ((g.reserve x r.tag k).stream y).queue = (g.stream y).queue ∧
      ((g.reserve x r.tag k).stream y).head = (g.stream y).head := by
    rw [stream]; split
    · subst_vars; exact ⟨rfl, rfl⟩
    · exact ⟨rfl, rfl⟩
  have slotOf (y : StreamId) (i : SlotNo) (e : ((g.reserve x r.tag k).stream y).slot = some i) :
      (y = x ∧ i = k) ∨ (g.stream y).slot = some i := by
    rw [stream] at e
    split at e
    · rename_i eq; exact .inl ⟨eq.symm, by simpa using e.symm⟩
    · exact .inr e
  refine ⟨⟨fun y e => ?_, fun b y m => ?_, fun b => ?_, fun y m => ?_, h.heads.walkWaitingOnce, fun i w e y m => ?_,
    h.heads.waitersOnce, h.heads.waitersApart⟩,
    ⟨fun b a m => ?_, fun b => ?_, fun y i e => ?_, fun t e i held => ?_, fun y i t e s held => ?_,
      h.slots.entriesApart⟩,
    fun y l => ⟨⟨fun b => ?_, (h.loose y l).1.walkWaiting, (h.loose y l).1.waiters⟩, ?_⟩⟩
  · rw [(same y).1] at e; rw [(same y).2]; exact h.heads.idle y e
  · rw [(lists b).1] at m; rw [(same y).2]; exact h.heads.slotWait b y m
  · rw [(lists b).1]; exact h.heads.slotWaitOnce b
  · rw [(same y).2]; exact h.heads.walkWaiting y m
  · rw [(same y.stream).2]; exact h.heads.waiters i w e y m
  · rw [(lists b).2] at m
    have used := h.slots.occupied b a m
    rw [kept b a.slot (by rw [used]; simp)]; exact used
  · rw [(lists b).2]; exact h.slots.occupiedOnce b
  · rcases slotOf y i e with ⟨rfl, rfl⟩ | old
    · refine ⟨r, rest, (same y).1.trans queued, ?_⟩
      rw [getElem_congr_coll (congrArg Branch.slots (port _)), getElem_congr_coll (congrArg Branch.slots (if_pos rfl))]
      simp
    · obtain ⟨r', rest', queue, reserved⟩ := h.slots.heads y i old
      refine ⟨r', rest', (same y).1.trans queue, ?_⟩
      rw [kept _ i (by rw [reserved]; simp)]; exact reserved
  · have reserved := h.slots.entries t e i held
    rw [kept _ i (by rw [reserved]; simp)]; exact reserved
  · rcases slotOf y i s with ⟨rfl, rfl⟩ | old
    · intro eq
      have reserved := h.slots.entries t e i held
      rw [getElem_congr_coll (congrArg (fun b => (g.branch b).slots) eq), free] at reserved
      cases reserved
    · exact h.slots.headsApart y i t e old held
  · rw [(lists b).1]; exact (h.loose y l).1.slotWait b
  · rw [(same y).1]; exact (h.loose y l).2

theorem loose_reserve {tag : Byte} {k : SlotNo} {y : StreamId} (h : g.Loose y) : (g.reserve x tag k).Loose y where
  slotWait := fun b => by
    have : ((g.reserve x tag k).branch b).slotWait = (g.branch b).slotWait := by
      show ((g.setSlot (branchOf x) k (.reserved (numberOf x) tag)).branch b).slotWait = _
      rw [Gate.setSlot, Gate.branch_modBranch]; split
      · subst_vars; rfl
      · rfl
    rw [this]; exact h.slotWait b
  walkWaiting := h.walkWaiting
  waiters := h.waiters

/-- An answer fills a slot that nobody holds. -/
theorem holds_placeAnswer {k : SlotNo} {tag : Byte} {status : AnswerStatus} {payload : List Byte} (h : g.Holds L)
    (spare : g.Spare (branchOf x) k) (empty : (g.branch (branchOf x)).slots[k.val] ≠ .occupied) :
    (g.placeAnswer x k tag status payload).Holds L := by
  rw [placeAnswer_eq]
  have port (b : BranchNo) : (g.withAnswer x k tag status payload).branch b =
      if branchOf x = b then
        { g.branch (branchOf x) with
          slots := (g.branch (branchOf x)).slots.set k.val .occupied
          egressAnswers := (g.branch (branchOf x)).egressAnswers ++ [⟨k, numberOf x, tag, status, payload⟩] }
      else g.branch b := by
    simp [Gate.withAnswer, Gate.branch, Vector.getElem_set, Fin.ext_iff]
  have list (b : BranchNo) : ((g.withAnswer x k tag status payload).branch b).slotWait = (g.branch b).slotWait := by
    rw [port]; split
    · subst_vars; rfl
    · rfl
  have kept (b : BranchNo) (i : SlotNo) (ne : branchOf x = b → i ≠ k) :
      ((g.withAnswer x k tag status payload).branch b).slots[i.val] = (g.branch b).slots[i.val] := by
    rw [getElem_congr_coll (congrArg Branch.slots (port b))]
    split
    · rename_i e
      subst e
      rw [Vector.getElem_set, if_neg fun eq => ne rfl (Fin.ext eq.symm)]
    · rfl
  have answers (b : BranchNo) (ne : branchOf x ≠ b) :
      ((g.withAnswer x k tag status payload).branch b).egressAnswers = (g.branch b).egressAnswers := by
    rw [port, if_neg ne]
  have here : ((g.withAnswer x k tag status payload).branch (branchOf x)).egressAnswers =
      (g.branch (branchOf x)).egressAnswers ++ [⟨k, numberOf x, tag, status, payload⟩] := by
    rw [port, if_pos rfl]
  have filled : ((g.withAnswer x k tag status payload).branch (branchOf x)).slots[k.val] = .occupied := by
    rw [getElem_congr_coll (congrArg Branch.slots (port _)), getElem_congr_coll (congrArg Branch.slots (if_pos rfl))]
    simp
  have others (a : EgressAnswer) (m : a ∈ (g.branch (branchOf x)).egressAnswers) : a.slot ≠ k := fun eq =>
    empty (eq ▸ h.slots.occupied _ a m)
  refine ⟨⟨h.heads.idle, fun b y m => ?_, fun b => ?_, h.heads.walkWaiting, h.heads.walkWaitingOnce, h.heads.waiters,
    h.heads.waitersOnce, h.heads.waitersApart⟩,
    ⟨fun b a m => ?_, fun b => ?_, fun y i e => ?_, fun t e i held => ?_, h.slots.headsApart, h.slots.entriesApart⟩,
    fun y l => ⟨⟨fun b => ?_, (h.loose y l).1.walkWaiting, (h.loose y l).1.waiters⟩, (h.loose y l).2⟩⟩
  · rw [list] at m; exact h.heads.slotWait b y m
  · rw [list]; exact h.heads.slotWaitOnce b
  · by_cases eq : branchOf x = b
    · subst eq
      rw [here, List.mem_append, List.mem_singleton] at m
      rcases m with m | rfl
      · rw [kept _ a.slot fun _ => others a m]; exact h.slots.occupied _ a m
      · exact filled
    · rw [answers b eq] at m
      rw [kept b a.slot fun e => absurd e eq]; exact h.slots.occupied b a m
  · by_cases eq : branchOf x = b
    · subst eq
      rw [here, List.map_append, List.nodup_append]
      refine ⟨h.slots.occupiedOnce _, by simp, fun i mi j mj e => ?_⟩
      simp only [List.map_cons, List.map_nil, List.mem_singleton] at mj
      obtain ⟨a, ma, rfl⟩ := List.mem_map.mp mi
      exact others a ma (e.trans mj)
    · rw [answers b eq]; exact h.slots.occupiedOnce b
  · obtain ⟨r, rest, queue, reserved⟩ := h.slots.heads y i e
    refine ⟨r, rest, queue, ?_⟩
    rw [kept (branchOf y) i fun eq ik => spare.heads y eq.symm (ik ▸ e)]; exact reserved
  · rw [kept (branchOf e.stream) i fun eq ik => spare.entries t e (ik ▸ held) eq.symm]
    exact h.slots.entries t e i held
  · rw [list]; exact (h.loose y l).1.slotWait b

theorem loose_placeAnswer {k : SlotNo} {tag : Byte} {status : AnswerStatus} {payload : List Byte} {y : StreamId}
    (h : g.Loose y) : (g.placeAnswer x k tag status payload).Loose y where
  slotWait := fun b => by
    have : ((g.placeAnswer x k tag status payload).branch b).slotWait = (g.branch b).slotWait := by
      rw [placeAnswer_eq]
      simp only [Gate.withAnswer, Gate.branch, Vector.getElem_set]
      split
      · rename_i e
        rw [getElem_congr_idx e]
      · rfl
    rw [this]; exact h.slotWait b
  walkWaiting := h.walkWaiting
  waiters := h.waiters

/-! ### Heads that begin to wait -/

/-- A head joins the slot-wait list of its branch. -/
theorem holds_waitSlot (h : g.Holds L) (nx : ¬ L x) (loose : g.Loose x) (queued : (g.stream x).queue ≠ []) :
    ((g.modBranch (branchOf x) fun y => { y with slotWait := y.slotWait ++ [x] }).setHead x .waitSlot).Holds L := by
  have port (b : BranchNo) : ((g.modBranch (branchOf x) fun y => { y with slotWait := y.slotWait ++ [x] }).setHead x
      .waitSlot).branch b = if branchOf x = b then
        { g.branch (branchOf x) with slotWait := (g.branch (branchOf x)).slotWait ++ [x] } else g.branch b := by
    show (g.modBranch (branchOf x) fun y => { y with slotWait := y.slotWait ++ [x] }).branch b = _
    rw [Gate.branch_modBranch]
  have stream (y : StreamId) : ((g.modBranch (branchOf x) fun y => { y with slotWait := y.slotWait ++ [x] }).setHead x
      .waitSlot).stream y = if x = y then { g.stream x with head := some .waitSlot } else g.stream y :=
    Gate.stream_setHead ..
  generalize gate : (g.modBranch (branchOf x) fun y => { y with slotWait := y.slotWait ++ [x] }).setHead x .waitSlot = g₁
    at port stream ⊢
  have walks : g₁.walks = g.walks ∧ g₁.walkWaiting = g.walkWaiting ∧ g₁.entries = g.entries := by
    subst gate; exact ⟨rfl, rfl, rfl⟩
  have ports (b : BranchNo) : (g₁.branch b).slots = (g.branch b).slots ∧
      (g₁.branch b).egressAnswers = (g.branch b).egressAnswers := by
    rw [port]; split
    · subst_vars; exact ⟨rfl, rfl⟩
    · exact ⟨rfl, rfl⟩
  have list (b : BranchNo) : (g₁.branch b).slotWait = (g.branch b).slotWait ++ if branchOf x = b then [x] else [] := by
    rw [port]; split
    · subst_vars; rfl
    · simp
  have other (y : StreamId) (ne : x ≠ y) : g₁.stream y = g.stream y := by rw [stream, if_neg ne]
  have same (y : StreamId) : (g₁.stream y).queue = (g.stream y).queue ∧ (g₁.stream y).slot = (g.stream y).slot := by
    rw [stream]; split
    · subst_vars; exact ⟨rfl, rfl⟩
    · exact ⟨rfl, rfl⟩
  have walk (i : WalkNo) : g₁.walk i = g.walk i := by simp [Gate.walk, walks.1]
  have held (t : RequestTag) (e : LiveEntry) (k : SlotNo) : g₁.EntryHolds t e k ↔ g.EntryHolds t e k := by
    simp [Gate.EntryHolds, Gate.entry, walks.2.2]
  refine ⟨⟨fun y e => ?_, fun b y m => ?_, fun b => ?_, fun y m => ?_, ?_, fun i w e y m => ?_, fun i w e => ?_,
    fun i j w v ne e e' => ?_⟩,
    ⟨fun b a m => ?_, fun b => ?_, fun y k e => ?_, fun t e k m => ?_, fun y k t e s m => ?_, fun t u e f k ne m m' => ?_⟩,
    fun y l => ⟨⟨fun b m => ?_, ?_, fun i w e => ?_⟩, ?_⟩⟩
  · rw [(same y).1] at e
    by_cases ne : x = y
    · subst ne; exact absurd e queued
    · rw [other y ne]; exact h.heads.idle y e
  · rw [list, List.mem_append] at m
    rcases m with m | m
    · rw [other y fun ne => loose.slotWait b (ne ▸ m)]; exact h.heads.slotWait b y m
    · split at m
      · rename_i eq
        rw [List.mem_singleton] at m
        subst m
        rw [stream, if_pos rfl]
        exact ⟨eq, rfl⟩
      · cases m
  · rw [list, List.nodup_append]
    refine ⟨h.heads.slotWaitOnce b, by split <;> simp, fun y my z mz e => ?_⟩
    split at mz
    · rw [List.mem_singleton] at mz
      exact loose.slotWait b (by rw [← mz, ← e]; exact my)
    · cases mz
  · rw [walks.2.1] at m
    rw [other y fun ne => loose.walkWaiting (ne ▸ m)]; exact h.heads.walkWaiting y m
  · rw [walks.2.1]; exact h.heads.walkWaitingOnce
  · rw [walk] at e
    rw [other y.stream fun ne => loose.waiters i w e y m ne.symm]; exact h.heads.waiters i w e y m
  · rw [walk] at e; exact h.heads.waitersOnce i w e
  · rw [walk] at e e'; exact h.heads.waitersApart i j w v ne e e'
  · rw [(ports b).2] at m
    rw [getElem_congr_coll (ports b).1]; exact h.slots.occupied b a m
  · rw [(ports b).2]; exact h.slots.occupiedOnce b
  · rw [(same y).2] at e
    obtain ⟨r, rest, queue, reserved⟩ := h.slots.heads y k e
    refine ⟨r, rest, (same y).1.trans queue, ?_⟩
    rw [getElem_congr_coll (ports _).1]; exact reserved
  · rw [getElem_congr_coll (ports _).1]; exact h.slots.entries t e k ((held t e k).mp m)
  · rw [(same y).2] at s
    exact h.slots.headsApart y k t e s ((held t e k).mp m)
  · exact h.slots.entriesApart t u e f k ne ((held t e k).mp m) ((held u f k).mp m')
  · rw [list, List.mem_append] at m
    rcases m with m | m
    · exact (h.loose y l).1.slotWait b m
    · split at m
      · rw [List.mem_singleton] at m; exact nx (m ▸ l)
      · cases m
  · rw [walks.2.1]; exact (h.loose y l).1.walkWaiting
  · rw [walk] at e; exact (h.loose y l).1.waiters i w e
  · rw [(same y).1]; exact (h.loose y l).2

/-- A head joins the waiters of a walk, or is the first of a new walk. -/
theorem holds_waitWalk {i : WalkNo} {w' : Walk} {generation : Word16} {old : List Waiter} (h : g.Holds L) (nx : ¬ L x)
    (loose : g.Loose x) (queued : (g.stream x).queue ≠ []) (waiters : w'.waiters = old ++ [⟨x, generation⟩])
    (before : old = [] ∨ ∃ w, g.walk i = .walking w ∧ old = w.waiters) :
    ((g.setWalk i (.walking w')).setHead x .waitWalk).Holds L := by
  have stream (y : StreamId) : ((g.setWalk i (.walking w')).setHead x .waitWalk).stream y =
      if x = y then { g.stream x with head := some .waitWalk } else g.stream y := Gate.stream_setHead ..
  have walk (j : WalkNo) : ((g.setWalk i (.walking w')).setHead x .waitWalk).walk j =
      if i = j then .walking w' else g.walk j := Gate.walk_setWalk ..
  generalize gate : (g.setWalk i (.walking w')).setHead x .waitWalk = g₁ at stream walk ⊢
  have parts : g₁.branches = g.branches ∧ g₁.walkWaiting = g.walkWaiting ∧ g₁.entries = g.entries := by
    subst gate; exact ⟨rfl, rfl, rfl⟩
  have branch (b : BranchNo) : g₁.branch b = g.branch b := by simp [Gate.branch, parts.1]
  have other (y : StreamId) (ne : x ≠ y) : g₁.stream y = g.stream y := by rw [stream, if_neg ne]
  have same (y : StreamId) : (g₁.stream y).queue = (g.stream y).queue ∧ (g₁.stream y).slot = (g.stream y).slot := by
    rw [stream]; split
    · subst_vars; exact ⟨rfl, rfl⟩
    · exact ⟨rfl, rfl⟩
  have held (t : RequestTag) (e : LiveEntry) (k : SlotNo) : g₁.EntryHolds t e k ↔ g.EntryHolds t e k := by
    simp [Gate.EntryHolds, Gate.entry, parts.2.2]
  -- A waiter of a walk is `x` in slot `i`, or was a waiter of that slot before.
  have cases (j : WalkNo) (v : Walk) (e : g₁.walk j = .walking v) (y : Waiter) (m : y ∈ v.waiters) :
      (i = j ∧ y.stream = x) ∨ ∃ u, g.walk j = .walking u ∧ y ∈ u.waiters := by
    rw [walk] at e
    split at e
    · rename_i eq
      injection e with e
      subst e eq
      rw [waiters, List.mem_append, List.mem_singleton] at m
      rcases m with m | rfl
      · rcases before with rfl | ⟨u, hu, rfl⟩
        · cases m
        · exact .inr ⟨u, hu, m⟩
      · exact .inl ⟨rfl, rfl⟩
    · exact .inr ⟨v, e, m⟩
  refine ⟨⟨fun y e => ?_, fun b y m => ?_, fun b => ?_, fun y m => ?_, ?_, fun j v e y m => ?_, fun j v e => ?_,
    fun j l v u ne e e' y my z mz => ?_⟩,
    ⟨fun b a m => ?_, fun b => ?_, fun y k e => ?_, fun t e k m => ?_, fun y k t e s m => ?_, fun t u e f k ne m m' => ?_⟩,
    fun y l => ⟨⟨fun b => ?_, ?_, fun j v e z m eq => ?_⟩, ?_⟩⟩
  · rw [(same y).1] at e
    by_cases ne : x = y
    · subst ne; exact absurd e queued
    · rw [other y ne]; exact h.heads.idle y e
  · rw [branch] at m
    rw [other y fun ne => loose.slotWait b (ne ▸ m)]; exact h.heads.slotWait b y m
  · rw [branch]; exact h.heads.slotWaitOnce b
  · rw [parts.2.1] at m
    rw [other y fun ne => loose.walkWaiting (ne ▸ m)]; exact h.heads.walkWaiting y m
  · rw [parts.2.1]; exact h.heads.walkWaitingOnce
  · rcases cases j v e y m with ⟨_, eq⟩ | ⟨u, hu, mu⟩
    · rw [eq, stream, if_pos rfl]
    · rw [other y.stream fun ne => loose.waiters j u hu y mu ne.symm]; exact h.heads.waiters j u hu y mu
  · rw [walk] at e
    split at e
    · rename_i eq
      injection e with e
      subst e eq
      rw [waiters, List.map_append, List.nodup_append]
      refine ⟨?_, by simp, fun a ma c mc e => ?_⟩
      · rcases before with rfl | ⟨u, hu, rfl⟩
        · simp
        · exact h.heads.waitersOnce i u hu
      · simp only [List.map_cons, List.map_nil, List.mem_singleton] at mc
        obtain ⟨y, my, rfl⟩ := List.mem_map.mp ma
        rcases before with rfl | ⟨u, hu, rfl⟩
        · cases my
        · exact loose.waiters i u hu y my (e.trans mc)
    · exact h.heads.waitersOnce j v e
  · rcases cases j v e y my with ⟨ij, yx⟩ | ⟨v₀, hv, mv⟩ <;> rcases cases l u e' z mz with ⟨il, zx⟩ | ⟨u₀, hu, mu⟩
    · exact absurd (ij.symm.trans il) ne
    · rw [yx]; exact fun eq => loose.waiters l u₀ hu z mu eq.symm
    · rw [zx]; exact loose.waiters j v₀ hv y mv
    · exact h.heads.waitersApart j l v₀ u₀ ne hv hu y mv z mu
  · rw [branch] at m
    rw [getElem_congr_coll (congrArg Branch.slots (branch b))]; exact h.slots.occupied b a m
  · rw [branch]; exact h.slots.occupiedOnce b
  · rw [(same y).2] at e
    obtain ⟨r, rest, queue, reserved⟩ := h.slots.heads y k e
    refine ⟨r, rest, (same y).1.trans queue, ?_⟩
    rw [getElem_congr_coll (congrArg Branch.slots (branch _))]; exact reserved
  · rw [getElem_congr_coll (congrArg Branch.slots (branch _))]; exact h.slots.entries t e k ((held t e k).mp m)
  · rw [(same y).2] at s
    exact h.slots.headsApart y k t e s ((held t e k).mp m)
  · exact h.slots.entriesApart t u e f k ne ((held t e k).mp m) ((held u f k).mp m')
  · rw [branch]; exact (h.loose y l).1.slotWait b
  · rw [parts.2.1]; exact (h.loose y l).1.walkWaiting
  · rcases cases j v e z m with ⟨_, zx⟩ | ⟨u, hu, mu⟩
    · exact nx ((zx.symm.trans eq) ▸ l)
    · exact (h.loose y l).1.waiters j u hu z mu eq
  · rw [(same y).1]; exact (h.loose y l).2

/-- A head joins the walk waiting list. -/
theorem holds_waitWalkSlot (h : g.Holds L) (nx : ¬ L x) (loose : g.Loose x) (queued : (g.stream x).queue ≠ []) :
    ({ g with walkWaiting := g.walkWaiting ++ [x] }.setHead x .waitWalkSlot).Holds L := by
  have stream (y : StreamId) : (({ g with walkWaiting := g.walkWaiting ++ [x] } : Gate).setHead x .waitWalkSlot).stream y =
      if x = y then { g.stream x with head := some .waitWalkSlot } else g.stream y := Gate.stream_setHead ..
  have other (y : StreamId) (ne : x ≠ y) :
      (({ g with walkWaiting := g.walkWaiting ++ [x] } : Gate).setHead x .waitWalkSlot).stream y = g.stream y := by
    rw [stream, if_neg ne]
  have same (y : StreamId) :
      ((({ g with walkWaiting := g.walkWaiting ++ [x] } : Gate).setHead x .waitWalkSlot).stream y).queue =
        (g.stream y).queue ∧
      ((({ g with walkWaiting := g.walkWaiting ++ [x] } : Gate).setHead x .waitWalkSlot).stream y).slot =
        (g.stream y).slot := by
    rw [stream]; split
    · subst_vars; exact ⟨rfl, rfl⟩
    · exact ⟨rfl, rfl⟩
  refine ⟨⟨fun y e => ?_, fun b y m => ?_, h.heads.slotWaitOnce, fun y m => ?_, ?_, fun i w e y m => ?_,
    h.heads.waitersOnce, h.heads.waitersApart⟩,
    ⟨h.slots.occupied, h.slots.occupiedOnce, fun y k e => ?_, h.slots.entries, fun y k t e s => ?_, h.slots.entriesApart⟩,
    fun y l => ⟨⟨(h.loose y l).1.slotWait, ?_, (h.loose y l).1.waiters⟩, ?_⟩⟩
  · rw [(same y).1] at e
    by_cases ne : x = y
    · subst ne; exact absurd e queued
    · rw [other y ne]; exact h.heads.idle y e
  · rw [other y fun ne => loose.slotWait b (ne ▸ m)]; exact h.heads.slotWait b y m
  · change y ∈ g.walkWaiting ++ [x] at m
    rw [List.mem_append, List.mem_singleton] at m
    rcases m with m | rfl
    · rw [other y fun ne => loose.walkWaiting (ne ▸ m)]; exact h.heads.walkWaiting y m
    · rw [stream, if_pos rfl]
  · show (g.walkWaiting ++ [x]).Nodup
    rw [List.nodup_append]
    refine ⟨h.heads.walkWaitingOnce, by simp, fun y my z mz e => ?_⟩
    rw [List.mem_singleton] at mz
    exact loose.walkWaiting (by rw [← mz, ← e]; exact my)
  · rw [other y.stream fun ne => loose.waiters i w e y m ne.symm]; exact h.heads.waiters i w e y m
  · rw [(same y).2] at e
    obtain ⟨r, rest, queue, reserved⟩ := h.slots.heads y k e
    exact ⟨r, rest, (same y).1.trans queue, reserved⟩
  · rw [(same y).2] at s
    exact h.slots.headsApart y k t e s
  · show y ∉ g.walkWaiting ++ [x]
    rw [List.mem_append, List.mem_singleton]
    rintro (m | rfl)
    · exact (h.loose y l).1.walkWaiting m
    · exact nx l
  · rw [(same y).1]; exact (h.loose y l).2

end Sys2Proof.Machine
end

