-- ==== Sys2Proof/Laws/KeepsHeads.lean ====
section
/-! SUPPORT. Every command keeps the heads, their waiting lists and the answer slots sound (R33, R54, R58): each operation that
moves a head is followed with the streams whose heads it finds on no list. -/

namespace Sys2Proof.Machine

-- One proof after the other: side by side, the many short proofs of this file hold more threads than a check allows.
set_option Elab.async false

variable {g g' : Gate} {L : StreamId → Prop} {x : StreamId}

theorem quiet_count (c : ContextNo) (f : ContextCounters → ContextCounters) : Quiet g (g.count c f) :=
  (reaches_count (K := [.inner]) c f).quiet

theorem quiet_countBranch (b : BranchNo) (f : BranchCounters → BranchCounters) : Quiet g (g.countBranch b f) :=
  (reaches_countBranch (K := [.inner]) b f).quiet

/-! ### The check of a head -/

theorem holds_handleMiss (h : g.Holds L) (nx : ¬ L x) (loose : g.Loose x) (queued : (g.stream x).queue ≠ [])
    (c : ContextNo) (page : Nat) : (g.handleMiss x c page).Holds L := by
  unfold Gate.handleMiss
  split
  · unfold Gate.joinWalk
    split
    · rename_i w hw
      exact holds_waitWalk h nx loose queued rfl (.inr ⟨w, hw, rfl⟩)
    · exact h
  · split
    · unfold Gate.startWalk
      exact Gate.Holds.quiet (holds_waitWalk h nx loose queued (old := []) rfl (.inl rfl)) (quiet_count _ _)
    · exact holds_waitWalkSlot h nx loose queued

/-- What a check of the head of a stream leaves: where it stays, it may have joined a list; where it is refused, nothing has
moved. -/
abbrev HeadOutcome.Holds (g : Gate) (L : StreamId → Prop) : HeadOutcome → Prop
  | .stays g' => g'.Holds L
  | .refused g' _ => Quiet g g' ∧ g'.streams = g.streams

theorem holds_checkHead (h : g.Holds L) (nx : ¬ L x) (loose : g.Loose x) (queued : (g.stream x).queue ≠ []) (r : Request) :
    (g.checkHead x r).Holds g L := by
  unfold Gate.checkHead
  split
  · exact ⟨.refl, rfl⟩
  · exact holds_setHead h loose queued
  · rename_i c _
    unfold Gate.lookup
    dsimp only
    split
    · exact ⟨.refl, rfl⟩
    split
    · exact ⟨.refl, rfl⟩
    split
    · exact ⟨.refl, rfl⟩
    split
    · split
      · exact holds_setHead (h.quiet ((quiet_count c _).trans (quiet_count c _)))
          (((quiet_count c _).trans (quiet_count c _)).keeps_loose loose) queued
      · exact ⟨(quiet_count c _).trans (quiet_count c _), rfl⟩
    · exact holds_handleMiss (h.quiet (quiet_count c _)) nx ((quiet_count c _).keeps_loose loose) queued _ _

/-! ### Leaving the queue -/

/-- A head that leaves its queue. -/
theorem holds_cleared {rest : List Request} (h : g.Holds L) (nx : ¬ L x) (loose : g.Loose x) :
    (g.modStream x fun y => { y with queue := rest, head := none, slot := none }).Holds L :=
  holds_modStream h loose (fun _ => rfl) (fun l => absurd l nx) fun _ e => by cases e

/-- The slot of a head is no one else's once the head has left. -/
theorem spare_cleared {rest : List Request} {k : SlotNo} (h : g.SlotsSound) (slot : (g.stream x).slot = some k) :
    (g.modStream x fun y => { y with queue := rest, head := none, slot := none }).Spare (branchOf x) k := by
  refine ⟨fun y eq e => ?_, fun t e held => h.headsApart x k t e slot held⟩
  rw [Gate.stream_modStream] at e
  split at e
  · cases e
  · rename_i ne
    obtain ⟨r, _, _, mine⟩ := h.heads x k slot
    obtain ⟨r', _, _, other⟩ := h.heads y k e
    rw [getElem_congr_coll (congrArg (fun b => (g.branch b).slots) eq), mine] at other
    injection other with number
    refine ne (Fin.ext ?_)
    have := congrArg Fin.val number
    have := congrArg Fin.val eq
    simp only [numberOf, branchOf] at *
    omega

theorem quiet_leaving {rest : List Request} {f : FaultReport} {c : BranchCounters → BranchCounters} {a a' : Gate}
    (streams : a'.streams = (a.modStream x fun y => { y with queue := rest, head := none, slot := none }).streams)
    (branches : a'.branches = a.branches) (waiting : a'.walkWaiting = a.walkWaiting) (walks : a'.walks = a.walks)
    (entries : a'.entries = a.entries) :
    Quiet a' (((a.offerFault f).leaveQueue x rest).countBranch (branchOf x) c) := by
  refine .of ?_ ?_ ?_ ?_ ?_
  · simp [Gate.leaveQueue, streams, Gate.modStream, Gate.stream]
  · have offered : SamePorts a' (a.offerFault f) := samePorts_of_branches (by simp [branches])
    have left : SamePorts (a.offerFault f) ((a.offerFault f).leaveQueue x rest) :=
      SamePorts.trans (samePorts_of_branches (g' := (a.offerFault f).modStream x _) rfl) samePorts_modLink
    exact (offered.trans left).trans (samePorts_modBranch ⟨rfl, rfl, rfl⟩)
  · simp [waiting]
  · simp [walks]
  · simp [entries]

/-- A refused head leaves, and its slot, if it has one, is filled (R62). -/
theorem holds_refuseHead {r : Request} {rest : List Request} (h : g.Holds L) (nx : ¬ L x) (loose : g.Loose x)
    (f : FaultReport) : (g.refuseHead x r rest f).Holds L ∧ (g.refuseHead x r rest f).Loose x := by
  have cleared := holds_cleared (rest := rest) h nx loose
  have bare : (((g.offerFault f).leaveQueue x rest).countBranch (branchOf x) fun y => { y with refused := y.refused + 1 }).Holds
        L ∧
      (((g.offerFault f).leaveQueue x rest).countBranch (branchOf x) fun y => { y with refused := y.refused + 1 }).Loose x :=
    have q := quiet_leaving (a := g) (a' := g.modStream x fun y => { y with queue := rest, head := none, slot := none })
      (f := f) (c := fun y => { y with refused := y.refused + 1 }) rfl rfl rfl rfl rfl
    ⟨cleared.quiet q, q.keeps_loose (loose_modStream loose)⟩
  unfold Gate.refuseHead
  dsimp only
  split
  · exact bare
  · cases slot : (g.stream x).slot with
    | none => exact bare
    | some k =>
      have empty : (g.branch (branchOf x)).slots[k.val] ≠ .occupied := by
        obtain ⟨_, _, _, reserved⟩ := h.slots.heads x k slot
        rw [reserved]; simp
      have q := quiet_leaving (a := g.placeAnswer x k r.tag .denied [])
        (a' := (g.modStream x fun y => { y with queue := rest, head := none, slot := none }).placeAnswer x k r.tag .denied [])
        (f := f) (c := fun y => { y with refused := y.refused + 1 }) (rest := rest) (x := x) rfl rfl rfl rfl rfl
      exact ⟨(holds_placeAnswer cleared (spare_cleared h.slots slot) empty).quiet q,
        q.keeps_loose (loose_placeAnswer (loose_modStream loose))⟩

/-! ### Heads that begin -/

/-- What an admission leaves: the head waits, or it goes on with what it holds. -/
abbrev Admission.Holds (L : StreamId → Prop) (x : StreamId) (queue : List Request) : Admission → Prop
  | .waits g' => g'.Holds L
  | .admitted g' => g'.Holds L ∧ g'.Loose x ∧ (g'.stream x).queue = queue

theorem holds_admitHead {r : Request} {rest : List Request} (h : g.Holds L) (nx : ¬ L x) (loose : g.Loose x)
    (queued : (g.stream x).queue = r :: rest) :
    (g.admitHead x r).Holds L x (r :: rest) := by
  have nonempty : (g.stream x).queue ≠ [] := by rw [queued]; simp
  unfold Gate.admitHead
  dsimp only
  split
  · exact ⟨holds_setHead h loose nonempty, loose_modStream loose, by rw [queue_stream_setHead]; exact queued⟩
  · split
    · rename_i k _ free
      have free' : (g.branch (branchOf x)).slots[k.val] = .free := by simpa using lowest_some free
      have queue : ((g.reserve x r.tag k).stream x).queue = r :: rest := (queue_reserve x r.tag k x).trans queued
      exact ⟨holds_setHead (holds_reserve h free' queued) (loose_reserve loose) (by rw [queue]; simp),
        loose_modStream (loose_reserve loose), by rw [queue_stream_setHead]; exact queue⟩
    · exact holds_waitSlot h nx loose nonempty

/-- The requests of a stream begin one after the other (R52, R54). -/
theorem holds_startHeads (queue : List Request) (g : Gate) (h : g.Holds L) (nx : ¬ L x) (loose : g.Loose x)
    (queued : (g.stream x).queue = queue) : (Gate.startHeads x queue g).Holds L := by
  induction queue generalizing g with
  | nil => exact h
  | cons r rest ih =>
    unfold Gate.startHeads
    have admitted := holds_admitHead h nx loose queued
    split
    · rename_i e; rw [e] at admitted; exact admitted
    · rename_i g₁ e
      rw [e] at admitted
      obtain ⟨h₁, loose₁, queued₁⟩ := admitted
      have checked := holds_checkHead h₁ nx loose₁ (by rw [queued₁]; simp) r
      split
      · rename_i e; rw [e] at checked; exact checked
      · rename_i g₂ f e
        rw [e] at checked
        have refused := holds_refuseHead (r := r) (rest := rest) (h₁.quiet checked.1) nx (checked.1.keeps_loose loose₁) f
        exact ih _ refused.1 refused.2 (queue_refuseHead x r rest f)

theorem holds_refuseAndGoOn (h : g.Holds L) (nx : ¬ L x) (loose : g.Loose x) (f : FaultReport) :
    (g.refuseAndGoOn x f).Holds L := by
  unfold Gate.refuseAndGoOn
  split
  · exact h
  · rename_i r rest queued
    have refused := holds_refuseHead (r := r) (rest := rest) h nx loose f
    exact holds_startHeads rest _ refused.1 nx refused.2 (queue_refuseHead x r rest f)

/-- A head that is on no list is checked again (R53). -/
theorem holds_recheckHead (h : g.Holds L) (nx : ¬ L x) (loose : g.Loose x) : (g.recheckHead x).Holds L := by
  unfold Gate.recheckHead
  split
  · exact h
  · rename_i r rest queued
    have nonempty : (g.stream x).queue ≠ [] := by rw [queued]; simp
    have h₁ := holds_setHead (s := .translating) h loose nonempty
    have loose₁ : (g.setHead x .translating).Loose x := loose_modStream loose
    have checked := holds_checkHead h₁ nx loose₁ (by rw [queue_stream_setHead]; exact nonempty) r
    split
    · rename_i e; rw [e] at checked; exact checked
    · rename_i g₂ f e
      rw [e] at checked
      exact holds_refuseAndGoOn (h₁.quiet checked.1) nx (checked.1.keeps_loose loose₁) f

/-! ### The walk waiting list -/

/-- A gate whose walk waiting list has grown at its tail, or is the same. -/
def Grows (g g' : Gate) : Prop := ∃ more, g'.walkWaiting = g.walkWaiting ++ more

theorem Grows.refl : Grows g g := ⟨[], by simp⟩

theorem Grows.of (h : g'.walkWaiting = g.walkWaiting) : Grows g g' := ⟨[], by simp [h]⟩

theorem Grows.trans {a b c : Gate} (h : Grows a b) (h' : Grows b c) : Grows a c := by
  obtain ⟨m, e⟩ := h
  obtain ⟨m', e'⟩ := h'
  exact ⟨m ++ m', by rw [e', e, List.append_assoc]⟩

theorem grows_checkHead (x : StreamId) (r : Request) : Grows g (g.checkHead x r).gate := by
  unfold Gate.checkHead Gate.lookup Gate.handleMiss Gate.joinWalk Gate.startWalk
  dsimp only
  repeat' split
  all_goals first
    | exact .of rfl
    | exact ⟨[x], rfl⟩

theorem grows_refuseHead (r : Request) (rest : List Request) (f : FaultReport) : Grows g (g.refuseHead x r rest f) := by
  refine .of ?_
  unfold Gate.refuseHead Gate.placeAnswerIn
  dsimp only
  repeat' split
  all_goals simp [Gate.placeAnswer, Gate.setSlot]

theorem grows_admitHead (r : Request) : Grows g (g.admitHead x r).gate := by
  unfold Gate.admitHead
  dsimp only
  repeat' split
  all_goals exact .of rfl

theorem grows_startHeads (queue : List Request) (g : Gate) : Grows g (Gate.startHeads x queue g) := by
  induction queue generalizing g with
  | nil => exact .refl
  | cons r rest ih =>
    unfold Gate.startHeads
    have admitted := grows_admitHead (g := g) (x := x) r
    split
    · rename_i e; rw [e] at admitted; exact admitted
    · rename_i g₁ e
      rw [e] at admitted
      have checked := grows_checkHead (g := g₁) x r
      split
      · rename_i e; rw [e] at checked; exact admitted.trans checked
      · rename_i g₂ f e
        rw [e] at checked
        exact (admitted.trans checked).trans ((grows_refuseHead r rest f).trans (ih _))

theorem grows_recheckHead (x : StreamId) : Grows g (g.recheckHead x) := by
  unfold Gate.recheckHead
  split
  · exact .refl
  · rename_i r rest queued
    have checked := grows_checkHead (g := g.setHead x .translating) x r
    split
    · rename_i e; rw [e] at checked; exact checked
    · rename_i g₁ f e
      rw [e] at checked
      refine Grows.trans (b := g₁) checked ?_
      unfold Gate.refuseAndGoOn
      split
      · exact .refl
      · exact (grows_refuseHead _ _ _).trans (grows_startHeads _ _)

/-- The front of the walk waiting list leaves it, and is then on no list. -/
theorem holds_popWaiting {rest : List StreamId} (h : g.Holds L) (waiting : g.walkWaiting = x :: rest) :
    ({ g with walkWaiting := rest } : Gate).Holds L ∧ ({ g with walkWaiting := rest } : Gate).Loose x ∧ ¬ L x := by
  have once := h.heads.walkWaitingOnce
  rw [waiting, List.nodup_cons] at once
  have mine := h.heads.walkWaiting x (by simp [waiting])
  refine ⟨⟨⟨h.heads.idle, h.heads.slotWait, h.heads.slotWaitOnce, fun y m => ?_, once.2, h.heads.waiters,
    h.heads.waitersOnce, h.heads.waitersApart⟩, ⟨h.slots.occupied, h.slots.occupiedOnce, h.slots.heads, h.slots.entries,
      h.slots.headsApart, h.slots.entriesApart⟩, fun y l => ⟨⟨(h.loose y l).1.slotWait, fun m => ?_,
        (h.loose y l).1.waiters⟩, (h.loose y l).2⟩⟩, ⟨fun b m => ?_, once.1, fun i w e y m eq => ?_⟩, fun l => ?_⟩
  · exact h.heads.walkWaiting y (by rw [waiting]; exact List.mem_cons_of_mem _ m)
  · exact (h.loose y l).1.walkWaiting (by rw [waiting]; exact List.mem_cons_of_mem _ m)
  · have := (h.heads.slotWait b x m).2
    rw [mine] at this; cases this
  · have := h.heads.waiters i w e y m
    rw [eq, mine] at this; cases this
  · exact (h.loose x l).1.walkWaiting (by simp [waiting])

/-- The walk waiting list is served (R34). -/
theorem holds_serveHeads (waiting : List StreamId) (g : Gate) (h : g.Holds L)
    (listed : ∃ more, g.walkWaiting = waiting ++ more) : (Gate.serveHeads waiting g).Holds L := by
  induction waiting generalizing g with
  | nil => exact h
  | cons x rest ih =>
    unfold Gate.serveHeads
    split
    · obtain ⟨more, list⟩ := listed
      have popped := holds_popWaiting h (rest := rest ++ more) (by rw [list]; rfl)
      have tail : g.walkWaiting.tail = rest ++ more := by rw [list]; rfl
      rw [tail]
      refine ih _ (holds_recheckHead popped.1 popped.2.2 popped.2.1) ?_
      obtain ⟨more', grown⟩ := grows_recheckHead (g := ({ g with walkWaiting := rest ++ more } : Gate)) x
      exact ⟨more ++ more', by rw [grown, List.append_assoc]⟩
    · exact h

theorem holds_serveWaiting (h : g.Holds L) : g.serveWaiting.Holds L :=
  holds_serveHeads _ _ h ⟨[], by simp⟩

/-! ### Walks -/

/-- A walk slot that stops WALKING. -/
theorem holds_setWalk {i : WalkNo} {v : WalkSlot} (h : g.Holds L) (ended : ∀ w, v ≠ .walking w) : (g.setWalk i v).Holds L := by
  have walk (j : WalkNo) (w : Walk) (e : (g.setWalk i v).walk j = .walking w) : g.walk j = .walking w := by
    rw [Gate.walk_setWalk] at e
    split at e
    · exact absurd e (ended w)
    · exact e
  exact ⟨⟨h.heads.idle, h.heads.slotWait, h.heads.slotWaitOnce, h.heads.walkWaiting, h.heads.walkWaitingOnce,
    fun j w e => h.heads.waiters j w (walk j w e), fun j w e => h.heads.waitersOnce j w (walk j w e),
    fun j l w u ne e e' => h.heads.waitersApart j l w u ne (walk j w e) (walk l u e')⟩,
    ⟨h.slots.occupied, h.slots.occupiedOnce, h.slots.heads, h.slots.entries, h.slots.headsApart, h.slots.entriesApart⟩,
    fun y l => ⟨⟨(h.loose y l).1.slotWait, (h.loose y l).1.walkWaiting, fun j w e => (h.loose y l).1.waiters j w (walk j w e)⟩,
      (h.loose y l).2⟩⟩

/-- The streams that wait on a walk. -/
abbrev Walk.Waits (w : Walk) (x : StreamId) : Prop := x ∈ w.waiters.map Waiter.stream

/-- The waiters of a walk that ends are on no list. -/
theorem holds_endWaiting {i : WalkNo} {w : Walk} {v : WalkSlot} (h : g.Holds fun _ => False) (walking : g.walk i = .walking w)
    (ended : ∀ w, v ≠ .walking w) : (g.setWalk i v).Holds w.Waits := by
  have base := holds_setWalk (i := i) h ended
  refine ⟨base.heads, base.slots, fun x m => ?_⟩
  obtain ⟨y, my, rfl⟩ := List.mem_map.mp m
  have mine := h.heads.waiters i w walking y my
  refine ⟨⟨fun b mb => ?_, fun mw => ?_, fun j u e z mz eq => ?_⟩, fun empty => ?_⟩
  · have := (h.heads.slotWait b y.stream mb).2
    rw [mine] at this; cases this
  · have := h.heads.walkWaiting y.stream mw
    rw [mine] at this; cases this
  · rw [Gate.walk_setWalk] at e
    split at e
    · exact ended u e
    · rename_i ne
      exact h.heads.waitersApart i j w u ne walking e y my z mz eq.symm
  · have := h.heads.idle y.stream empty
    rw [mine] at this; cases this

theorem holds_settleMatching (h : g.Holds L) (l : L x) (c : ContextNo) (result : WalkResult) :
    (g.settleMatching c result x).Holds fun y => L y ∧ y ≠ x := by
  have less : g.Holds fun y => L y ∧ y ≠ x := h.weaken fun _ l => l.1
  have loose := (h.loose x l).1
  unfold Gate.settleMatching
  split
  · exact less
  · rename_i queued
    split
    · exact less
    · exact holds_refuseAndGoOn less (fun l => l.2 rfl) loose _
    · split
      · exact holds_refuseAndGoOn less (fun l => l.2 rfl) loose _
      · exact holds_setHead less loose (h.loose x l).2

/-- The waiters of a walk that has ended are settled or marked for return (R41, step 2). -/
theorem holds_settleWaiters (c : ContextNo) (result : WalkResult) (ws : List Waiter) (g : Gate) (L : StreamId → Prop)
    (h : g.Holds L) (mine : ∀ w ∈ ws, L w.stream) (once : (ws.map Waiter.stream).Nodup) :
    let settled := Gate.settleWaiters c result ws g
    (settled.1.Holds fun x => x ∈ settled.2 ∨ (L x ∧ x ∉ ws.map Waiter.stream)) ∧
      settled.2.Sublist (ws.map Waiter.stream) := by
  induction ws generalizing g L with
  | nil => exact ⟨h.weaken fun x l => by rcases l with l | l <;> [cases l; exact l.1], List.Sublist.refl _⟩
  | cons w ws ih =>
    rw [List.map_cons, List.nodup_cons] at once
    have lw := mine w (by simp)
    unfold Gate.settleWaiters
    dsimp only
    split
    · have next := ih (g.setHead w.stream .translating) L (holds_setHead h (h.loose _ lw).1 (h.loose _ lw).2)
        (fun v m => mine v (List.mem_cons_of_mem _ m)) once.2
      refine ⟨next.1.weaken fun x l => ?_, next.2.cons_cons _⟩
      rcases l with l | l
      · rw [List.mem_cons] at l
        rcases l with rfl | l
        · exact .inr ⟨lw, once.1⟩
        · exact .inl l
      · exact .inr ⟨l.1, fun m => l.2 (by simp [List.mem_map.mp m])⟩
    · have next := ih (g.settleMatching c result w.stream) (fun y => L y ∧ y ≠ w.stream) (holds_settleMatching h lw c result)
        (fun v m => ⟨mine v (List.mem_cons_of_mem _ m), fun eq => once.1 (eq ▸ List.mem_map_of_mem m)⟩) once.2
      refine ⟨next.1.weaken fun x l => ?_, next.2.cons _⟩
      rcases l with l | l
      · exact .inl l
      · rw [List.map_cons, List.mem_cons, not_or] at l
        exact .inr ⟨⟨l.1, l.2.1⟩, l.2.2⟩

/-- The marked heads are looked up one after the other (R41, step 6). -/
theorem holds_recheckAll (l : List StreamId) (g : Gate) (h : g.Holds (· ∈ l)) (once : l.Nodup) :
    (Gate.recheckAll l g).Holds fun _ => False := by
  induction l generalizing g with
  | nil => exact h.weaken fun _ => False.elim
  | cons x rest ih =>
    rw [List.nodup_cons] at once
    exact ih _ (holds_recheckHead (h.weaken fun _ m => List.mem_cons_of_mem _ m) once.1 (h.loose x (by simp)).1) once.2

theorem quiet_installResult (walk : Walk) (result : WalkResult) : Quiet g (g.installResult walk result) := by
  unfold Gate.installResult
  repeat' split
  all_goals first
    | exact .refl
    | exact .of (by simp) (samePorts_of_branches (by unfold Gate.install; split <;> rfl)) (by simp) (by simp) (by simp)

theorem walks_installResult (walk : Walk) (result : WalkResult) : (g.installResult walk result).walks = g.walks := by
  unfold Gate.installResult
  repeat' split
  all_goals simp

/-- The waiters of a walk that ends: those returned are on no list, each once. -/
theorem holds_settleWalk {i : WalkNo} {w : Walk} (h : g.Holds fun _ => False) (walking : g.walk i = .walking w)
    (result : WalkResult) :
    let settled := g.settleWalk i w result
    settled.1.Holds (· ∈ settled.2) ∧ settled.2.Nodup := by
  have once := h.heads.waitersOnce i w walking
  have installed := h.quiet (quiet_installResult w result)
  have walking' : (g.installResult w result).walk i = .walking w := by
    rw [Gate.walk, getElem_congr_coll (walks_installResult w result)]; exact walking
  have ended := holds_endWaiting (v := .quarantined g.exponent) installed walking' (by simp)
  have settled := holds_settleWaiters w.context result w.waiters _ _ ended (fun v m => List.mem_map_of_mem m) once
  exact ⟨settled.1.weaken fun _ m => .inl m, settled.2.nodup once⟩

theorem quiet_judgeDrain (c : ContextNo) : Quiet g (g.judgeDrain c) := (reaches_judgeDrain c).quiet

theorem quiet_countGate (f : GateCounters → GateCounters) : Quiet g (g.countGate f) :=
  (reaches_countGate (K := [.inner]) f).quiet

theorem holds_endWalk {i : WalkNo} {w : Walk} (h : g.Holds fun _ => False) (walking : g.walk i = .walking w)
    (result : WalkResult) : (g.endWalk i w result).Holds fun _ => False := by
  have settled := holds_settleWalk h walking result
  exact holds_recheckAll _ _ (holds_serveWaiting ((holds_setWalk settled.1 (by simp)).quiet (quiet_judgeDrain _))) settled.2

theorem holds_expireWalk {i : WalkNo} {w : Walk} (h : g.Holds fun _ => False) (walking : g.walk i = .walking w) :
    (g.expireWalk i w).Holds fun _ => False := by
  have settled := holds_settleWalk h walking (.failed .timeout)
  exact holds_recheckAll _ _ (settled.1.quiet (quiet_judgeDrain _)) settled.2

theorem holds_takeWalkAnswer (h : g.Holds fun _ => False) (i : WalkNo) (a : Answer) :
    (g.takeWalkAnswer i a).Holds fun _ => False := by
  unfold Gate.takeWalkAnswer
  split
  · exact h.quiet (quiet_countGate _)
  · exact holds_serveWaiting ((holds_setWalk h (by simp)).quiet (quiet_countGate _))
  · rename_i w walking
    split
    · exact h.quiet (quiet_countGate _)
    · split
      · exact h.quiet (quiet_countGate _)
      · exact holds_endWalk h walking _

/-! ### The outstanding table -/

theorem quiet_setEntry (t : RequestTag) (e : Entry) (follows : (g.entry t).Follows e) : Quiet g (g.setEntry t e) :=
  (reaches_setEntry t e follows).quiet

/-- An entry that leaves LIVE has its answer placed in the slot it held (R81, R82). -/
theorem holds_leaveLive {t : RequestTag} {e : LiveEntry} {z : Entry} (h : g.Holds L) (live : g.entry t = .live e)
    (left : (Entry.live e).Follows z) (dead : ∀ e', z ≠ .live e') (status : AnswerStatus) (payload : List Byte) :
    ((g.setEntry t z).answerEntry e status payload).Holds L := by
  have base := h.quiet (quiet_setEntry t z (live ▸ left))
  unfold Gate.answerEntry
  split
  · exact base
  rename_i young
  cases slot : e.slot with
  | none => exact base
  | some k =>
    have held : g.EntryHolds t e k := ⟨live, by simpa using young, slot⟩
    have reserved := h.slots.entries t e k held
    refine holds_placeAnswer base ⟨fun y eq s => ?_, fun u f holds => ?_⟩ ?_
    · exact h.slots.headsApart y k t e s held eq.symm
    · obtain ⟨alive, young', slot'⟩ := holds
      rw [Gate.entry_setEntry] at alive
      split at alive
      · exact absurd alive (dead f)
      · rename_i ne
        exact (h.slots.entriesApart t u e f k ne held ⟨alive, young', slot'⟩).symm
    · change (g.branch (branchOf e.stream)).slots[k.val] ≠ .occupied
      rw [reserved]; simp

theorem quiet_reportLeft (e : LiveEntry) : Quiet g (g.reportLeft e) := (reaches_reportLeft e).quiet

theorem quiet_offerFault (f : FaultReport) : Quiet g (g.offerFault f) := (GateStep.fault g f).quiet (by decide)

theorem quiet_countEntry (e : LiveEntry) (f : ContextCounters → ContextCounters) : Quiet g (g.countEntry e f) := by
  unfold Gate.countEntry
  split
  · exact .refl
  · exact quiet_count _ _

theorem quiet_noteCorrupt (e : LiveEntry) (status : AnswerStatus) : Quiet g (g.noteCorrupt e status) := by
  unfold Gate.noteCorrupt
  split
  · exact (quiet_countEntry _ _).trans (quiet_offerFault _)
  · exact .refl

theorem holds_settleEntry {t : RequestTag} {e : LiveEntry} (h : g.Holds L) (live : g.entry t = .live e) (a : Answer) :
    (g.settleEntry t e a).Holds L :=
  (holds_leaveLive (z := .free) h live trivial (by simp) _ _).quiet ((quiet_noteCorrupt _ _).trans (quiet_reportLeft _))

theorem holds_expireEntry {t : RequestTag} {e : LiveEntry} (h : g.Holds L) (live : g.entry t = .live e) :
    (g.expireEntry t e).Holds L := by
  have left := holds_leaveLive (z := .late g.exponent) h live (.inr ⟨e, rfl⟩) (by simp) .timeout []
  refine left.quiet (Quiet.trans ?_ (quiet_reportLeft e))
  have count (a : Gate) (f : ContextCounters → ContextCounters) :
      (a.countEntry e f).streams = a.streams ∧ (a.countEntry e f).branches = a.branches ∧
      (a.countEntry e f).walks = a.walks ∧ (a.countEntry e f).walkWaiting = a.walkWaiting ∧
      (a.countEntry e f).entries = a.entries ∧ (a.countEntry e f).exponent = a.exponent := by
    unfold Gate.countEntry
    split <;> exact ⟨rfl, rfl, rfl, rfl, rfl, rfl⟩
  have answer : (g.answerEntry e .timeout []).exponent = g.exponent ∧ (g.answerEntry e .timeout []).entries = g.entries ∧
      (((g.setEntry t (.late g.exponent)).answerEntry e .timeout []).streams = (g.answerEntry e .timeout []).streams) ∧
      (((g.setEntry t (.late g.exponent)).answerEntry e .timeout []).branches = (g.answerEntry e .timeout []).branches) ∧
      (((g.setEntry t (.late g.exponent)).answerEntry e .timeout []).walks = (g.answerEntry e .timeout []).walks) ∧
      (((g.setEntry t (.late g.exponent)).answerEntry e .timeout []).walkWaiting =
        (g.answerEntry e .timeout []).walkWaiting) ∧
      (((g.setEntry t (.late g.exponent)).answerEntry e .timeout []).entries = (g.setEntry t (.late g.exponent)).entries) := by
    unfold Gate.answerEntry Gate.placeAnswerIn
    split
    · exact ⟨rfl, rfl, rfl, rfl, rfl, rfl, rfl⟩
    · split <;> exact ⟨rfl, rfl, rfl, rfl, rfl, rfl, rfl⟩
  refine .of ?_ (samePorts_of_branches ?_) ?_ ?_ ?_
  · simp [(count _ _).1, answer.2.2.1]
  · simp [(count _ _).2.1, answer.2.2.2.1]
  · simp [(count _ _).2.2.2.1, answer.2.2.2.2.2.1]
  · simp [(count _ _).2.2.1, answer.2.2.2.2.1]
  · rw [answer.2.2.2.2.2.2]
    simp [Gate.setEntry, (count _ _).2.2.2.2.1, (count _ _).2.2.2.2.2, answer.1, answer.2.1]

theorem holds_takeAnswer (h : g.Holds fun _ => False) (a : Answer) : (g.takeAnswer a).Holds fun _ => False := by
  unfold Gate.takeAnswer
  split
  · exact h.quiet (quiet_countGate _)
  split
  · unfold Gate.takeEntryAnswer
    split
    · exact h.quiet (quiet_countGate _)
    · exact (h.quiet (quiet_setEntry _ .free trivial)).quiet (quiet_countGate _)
    · rename_i e live
      split
      · exact holds_settleEntry h live a
      · exact h.quiet (quiet_countGate _)
  · exact holds_takeWalkAnswer h _ a

theorem holds_takeAnswers (buffer : List Answer) (g : Gate) (h : g.Holds fun _ => False) :
    (Gate.takeAnswers buffer g).Holds fun _ => False := by
  induction buffer generalizing g with
  | nil => exact h
  | cons a rest ih =>
    have left : ((g.modTrunk fun t => { t with ingressAnswers := rest }).freeCredit .trunk .answer).Holds fun _ => False :=
      h.quiet (.of rfl .refl rfl rfl rfl)
    exact ih _ (holds_takeAnswer left a)

/-! ### Departures -/

theorem quiet_sendTrunk (c : PacketClass) (bytes : List Byte) : Quiet g (g.sendTrunk c bytes) := (reaches_sendTrunk c bytes).quiet

/-- A head that departs leaves its queue; its slot goes to the entry of its tag, where it takes one (R57, R71, R72). -/
theorem holds_departHead {r : Request} {rest : List Request} (h : g.Holds L) (nx : ¬ L x) (loose : g.Loose x)
    (queued : (g.stream x).queue = r :: rest) (address : Addr) (stamp : Stamp) :
    (g.departHead x r rest address stamp).Holds L := by
  have cleared := holds_cleared (rest := rest) h nx loose
  have left (a : Gate) (streams : a.streams = g.streams) (tag : Byte) :
      ((((a.sendTrunk .request (requestBytes r.kind a.gateId tag address r.length r.payload)).leaveQueue x rest).countBranch
        (branchOf x) fun y => { y with departed := y.departed + 1 }).stream x).queue = rest := by
    simp [stream_leaveQueue]
  have quiet (a a' : Gate) (streams : a'.streams = (a.modStream x fun y => { y with queue := rest, head := none, slot := none }).streams)
      (branches : a'.branches = a.branches) (waiting : a'.walkWaiting = a.walkWaiting) (walks : a'.walks = a.walks)
      (entries : a'.entries = a.entries) (bytes : List Byte) :
      Quiet a' (((a.sendTrunk .request bytes).leaveQueue x rest).countBranch (branchOf x) fun y =>
        { y with departed := y.departed + 1 }) := by
    refine .of ?_ ?_ ?_ ?_ ?_
    · rw [streams]; rfl
    · have offered : SamePorts a' (a.sendTrunk .request bytes) := samePorts_of_branches (by rw [branches]; rfl)
      have gone : SamePorts (a.sendTrunk .request bytes) ((a.sendTrunk .request bytes).leaveQueue x rest) :=
        SamePorts.trans (samePorts_of_branches (g' := (a.sendTrunk .request bytes).modStream x _) rfl) samePorts_modLink
      exact (offered.trans gone).trans (samePorts_modBranch ⟨rfl, rfl, rfl⟩)
    · rw [waiting]; rfl
    · rw [walks]; rfl
    · rw [entries]; rfl
  unfold Gate.departHead
  split
  · have q := quiet g (g.modStream x fun y => { y with queue := rest, head := none, slot := none }) rfl rfl rfl rfl rfl
      (requestBytes r.kind g.gateId 0 address r.length r.payload)
    exact holds_startHeads rest _ (cleared.quiet q) nx (q.keeps_loose (loose_modStream loose)) (left g rfl 0)
  · split
    · rename_i t free
      have wasFree : g.entry t = .free := by simpa [Gate.entry] using lowest_some free
      have taken : ((g.modStream x fun y => { y with queue := rest, head := none, slot := none }).setEntry t
          (.live (g.liveEntryOf x r stamp))).Holds L := by
        generalize clear : (g.modStream x fun y => { y with queue := rest, head := none, slot := none }) = c at cleared
        have entry (u : RequestTag) : (c.setEntry t (.live (g.liveEntryOf x r stamp))).entry u =
            if t = u then .live (g.liveEntryOf x r stamp) else g.entry u := by
          rw [Gate.entry_setEntry, ← clear]; rfl
        have branch (b : BranchNo) : c.branch b = g.branch b := by rw [← clear]; rfl
        have old (u : RequestTag) (e : LiveEntry) (k : SlotNo)
            (held : (c.setEntry t (.live (g.liveEntryOf x r stamp))).EntryHolds u e k) :
            (u = t ∧ e = g.liveEntryOf x r stamp ∧ (g.stream x).slot = some k) ∨ (u ≠ t ∧ c.EntryHolds u e k) := by
          obtain ⟨live, young, slot⟩ := held
          rw [entry] at live
          split at live
          · rename_i eq
            injection live with live
            subst live
            exact .inl ⟨eq.symm, rfl, slot⟩
          · rename_i ne
            exact .inr ⟨fun eq => ne eq.symm, by rw [← clear]; exact live, young, slot⟩
        have spare (k : SlotNo) (slot : (g.stream x).slot = some k) : c.Spare (branchOf x) k := by
          rw [← clear]; exact spare_cleared h.slots slot
        refine ⟨⟨cleared.heads.idle, cleared.heads.slotWait, cleared.heads.slotWaitOnce, cleared.heads.walkWaiting,
          cleared.heads.walkWaitingOnce, cleared.heads.waiters, cleared.heads.waitersOnce, cleared.heads.waitersApart⟩,
          ⟨cleared.slots.occupied, cleared.slots.occupiedOnce, cleared.slots.heads, fun u e k held => ?_,
            fun y k u e slot held => ?_, fun u v e f k ne held held' => ?_⟩,
          fun y l => ⟨⟨(cleared.loose y l).1.slotWait, (cleared.loose y l).1.walkWaiting, (cleared.loose y l).1.waiters⟩,
            (cleared.loose y l).2⟩⟩
        · rcases old u e k held with ⟨_, rfl, slot⟩ | ⟨_, held⟩
          · obtain ⟨r', rest', queue, reserved⟩ := h.slots.heads x k slot
            rw [queued] at queue
            injection queue with same
            subst same
            show (c.branch (branchOf x)).slots[k.val] = _
            rw [getElem_congr_coll (congrArg Branch.slots (branch _))]
            exact reserved
          · exact cleared.slots.entries u e k held
        · rcases old u e k held with ⟨_, rfl, slot'⟩ | ⟨_, held⟩
          · exact fun eq => (spare k slot').heads y eq.symm slot
          · exact cleared.slots.headsApart y k u e slot held
        · rcases old u e k held with ⟨ut, rfl, slot⟩ | ⟨_, held⟩ <;>
            rcases old v f k held' with ⟨vt, rfl, slot'⟩ | ⟨_, held'⟩
          · exact absurd (ut.trans vt.symm) ne
          · exact fun eq => (spare k slot).entries v f held' eq.symm
          · exact (spare k slot').entries u e held
          · exact cleared.slots.entriesApart u v e f k ne held held'
      have q := quiet (g.setEntry t (.live (g.liveEntryOf x r stamp)))
        ((g.modStream x fun y => { y with queue := rest, head := none, slot := none }).setEntry t
          (.live (g.liveEntryOf x r stamp))) rfl rfl rfl rfl rfl
        (requestBytes r.kind g.gateId (BitVec.ofNat 8 t.val) address r.length r.payload)
      have away : ((g.modStream x fun y => { y with queue := rest, head := none, slot := none }).setEntry t
          (.live (g.liveEntryOf x r stamp))).Loose x := ⟨loose.slotWait, loose.walkWaiting, loose.waiters⟩
      exact holds_startHeads rest _ (taken.quiet q) nx (q.keeps_loose away)
        (left (g.setEntry t (.live (g.liveEntryOf x r stamp))) rfl (BitVec.ofNat 8 t.val))
    · exact h

/-- A walk whose FETCH is sent keeps its waiters. -/
theorem holds_departWalk (h : g.Holds L) (i : WalkNo) : (g.departWalk i).Holds L := by
  unfold Gate.departWalk
  split
  · rename_i w walking
    refine (h.quiet (quiet_sendTrunk .request
      (requestBytes .fetch g.gateId (BitVec.ofNat 8 (252 + i.val)) w.entryAddress 8 []))).quiet
      ⟨fun _ => ⟨rfl, rfl⟩, fun _ => ⟨[], by simp⟩, .refl, rfl, fun j v e => ?_, fun _ => Entry.follows_refl _⟩
    rw [Gate.walk_setWalk] at e
    split at e
    · rename_i eq
      injection e with e
      subst e eq
      exact ⟨w, walking, rfl⟩
    · exact ⟨v, e, rfl⟩
  · exact h

theorem holds_grant (h : g.Holds fun _ => False) (n : Fin 68) : (g.grant n).gate.Holds fun _ => False := by
  have granted : ({ g with lastGranted := n } : Gate).Holds fun _ => False := h.quiet (.of rfl .refl rfl rfl rfl)
  unfold Gate.grant
  dsimp only
  split
  · exact holds_departWalk granted _
  · rename_i x _
    split
    · rename_i address stamp r rest head queued
      have loose : ({ g with lastGranted := n } : Gate).Loose x :=
        granted.heads.loose (by change (g.stream x).head ≠ _; rw [head]; simp)
          (by change (g.stream x).head ≠ _; rw [head]; simp) (by change (g.stream x).head ≠ _; rw [head]; simp)
      split
      · exact holds_departHead granted id loose queued _ _
      · exact holds_recheckHead granted id loose
    · exact granted

theorem holds_requestTurn (fuel : Nat) (sentBack : List (Fin 68)) (g : Gate) (h : g.Holds fun _ => False) :
    (Gate.requestTurn fuel sentBack g).1.Holds fun _ => False := by
  induction fuel generalizing sentBack g with
  | zero => exact h
  | succ fuel ih =>
    unfold Gate.requestTurn
    split
    · exact h
    · rename_i n _
      have granted := holds_grant h n
      split
      · rename_i e; rw [e] at granted; exact granted
      · rename_i e; rw [e] at granted; exact ih _ _ granted

/-! ### Answers on a branch, arrivals, and a branch that goes DOWN -/

/-- The front answer of a branch leaves, and its slot is no one's. -/
theorem holds_popAnswer {b : BranchNo} {a : EgressAnswer} {rest : List EgressAnswer} (h : g.Holds L)
    (front : (g.branch b).egressAnswers = a :: rest) :
    ((g.modBranch b fun y => { y with egressAnswers := rest }).setSlot b a.slot .free).Holds L ∧
      ((((g.modBranch b fun y => { y with egressAnswers := rest }).setSlot b a.slot .free).branch b).slots[a.slot.val] =
        .free) := by
  have port (d : BranchNo) : ((g.modBranch b fun y => { y with egressAnswers := rest }).setSlot b a.slot .free).branch d =
      if b = d then
        { g.branch b with egressAnswers := rest, slots := (g.branch b).slots.set a.slot.val .free } else g.branch d := by
    rw [Gate.setSlot, Gate.branch_modBranch]
    split
    · rw [Gate.branch_modBranch, if_pos rfl]
    · rename_i ne; rw [Gate.branch_modBranch, if_neg ne]
  have list (d : BranchNo) :
      (((g.modBranch b fun y => { y with egressAnswers := rest }).setSlot b a.slot .free).branch d).slotWait =
        (g.branch d).slotWait := by
    rw [port]; split
    · subst_vars; rfl
    · rfl
  have kept (d : BranchNo) (i : SlotNo) (ne : b = d → i ≠ a.slot) :
      (((g.modBranch b fun y => { y with egressAnswers := rest }).setSlot b a.slot .free).branch d).slots[i.val] =
        (g.branch d).slots[i.val] := by
    rw [getElem_congr_coll (congrArg Branch.slots (port d))]
    split
    · rename_i e
      subst e
      rw [Vector.getElem_set, if_neg fun eq => ne rfl (Fin.ext eq.symm)]
    · rfl
  have used : (g.branch b).slots[a.slot.val] = .occupied := h.slots.occupied b a (by simp [front])
  have once := h.slots.occupiedOnce b
  rw [front, List.map_cons, List.nodup_cons] at once
  have answers : (((g.modBranch b fun y => { y with egressAnswers := rest }).setSlot b a.slot .free).branch b).egressAnswers =
      rest := by rw [port, if_pos rfl]
  have others (d : BranchNo) (ne : b ≠ d) :
      (((g.modBranch b fun y => { y with egressAnswers := rest }).setSlot b a.slot .free).branch d).egressAnswers =
        (g.branch d).egressAnswers := by rw [port, if_neg ne]
  refine ⟨⟨⟨h.heads.idle, fun d y m => ?_, fun d => ?_, h.heads.walkWaiting, h.heads.walkWaitingOnce, h.heads.waiters,
    h.heads.waitersOnce, h.heads.waitersApart⟩,
    ⟨fun d c m => ?_, fun d => ?_, fun y k e => ?_, fun t e k held => ?_, h.slots.headsApart, h.slots.entriesApart⟩,
    fun y l => ⟨⟨fun d => ?_, (h.loose y l).1.walkWaiting, (h.loose y l).1.waiters⟩, (h.loose y l).2⟩⟩, ?_⟩
  · rw [list] at m; exact h.heads.slotWait d y m
  · rw [list]; exact h.heads.slotWaitOnce d
  · by_cases eq : b = d
    · subst eq
      rw [answers] at m
      rw [kept b c.slot fun _ eq => once.1 (eq ▸ List.mem_map_of_mem m)]
      exact h.slots.occupied b c (by rw [front]; exact List.mem_cons_of_mem _ m)
    · rw [others d eq] at m
      rw [kept d c.slot fun e => absurd e eq]
      exact h.slots.occupied d c m
  · by_cases eq : b = d
    · subst eq; rw [answers]; exact once.2
    · rw [others d eq]; exact h.slots.occupiedOnce d
  · obtain ⟨r, queue, same, reserved⟩ := h.slots.heads y k e
    refine ⟨r, queue, same, ?_⟩
    rw [kept (branchOf y) k fun eq ka => ?_]
    · exact reserved
    · subst eq ka
      rw [used] at reserved; cases reserved
  · have reserved := h.slots.entries t e k held
    rw [kept (branchOf e.stream) k fun eq ka => ?_]
    · exact reserved
    · subst eq ka
      rw [used] at reserved; cases reserved
  · rw [list]; exact (h.loose y l).1.slotWait d
  · rw [getElem_congr_coll (congrArg Branch.slots (port b)), getElem_congr_coll (congrArg Branch.slots (if_pos rfl))]
    simp

/-- A free slot goes to the oldest head on the slot-wait list (R55). -/
theorem holds_serveSlotWait {b : BranchNo} {k : SlotNo} (h : g.Holds fun _ => False)
    (free : (g.branch b).slots[k.val] = .free) : (g.serveSlotWait b k).Holds fun _ => False := by
  unfold Gate.serveSlotWait
  split
  · exact h
  · rename_i x waiting listed
    have mine := h.heads.slotWait b x (by simp [listed])
    have once := h.heads.slotWaitOnce b
    rw [listed, List.nodup_cons] at once
    dsimp only
    have port (d : BranchNo) : (g.modBranch b fun y => { y with slotWait := waiting }).branch d =
        if b = d then { g.branch b with slotWait := waiting } else g.branch d := Gate.branch_modBranch ..
    have same (d : BranchNo) : ((g.modBranch b fun y => { y with slotWait := waiting }).branch d).slots = (g.branch d).slots ∧
        ((g.modBranch b fun y => { y with slotWait := waiting }).branch d).egressAnswers = (g.branch d).egressAnswers ∧
        ∀ y ∈ ((g.modBranch b fun y => { y with slotWait := waiting }).branch d).slotWait, y ∈ (g.branch d).slotWait := by
      rw [port]; split
      · subst_vars
        exact ⟨rfl, rfl, fun y m => by rw [listed]; exact List.mem_cons_of_mem _ m⟩
      · exact ⟨rfl, rfl, fun _ m => m⟩
    have served : (g.modBranch b fun y => { y with slotWait := waiting }).Holds fun _ => False := by
      refine ⟨⟨h.heads.idle, fun d y m => h.heads.slotWait d y ((same d).2.2 y m), fun d => ?_, h.heads.walkWaiting,
        h.heads.walkWaitingOnce, h.heads.waiters, h.heads.waitersOnce, h.heads.waitersApart⟩,
        ⟨fun d a m => ?_, fun d => ?_, fun y i e => ?_, fun t e i held => ?_, h.slots.headsApart, h.slots.entriesApart⟩,
        fun _ => False.elim⟩
      · rw [port]; split
        · exact once.2
        · exact h.heads.slotWaitOnce d
      · rw [(same d).2.1] at m
        rw [getElem_congr_coll (same d).1]; exact h.slots.occupied d a m
      · rw [(same d).2.1]; exact h.slots.occupiedOnce d
      · obtain ⟨r, rest, queue, reserved⟩ := h.slots.heads y i e
        refine ⟨r, rest, queue, ?_⟩
        rw [getElem_congr_coll (same _).1]; exact reserved
      · rw [getElem_congr_coll (same _).1]; exact h.slots.entries t e i held
    have loose : (g.modBranch b fun y => { y with slotWait := waiting }).Loose x := by
      refine ⟨fun d m => ?_, fun m => ?_, fun i w e y m eq => ?_⟩
      · by_cases eq : b = d
        · subst eq
          rw [port, if_pos rfl] at m
          exact once.1 m
        · exact eq (mine.1.symm.trans (h.heads.slotWait d x ((same d).2.2 x m)).1)
      · have := h.heads.walkWaiting x m
        rw [mine.2] at this; cases this
      · have := h.heads.waiters i w e y m
        rw [eq, mine.2] at this; cases this
    split
    · exact served
    · rename_i r rest queued
      have free' : ((g.modBranch b fun y => { y with slotWait := waiting }).branch (branchOf x)).slots[k.val] = .free := by
        rw [getElem_congr_coll (congrArg (fun d => ((g.modBranch b fun y => { y with slotWait := waiting }).branch d).slots)
          mine.1), getElem_congr_coll (same b).1]
        exact free
      exact holds_recheckHead (holds_reserve served free' queued) id (loose_reserve loose)

/-- A request joins its stream, and begins where it has become head (R51). -/
theorem holds_joinStream (h : g.Holds fun _ => False) (x : StreamId) (r : Request) :
    (g.joinStream x r).Holds fun _ => False := by
  have q : Quiet g ((g.modStream x fun y => { y with queue := y.queue ++ [r] }).countBranch (branchOf x) fun y =>
      { y with queued := y.queued + 1 }) := by
    refine Quiet.trans (b := g.modStream x fun y => { y with queue := y.queue ++ [r] })
      ⟨fun y => ?_, fun y => ?_, .refl, rfl, fun i w e => ⟨w, e, rfl⟩, fun _ => Entry.follows_refl _⟩
      (quiet_countBranch _ _)
    all_goals rw [Gate.stream_modStream]; split
    · subst_vars; exact ⟨rfl, rfl⟩
    · exact ⟨rfl, rfl⟩
    · subst_vars; exact ⟨_, rfl⟩
    · exact ⟨[], by simp⟩
  have joined := h.quiet q
  unfold Gate.joinStream
  dsimp only
  split
  · rename_i empty
    have none : (g.stream x).head = none := h.heads.idle x (by simpa using empty)
    have loose : g.Loose x := h.heads.loose (by simp [none]) (by simp [none]) (by simp [none])
    refine holds_startHeads _ _ joined id (q.keeps_loose loose) ?_
    have : (g.stream x).queue = [] := by simpa using empty
    simp [Gate.stream_modStream, this]
  · exact joined

/-- What a branch that goes DOWN clears (R64, R77). -/
theorem holds_clearBranch (h : g.Holds fun _ => False) (b : BranchNo) :
    ((((g.clearStreams b).dropHeads b).modBranch b Branch.clear).markOrphans b).Holds fun _ => False := by
  have stream (y : StreamId) : ((((g.clearStreams b).dropHeads b).modBranch b Branch.clear).markOrphans b).stream y =
      if branchOf y = b then (g.stream y).clear else g.stream y := by
    show (g.clearStreams b).stream y = _
    simp [Gate.clearStreams, Gate.stream]
  have port (d : BranchNo) : ((((g.clearStreams b).dropHeads b).modBranch b Branch.clear).markOrphans b).branch d =
      if b = d then (g.branch b).clear else g.branch d := by
    show (((g.clearStreams b).dropHeads b).modBranch b Branch.clear).branch d = _
    rw [Gate.branch_modBranch]; rfl
  have walk (i : WalkNo) : ((((g.clearStreams b).dropHeads b).modBranch b Branch.clear).markOrphans b).walk i =
      (g.walk i).dropWaiters b := by
    show (g.walks.map fun x => x.dropWaiters b)[i.val] = _
    rw [Vector.getElem_map]; rfl
  have entry (t : RequestTag) : ((((g.clearStreams b).dropHeads b).modBranch b Branch.clear).markOrphans b).entry t =
      match g.entry t with
      | .live e => if branchOf e.stream = b then .live { e with orphan := true } else .live e
      | x => x := by
    show (g.entries.map _)[t.val] = _
    rw [Vector.getElem_map]; rfl
  have waiting : ((((g.clearStreams b).dropHeads b).modBranch b Branch.clear).markOrphans b).walkWaiting =
      g.walkWaiting.filter fun s => branchOf s != b := rfl
  generalize ((((g.clearStreams b).dropHeads b).modBranch b Branch.clear).markOrphans b) = c at stream port walk entry waiting ⊢
  have other (y : StreamId) (ne : branchOf y ≠ b) : c.stream y = g.stream y := by rw [stream, if_neg ne]
  have walking (i : WalkNo) (w : Walk) (e : c.walk i = .walking w) : ∃ w₀, g.walk i = .walking w₀ ∧
      w.waiters = w₀.waiters.filter fun y => branchOf y.stream != b := by
    rw [walk] at e
    unfold WalkSlot.dropWaiters at e
    split at e
    · rename_i w₀ e₀
      injection e with e
      subst e
      exact ⟨w₀, e₀, rfl⟩
    · rename_i y no
      exact absurd e (no w)
  have held (t : RequestTag) (e : LiveEntry) (k : SlotNo) (m : c.EntryHolds t e k) : g.EntryHolds t e k ∧ branchOf e.stream ≠ b := by
    obtain ⟨live, young, slot⟩ := m
    rw [entry] at live
    split at live
    · rename_i e₀ e₀'
      split at live
      · injection live with live
        subst live
        cases young
      · rename_i ne
        injection live with live
        subst live
        exact ⟨⟨e₀', young, slot⟩, ne⟩
    · rename_i no
      exact absurd live (no e)
  have slots (d : BranchNo) (ne : b ≠ d) : c.branch d = g.branch d := by rw [port, if_neg ne]
  have none : c.branch b = (g.branch b).clear := by rw [port, if_pos rfl]
  have sole (y : StreamId) (k : SlotNo) (e : (c.stream y).slot = some k) : branchOf y ≠ b ∧ (g.stream y).slot = some k := by
    rw [stream] at e
    split at e
    · cases e
    · rename_i ne; exact ⟨ne, e⟩
  refine ⟨⟨fun y e => ?_, fun d y m => ?_, fun d => ?_, fun y m => ?_, ?_, fun i w e y m => ?_, fun i w e => ?_,
    fun i j w v ne e e' y m z m' => ?_⟩,
    ⟨fun d a m => ?_, fun d => ?_, fun y k e => ?_, fun t e k m => ?_, fun y k t e s m => ?_, fun t u e f k ne m m' => ?_⟩,
    fun _ => False.elim⟩
  · rw [stream] at e ⊢
    split
    · rfl
    · rename_i ne
      rw [if_neg ne] at e
      exact h.heads.idle y e
  · by_cases eq : b = d
    · subst eq
      rw [none] at m
      cases m
    · rw [slots d eq] at m
      have old := h.heads.slotWait d y m
      rw [other y fun e => eq (e.symm.trans old.1)]
      exact old
  · by_cases eq : b = d
    · subst eq; rw [none]; exact List.nodup_nil
    · rw [slots d eq]; exact h.heads.slotWaitOnce d
  · rw [waiting, List.mem_filter] at m
    rw [other y (by simpa using m.2)]
    exact h.heads.walkWaiting y m.1
  · rw [waiting]; exact h.heads.walkWaitingOnce.filter _
  · obtain ⟨w₀, e₀, same⟩ := walking i w e
    rw [same, List.mem_filter] at m
    rw [other y.stream (by simpa using m.2)]
    exact h.heads.waiters i w₀ e₀ y m.1
  · obtain ⟨w₀, e₀, same⟩ := walking i w e
    rw [same]
    exact (h.heads.waitersOnce i w₀ e₀).sublist (List.filter_sublist.map _)
  · obtain ⟨w₀, e₀, same⟩ := walking i w e
    obtain ⟨v₀, f₀, same'⟩ := walking j v e'
    rw [same, List.mem_filter] at m
    rw [same', List.mem_filter] at m'
    exact h.heads.waitersApart i j w₀ v₀ ne e₀ f₀ y m.1 z m'.1
  · by_cases eq : b = d
    · subst eq
      rw [none] at m
      cases m
    · rw [slots d eq] at m
      rw [getElem_congr_coll (congrArg Branch.slots (slots d eq))]
      exact h.slots.occupied d a m
  · by_cases eq : b = d
    · subst eq; rw [none]; exact List.nodup_nil
    · rw [slots d eq]; exact h.slots.occupiedOnce d
  · obtain ⟨ne, old⟩ := sole y k e
    obtain ⟨r, rest, queue, reserved⟩ := h.slots.heads y k old
    refine ⟨r, rest, by rw [other y ne]; exact queue, ?_⟩
    rw [getElem_congr_coll (congrArg Branch.slots (slots _ fun eq => ne eq.symm))]
    exact reserved
  · obtain ⟨old, ne⟩ := held t e k m
    rw [getElem_congr_coll (congrArg Branch.slots (slots _ fun eq => ne eq.symm))]
    exact h.slots.entries t e k old
  · exact h.slots.headsApart y k t e (sole y k s).2 (held t e k m).1
  · exact h.slots.entriesApart t u e f k ne (held t e k m).1 (held u f k m').1

/-! ### Commands -/

/-- A gate whose streams, branches, walks and entries are those of a reset. -/
theorem holds_fresh (stream : ∀ x, g.stream x = .reset) (branch : ∀ b, g.branch b = .reset) (walk : ∀ i, g.walk i = .free)
    (waiting : g.walkWaiting = []) (entry : ∀ t, g.entry t = .free) : g.Holds fun _ => False := by
  have held (t : RequestTag) (e : LiveEntry) (k : SlotNo) : ¬ g.EntryHolds t e k := fun m => by
    have := m.1
    rw [entry] at this; cases this
  refine ⟨⟨fun x _ => by rw [stream]; rfl, fun b x m => ?_, fun b => ?_, fun x m => ?_, ?_, fun i w e => ?_, fun i w e => ?_,
    fun i j w v _ e => ?_⟩, ⟨fun b a m => ?_, fun b => ?_, fun x k e => ?_, fun t e k m => absurd m (held t e k),
      fun _ k t e _ m => absurd m (held t e k), fun t _ e _ k _ m => absurd m (held t e k)⟩, fun _ => False.elim⟩
  · rw [branch] at m; cases m
  · rw [branch]; exact List.nodup_nil
  · rw [waiting] at m; cases m
  · rw [waiting]; exact List.nodup_nil
  · rw [walk] at e; cases e
  · rw [walk] at e; cases e
  · rw [walk] at e; cases e
  · rw [branch] at m; cases m
  · rw [branch]; exact List.nodup_nil
  · rw [stream] at e; cases e

theorem GateStep.keeps_holds {k : Kind} (st : GateStep k g g') (mem : k ∉ [Kind.head, .grant]) (h : g.Holds fun _ => False) :
    g'.Holds fun _ => False := by
  by_cases q : k ∈ quietKinds
  · exact h.quiet (st.quiet q)
  · cases st
    case clearBranch b => exact holds_clearBranch h b
    case powerOn straps =>
      exact holds_fresh (stream_reset straps .power) (branch_reset straps .power) (walk_reset straps .power) rfl
        (entry_reset straps .power)
    case trunkReset x fits =>
      exact holds_fresh (stream_reset g.gateId .trunk) (branch_reset g.gateId .trunk) (walk_reset g.gateId .trunk) rfl
        (entry_reset g.gateId .trunk)
    all_goals first
      | exact absurd (by decide) q
      | exact absurd (by decide) mem

theorem Reaches.keeps_holds {K : List Kind} (r : Reaches K g g') (h : g.Holds fun _ => False)
    (still : ∀ k ∈ K, k ∉ [Kind.head, .grant] := by decide) : g'.Holds fun _ => False :=
  r.keeps (fun x => x.Holds fun _ => False) (fun k hk _ _ st ih => st.keeps_holds (still k hk) ih) h

theorem holds_receiveBranchRequest (h : g.Holds fun _ => False) (b : BranchNo) (kind : RequestKind) (body : List Byte) :
    (g.receiveBranchRequest b kind body).Holds fun _ => False := by
  have discard (cls : Option PacketClass) (stream : Option StreamId) :
      (g.discardMalformed (.branch b) cls stream).Holds fun _ => False := (reaches_discardMalformed _ _ _).keeps_holds h
  unfold Gate.receiveBranchRequest Gate.arrive
  split
  · exact h
  split
  · split
    · refine holds_joinStream (h.quiet (.of (by simp) samePorts_modLink (by simp) (by simp) (by simp))) _ _
    · exact discard _ _
  · exact discard _ _

theorem holds_receiveTrunkAnswer (h : g.Holds fun _ => False) (body : List Byte) :
    (g.receiveTrunkAnswer body).Holds fun _ => False := by
  unfold Gate.receiveTrunkAnswer Gate.arrive
  split
  · exact h
  split
  · split
    · exact holds_takeAnswers _ _ (h.quiet (.of rfl .refl rfl rfl rfl))
    · exact (reaches_discardMalformed _ _ _).keeps_holds h
  · exact (reaches_discardMalformed _ _ _).keeps_holds h

theorem holds_receive (h : g.Holds fun _ => False) (l : LinkId) (packet : List Byte) :
    (g.receive l packet).Holds fun _ => False := by
  unfold Gate.receive
  split
  · exact (reaches_receiveUnaccepted _ _).keeps_holds h
  · have request (kind : RequestKind) (body : List Byte) : (g.receiveRequest l kind body).Holds fun _ => False := by
      cases l
      · exact (reaches_receiveTrunkRequest _ _).keeps_holds h
      · exact holds_receiveBranchRequest h _ _ _
    split
    · exact (reaches_receiveInit _ _).keeps_holds h
    split
    · exact (reaches_receiveCredit _ _).keeps_holds h
    split
    · exact request _ _
    split
    · exact request _ _
    split
    · exact request _ _
    split
    · split
      · exact holds_receiveTrunkAnswer h _
      · exact (reaches_receiveBranchAnswer _ _).keeps_holds h
    split
    · exact (reaches_receiveControl _).keeps_holds h
    · exact (reaches_receiveUnaccepted _ _).keeps_holds h

/-- Every command keeps heads and slots sound. -/
theorem exec_keeps_holds (c : Instr) (s : State) (h : s.gate.Holds fun _ => False) :
    ∃ g', exec c s = .next { s with gate := g' } ∧ g'.Holds fun _ => False := by
  have still (K : List Kind) (b : (K.all fun k => k ∉ [Kind.head, .grant]) = true) : ∀ k ∈ K, k ∉ [Kind.head, .grant] := by
    simpa using b
  obtain ⟨g₁, next, reach⟩ := exec_reaches c s
  cases c
  case branchRequestArrival b kind body => exact ⟨_, rfl, holds_receiveBranchRequest h b kind body⟩
  case trunkAnswerArrival body => exact ⟨_, rfl, holds_receiveTrunkAnswer h body⟩
  case unacceptedKindArrival l packet => exact ⟨_, rfl, holds_receive h l packet⟩
  case departureGrant =>
    refine ⟨_, rfl, ?_⟩
    dsimp only
    split
    · split
      · exact holds_requestTurn 69 [] _ h
      · exact (holds_requestTurn 69 [] _ h).quiet (.of rfl .refl rfl rfl rfl)
    · exact h
  case branchAnswerTransmit b =>
    refine ⟨_, rfl, ?_⟩
    dsimp only
    split
    · exact h
    · rename_i a rest front
      split
      · have sent := (reaches_sendBranch (g := s.gate) b .answer .answers
          (answerBytes (BitVec.ofNat 8 a.stream.val) a.tag a.status a.payload)).keeps_holds h
        have popped := holds_popAnswer sent (b := b) (a := a) (rest := rest)
          (by simpa [Gate.sendBranch, Gate.branch_modBranch] using front)
        refine holds_serveSlotWait (popped.1.quiet (quiet_countBranch _ _)) ?_
        rw [getElem_congr_coll ((quiet_countBranch b fun y => { y with answersSent := y.answersSent + 1 }).ports b).2.1]
        exact popped.2
      · exact h
  case entryExpiry t =>
    refine ⟨_, rfl, ?_⟩
    dsimp only
    split
    · rename_i live; exact holds_expireEntry h live
    · exact h
  case walkExpiry i =>
    refine ⟨_, rfl, ?_⟩
    dsimp only
    split
    · rename_i walking
      split
      · exact holds_expireWalk h walking
      · exact h
    · exact h
  case walkQuarantineEnd i =>
    refine ⟨_, rfl, ?_⟩
    dsimp only
    split
    · exact holds_serveWaiting (holds_setWalk h (by simp))
    · exact h
  case initReceived l body =>
    cases l with
    | trunk => exact ⟨g₁, next, reach.keeps_holds h (still _ rfl)⟩
    | branch b => exact ⟨g₁, next, reach.keeps_holds h (still _ rfl)⟩
  all_goals exact ⟨g₁, next, reach.keeps_holds h (still _ rfl)⟩

/-- A list of different streams of one branch has at most 16. -/
theorem slotWait_length (h : g.HeadsSound) (b : BranchNo) : (g.branch b).slotWait.length ≤ 16 := by
  have sub : ((g.branch b).slotWait.map numberOf).Nodup := by
    refine (h.slotWaitOnce b).map_on fun x mx y my e => Fin.ext ?_
    have := congrArg Fin.val ((h.slotWait b x mx).1.trans (h.slotWait b y my).1.symm)
    have := congrArg Fin.val e
    simp only [numberOf, branchOf] at *
    omega
  simpa using sub.length_le_card

theorem walkWaiting_length (h : g.HeadsSound) : g.walkWaiting.length ≤ 64 := by
  simpa using h.walkWaitingOnce.length_le_card

theorem egressAnswers_length (h : g.SlotsSound) (b : BranchNo) : (g.branch b).egressAnswers.length ≤ 64 := by
  simpa using (h.occupiedOnce b).length_le_card

end Sys2Proof.Machine
end

