-- ==== Sys2Proof/Laws/KeepsLinks.lean ====
section
/-! SUPPORT. Every act keeps the link records sound and the sum of R128. -/

namespace Sys2Proof.Machine

variable {g g' : Gate}

/-! ### Credits -/

theorem Credits.get_set (x : Credits) (c d : PacketClass) (n : Nat) :
    (x.set c n).get d = if c = d then n else x.get d := by
  cases c <;> cases d <;> rfl

theorem Credits.get_zero (c : PacketClass) : (⟨0, 0, 0⟩ : Credits).get c = 0 := by cases c <;> rfl

theorem Credits.get_add (x y : Credits) (c : PacketClass) : (x.add y).get c = x.get c + y.get c := by cases c <;> rfl

theorem Credits.eq_zero_of_get {x : Credits} (h : ∀ c, x.get c = 0) : x = ⟨0, 0, 0⟩ := by
  have a := h .request
  have b := h .answer
  have c := h .control
  cases x
  simp [Credits.get] at a b c
  simp [a, b, c]

theorem Credits.set_zero_of {x : Credits} {c : PacketClass} {n : Nat} (h : x = ⟨0, 0, 0⟩) (hn : n = 0) :
    x.set c n = ⟨0, 0, 0⟩ := by subst h hn; cases c <;> rfl

/-! ### Link records -/

theorem LinkRecord.free_sound {r : LinkRecord} (h : r.Sound) (c : PacketClass) : (r.free c).Sound where
  partner := h.partner
  heldNotUp := h.heldNotUp
  grantedDown := h.grantedDown
  held := h.held
  orderNodup := by
    simp only [LinkRecord.free]
    split
    · rename_i zero
      rw [List.nodup_append]
      refine ⟨h.orderNodup, by simp, fun a ha b hb eq => ?_⟩
      simp at hb
      subst hb eq
      have := h.orderFreed _ ha
      omega
    · exact h.orderNodup
  orderFreed := by
    intro d hd
    simp only [LinkRecord.free, Credits.get_set] at hd ⊢
    split
    · omega
    · rename_i ne
      split at hd
      · rw [List.mem_append] at hd
        rcases hd with hd | hd
        · exact h.orderFreed d hd
        · simp at hd; exact absurd hd.symm ne
      · exact h.orderFreed d hd
  freedOrder := by
    intro up d hd
    simp only [LinkRecord.free, Credits.get_set] at hd ⊢
    split at hd
    · rename_i eq
      subst eq
      split
      · simp
      · rename_i nz; exact h.freedOrder up c (by omega)
    · split
      · exact List.mem_append_left _ (h.freedOrder up d hd)
      · exact h.freedOrder up d hd

theorem LinkRecord.useGranted_sound {r : LinkRecord} (h : r.Sound) (c : PacketClass) : (r.useGranted c).Sound where
  partner := h.partner
  heldNotUp := h.heldNotUp
  grantedDown := fun d => by
    have := h.grantedDown d
    refine Credits.set_zero_of this ?_
    rw [this, Credits.get_zero]
  held := h.held
  orderNodup := h.orderNodup
  orderFreed := h.orderFreed
  freedOrder := h.freedOrder

theorem LinkRecord.useHeld_sound {r : LinkRecord} (h : r.Sound) (c : PacketClass) : (r.useHeld c).Sound where
  partner := h.partner
  heldNotUp := fun d => by
    have := h.heldNotUp d
    refine Credits.set_zero_of this ?_
    rw [this, Credits.get_zero]
  grantedDown := h.grantedDown
  held := fun d => by
    simp only [LinkRecord.useHeld, Credits.get_set]
    have := h.held c
    have := h.held d
    split <;> omega
  orderNodup := h.orderNodup
  orderFreed := h.orderFreed
  freedOrder := h.freedOrder

theorem LinkRecord.train_sound {r : LinkRecord} (h : r.Sound) (down : r.state = .down) : r.train.Sound where
  partner := by simp [LinkRecord.train]
  heldNotUp := fun _ => h.heldNotUp (by simp [down])
  grantedDown := by simp [LinkRecord.train]
  held := h.held
  orderNodup := by simp [LinkRecord.train]
  orderFreed := by simp [LinkRecord.train]
  freedOrder := by intro _ c hc; simp only [LinkRecord.train, Credits.get_zero] at hc; omega

theorem LinkRecord.goUp_sound {r : LinkRecord} (h : r.Sound) {x : Credits} (training : r.state = .training)
    (fits : ∀ c, x.get c ≤ Config.maxHeld) : (r.goUp x).Sound where
  partner := by simp [LinkRecord.goUp]
  heldNotUp := by simp [LinkRecord.goUp]
  grantedDown := by simp [LinkRecord.goUp]
  held := fits
  orderNodup := h.orderNodup
  orderFreed := h.orderFreed
  freedOrder := fun _ => h.freedOrder (by simp [training])

/-- A record that is DOWN with nothing held, granted or ordered. -/
theorem LinkRecord.down_sound {r : LinkRecord} (s : r.state = .down) (p : r.partnerInit = false) (h : r.held = ⟨0, 0, 0⟩)
    (gr : r.granted = ⟨0, 0, 0⟩) (o : r.creditOrder = []) : r.Sound where
  partner := by simp [s, p]
  heldNotUp := fun _ => h
  grantedDown := fun _ => gr
  held := fun c => by rw [h, Credits.get_zero]; omega
  orderNodup := by simp [o]
  orderFreed := by simp [o]
  freedOrder := by simp [s]

theorem LinkRecord.returnSpent_sound {r : LinkRecord} (h : r.Sound) (c : PacketClass) : (r.returnSpent c).Sound := by
  unfold LinkRecord.returnSpent
  split
  · exact free_sound (useGranted_sound h c) c
  · exact h

theorem LinkRecord.credit_sound {r : LinkRecord} (h : r.Sound) {c : PacketClass} {n : Nat} (partner : r.partnerInit = true)
    (fits : r.held.get c + n ≤ Config.maxHeld) : ({ r with held := r.held.set c (r.held.get c + n) } : LinkRecord).Sound where
  partner := h.partner
  heldNotUp := fun d => absurd (h.partner.mp partner) d
  grantedDown := h.grantedDown
  held := fun d => by
    simp only [Credits.get_set]
    split
    · exact fits
    · exact h.held d
  orderNodup := h.orderNodup
  orderFreed := h.orderFreed
  freedOrder := h.freedOrder

theorem LinkRecord.sendCredit_sound {r : LinkRecord} (h : r.Sound) {c : PacketClass} {rest : List PacketClass}
    (due : r.creditOrder = c :: rest) (up : r.state = .up) :
    ({ r with
      granted := r.granted.set c (r.granted.get c + r.freed.get c)
      freed := r.freed.set c 0
      creditOrder := rest } : LinkRecord).Sound where
  partner := h.partner
  heldNotUp := h.heldNotUp
  grantedDown := fun d => by simp [up] at d
  held := h.held
  orderNodup := by have := h.orderNodup; rw [due] at this; exact this.of_cons
  orderFreed := by
    intro d hd
    have nodup := h.orderNodup
    rw [due, List.nodup_cons] at nodup
    simp only [Credits.get_set]
    split
    · subst_vars; exact absurd hd nodup.1
    · exact h.orderFreed d (by rw [due]; exact List.mem_cons_of_mem _ hd)
  freedOrder := by
    intro s d hd
    simp only [Credits.get_set] at hd
    split at hd
    · omega
    · rename_i ne
      have := h.freedOrder s d hd
      rw [due] at this
      simpa [Ne.symm ne] using this

/-! ### Requests queued on a branch -/

theorem queuedOn_sum (b : BranchNo) :
    g.queuedOn b = ∑ s : StreamId, if branchOf s = b then (g.stream s).queue.length else 0 :=
  (Fin.sum_univ_def _).symm

theorem queuedOn_same (h : SameQueues g g') (b : BranchNo) : g'.queuedOn b = g.queuedOn b := by
  simp only [queuedOn_sum, h _]

theorem queuedOn_one (s : StreamId) (others : ∀ t, t ≠ s → (g'.stream t).queue = (g.stream t).queue) (b : BranchNo) :
    g'.queuedOn b + (if branchOf s = b then (g.stream s).queue.length else 0) =
      g.queuedOn b + (if branchOf s = b then (g'.stream s).queue.length else 0) := by
  simp only [queuedOn_sum]
  rw [← Finset.add_sum_erase _ _ (Finset.mem_univ s), ← Finset.add_sum_erase (Finset.univ : Finset StreamId)
    (fun t => if branchOf t = b then (g.stream t).queue.length else 0) (Finset.mem_univ s)]
  have : ∑ t ∈ Finset.univ.erase s, (if branchOf t = b then (g'.stream t).queue.length else 0) =
      ∑ t ∈ Finset.univ.erase s, (if branchOf t = b then (g.stream t).queue.length else 0) :=
    Finset.sum_congr rfl fun t ht => by rw [others t (Finset.ne_of_mem_erase ht)]
  rw [this]
  omega

/-! ### Links -/

/-- Links and buffers that are the same. -/
theorem Gate.LinksSound.of (h : g.LinksSound) (l : ∀ l, g'.link l = g.link l) (b : ∀ l c, g'.buffered l c = g.buffered l c) :
    g'.LinksSound :=
  ⟨fun m => by rw [l]; exact h.records m, fun m c => by rw [l, b]; exact h.conserved m c⟩

theorem buffered_of (q : SameQueues g g') (t : g'.trunk.ingressRequests = g.trunk.ingressRequests ∧
      g'.trunk.ingressAnswers = g.trunk.ingressAnswers ∧ g'.trunk.ingressControl = g.trunk.ingressControl)
    (b : ∀ b, (g'.branch b).ingressAnswers = (g.branch b).ingressAnswers) (l : LinkId) (c : PacketClass) :
    g'.buffered l c = g.buffered l c := by
  cases l <;> cases c <;> simp [Gate.buffered, t, b, queuedOn_same q]

/-- One link changes, with its buffer. -/
theorem Gate.LinksSound.change (h : g.LinksSound) (l : LinkId) {r : LinkRecord}
    (link : ∀ m, g'.link m = if l = m then r else g.link m) (sound : r.Sound)
    (others : ∀ m, m ≠ l → ∀ c, g'.buffered m c = g.buffered m c)
    (sum : ∀ c, r.granted.get c + g'.buffered l c + r.freed.get c =
      (g.link l).granted.get c + g.buffered l c + (g.link l).freed.get c) : g'.LinksSound := by
  refine ⟨fun m => ?_, fun m c => ?_⟩
  · rw [link]
    split
    · exact sound
    · exact h.records m
  · rw [link]
    split
    · rename_i eq; subst eq; rw [sum]; exact h.conserved l c
    · rename_i ne; rw [others m (Ne.symm ne)]; exact h.conserved m c

theorem sameQueues_modLink (l : LinkId) (f : LinkRecord → LinkRecord) : SameQueues g (g.modLink l f) := by
  intro s; simp [Gate.stream]

theorem buffered_modLink (l m : LinkId) (f : LinkRecord → LinkRecord) (c : PacketClass) :
    (g.modLink l f).buffered m c = g.buffered m c := by
  refine buffered_of (sameQueues_modLink l f) ?_ ?_ m c
  · cases l <;> exact ⟨rfl, rfl, rfl⟩
  · intro b
    cases l with
    | trunk => rfl
    | branch d =>
      simp only [Gate.modLink_branch, Gate.branch_modBranch]
      split <;> simp_all

/-- An update of one link record alone. -/
theorem links_modLink (h : g.LinksSound) (l : LinkId) (f : LinkRecord → LinkRecord) (sound : (f (g.link l)).Sound)
    (sum : ∀ c, (f (g.link l)).granted.get c + (f (g.link l)).freed.get c =
      (g.link l).granted.get c + (g.link l).freed.get c) : (g.modLink l f).LinksSound := by
  refine h.change l (fun m => g.link_modLink l m f) sound (fun m _ c => buffered_modLink l m f c) (fun c => ?_)
  rw [buffered_modLink]
  have := sum c
  omega

theorem links_fresh (t : g.trunk.link.Sound) (ts : ∀ c, g.trunk.link.granted.get c + g.trunk.link.freed.get c = trunkCapacity.get c)
    (ti : g.trunk.ingressRequests = [] ∧ g.trunk.ingressAnswers = [] ∧ g.trunk.ingressControl = [])
    (b : ∀ b, g.branch b = .reset) (s : ∀ s, g.stream s = .reset) : g.LinksSound := by
  refine ⟨fun l => ?_, fun l c => ?_⟩
  · cases l with
    | trunk => exact t
    | branch d =>
      show (g.branch d).link.Sound
      rw [b]
      exact LinkRecord.down_sound rfl rfl rfl rfl rfl
  · cases l with
    | trunk =>
      have := ts c
      cases c <;> simp [Gate.buffered, ti, Gate.link, capacity] <;> exact this
    | branch d =>
      have q : g.queuedOn d = 0 := by
        rw [queuedOn_sum]
        simp [s, Stream.reset]
      cases c <;> simp [Gate.buffered, Gate.link, capacity, b, q, Branch.reset, LinkRecord.reset, Credits.get]

/-- The effect on links of acts that change no link, no buffer and no queue. -/
theorem links_quiet (h : g.LinksSound) (q : SameQueues g g') (t : g'.trunk = g.trunk)
    (b : ∀ b, (g'.branch b).link = (g.branch b).link ∧ (g'.branch b).ingressAnswers = (g.branch b).ingressAnswers) :
    g'.LinksSound := by
  refine h.of (fun l => ?_) (buffered_of q (by simp [t]) (fun d => (b d).2))
  cases l with
  | trunk => simp [Gate.link, t]
  | branch d => exact (b d).1

theorem links_modBranch {b : BranchNo} {f : Branch → Branch} (h : g.LinksSound)
    (keeps : (f (g.branch b)).link = (g.branch b).link ∧ (f (g.branch b)).ingressAnswers = (g.branch b).ingressAnswers) :
    (g.modBranch b f).LinksSound := by
  refine links_quiet h (fun _ => rfl) rfl fun d => ?_
  rw [Gate.branch_modBranch]
  split
  · subst_vars; exact keeps
  · exact ⟨rfl, rfl⟩

theorem links_modTrunk {f : TrunkPort → TrunkPort} (h : g.LinksSound)
    (keeps : (f g.trunk).link = g.trunk.link ∧ (f g.trunk).ingressRequests = g.trunk.ingressRequests ∧
      (f g.trunk).ingressAnswers = g.trunk.ingressAnswers ∧ (f g.trunk).ingressControl = g.trunk.ingressControl) :
    (g.modTrunk f).LinksSound := by
  refine h.of (fun l => ?_) (buffered_of (fun _ => rfl) keeps.2 (fun _ => rfl))
  cases l
  · exact keeps.1
  · rfl

/-- The trunk's record and buffers change together. -/
theorem links_trunk {f : TrunkPort → TrunkPort} (h : g.LinksSound) (sound : (f g.trunk).link.Sound)
    (sum : ∀ c, (f g.trunk).link.granted.get c + (g.modTrunk f).buffered .trunk c + (f g.trunk).link.freed.get c =
      g.trunk.link.granted.get c + g.buffered .trunk c + g.trunk.link.freed.get c) : (g.modTrunk f).LinksSound := by
  refine h.change .trunk (fun m => ?_) sound (fun m ne c => ?_) sum
  · cases m <;> simp [Gate.link]
  · cases m with
    | trunk => exact absurd rfl ne
    | branch b => cases c <;> rfl

theorem free_sum (r : LinkRecord) (c d : PacketClass) : (r.free c).granted.get d = r.granted.get d ∧
    (r.free c).freed.get d = r.freed.get d + if c = d then 1 else 0 := by
  refine ⟨rfl, ?_⟩
  simp only [LinkRecord.free, Credits.get_set]
  split <;> simp_all

theorem useGranted_sum (r : LinkRecord) (c d : PacketClass) (spent : 0 < r.granted.get c) :
    (r.useGranted c).granted.get d + (if c = d then 1 else 0) = r.granted.get d ∧
    (r.useGranted c).freed.get d = r.freed.get d := by
  refine ⟨?_, rfl⟩
  simp only [LinkRecord.useGranted, Credits.get_set]
  split
  · subst_vars; omega
  · simp

theorem queue_unbindContext (c : ContextNo) (s : StreamId) : ((g.unbindContext c).stream s).queue = (g.stream s).queue := by
  simp only [Gate.unbindContext, Gate.stream, Vector.getElem_map]
  split <;> rfl

theorem queue_bindStream (s : StreamId) (mode : Mode) (t : StreamId) :
    ((g.bindStream s mode).stream t).queue = (g.stream t).queue := by
  rw [Gate.bindStream, Gate.stream_modStream]
  split
  · subst_vars; rfl
  · rfl

theorem queue_completeRetire (c : ContextNo) (tag node : Byte) (s : StreamId) :
    ((g.completeRetire c tag node).stream s).queue = (g.stream s).queue := queue_unbindContext c s

theorem queue_clearBranch (b : BranchNo) (t : StreamId) :
    ((((g.clearStreams b).dropHeads b).modBranch b Branch.clear).stream t).queue =
      if branchOf t = b then [] else (g.stream t).queue := by
  show ((g.clearStreams b).stream t).queue = _
  simp only [Gate.clearStreams, Gate.stream, Vector.getElem_mapFinIdx]
  split <;> rfl

theorem GateStep.keeps_links {k : Kind} (st : GateStep k g g') (h : g.LinksSound) : g'.LinksSound := by
  cases st
  case stream s f keeps =>
    refine links_quiet h (fun t => ?_) rfl fun _ => ⟨rfl, rfl⟩
    rw [Gate.stream_modStream]
    split
    · subst_vars; exact (keeps _).1
    · rfl
  case port b f keeps => exact links_modBranch h ⟨(keeps _).1, (keeps _).2.1⟩
  case leave s r rest queued =>
    have rcd := h.records (.branch (branchOf s))
    refine h.change (.branch (branchOf s)) (r := (g.link (.branch (branchOf s))).free .request) (fun m => ?_)
      (LinkRecord.free_sound rcd _) (fun m ne c => ?_) (fun c => ?_)
    · unfold Gate.leaveQueue Gate.freeCredit
      rw [Gate.link_modLink]
      rfl
    · unfold Gate.leaveQueue Gate.freeCredit
      rw [buffered_modLink]
      cases m with
      | trunk => cases c <;> rfl
      | branch d =>
        cases c with
        | answer => rfl
        | control => rfl
        | request =>
          have nd : branchOf s ≠ d := fun e => ne (by rw [e])
          have := queuedOn_one (g := g) (g' := g.modStream s fun x => { x with queue := rest, head := none, slot := none }) s
            (fun t ht => by rw [Gate.stream_modStream, if_neg (Ne.symm ht)]) d
          simp only [nd, if_false, Nat.add_zero] at this
          exact this
    · have f := free_sum (g.link (.branch (branchOf s))) .request c
      rw [f.1, f.2]
      unfold Gate.leaveQueue Gate.freeCredit
      rw [buffered_modLink]
      cases c with
      | answer => simp [Gate.buffered]
      | control => simp [Gate.buffered]
      | request =>
        have := queuedOn_one (g := g) (g' := g.modStream s fun x => { x with queue := rest, head := none, slot := none }) s
          (fun t ht => by rw [Gate.stream_modStream, if_neg (Ne.symm ht)]) (branchOf s)
        simp [Gate.stream_modStream, queued] at this
        simp only [Gate.buffered, if_true]
        omega
  case takeHost r rest front =>
    change (g.modTrunk fun t => { t with ingressRequests := rest, hostOffer := none, link := t.link.free .request }).LinksSound
    refine links_trunk h (LinkRecord.free_sound (h.records .trunk) _) fun c => ?_
    have f := free_sum g.trunk.link .request c
    dsimp only
    rw [f.1, f.2]
    cases c <;> simp [Gate.buffered, front]
    omega
  case forward b r address room => exact links_modBranch h ⟨rfl, rfl⟩
  case trunkPort f keeps =>
    have k := keeps g.trunk
    exact links_modTrunk h ⟨k.1, k.2.1, k.2.2.1, k.2.2.2.1⟩
  case placeAnswer => exact links_modTrunk h ⟨rfl, rfl, rfl, rfl⟩
  case takeBranchAnswer b a rest front =>
    have rcd := h.records (.branch b)
    refine h.change (.branch b) (r := (g.link (.branch b)).free .answer) (fun m => ?_)
      (LinkRecord.free_sound rcd _) (fun m ne c => ?_) (fun c => ?_)
    · unfold Gate.freeCredit
      rw [Gate.link_modLink]
      cases m with
      | trunk => rfl
      | branch d =>
        simp only [Gate.link, Gate.branch_modBranch, LinkId.branch.injEq]
        split <;> simp_all
    · unfold Gate.freeCredit
      rw [buffered_modLink]
      cases m with
      | trunk => cases c <;> rfl
      | branch d =>
        have nd : b ≠ d := fun e => ne (by rw [e])
        cases c <;> simp [Gate.buffered, Gate.branch_modBranch, nd]
        rfl
    · have f := free_sum (g.link (.branch b)) .answer c
      rw [f.1, f.2]
      unfold Gate.freeCredit
      rw [buffered_modLink]
      cases c <;> simp [Gate.buffered, Gate.branch_modBranch, front]
      · rfl
      · omega
  case useHeld l c => exact links_modLink h l _ (LinkRecord.useHeld_sound (h.records l) c) fun _ => rfl
  case popAnswer => exact links_modTrunk h ⟨rfl, rfl, rfl, rfl⟩
  case popEgress => exact links_modBranch h ⟨rfl, rfl⟩
  case clearBranch b =>
    suffices cleared : (((g.clearStreams b).dropHeads b).modBranch b Branch.clear).LinksSound from
      links_quiet cleared (fun _ => rfl) rfl fun _ => ⟨rfl, rfl⟩
    refine h.change (.branch b) (r := (g.branch b).link.branchDown) (fun m => ?_)
      (LinkRecord.down_sound rfl rfl rfl rfl rfl) (fun m ne c => ?_) (fun c => ?_)
    · cases m with
      | trunk => rfl
      | branch d =>
        simp only [Gate.link, Gate.branch_modBranch, LinkId.branch.injEq]
        split
        · subst_vars; rfl
        · rfl
    · cases m with
      | trunk => cases c <;> rfl
      | branch d =>
        have nd : b ≠ d := fun e => ne (by rw [e])
        cases c with
        | control => rfl
        | answer =>
          simp only [Gate.buffered, Gate.branch_modBranch, if_neg nd]
          rfl
        | request =>
          simp only [Gate.buffered, queuedOn_sum]
          refine Finset.sum_congr rfl fun t _ => ?_
          split
          · rename_i e
            rw [queue_clearBranch, if_neg (by rw [e]; exact Ne.symm nd)]
          · rfl
    · have base := h.conserved (.branch b) c
      have zero : ((((g.clearStreams b).dropHeads b).modBranch b Branch.clear).buffered (.branch b) c) = 0 := by
        cases c with
        | control => rfl
        | answer => simp [Gate.buffered, Gate.branch_modBranch, Branch.clear]
        | request =>
          simp only [Gate.buffered, queuedOn_sum]
          refine Finset.sum_eq_zero fun t _ => ?_
          split
          · rename_i e
            rw [queue_clearBranch, if_pos e]; rfl
          · rfl
      rw [zero, base]
      simp [LinkRecord.branchDown, capacity, Credits.get_zero]
  case train l down =>
    refine links_modLink h l _ (LinkRecord.train_sound (h.records l) down) fun c => ?_
    have := (h.records l).grantedDown down
    simp only [LinkRecord.train, this, Credits.get_zero]
    omega
  case goUp => exact links_modLink h _ _ (LinkRecord.goUp_sound (h.records _) (by assumption) (by assumption)) fun _ => rfl
  case trunkDown =>
    refine links_modLink h .trunk _ (LinkRecord.down_sound rfl rfl rfl rfl rfl) fun c => ?_
    simp only [LinkRecord.trunkDown, Credits.get_zero, Credits.get_add]
    omega
  case oweReset b =>
    have r := h.records (.branch b)
    exact links_modLink h (.branch b) _ ⟨r.partner, r.heldNotUp, r.grantedDown, r.held, r.orderNodup, r.orderFreed, r.freedOrder⟩
      fun _ => rfl
  case returnSpent l c =>
    refine links_modLink h l _ (LinkRecord.returnSpent_sound (h.records l) c) fun d => ?_
    unfold LinkRecord.returnSpent
    split
    · rename_i spent
      have u := useGranted_sum (g.link l) c d spent
      have f := free_sum ((g.link l).useGranted c) c d
      rw [f.1, f.2, u.2]
      omega
    · rfl
  case credit l c n partner fits => exact links_modLink h l _ (LinkRecord.credit_sound (h.records l) partner fits) fun _ => rfl
  case sendCredit l c rest due up =>
    refine links_modLink h l _ (LinkRecord.sendCredit_sound (h.records l) due up) fun d => ?_
    simp only [Credits.get_set]
    split
    · subst_vars; omega
    · rfl
  case arriveRequest s r spent =>
    have rcd := h.records (.branch (branchOf s))
    refine h.change (.branch (branchOf s)) (r := (g.link (.branch (branchOf s))).useGranted .request) (fun m => ?_)
      (LinkRecord.useGranted_sound rcd _) (fun m ne c => ?_) (fun c => ?_)
    · have := g.link_modLink (.branch (branchOf s)) m (·.useGranted .request)
      cases m <;> exact this
    · cases m with
      | trunk => cases c <;> rfl
      | branch d =>
        have nd : branchOf s ≠ d := fun e => ne (by rw [e])
        cases c with
        | answer => exact buffered_modLink (g := g) (.branch (branchOf s)) (.branch d) (·.useGranted .request) .answer
        | control => rfl
        | request =>
          have := queuedOn_one (g := g) (g' := (g.modLink (.branch (branchOf s)) (·.useGranted .request)).modStream s fun x =>
            { x with queue := x.queue ++ [r] }) s
            (fun t ht => by rw [Gate.stream_modStream, if_neg (Ne.symm ht)]; rfl) d
          simp only [nd, if_false, Nat.add_zero] at this
          exact this
    · have u := useGranted_sum (g.link (.branch (branchOf s))) .request c spent
      rw [u.2, ← u.1]
      cases c with
      | answer =>
        have := buffered_modLink (g := g) (.branch (branchOf s)) (.branch (branchOf s)) (·.useGranted .request) .answer
        simp only [Gate.buffered] at this ⊢
        simp
        exact this
      | control => rfl
      | request =>
        have := queuedOn_one (g := g) (g' := (g.modLink (.branch (branchOf s)) (·.useGranted .request)).modStream s fun x =>
          { x with queue := x.queue ++ [r] }) s
          (fun t ht => by rw [Gate.stream_modStream, if_neg (Ne.symm ht)]; rfl) (branchOf s)
        simp [Gate.stream_modStream] at this
        simp only [Gate.buffered, if_true]
        simp
        omega
  case arriveBranchAnswer b a spent =>
    refine h.change (.branch b) (r := (g.link (.branch b)).useGranted .answer) (fun m => ?_)
      (LinkRecord.useGranted_sound (h.records (.branch b)) _) (fun m ne c => ?_) (fun c => ?_)
    · cases m with
      | trunk => rfl
      | branch d =>
        simp only [Gate.link, Gate.modLink_branch, Gate.branch_modBranch, LinkId.branch.injEq]
        split <;> simp_all
    · cases m with
      | trunk => cases c <;> rfl
      | branch d =>
        have nd : b ≠ d := fun e => ne (by rw [e])
        cases c <;> simp [Gate.buffered, Gate.branch_modBranch, nd]
        rfl
    · have u := useGranted_sum (g.link (.branch b)) .answer c spent
      rw [u.2, ← u.1]
      cases c <;> simp [Gate.buffered, Gate.branch_modBranch]
      · rfl
      · omega
  case arriveTrunkRequest r spent =>
    change (g.modTrunk fun t => { t with link := t.link.useGranted .request, ingressRequests := t.ingressRequests ++ [r] }).LinksSound
    refine links_trunk h (LinkRecord.useGranted_sound (h.records .trunk) _) fun c => ?_
    have u := useGranted_sum g.trunk.link .request c spent
    dsimp only
    rw [u.2, ← u.1]
    cases c <;> simp [Gate.buffered]
    omega
  case arriveTrunkAnswer a spent =>
    change (g.modTrunk fun t => { t with link := t.link.useGranted .answer, ingressAnswers := t.ingressAnswers ++ [a] }).LinksSound
    refine links_trunk h (LinkRecord.useGranted_sound (h.records .trunk) _) fun c => ?_
    have u := useGranted_sum g.trunk.link .answer c spent
    dsimp only
    rw [u.2, ← u.1]
    cases c <;> simp [Gate.buffered]
    omega
  case takeTrunkAnswer a rest front =>
    change (g.modTrunk fun t => { t with ingressAnswers := rest, link := t.link.free .answer }).LinksSound
    refine links_trunk h (LinkRecord.free_sound (h.records .trunk) _) fun c => ?_
    have f := free_sum g.trunk.link .answer c
    dsimp only
    rw [f.1, f.2]
    cases c <;> simp [Gate.buffered, front]
    omega
  case arriveControl p spent =>
    change (g.modTrunk fun t => { t with link := t.link.useGranted .control, ingressControl := t.ingressControl ++ [p] }).LinksSound
    refine links_trunk h (LinkRecord.useGranted_sound (h.records .trunk) _) fun c => ?_
    have u := useGranted_sum g.trunk.link .control c spent
    dsimp only
    rw [u.2, ← u.1]
    cases c <;> simp [Gate.buffered]
    omega
  case takeControl p rest front =>
    change (g.modTrunk fun t => { t with ingressControl := rest, link := t.link.free .control }).LinksSound
    refine links_trunk h (LinkRecord.free_sound (h.records .trunk) _) fun c => ?_
    have f := free_sum g.trunk.link .control c
    dsimp only
    rw [f.1, f.2]
    cases c <;> simp [Gate.buffered, front]
    omega
  case countBranch b f => exact links_modBranch h ⟨rfl, rfl⟩
  case lastSent b q => exact links_modBranch h ⟨rfl, rfl⟩
  case unbind c => exact links_quiet h (queue_unbindContext c) rfl fun _ => ⟨rfl, rfl⟩
  case rebind s mode => exact links_quiet h (queue_bindStream s mode) rfl fun _ => ⟨rfl, rfl⟩
  case retireNow c tag node active idle uncached drained room =>
    exact links_quiet h (fun s => queue_completeRetire c tag node s) rfl fun _ => ⟨rfl, rfl⟩
  case retireJudged c tag node pending drained =>
    exact links_quiet h (fun s => queue_completeRetire c tag node s) rfl fun _ => ⟨rfl, rfl⟩
  case powerOn straps =>
    exact links_fresh (LinkRecord.down_sound rfl rfl rfl rfl rfl) (fun c => by cases c <;> rfl) ⟨rfl, rfl, rfl⟩
      (branch_reset straps .power) (stream_reset straps .power)
  case trunkReset x fits =>
    have down : (LinkRecord.reset trunkCapacity).Sound := LinkRecord.down_sound rfl rfl rfl rfl rfl
    exact links_fresh (LinkRecord.goUp_sound (LinkRecord.train_sound down rfl) rfl fits) (fun c => by cases c <;> rfl)
      ⟨rfl, rfl, rfl⟩ (branch_reset g.gateId .trunk) (stream_reset g.gateId .trunk)
  all_goals
    refine links_quiet h (fun s => ?_) ?_ fun b => ?_
    all_goals first
      | rfl
      | exact ⟨rfl, rfl⟩
      | simp [Gate.stream, Gate.branch]

end Sys2Proof.Machine
end

