-- ==== Sys2Proof/Laws/KeepsLog.lean ====
section
/-! SUPPORT. Every act keeps the fault log sound (R102, R104, R108 to R110). -/

namespace Sys2Proof.Machine

variable {g g' : Gate}

theorem log_reset_sound : FaultLog.reset.Sound where
  bounded := by simp [FaultLog.reset]
  consecutive := by simp [FaultLog.reset]
  repeats := by simp [FaultLog.reset]
  lost := by simp [FaultLog.reset]
  pendingLoss := by simp [FaultLog.reset]

theorem log_join_sound {l : FaultLog} (h : l.Sound) (f : FaultReport) (room : l.records.length < Config.logRecords) :
    (l.join f).Sound where
  bounded := by simp [FaultLog.join]; omega
  consecutive := by
    intro i r hr
    simp only [FaultLog.join, List.length_append, List.length_singleton] at hr ⊢
    rw [List.getElem?_append] at hr
    split at hr
    · rename_i hi
      have := h.consecutive i r hr
      rw [← this]
      have : l.records.length + 1 - i = (l.records.length - i) + 1 := by omega
      rw [this, BitVec.ofNat_add, BitVec.add_assoc]
      rfl
    · rename_i hi
      have : i - l.records.length = 0 := by
        by_contra hne
        have : i - l.records.length ≥ 1 := by omega
        rw [List.getElem?_eq_none (by simpa using this)] at hr
        cases hr
      rw [this] at hr
      simp at hr
      subst hr
      have : l.records.length + 1 - i = 1 := by omega
      rw [this]
      rfl
  repeats := by
    intro r hr
    simp only [FaultLog.join, List.mem_append, List.mem_singleton] at hr
    rcases hr with hr | rfl
    · exact h.repeats r hr
    · simp [Config.saturation]
  lost := by
    intro r hr n hn
    simp only [FaultLog.join, List.mem_append, List.mem_singleton] at hr
    rcases hr with hr | rfl
    · exact h.lost r hr n hn
    · simp only at hn
      split at hn
      · cases hn
      · injection hn with hn; subst hn
        exact ⟨by omega, h.pendingLoss⟩
  pendingLoss := by simp [FaultLog.join]

theorem log_lose_sound {l : FaultLog} (h : l.Sound) : l.lose.Sound where
  bounded := h.bounded
  consecutive := h.consecutive
  repeats := h.repeats
  lost := h.lost
  pendingLoss := by simp [FaultLog.lose]

theorem log_merge_sound {l : FaultLog} (h : l.Sound) {f : FaultReport} (m : l.merges f = true) : l.merge.Sound := by
  unfold FaultLog.merges at m
  unfold FaultLog.merge
  split at m
  · cases m
  · rename_i r hr
    simp at m
    obtain ⟨rs, rfl'⟩ : ∃ rs, l.records = rs ++ [r] := ⟨_, (List.dropLast_append_getLast? r hr).symm⟩
    have hmem : r ∈ l.records := by simp [rfl']
    have hdrop : l.records.dropLast = rs := by simp [rfl']
    refine ⟨?_, ?_, ?_, ?_, h.pendingLoss⟩
    · have := h.bounded; simp [rfl'] at this ⊢; exact this
    · intro i x hx
      simp only [hdrop] at hx ⊢
      have hc := h.consecutive i
      simp only [rfl', List.length_append, List.length_singleton] at hc ⊢
      rw [List.getElem?_append] at hx hc
      split at hx
      · rename_i hi
        exact hc x (by simpa [hi] using hx)
      · rename_i hi
        rw [List.getElem?_singleton] at hx
        split at hx
        · rename_i h0
          injection hx with hx; subst hx
          have := hc r (by simp [hi, h0])
          exact this
        · cases hx
    · intro x hx
      simp only [hdrop, List.mem_append, List.mem_singleton] at hx
      rcases hx with hx | rfl
      · exact h.repeats x (by simp [rfl', hx])
      · have := h.repeats r hmem
        exact ⟨by simp, by have := m.2; show r.repeats + 1 ≤ _; omega⟩
    · intro x hx n hn
      simp only [hdrop, List.mem_append, List.mem_singleton] at hx
      rcases hx with hx | rfl
      · exact h.lost x (by simp [rfl', hx]) n hn
      · exact h.lost r hmem n hn

theorem log_drop_sound {l : FaultLog} (h : l.Sound) (n : Nat) :
    ({ l with records := l.records.drop n, latch := false } : FaultLog).Sound where
  bounded := by have := h.bounded; simp; omega
  consecutive := by
    intro i r hr
    simp only [List.getElem?_drop, List.length_drop] at hr ⊢
    have := h.consecutive _ r hr
    rw [← this]
    congr 2
    omega
  repeats := fun r hr => h.repeats r (List.mem_of_mem_drop hr)
  lost := fun r hr => h.lost r (List.mem_of_mem_drop hr)
  pendingLoss := h.pendingLoss

theorem offerFault_log_sound (f : FaultReport) (h : g.log.Sound) : (g.offerFault f).log.Sound := by
  have keep (g : Gate) (h : g.log.Sound) : (g.keepFault f).log.Sound := by
    unfold Gate.keepFault
    split
    · rename_i m; exact log_merge_sound h m
    split
    · rename_i room
      dsimp only
      split
      · exact log_join_sound h f room
      · rw [Gate.oweFaults_log]; exact log_join_sound h f room
    · exact log_lose_sound h
  unfold Gate.offerFault
  repeat' split
  all_goals first
    | exact h
    | exact keep g h
    | exact keep (g.count _ _) h

theorem GateStep.keeps_log {k : Kind} (st : GateStep k g g') (h : g.log.Sound) : g'.log.Sound := by
  cases st
  case fault f => exact offerFault_log_sound f h
  case powerOn => exact log_reset_sound
  case trunkReset => exact log_reset_sound
  case takeRecords n => exact log_drop_sound h n
  case policy p => exact ⟨h.bounded, h.consecutive, h.repeats, h.lost, h.pendingLoss⟩
  all_goals simpa using h

end Sys2Proof.Machine
end

