-- ==== Sys2Proof/Laws/KeepsManagement.lean ====
section
/-! SUPPORT. Every act keeps the places of the control transmit queue (R142, R147), the notices (R148, R149) and the sizes of the
queues that the gate fills by itself (R121, R123). -/

namespace Sys2Proof.Machine

variable {g g' : Gate}

/-! ### What offering a fault does to the management unit -/

theorem offerFault_management (f : FaultReport) :
    (g.offerFault f).management.controlQueue = g.management.controlQueue ∧
    (g.offerFault f).management.pendingList = g.management.pendingList ∧
    (g.offerFault f).management.manager = g.management.manager ∧
    (g.offerFault f).management.branchOwed = g.management.branchOwed := by
  simp only [Gate.offerFault, Gate.keepFault, Gate.oweFaults]
  repeat' split
  all_goals exact ⟨rfl, rfl, rfl, rfl⟩

theorem offerFault_context (f : FaultReport) (c : ContextNo) :
    ∃ x, (g.offerFault f).context c = { g.context c with counters := x } := by
  have keep (g : Gate) : (g.keepFault f).context c = g.context c := by simp [Gate.context]
  unfold Gate.offerFault
  split
  · rename_i d _
    split
    · rw [keep, Gate.count, Gate.context_modContext]
      split
      · subst_vars; exact ⟨_, rfl⟩
      · exact ⟨_, rfl⟩
    · rw [Gate.count, Gate.context_modContext]
      split
      · subst_vars; exact ⟨_, rfl⟩
      · exact ⟨_, rfl⟩
  · split
    · rw [keep]; exact ⟨_, rfl⟩
    · exact ⟨_, rfl⟩

theorem oweBranch_management (b : BranchNo) :
    (g.oweBranch b).management.controlQueue = g.management.controlQueue ∧
    (g.oweBranch b).management.pendingList = g.management.pendingList ∧
    (g.oweBranch b).management.manager = g.management.manager ∧
    (g.oweBranch b).management.faultsOwed = g.management.faultsOwed := by
  simp only [Gate.oweBranch]
  split <;> exact ⟨rfl, rfl, rfl, rfl⟩

/-! ### Places -/

/-- What the places depend on. -/
theorem Gate.PlacesSound.of (h : g.PlacesSound) (q : g'.management.controlQueue = g.management.controlQueue)
    (p : g'.management.pendingList = g.management.pendingList)
    (c : ∀ c, (g'.context c).pending = (g.context c).pending) : g'.PlacesSound where
  places := by rw [q, p]; exact h.places
  bounded := by rw [p]; exact h.bounded
  listed := fun d => by rw [p, c]; exact h.listed d

theorem pending_modContext {c d : ContextNo} {f : Context → Context} (same : ∀ x, (f x).pending = x.pending) :
    ((g.modContext c f).context d).pending = (g.context d).pending := by
  rw [Gate.context_modContext]
  split
  · subst_vars; exact same _
  · rfl

theorem places_clear {c : ContextNo} {node tag : Byte} {status : ReplyStatus} {code : Byte} {results : List Byte}
    (h : g.PlacesSound)
    (room : (g.context c).pending.isSome ∨ 0 < g.management.openPlaces) :
    ((g.clearPending c).queueReply node tag status code results).PlacesSound := by
  have listed := h.listed c
  have split := List.length_eq_length_filter_add (l := g.management.pendingList) (fun e => e.context == c)
  rw [listed] at split
  have kept : g.management.pendingList.filter (fun e => e.context != c) =
      g.management.pendingList.filter (fun e => !(e.context == c)) := rfl
  have places := h.places
  have bounded := h.bounded
  refine ⟨?_, ?_, ?_⟩
  · simp only [Gate.queueReply, Gate.clearPending, Gate.modManagement_management, Gate.modContext_management,
      List.length_append, List.length_singleton, kept]
    rcases room with room | room
    · obtain ⟨p, hp⟩ := Option.isSome_iff_exists.mp room
      rw [hp] at split
      simp at split
      omega
    · unfold Management.openPlaces at room
      omega
  · simp only [Gate.queueReply, Gate.clearPending, Gate.modManagement_management, Gate.modContext_management, kept]
    omega
  · intro d
    simp only [Gate.queueReply, Gate.clearPending, Gate.modManagement_management, Gate.modContext_management,
      Gate.context_modManagement, Gate.context_modContext]
    split
    · subst_vars
      simp [List.filter_filter]
    · rename_i ne
      simp only [List.filter_filter]
      rw [← h.listed d]
      refine List.filter_congr fun e _ => ?_
      by_cases he : e.context = d
      · subst he; simp [Ne.symm ne]
      · simp [he]

theorem places_set {c : ContextNo} {command : LongCommand} {tag node : Byte} (h : g.PlacesSound)
    (idle : (g.context c).pending = none) (room : 0 < g.management.openPlaces)
    (few : g.management.pendingList.length < Config.pendingCommands) :
    (g.setPending c command tag node).PlacesSound := by
  refine ⟨?_, ?_, ?_⟩
  · unfold Management.openPlaces at room
    simp [Gate.setPending]
    omega
  · simp [Gate.setPending]; omega
  · intro d
    have listed := h.listed d
    simp only [Gate.setPending, Gate.modManagement_management, Gate.modContext_management, Gate.context_modManagement,
      Gate.context_modContext, List.filter_append, listed]
    split
    · subst_vars
      rw [idle]
      simp [PendingLong.asEntry]
    · rename_i ne
      simp [ne]

theorem places_modContext {c : ContextNo} {f : Context → Context} (h : g.PlacesSound)
    (same : ∀ x, (f x).pending = x.pending) : (g.modContext c f).PlacesSound :=
  h.of rfl rfl fun _ => pending_modContext same

theorem places_reply {node tag : Byte} {status : ReplyStatus} {code : Byte} {results : List Byte} (h : g.PlacesSound)
    (room : 0 < g.management.openPlaces) : (g.queueReply node tag status code results).PlacesSound := by
  unfold Management.openPlaces at room
  refine ⟨?_, h.bounded, h.listed⟩
  simp [Gate.queueReply]
  omega

theorem places_notice (h : g.PlacesSound) : g.placeNotice.PlacesSound := by
  unfold Gate.placeNotice
  split
  · exact h
  split
  · exact h
  rename_i room
  unfold Management.openPlaces at room
  split
  · exact h
  all_goals
    refine ⟨?_, h.bounded, h.listed⟩
    simp
    omega

theorem places_completeRetire {c : ContextNo} {tag node : Byte} (h : g.PlacesSound)
    (room : (g.context c).pending.isSome ∨ 0 < g.management.openPlaces) : (g.completeRetire c tag node).PlacesSound := by
  unfold Gate.completeRetire
  refine places_clear (places_modContext ?_ fun _ => rfl) ?_
  · exact h.of rfl rfl fun _ => rfl
  · have : (g.unbindContext c).context c = g.context c := rfl
    simpa [Gate.context_modContext, this] using room

theorem places_completeInvalidate {c : ContextNo} {tag node : Byte} (h : g.PlacesSound)
    (room : (g.context c).pending.isSome ∨ 0 < g.management.openPlaces) :
    (g.completeInvalidate c tag node).PlacesSound := by
  unfold Gate.completeInvalidate
  exact places_clear h room

theorem places_fresh {m : Management} (q : g.management = .reset m.resetCause) (c : ∀ c, g.context c = .reset) :
    g.PlacesSound := by
  refine ⟨?_, ?_, fun d => ?_⟩
  · rw [q]; simp [Management.reset]
  · rw [q]; simp [Management.reset]
  · rw [q, c]; simp [Management.reset, Context.reset]

theorem trunkReset_context (x : Credits) (c : ContextNo) : (g.trunkReset x).context c = .reset :=
  context_reset g.gateId .trunk c

theorem GateStep.keeps_places {k : Kind} (st : GateStep k g g') (h : g.PlacesSound) : g'.PlacesSound := by
  cases st
  case fault f =>
    have m := offerFault_management (g := g) f
    refine h.of m.1 m.2.1 fun c => ?_
    obtain ⟨x, hx⟩ := offerFault_context (g := g) f c
    rw [hx]
  case oweBranch b =>
    have m := oweBranch_management (g := g) b
    exact h.of m.1 m.2.1 fun c => by simp [Gate.context]
  case count => exact places_modContext h fun _ => rfl
  case popControl front =>
    refine ⟨?_, h.bounded, h.listed⟩
    have := h.places
    rw [front] at this
    simp at this ⊢
    omega
  case reply room => exact places_reply h room
  case notice => exact places_notice h
  case setup => exact places_modContext h fun _ => rfl
  case openContext => exact places_modContext h fun _ => rfl
  case raiseEpoch => exact places_modContext h fun _ => rfl
  case freeReady => exact places_modContext h fun _ => rfl
  case pendRetire idle _ room few =>
    refine places_set (places_modContext h fun _ => rfl) ?_ room few
    rw [Gate.context_modContext, if_pos rfl]; exact idle
  case retireNow room =>
    exact places_completeRetire (places_modContext h fun _ => rfl) (.inr room)
  case retireJudged pending _ => exact places_completeRetire h (.inl (by rw [pending]; rfl))
  case pendInvalidate idle room few => exact places_set h idle room few
  case invalidateNow room => exact places_completeInvalidate h (.inr room)
  case invalidateJudged pending => exact places_completeInvalidate h (.inl (by rw [pending]; rfl))
  case powerOn straps => exact places_fresh (m := .reset .power) rfl (context_reset straps .power)
  case trunkReset => exact places_fresh (m := .reset .trunk) rfl (trunkReset_context _)
  all_goals exact h.of (by first | rfl | simp) (by first | rfl | simp) (by intro c; first | rfl | simp [Gate.context])

/-! ### Notices -/

theorem FaultLog.merge_records (l : FaultLog) : l.merge.records.length = l.records.length ∧ l.merge.latch = l.latch := by
  unfold FaultLog.merge
  split
  · exact ⟨rfl, rfl⟩
  · rename_i r hr
    have : l.records ≠ [] := by rintro h; rw [h] at hr; cases hr
    have : 0 < l.records.length := List.length_pos_iff.mpr this
    simp; omega

theorem Gate.NoticesSound.of (h : g.NoticesSound) (m : g'.management = g.management) (l : g'.log = g.log) : g'.NoticesSound := by
  exact ⟨by rw [m]; exact h.faultsManaged, by rw [m]; exact h.branchManaged, by rw [m, l]; exact h.latched,
    by rw [l]; exact h.logBounded, by rw [m]; exact h.counted⟩

theorem keepFault_notices (f : FaultReport) (h : g.NoticesSound) : (g.keepFault f).NoticesSound := by
  unfold Gate.keepFault
  split
  · have m := g.log.merge_records
    refine ⟨h.faultsManaged, h.branchManaged, fun o => ?_, ?_, h.counted⟩
    · have l := h.latched o
      refine ⟨m.2.trans l.1, ?_⟩
      have := List.length_pos_iff.mpr l.2
      exact List.length_pos_iff.mp (m.1 ▸ this)
    · show g.log.merge.records.length ≤ _
      rw [m.1]; exact h.logBounded
  split
  · rename_i room
    have bound : (g.log.join f).records.length ≤ Config.logRecords := by simp [FaultLog.join]; omega
    have latched : (g.log.join f).latch = true ∧ (g.log.join f).records ≠ [] := by simp [FaultLog.join]
    dsimp only
    split
    · exact ⟨h.faultsManaged, h.branchManaged, fun _ => latched, bound, h.counted⟩
    · unfold Gate.oweFaults
      split
      · rename_i manager
        exact ⟨fun _ => manager, h.branchManaged, fun _ => latched, bound, h.counted⟩
      · exact ⟨h.faultsManaged, h.branchManaged, fun _ => latched, bound, h.counted⟩
  · exact ⟨h.faultsManaged, h.branchManaged, h.latched, h.logBounded, h.counted⟩

theorem notices_fresh {c : ResetCause} (m : g.management = .reset c) (l : g.log = .reset) : g.NoticesSound := by
  refine ⟨?_, ?_, ?_, ?_, ?_⟩
  · rw [m]; simp [Management.reset]
  · rw [m]; simp [Management.reset]
  · rw [m]; simp [Management.reset]
  · rw [l]; simp [FaultLog.reset]
  · rw [m]; simp [Management.reset]

/-- Changes of the management unit that keep what the notices depend on, but for packets added that are no notice. -/
theorem Gate.NoticesSound.ofManagement (h : g.NoticesSound) (l : g'.log = g.log)
    (a : g'.management.manager = g.management.manager) (b : g'.management.faultsOwed = g.management.faultsOwed)
    (c : g'.management.branchOwed = g.management.branchOwed)
    (d : ∀ node n, .faultsNotice node n ∈ g'.management.controlQueue → .faultsNotice node n ∈ g.management.controlQueue) :
    g'.NoticesSound where
  faultsManaged := by rw [a, b]; exact h.faultsManaged
  branchManaged := fun i o => by rw [a]; simp only [c] at o; exact h.branchManaged i o
  latched := by rw [b, l]; exact h.latched
  logBounded := by rw [l]; exact h.logBounded
  counted := fun node n m => h.counted node n (d node n m)

theorem notices_notice (h : g.NoticesSound) : g.placeNotice.NoticesSound := by
  unfold Gate.placeNotice
  split
  · exact h
  split
  · exact h
  split
  · exact h
  · rename_i node manager _ first
    have owed : g.management.faultsOwed = true := by
      unfold Management.firstOwed at first
      split at first
      · assumption
      · cases hx : lowest g.management.branchOwed id <;> simp [hx] at first
    have nonempty := List.length_pos_iff.mpr (h.latched owed).2
    refine ⟨by simp, h.branchManaged, by simp, h.logBounded, ?_⟩
    intro n k mem
    simp at mem
    rcases mem with mem | mem
    · exact h.counted n k mem
    · rw [mem.2]; exact ⟨nonempty, h.logBounded⟩
  · refine ⟨h.faultsManaged, fun d _ => ?_, h.latched, h.logBounded, ?_⟩
    · show g.management.manager.isSome
      rw [‹g.management.manager = some _›]; rfl
    · intro n k mem
      simp at mem
      exact h.counted n k mem

theorem GateStep.keeps_notices {k : Kind} (st : GateStep k g g') (h : g.NoticesSound) : g'.NoticesSound := by
  cases st
  case fault f =>
    unfold Gate.offerFault
    repeat' split
    all_goals first
      | exact keepFault_notices f h
      | exact keepFault_notices (g := g.count _ _) f (h.of rfl rfl)
      | exact h.of rfl rfl
  case oweBranch b =>
    unfold Gate.oweBranch
    split
    · rename_i manager
      exact ⟨h.faultsManaged, fun _ _ => manager, h.latched, h.logBounded, h.counted⟩
    · exact h
  case notice => exact notices_notice h
  case gateCount => exact h.ofManagement rfl rfl rfl rfl fun _ _ m => m
  case popControl front =>
    refine h.ofManagement rfl rfl rfl rfl fun _ _ m => ?_
    rw [front]; exact List.mem_cons_of_mem _ m
  case reply => exact h.ofManagement rfl rfl rfl rfl fun _ _ m => by simpa [Gate.queueReply] using m
  case takeRecords n =>
    refine ⟨by simp [Gate.takeRecords], h.branchManaged, by simp [Gate.takeRecords], ?_, h.counted⟩
    have := h.logBounded
    simp [Gate.takeRecords]; omega
  case claim node => exact ⟨by simp, by simp, h.latched, h.logBounded, h.counted⟩
  case release => exact ⟨by simp, by simp, by simp, h.logBounded, h.counted⟩
  case policy => exact ⟨h.faultsManaged, h.branchManaged, h.latched, h.logBounded, h.counted⟩
  case pendRetire => exact h.ofManagement rfl rfl rfl rfl fun _ _ m => m
  case retireNow => exact h.ofManagement (by simp) rfl rfl rfl fun _ _ m => by simpa [Gate.completeRetire, Gate.queueReply, Gate.clearPending] using m
  case retireJudged => exact h.ofManagement (by simp) rfl rfl rfl fun _ _ m => by simpa [Gate.completeRetire, Gate.queueReply, Gate.clearPending] using m
  case pendInvalidate => exact h.ofManagement rfl rfl rfl rfl fun _ _ m => m
  case invalidateNow => exact h.ofManagement (by simp) rfl rfl rfl fun _ _ m => by simpa [Gate.completeInvalidate, Gate.queueReply, Gate.clearPending] using m
  case invalidateJudged => exact h.ofManagement (by simp) rfl rfl rfl fun _ _ m => by simpa [Gate.completeInvalidate, Gate.queueReply, Gate.clearPending] using m
  case powerOn => exact notices_fresh (c := .power) rfl rfl
  case trunkReset => exact notices_fresh (c := .trunk) rfl rfl
  all_goals exact h.of (by simp) (by simp)

/-! ### Queues -/

theorem Gate.QueuesBounded.of (h : g.QueuesBounded) (b : g'.branches = g.branches)
    (t : g'.trunk.answerQueue = g.trunk.answerQueue) : g'.QueuesBounded where
  egress := fun d => by simp only [Gate.branch, b]; exact h.egress d
  answers := by rw [t]; exact h.answers

theorem queues_modBranch {b : BranchNo} {f : Branch → Branch} (h : g.QueuesBounded)
    (short : (f (g.branch b)).egressRequests.length ≤ Config.egressPlaces) : (g.modBranch b f).QueuesBounded := by
  refine ⟨fun d => ?_, h.answers⟩
  rw [Gate.branch_modBranch]
  split
  · exact short
  · exact h.egress d

theorem queues_modLink {l : LinkId} {f : LinkRecord → LinkRecord} (h : g.QueuesBounded) : (g.modLink l f).QueuesBounded := by
  cases l with
  | trunk => exact h.of rfl rfl
  | branch b => exact queues_modBranch (f := fun x => { x with link := f x.link }) h (h.egress b)

theorem queues_fresh (b : g.branches = Vector.replicate 4 .reset) (t : g.trunk.answerQueue = []) : g.QueuesBounded := by
  refine ⟨fun d => ?_, by rw [t]; simp⟩
  simp [Gate.branch, b, Branch.reset]

theorem GateStep.keeps_queues {k : Kind} (st : GateStep k g g') (h : g.QueuesBounded) : g'.QueuesBounded := by
  cases st
  case port b f keeps => exact queues_modBranch h (by rw [(keeps _).2.2]; exact h.egress b)
  case leave s r rest _ => exact queues_modLink (l := .branch (branchOf s)) (f := (·.free .request)) (g := g.modStream s _) (h.of rfl rfl)
  case takeHost => exact h.of rfl rfl
  case forward b r address room =>
    refine queues_modBranch h ?_
    simp; omega
  case trunkPort f keeps => exact h.of rfl (keeps _).2.2.2.2
  case placeAnswer room => exact ⟨h.egress, by simp [Gate.placeTrunkAnswer]; omega⟩
  case takeBranchAnswer b a rest _ => exact queues_modLink (l := .branch b) (queues_modBranch h (h.egress b))
  case useHeld => exact queues_modLink h
  case popAnswer front =>
    refine ⟨h.egress, ?_⟩
    have := h.answers
    rw [front] at this
    simp at this ⊢; omega
  case popEgress b r rest front =>
    refine queues_modBranch h ?_
    have := h.egress b
    rw [front] at this
    simp at this ⊢; omega
  case clearBranch b =>
    refine (queues_modBranch (g := (g.clearStreams b).dropHeads b) (f := Branch.clear) (h.of rfl rfl) ?_).of rfl rfl
    simp [Branch.clear]
  case countBranch b f => exact queues_modBranch h (h.egress b)
  case lastSent b q => exact queues_modBranch h (h.egress b)
  case train => exact queues_modLink h
  case goUp => exact queues_modLink h
  case trunkDown => exact queues_modLink h
  case oweReset => exact queues_modLink (l := .branch _) h
  case returnSpent => exact queues_modLink h
  case credit => exact queues_modLink h
  case sendCredit => exact queues_modLink h
  case arriveRequest s r _ => exact (queues_modLink (l := .branch (branchOf s)) (f := (·.useGranted .request)) h).of rfl rfl
  case arriveBranchAnswer b a _ =>
    have := queues_modLink (l := .branch b) (f := (·.useGranted .answer)) h
    exact queues_modBranch this (this.egress b)
  case arriveTrunkRequest => exact h.of rfl rfl
  case arriveTrunkAnswer => exact h.of rfl rfl
  case takeTrunkAnswer => exact h.of rfl rfl
  case arriveControl => exact h.of rfl rfl
  case takeControl => exact h.of rfl rfl
  case powerOn => exact queues_fresh rfl rfl
  case trunkReset => exact queues_fresh rfl rfl
  all_goals exact h.of (by simp) (by simp)

end Sys2Proof.Machine
end

