-- ==== Sys2Proof/Laws/KeepsTables.lean ====
section
/-! SUPPORT. Every act keeps the tables of contexts, translations and walks sound (R4, R5, R24, R25, R29, R30). -/

namespace Sys2Proof.Machine

variable {g g' : Gate}

theorem Context.Sound.counters {x : Context} (h : x.Sound) (c : ContextCounters) : ({ x with counters := c } : Context).Sound :=
  ⟨h.aligned, h.nonempty, h.bounded, h.inSpace, h.draining, h.active⟩

/-- What the tables depend on: contexts that agree but for epoch and counters, the cache, the walks. -/
theorem Gate.TablesSound.of (h : g.TablesSound)
    (c : ∀ c, ∃ e x, g'.context c = { g.context c with epoch := e, counters := x }) (ca : ∀ e, e ∈ g'.cache → e ∈ g.cache)
    (cb : g'.cache.length ≤ Config.cacheEntries) (cd : (g'.cache.map fun e => (e.context, e.page)).Nodup)
    (w : ∀ i, (g.walk i).Follows (g'.walk i)) : g'.TablesSound := by
  refine ⟨⟨cb, cd, fun e he => ?_⟩, fun d => ?_, ⟨fun i w' hw => ?_, fun i j w' x' hi hj a b cc => ?_⟩⟩
  · obtain ⟨_, _, hc⟩ := c e.context
    rw [hc]; exact h.cache.active e (ca e he)
  · obtain ⟨_, _, hc⟩ := c d
    have s := h.contexts d
    rw [hc]; exact ⟨s.aligned, s.nonempty, s.bounded, s.inSpace, s.draining, s.active⟩
  · have f := w i
    rw [hw] at f
    obtain ⟨w0, h0, e1, e2, e3, e4⟩ := f
    obtain ⟨_, _, hc⟩ := c w'.context
    rw [hc, e1, e2, e4]
    exact h.walks.inMap i w0 h0
  · have f := w i
    have f' := w j
    rw [hi] at f
    rw [hj] at f'
    obtain ⟨w0, h0, e1, e2, e3, e4⟩ := f
    obtain ⟨x0, h0', e1', e2', e3', e4'⟩ := f'
    exact h.walks.distinct i j w0 x0 h0 h0' (by rw [← e1, ← e1', a]) (by rw [← e2, ← e2', b]) (by rw [← e3, ← e3', cc])

theorem follows_refl (x : WalkSlot) : x.Follows x := by
  cases x <;> simp [WalkSlot.Follows]

theorem Gate.TablesSound.same (h : g.TablesSound) (c : g'.contexts = g.contexts) (ca : g'.cache = g.cache) (w : g'.walks = g.walks) :
    g'.TablesSound :=
  h.of (fun d => ⟨(g.context d).epoch, (g.context d).counters, by simp only [Gate.context, c]⟩)
    (fun _ he => ca ▸ he) (by rw [ca]; exact h.cache.bounded) (by rw [ca]; exact h.cache.distinct)
    (fun i => by have : g'.walk i = g.walk i := by simp only [Gate.walk, w]
                 rw [this]; exact follows_refl _)

/-- A change of one context's record with sound result that keeps cached and walking contexts in their states. -/
theorem tables_modContext {c : ContextNo} {f : Context → Context} (h : g.TablesSound) (sound : (f (g.context c)).Sound)
    (active : (∃ e ∈ g.cache, e.context = c) → (f (g.context c)).state = .active)
    (walking : (∃ i w, g.walk i = .walking w ∧ w.context = c) →
      ((f (g.context c)).state = .active ∨ (f (g.context c)).state = .draining) ∧
      (f (g.context c)).mapLength = (g.context c).mapLength ∧ (f (g.context c)).mapRoot = (g.context c).mapRoot) :
    (g.modContext c f).TablesSound := by
  refine ⟨⟨h.cache.bounded, h.cache.distinct, fun e he => ?_⟩, fun d => ?_, ⟨fun i w hw => ?_, h.walks.distinct⟩⟩
  · rw [Gate.context_modContext]
    split
    · rename_i eq; exact active ⟨e, he, eq.symm⟩
    · exact h.cache.active e he
  · rw [Gate.context_modContext]
    split
    · exact sound
    · exact h.contexts d
  · rw [Gate.context_modContext]
    have old := h.walks.inMap i w hw
    split
    · rename_i eq
      subst eq
      have new := walking ⟨i, w, hw, rfl⟩
      rw [new.2.1, new.2.2]
      exact ⟨new.1, old.2⟩
    · exact old

theorem walking_not_free {c : ContextNo} (h : g.TablesSound) (i : WalkNo) (w : Walk) (hw : g.walk i = .walking w)
    (hc : w.context = c) : (g.context c).state = .active ∨ (g.context c).state = .draining := by
  have := (h.walks.inMap i w hw).1
  rwa [hc] at this

theorem drained_walks {c : ContextNo} (d : g.retireDrained c = true) (i : WalkNo) (w : Walk) (hw : g.walk i = .walking w) :
    w.context ≠ c := by
  unfold Gate.retireDrained at d
  rw [Bool.and_eq_true] at d
  have := List.all_eq_true.mp d.2 w (by
    unfold Gate.walksUnderWay
    refine List.mem_filterMap.mpr ⟨.walking w, ?_, rfl⟩
    rw [← hw]
    simp [Gate.walk])
  simpa using this

theorem tables_free {c : ContextNo} (h : g.TablesSound) (uncached : ∀ e ∈ g.cache, e.context ≠ c)
    (walkless : ∀ i w, g.walk i = .walking w → w.context ≠ c) (f : Context → Context)
    (state : (f (g.context c)).state = .free) (pending : (f (g.context c)).pending = none)
    (root : (f (g.context c)).mapRoot = (g.context c).mapRoot) (length : (f (g.context c)).mapLength = (g.context c).mapLength) :
    (g.modContext c f).TablesSound := by
  have s := h.contexts c
  refine tables_modContext h ⟨?_, ?_, ?_, ?_, ?_, ?_⟩ ?_ ?_
  · rw [root]; exact s.aligned
  · rw [length]; exact s.nonempty
  · rw [length]; exact s.bounded
  · rw [root, length]; exact s.inSpace
  · rw [state, pending]; simp
  · rw [pending]; simp
  · rintro ⟨e, he, hc⟩; exact absurd hc (uncached e he)
  · rintro ⟨i, w, hw, hc⟩; exact absurd hc (walkless i w hw)

/-- The effect of a retire's completion on the tables. -/
theorem tables_completeRetire {c : ContextNo} {tag node : Byte} (h : g.TablesSound) (uncached : ∀ e ∈ g.cache, e.context ≠ c)
    (drained : g.retireDrained c = true) : (g.completeRetire c tag node).TablesSound := by
  have freed := tables_free h uncached (drained_walks drained) (fun x => { x with state := .free, pending := none })
    rfl rfl rfl rfl
  refine freed.of (fun d => ?_) (fun _ he => by simpa using he) (by simpa using freed.cache.bounded)
    (by simpa using freed.cache.distinct) (fun i => by simpa [Gate.walk] using follows_refl _)
  refine ⟨(g.context d).epoch, (g.context d).counters, ?_⟩
  have e : (g.unbindContext c).context = g.context := rfl
  simp only [Gate.completeRetire, Gate.clearPending, Gate.queueReply, Gate.context_modManagement, Gate.context_modContext, e]
  split <;> simp_all

theorem tables_fresh (c : ∀ c, g.context c = .reset) (ca : g.cache = []) (w : ∀ i, g.walk i = .free) : g.TablesSound := by
  refine ⟨⟨by simp [ca], by simp [ca], by simp [ca]⟩, fun d => ?_, ⟨fun i x hx => ?_, fun i j x y hx => ?_⟩⟩
  · rw [c]
    exact ⟨by decide, by decide, by decide, by decide, by simp [Context.reset], by simp [Context.reset]⟩
  · rw [w] at hx; cases hx
  · rw [w] at hx; cases hx

theorem mapFits_sound {root length : Nat} (h : mapFits root length = true) :
    (BitVec.ofNat 48 root).toNat = root ∧ root % Config.pageSize = 0 ∧ 1 ≤ length ∧ length ≤ Config.maxMapLength ∧
      root + 8 * length ≤ Config.addressSpace := by
  simp [mapFits] at h
  obtain ⟨⟨⟨h1, h2⟩, h3⟩, h4⟩ := h
  refine ⟨?_, h1, h2, h3, h4⟩
  rw [BitVec.toNat_ofNat]
  refine Nat.mod_eq_of_lt ?_
  have : Config.addressSpace = 2 ^ 48 := rfl
  omega

theorem GateStep.keeps_tables {k : Kind} (st : GateStep k g g') (h : g.TablesSound) : g'.TablesSound := by
  have same (f : Context → Context) (keeps : ∀ x, ∃ e y, f x = { x with epoch := e, counters := y }) (c : ContextNo) :
      (g.modContext c f).TablesSound := by
    refine h.of (fun d => ?_) (fun _ he => he) h.cache.bounded h.cache.distinct (fun i => follows_refl _)
    rw [Gate.context_modContext]
    split
    · subst_vars; exact keeps _
    · exact ⟨_, _, rfl⟩
  cases st
  case fault f =>
    refine h.of (fun d => ?_) (fun _ he => by simpa using he) (by simpa using h.cache.bounded)
      (by simpa using h.cache.distinct) (fun i => by simpa [Gate.walk] using follows_refl _)
    have keep (g : Gate) : (g.keepFault f).context d = g.context d := by simp [Gate.context]
    have counts (c : ContextNo) (u : ContextCounters → ContextCounters) : ∃ e x, (g.count c u).context d =
        { g.context d with epoch := e, counters := x } := by
      rw [Gate.count, Gate.context_modContext]
      split
      · subst_vars; exact ⟨_, _, rfl⟩
      · exact ⟨_, _, rfl⟩
    unfold Gate.offerFault
    repeat' split
    · rw [keep]; exact counts _ _
    · exact counts _ _
    · rw [keep]; exact ⟨_, _, rfl⟩
    · exact ⟨_, _, rfl⟩
  case count c f => exact same _ (fun x => ⟨x.epoch, _, rfl⟩) c
  case raiseEpoch c => exact same _ (fun x => ⟨_, x.counters, rfl⟩) c
  case slots v follows =>
    exact h.of (fun d => ⟨_, _, rfl⟩) (fun _ he => he) h.cache.bounded h.cache.distinct follows
  case startWalk i w active inMap address fresh =>
    refine ⟨⟨h.cache.bounded, h.cache.distinct, h.cache.active⟩, h.contexts, ⟨fun j x hx => ?_, fun j l x y hx hy a b c => ?_⟩⟩
    · rw [Gate.walk_setWalk] at hx
      split at hx
      · injection hx with hx; subst hx; exact ⟨.inl active, inMap, address⟩
      · exact h.walks.inMap j x hx
    · rw [Gate.walk_setWalk] at hx hy
      have no (m : WalkNo) (z : Walk) (hz : g.walk m = .walking z) (a : w.context = z.context) (b : w.page = z.page)
          (c : w.epoch = z.epoch) : False := by
        have := fresh m
        rw [hz] at this
        simp [WalkSlot.hasKey, a, b, c] at this
      split at hx <;> split at hy
      · subst_vars; rfl
      · injection hx with hx; subst hx; exact (no l y hy a b c).elim
      · injection hy with hy; subst hy; exact (no j x hx a.symm b.symm c.symm).elim
      · exact h.walks.distinct j l x y hx hy a b c
  case install c page e active =>
    unfold Gate.install
    split
    · exact h
    · rename_i missing
      have bounded := h.cache.bounded
      have old : ∀ x ∈ (if Config.cacheEntries ≤ g.cache.length then g.cache.tail else g.cache), x ∈ g.cache := by
        intro x hx; split at hx
        · exact List.mem_of_mem_tail hx
        · exact hx
      refine ⟨⟨?_, ?_, ?_⟩, h.contexts, ⟨h.walks.inMap, h.walks.distinct⟩⟩
      · dsimp only
        split
        · rw [List.length_append, List.length_tail, List.length_singleton]
          have : Config.cacheEntries = 128 := rfl
          omega
        · rw [List.length_append, List.length_singleton]; omega
      · dsimp only
        rw [List.map_append, List.nodup_append]
        refine ⟨?_, by simp, ?_⟩
        · split
          · exact h.cache.distinct.sublist (List.Sublist.map _ (List.tail_sublist _))
          · exact h.cache.distinct
        · rintro ⟨a, b⟩ hab ⟨a', b'⟩ hab' eq
          simp at hab'
          obtain ⟨x, hx, hxe⟩ := List.mem_map.mp hab
          simp at hxe
          refine missing ?_
          unfold Gate.findCached
          rw [List.find?_isSome]
          refine ⟨x, old x hx, ?_⟩
          simp at eq
          simp [hxe, eq, hab']
      · intro x hx
        dsimp only at hx
        rw [List.mem_append] at hx
        rcases hx with hx | hx
        · exact h.cache.active x (old x hx)
        · simp at hx; subst hx; exact active
  case clearBranch b =>
    refine h.of (fun d => ⟨_, _, rfl⟩) (fun _ he => he) h.cache.bounded h.cache.distinct (fun i => ?_)
    show (g.walk i).Follows ((g.walks.map fun x => x.dropWaiters b)[i.val])
    rw [Vector.getElem_map]
    show (g.walk i).Follows ((g.walk i).dropWaiters b)
    cases g.walk i <;> simp [WalkSlot.Follows, WalkSlot.dropWaiters]
  case setup c root length report fits state idle =>
    obtain ⟨e0, e1, e2, e3, e4⟩ := mapFits_sound fits
    refine tables_modContext h ⟨?_, e2, e3, ?_, ?_, ?_⟩ ?_ ?_
    · show (BitVec.ofNat 48 root).toNat % _ = 0
      rw [e0]; exact e1
    · show (BitVec.ofNat 48 root).toNat + _ ≤ _
      rw [e0]; exact e4
    · simp [idle]
    · simp [idle]
    · rintro ⟨e, he, hc⟩
      have := h.cache.active e he
      rw [hc] at this
      rcases state with s | s <;> rw [s] at this <;> cases this
    · rintro ⟨i, w, hw, hc⟩
      have := walking_not_free h i w hw hc
      rcases state with s | s <;> rw [s] at this <;> rcases this with t | t <;> cases t
  case openContext c ready idle =>
    have s := h.contexts c
    refine tables_modContext h ⟨s.aligned, s.nonempty, s.bounded, s.inSpace, ?_, fun _ _ _ _ _ => rfl⟩ (fun _ => rfl)
      (fun _ => ⟨.inl rfl, rfl, rfl⟩)
    simp [idle]
  case removeCached c inRange =>
    refine h.of (fun d => ⟨_, _, rfl⟩) (fun _ he => List.mem_of_mem_filter he) ?_ ?_ (fun i => follows_refl _)
    · exact (List.length_filter_le _ _).trans h.cache.bounded
    · exact h.cache.distinct.sublist (List.Sublist.map _ List.filter_sublist)
  case freeReady c ready idle =>
    refine tables_free h (fun e he hc => ?_) (fun i w hw hc => ?_) _ rfl idle rfl rfl
    · have := h.cache.active e he
      rw [hc, ready] at this; cases this
    · have := walking_not_free h i w hw hc
      rw [ready] at this; rcases this with t | t <;> cases t
  case pendRetire c tag node active idle uncached room few =>
    have s := h.contexts c
    have drains := tables_modContext (c := c)
      (f := fun x => { x with state := .draining, pending := some ⟨.retire, tag, node⟩ }) h
      ⟨s.aligned, s.nonempty, s.bounded, s.inSpace, by simp, by simp⟩
      (fun ⟨e, he, hc⟩ => absurd hc (uncached e he)) (fun _ => ⟨.inr rfl, rfl, rfl⟩)
    refine drains.of (fun d => ⟨(g.context d).epoch, (g.context d).counters, ?_⟩) (fun _ he => he) drains.cache.bounded
      drains.cache.distinct (fun i => follows_refl _)
    simp only [Gate.setPending, Gate.context_modManagement, Gate.context_modContext]
    split <;> simp_all
  case retireNow c tag node active idle uncached drained room =>
    have freed := tables_free h uncached (drained_walks drained) (fun x => { x with state := .free, pending := none })
      rfl rfl rfl rfl
    refine freed.of (fun d => ?_) (fun _ he => by simpa using he) (by simpa using freed.cache.bounded)
      (by simpa using freed.cache.distinct) (fun i => by simpa [Gate.walk] using follows_refl _)
    refine ⟨(g.context d).epoch, (g.context d).counters, ?_⟩
    have e (x : Gate) : (x.unbindContext c).context = x.context := rfl
    simp only [Gate.completeRetire, Gate.clearPending, Gate.queueReply, Gate.context_modManagement,
      Gate.context_modContext, e]
    split <;> simp_all
  case retireJudged c tag node pending drained =>
    refine tables_completeRetire h (fun e he hc => ?_) drained
    have := h.cache.active e he
    rw [hc, (h.contexts c).draining.mpr ⟨tag, node, pending⟩] at this
    cases this
  case pendInvalidate c first count tag node active idle room few =>
    have s := h.contexts c
    refine (tables_modContext (f := fun x => { x with pending := some ⟨.invalidate first count, tag, node⟩ }) h
      ⟨s.aligned, s.nonempty, s.bounded, s.inSpace, by simp [active], fun _ _ _ _ _ => active⟩
      (fun _ => active) (fun _ => ⟨.inl active, rfl, rfl⟩)).same rfl rfl rfl
  case invalidateNow c tag node idle room =>
    refine h.of (fun d => ⟨(g.context d).epoch, (g.context d).counters, ?_⟩) (fun _ he => by simpa using he)
      (by simpa using h.cache.bounded) (by simpa using h.cache.distinct) (fun i => by simpa [Gate.walk] using follows_refl _)
    simp only [Gate.completeInvalidate, Gate.clearPending, Gate.queueReply, Gate.context_modManagement,
      Gate.context_modContext]
    split
    · subst_vars; rw [← idle]
    · rfl
  case invalidateJudged c first count tag node pending =>
    have s := h.contexts c
    have active := s.active _ _ _ _ pending
    refine (tables_modContext (f := fun x => { x with pending := none }) h
      ⟨s.aligned, s.nonempty, s.bounded, s.inSpace, by simp [active], by simp⟩
      (fun _ => active) (fun _ => ⟨.inl active, rfl, rfl⟩)).same ?_ ?_ ?_
    all_goals simp [Gate.completeInvalidate, Gate.clearPending, Gate.queueReply]
  case powerOn straps => exact tables_fresh (context_reset straps .power) rfl (walk_reset straps .power)
  case trunkReset => exact tables_fresh (context_reset g.gateId .trunk) rfl (walk_reset g.gateId .trunk)
  all_goals exact h.same (by first | rfl | simp) (by first | rfl | simp) (by first | rfl | simp)

end Sys2Proof.Machine
end

