-- ==== Sys2Proof/Laws/Resting.lean ====
section
/-! SUPPORT. A slot that is QUARANTINED stays so while heads are checked, refused and begun, and while the waiters of a walk are
settled (R29, R39): no head joins it and no walk starts in it. -/

namespace Sys2Proof.Machine

-- One proof after the other: side by side, the many short proofs of this file hold more threads than a check allows.
set_option Elab.async false

variable {g g' : Gate} {x : StreamId} {i : WalkNo}

/-- Where slot `i` is QUARANTINED, it is so afterwards. -/
def Rests (i : WalkNo) (g g' : Gate) : Prop := ∀ k, g.walk i = .quarantined k → g'.walk i = .quarantined k

theorem Rests.refl : Rests i g g := fun _ h => h

theorem Rests.trans {a b c : Gate} (h : Rests i a b) (h' : Rests i b c) : Rests i a c := fun k e => h' k (h k e)

theorem Rests.of (walks : g'.walks = g.walks) : Rests i g g' := fun k h => by simpa [Gate.walk, walks] using h

theorem rests_setWalk {j : WalkNo} {w : WalkSlot} (other : ∀ k, g.walk j ≠ .quarantined k) : Rests i g (g.setWalk j w) := by
  intro k h
  rw [Gate.walk_setWalk]
  split
  · subst_vars; exact absurd h (other k)
  · exact h

theorem rests_handleMiss (c : ContextNo) (page : Nat) : Rests i g (g.handleMiss x c page) := by
  unfold Gate.handleMiss
  split
  · unfold Gate.joinWalk
    split
    · rename_i walking
      exact Rests.trans (rests_setWalk fun k h => by rw [walking] at h; cases h) (.of rfl)
    · exact .refl
  · split
    · rename_i free
      have free := eq_of_beq (lowest_some (p := fun x => x == WalkSlot.free) free)
      exact Rests.trans (rests_setWalk fun k h => by rw [Gate.walk, free] at h; cases h) (.of rfl)
    · exact .of rfl

theorem rests_checkHead (r : Request) : Rests i g (g.checkHead x r).gate := by
  unfold Gate.checkHead
  split
  · exact .refl
  · exact .of rfl
  · unfold Gate.lookup
    dsimp only
    repeat' split
    all_goals first
      | exact .of rfl
      | exact Rests.trans (b := g.count _ _) (.of rfl) (rests_handleMiss _ _)

theorem rests_refuseHead (r : Request) (rest : List Request) (f : FaultReport) : Rests i g (g.refuseHead x r rest f) := by
  refine .of ?_
  unfold Gate.refuseHead Gate.placeAnswerIn
  dsimp only
  simp only [Gate.countBranch_walks, Gate.leaveQueue_walks, Gate.offerFault_walks]
  repeat' split
  all_goals rfl

theorem rests_admitHead (r : Request) : Rests i g (g.admitHead x r).gate := by
  refine .of ?_
  unfold Gate.admitHead
  dsimp only
  repeat' split
  all_goals rfl

theorem rests_startHeads (queue : List Request) (g : Gate) : Rests i g (Gate.startHeads x queue g) := by
  induction queue generalizing g with
  | nil => exact .refl
  | cons r rest ih =>
    unfold Gate.startHeads
    have admitted := rests_admitHead (g := g) (x := x) (i := i) r
    split
    · rename_i e; rw [e] at admitted; exact admitted
    · rename_i g₁ e
      rw [e] at admitted
      have checked := rests_checkHead (g := g₁) (x := x) (i := i) r
      split
      · rename_i e; rw [e] at checked; exact admitted.trans checked
      · rename_i g₂ f e
        rw [e] at checked
        exact admitted.trans (checked.trans ((rests_refuseHead r rest f).trans (ih _)))

theorem rests_refuseAndGoOn (f : FaultReport) : Rests i g (g.refuseAndGoOn x f) := by
  unfold Gate.refuseAndGoOn
  split
  · exact .refl
  · exact (rests_refuseHead _ _ f).trans (rests_startHeads _ _)

theorem rests_recheckHead : Rests i g (g.recheckHead x) := by
  unfold Gate.recheckHead
  split
  · exact .refl
  · rename_i r rest _
    have checked := rests_checkHead (g := g.setHead x .translating) (x := x) (i := i) r
    split
    · rename_i e; rw [e] at checked; exact Rests.trans (.of rfl) checked
    · rename_i e; rw [e] at checked; exact Rests.trans (.of rfl) (checked.trans (rests_refuseAndGoOn _))

theorem rests_settleMatching (c : ContextNo) (result : WalkResult) : Rests i g (g.settleMatching c result x) := by
  unfold Gate.settleMatching
  repeat' split
  all_goals first
    | exact .refl
    | exact .of rfl
    | exact rests_refuseAndGoOn _

theorem rests_settleWaiters (c : ContextNo) (result : WalkResult) (ws : List Waiter) (g : Gate) :
    Rests i g (Gate.settleWaiters c result ws g).1 := by
  induction ws generalizing g with
  | nil => exact .refl
  | cons w ws ih =>
    unfold Gate.settleWaiters
    split
    · exact Rests.trans (.of rfl) (ih (g.setHead w.stream .translating))
    · exact (rests_settleMatching c result).trans (ih _)

theorem rests_recheckAll (l : List StreamId) (g : Gate) : Rests i g (Gate.recheckAll l g) := by
  induction l generalizing g with
  | nil => exact .refl
  | cons x l ih => exact rests_recheckHead.trans (ih _)

/-- The slot of a walk that ends is QUARANTINED while its waiters are settled (log entry 6). -/
theorem settleWalk_rests (walk : Walk) (result : WalkResult) :
    (g.settleWalk i walk result).1.walk i = .quarantined g.exponent :=
  rests_settleWaiters _ _ _ _ _ (by simp [Gate.walk_setWalk])

end Sys2Proof.Machine
end

