-- ==== Sys2Proof/Laws/Turns.lean ====
section
/-! SUPPORT. That the REQUEST turn of the model is a turn of R69: a head that is sent back and READY again has a current stamp,
so that a turn sends each head back once at most, and the arbiter's bound is never what ends it. -/

namespace Sys2Proof.Machine

-- One proof after the other: side by side, the many short proofs of this file hold more threads than a check allows.
set_option Elab.async false

variable {g g' : Gate} {x : StreamId}

/-! ### What a stamp is compared with (R70) -/

/-- The numbers that stamps are compared with are the same. -/
structure SameNumbers (g g' : Gate) : Prop where
  generation : ∀ x, (g'.stream x).generation = (g.stream x).generation
  epoch : ∀ c, (g'.context c).epoch = (g.context c).epoch

theorem SameNumbers.refl : SameNumbers g g := ⟨fun _ => rfl, fun _ => rfl⟩

theorem SameNumbers.trans {a b c : Gate} (h : SameNumbers a b) (h' : SameNumbers b c) : SameNumbers a c :=
  ⟨fun x => (h'.generation x).trans (h.generation x), fun c => (h'.epoch c).trans (h.epoch c)⟩

theorem SameNumbers.of (streams : g'.streams = g.streams) (contexts : g'.contexts = g.contexts) : SameNumbers g g' :=
  ⟨fun x => by simp [Gate.stream, streams], fun c => by simp [Gate.context, contexts]⟩

theorem sameNumbers_modStream {f : Stream → Stream} (keeps : ∀ y, (f y).generation = y.generation) :
    SameNumbers g (g.modStream x f) := by
  refine ⟨fun y => ?_, fun c => rfl⟩
  rw [Gate.stream_modStream]
  split
  · subst_vars; exact keeps _
  · rfl

theorem sameNumbers_modContext {c : ContextNo} {f : Context → Context} (keeps : ∀ y, (f y).epoch = y.epoch) :
    SameNumbers g (g.modContext c f) := by
  refine ⟨fun y => rfl, fun d => ?_⟩
  rw [Gate.context_modContext]
  split
  · subst_vars; exact keeps _
  · rfl

theorem GateStep.sameNumbers {k : Kind} (st : GateStep k g g') (mem : k ∈ inner) : SameNumbers g g' := by
  cases st
  case fault f =>
    refine ⟨fun x => by simp, fun c => ?_⟩
    obtain ⟨y, e⟩ := offerFault_context (g := g) f c
    rw [e]
  case count c f => exact sameNumbers_modContext fun _ => rfl
  case stream s f keeps => exact sameNumbers_modStream fun y => (keeps y).2.2
  case leave s r rest queued =>
    refine ⟨fun x => ?_, fun c => rfl⟩
    rw [stream_leaveQueue]
    split
    · subst_vars; rfl
    · rfl
  case invalidateJudged c first count tag node pending =>
    exact SameNumbers.trans (b := g.modContext c fun x => { x with pending := none })
      (sameNumbers_modContext fun _ => rfl) ⟨fun _ => rfl, fun d => by
        simp only [Gate.completeInvalidate, Gate.clearPending]
        rfl⟩
  all_goals first
    | exact absurd mem (by decide)
    | exact .of rfl rfl
    | exact .of (by simp) (by simp)

theorem Reaches.sameNumbers (h : Reaches inner g g') : SameNumbers g g' := by
  induction h with
  | refl => exact .refl
  | act _ step mem ih => exact ih.trans (step.sameNumbers mem)

theorem SameNumbers.stamp (h : SameNumbers g g') (x : StreamId) (stamp : Stamp) :
    g'.stampIsCurrent x stamp = g.stampIsCurrent x stamp := by
  unfold Gate.stampIsCurrent
  rw [h.generation]
  cases stamp.mapped with
  | none => rfl
  | some p => simp only [h.epoch]

/-! ### The other streams -/

/-- The record of every other stream is the same. -/
def Beside (x : StreamId) (g g' : Gate) : Prop := ∀ y, y ≠ x → g'.stream y = g.stream y

theorem Beside.refl : Beside x g g := fun _ _ => rfl

theorem Beside.trans {a b c : Gate} (h : Beside x a b) (h' : Beside x b c) : Beside x a c :=
  fun y ne => (h' y ne).trans (h y ne)

theorem Beside.of (streams : g'.streams = g.streams) : Beside x g g' := fun y _ => by simp [Gate.stream, streams]

theorem beside_modStream {f : Stream → Stream} : Beside x g (g.modStream x f) := fun y ne => by
  rw [Gate.stream_modStream, if_neg (Ne.symm ne)]

theorem beside_setHead {s : HeadState} (streams : g'.streams = g.streams := by rfl) : Beside x g (g'.setHead x s) :=
  Beside.trans (.of streams) beside_modStream

theorem beside_handleMiss (c : ContextNo) (page : Nat) : Beside x g (g.handleMiss x c page) := by
  unfold Gate.handleMiss Gate.joinWalk Gate.startWalk
  repeat' split
  · exact beside_setHead
  · exact .refl
  · exact Beside.trans beside_setHead (.of rfl)
  · exact beside_setHead

theorem beside_checkHead (r : Request) : Beside x g (g.checkHead x r).gate := by
  unfold Gate.checkHead
  split
  · exact .refl
  · exact beside_setHead
  · unfold Gate.lookup
    dsimp only
    repeat' split
    · exact .refl
    · exact .refl
    · exact .refl
    · exact beside_setHead
    · exact Beside.of rfl
    · exact Beside.trans (.of rfl) (beside_handleMiss _ _)

theorem beside_refuseHead (r : Request) (rest : List Request) (f : FaultReport) : Beside x g (g.refuseHead x r rest f) := by
  intro y ne
  unfold Gate.refuseHead
  dsimp only
  simp only [Gate.stream_countBranch, stream_leaveQueue, if_neg (Ne.symm ne), Gate.offerFault_stream]
  split
  · rfl
  · simp

theorem beside_admitHead (r : Request) : Beside x g (g.admitHead x r).gate := by
  unfold Gate.admitHead
  dsimp only
  split
  · exact beside_setHead
  split
  · exact Beside.trans (b := g.reserve x r.tag _) (beside_modStream (g := g.setSlot _ _ _)) beside_setHead
  · exact beside_setHead

/-! ### The head itself -/

/-- The head of the stream, if READY, has a current stamp (R70). -/
def FreshHead (g : Gate) (x : StreamId) : Prop :=
  ∀ address stamp, (g.stream x).head = some (.ready address stamp) → g.stampIsCurrent x stamp = true

theorem freshHead_of (h : ∀ address stamp, (g.stream x).head ≠ some (.ready address stamp)) : FreshHead g x :=
  fun address stamp e => absurd e (h address stamp)

theorem freshHead_setHead {s : HeadState} (h : ∀ address stamp, s = .ready address stamp → g.stampIsCurrent x stamp = true) :
    FreshHead (g.setHead x s) x := by
  intro address stamp e
  rw [Gate.stream_setHead, if_pos rfl] at e
  rw [(reaches_setHead x s).sameNumbers.stamp]
  exact h address stamp (by simpa using e)

theorem freshHead_handleMiss (h : FreshHead g x) (c : ContextNo) (page : Nat) : FreshHead (g.handleMiss x c page) x := by
  unfold Gate.handleMiss Gate.joinWalk Gate.startWalk
  repeat' split
  all_goals first
    | exact h
    | exact freshHead_setHead (g := g.setWalk _ _) fun _ _ e => by cases e
    | exact freshHead_setHead (g := { g with walkWaiting := _ }) fun _ _ e => by cases e
    | skip
  rename_i i _
  exact freshHead_of fun address stamp => by simp [Gate.stream_setHead]

theorem freshHead_refuseHead (r : Request) (rest : List Request) (f : FaultReport) :
    FreshHead (g.refuseHead x r rest f) x :=
  freshHead_of fun address stamp => by
    unfold Gate.refuseHead
    simp [stream_leaveQueue]

/-- A head that passes its checks is in a wait, or READY with a current stamp (R21, R56). -/
theorem freshHead_checkHead (h : FreshHead g x) (r : Request) {g' : Gate} (stays : g.checkHead x r = .stays g') :
    FreshHead g' x := by
  unfold Gate.checkHead at stays
  split at stays
  · cases stays
  · cases stays
    refine freshHead_setHead fun _ _ e => ?_
    cases e
    simp [Gate.stampIsCurrent]
  · unfold Gate.lookup at stays
    dsimp only at stays
    repeat' split at stays
    all_goals cases stays
    · refine freshHead_setHead (g := (g.count _ _).count _ _) fun _ _ e => ?_
      cases e
      simp only [Gate.stampIsCurrent, Gate.mappedStamp, Gate.count_streams, Gate.stream, BEq.rfl, Bool.true_and]
      exact beq_iff_eq.mpr (((reaches_count _ _).trans (reaches_count _ _)).sameNumbers.epoch _).symm
    · refine freshHead_handleMiss (g := g.count _ _) (fun address stamp e => ?_) _ _
      rw [(reaches_count _ _).sameNumbers.stamp]
      exact h address stamp (by simpa using e)

/-- Where the next head begins, the other streams stay as they are, and it ends in a wait or READY with a current stamp. -/
theorem startHeads_fresh (queue : List Request) (g : Gate) (h : FreshHead g x) :
    Beside x g (Gate.startHeads x queue g) ∧ FreshHead (Gate.startHeads x queue g) x := by
  induction queue generalizing g with
  | nil => exact ⟨.refl, h⟩
  | cons r rest ih =>
    unfold Gate.startHeads
    have beside := beside_admitHead (g := g) (x := x) r
    have admitted : FreshHead (g.admitHead x r).gate x := by
      unfold Gate.admitHead
      dsimp only
      repeat' split
      all_goals exact freshHead_of fun address stamp => by simp [Admission.gate, Gate.stream_setHead]
    split
    · rename_i e; rw [e] at beside admitted; exact ⟨beside, admitted⟩
    · rename_i g₁ e
      rw [e] at beside admitted
      have checked := beside_checkHead (g := g₁) (x := x) r
      split
      · rename_i g₂ e; rw [e] at checked; exact ⟨beside.trans checked, freshHead_checkHead admitted r e⟩
      · rename_i g₂ f e
        rw [e] at checked
        have next := ih (g₂.refuseHead x r rest f) (freshHead_refuseHead r rest f)
        exact ⟨beside.trans (checked.trans ((beside_refuseHead r rest f).trans next.1)), next.2⟩

/-- A head that is checked again ends in a wait or READY with a current stamp, and so does the one behind it where it is
refused (R56, R70). -/
theorem recheckHead_fresh {r : Request} {rest : List Request} (queued : (g.stream x).queue = r :: rest) :
    Beside x g (g.recheckHead x) ∧ FreshHead (g.recheckHead x) x := by
  unfold Gate.recheckHead
  rw [queued]
  dsimp only
  have start : FreshHead (g.setHead x .translating) x := freshHead_setHead fun _ _ e => by cases e
  have checked := beside_checkHead (g := g.setHead x .translating) (x := x) r
  have same := queue_checkHead (g := g.setHead x .translating) x r
  split
  · rename_i g₁ e; rw [e] at checked; exact ⟨Beside.trans beside_setHead checked, freshHead_checkHead start r e⟩
  · rename_i g₁ f e
    rw [e] at checked same
    have here : (g₁.stream x).queue = r :: rest := (same x).trans ((Gate.queue_setHead x _ x).trans queued)
    unfold Gate.refuseAndGoOn
    rw [here]
    have next := startHeads_fresh rest (g₁.refuseHead x r rest f) (freshHead_refuseHead r rest f)
    exact ⟨Beside.trans beside_setHead (checked.trans ((beside_refuseHead r rest f).trans next.1)), next.2⟩

/-! ### The turn -/

/-- Whether the head of the stream is READY with a stale stamp. -/
def staleHead (g : Gate) (x : StreamId) : Bool :=
  match (g.stream x).head with
  | some (.ready _ stamp) => !g.stampIsCurrent x stamp
  | _ => false

/-- The number of heads that are READY with a stale stamp. -/
def staleCount (g : Gate) : Nat := (List.finRange 64).countP (staleHead g)

/-- What a grant to a candidate ends in: a departure, or the check again of a head whose stamp was stale (R69, R70). -/
theorem grant_candidate {n : Fin 68} (c : g.Candidate n) :
    (∃ g', g.grant n = .departed g') ∨
    ∃ (x : StreamId) (r : Request) (rest : List Request), n.val = x.val ∧ (g.stream x).queue = r :: rest ∧
      staleHead g x = true ∧ g.grant n = .sentBack ({ g with lastGranted := n }.recheckHead x) := by
  unfold Gate.grant positionOf
  dsimp only
  rcases c with ⟨x, address, stamp, r, rest, place, head, queue, _⟩ | ⟨i, w, place, _⟩
  · have low : n.val < 64 := place ▸ x.isLt
    obtain rfl : x = ⟨n.val, low⟩ := Fin.ext place
    simp only [low, dif_pos, head, queue]
    split
    · exact .inl ⟨_, rfl⟩
    · rename_i stale
      exact .inr ⟨_, r, rest, rfl, queue, by simpa [staleHead, head] using stale, rfl⟩
  · have high : ¬ n.val < 64 := by omega
    simp only [high, dif_neg, not_false_eq_true]
    exact .inl ⟨_, rfl⟩

/-- A head that is sent back makes the heads with stale stamps one fewer. -/
theorem staleCount_recheckHead {n : Fin 68} {r : Request} {rest : List Request} (queued : (g.stream x).queue = r :: rest)
    (stale : staleHead g x = true) : staleCount ({ g with lastGranted := n }.recheckHead x) < staleCount g := by
  have fresh := recheckHead_fresh (g := { g with lastGranted := n }) (x := x) (r := r) (rest := rest) queued
  have numbers : SameNumbers g ({ g with lastGranted := n }.recheckHead x) :=
    SameNumbers.trans (b := { g with lastGranted := n }) (.of rfl rfl) (reaches_recheckHead x).sameNumbers
  have here : staleHead ({ g with lastGranted := n }.recheckHead x) x = false := by
    unfold staleHead
    split
    · rename_i address stamp head
      simp [fresh.2 address stamp head]
    · rfl
  have others (y : StreamId) (h : staleHead ({ g with lastGranted := n }.recheckHead x) y = true) : staleHead g y = true := by
    by_cases e : y = x
    · subst e; simp [here] at h
    · unfold staleHead at h ⊢
      rw [fresh.1 y e] at h
      simp only [numbers.stamp] at h
      exact h
  have removed : staleCount ({ g with lastGranted := n }.recheckHead x) ≤
      (List.finRange 64).countP fun y => staleHead g y && decide (y ≠ x) := by
    refine List.countP_mono_left fun y _ h => ?_
    simp only [Bool.and_eq_true, decide_eq_true_eq]
    refine ⟨others y h, fun e => ?_⟩
    subst e
    simp [here] at h
  refine Nat.lt_of_le_of_lt removed ?_
  unfold staleCount
  rw [List.countP_eq_length_filter, List.countP_eq_length_filter]
  have sub : ((List.finRange 64).filter fun y => staleHead g y && decide (y ≠ x)) =
      ((List.finRange 64).filter (staleHead g)).filter fun y => decide (y ≠ x) := by
    rw [List.filter_filter]
    congr 1
    funext y
    exact Bool.and_comm _ _
  rw [sub]
  refine List.length_filter_lt_length_iff_exists.mpr ⟨x, ?_, by simp⟩
  simpa using stale

/-- The REQUEST turn of the model runs as R69 says, whatever bound it is given above the number of stale stamps. -/
theorem requestTurn_turn (fuel : Nat) (sentBack : List (Fin 68)) (g : Gate) (enough : staleCount g < fuel) :
    Gate.Turn sentBack g (Gate.requestTurn fuel sentBack g).1 (Gate.requestTurn fuel sentBack g).2 := by
  induction fuel generalizing sentBack g with
  | zero => omega
  | succ fuel ih =>
    unfold Gate.requestTurn
    split
    · rename_i none
      exact .spent ((nextCandidate_none g sentBack).mp none)
    · rename_i n some
      have next := (nextCandidate_iff g sentBack n).mp some
      rcases grant_candidate next.1 with ⟨g', granted⟩ | ⟨x, r, rest, place, queued, stale, granted⟩
      · rw [granted]
        exact .departs next granted
      · have at_x (h : Gate) : h.queueLengthAt n = (h.stream x).queue.length := by
          have low : n.val < 64 := place ▸ x.isLt
          obtain rfl : x = ⟨n.val, low⟩ := Fin.ext place.symm
          simp [Gate.queueLengthAt, positionOf, low]
        rw [granted]
        simp only [at_x]
        exact .goesOn next place granted (ih _ _ (by have := staleCount_recheckHead (n := n) queued stale; omega))

/-- The bound of DEPARTURE_GRANT is above the number of stale stamps: a turn never ends by it. -/
theorem staleCount_bound (g : Gate) : staleCount g < 69 := by
  have := List.countP_le_length (p := staleHead g) (l := List.finRange 64)
  simp only [List.length_finRange] at this
  unfold staleCount
  omega

end Sys2Proof.Machine
end

