-- ==== Sys2Proof/Tests/Slice0.lean ====
section
/-! SUPPORT. The model's own tests: an ill-formed term, one or two single commands for each row with the result that the rule
named gives by hand, and a witness for the hypotheses of each statement. -/

namespace Sys2Proof.Tests
open Sys2Proof.Machine

/-! ### The states the tests start from -/

/-- An UP trunk: 8 credits held of each class, 8, 8 and 2 granted. -/
def upTrunk : LinkRecord :=
  { state := .up, partnerInit := true, held := ⟨8, 8, 8⟩, granted := ⟨8, 8, 2⟩, freed := ⟨8, 24, 2⟩, creditOrder := [],
    resetOwed := false }

/-- An UP branch link: 8 credits held and granted of each class. -/
def upBranch : LinkRecord :=
  { state := .up, partnerInit := true, held := ⟨8, 8, 0⟩, granted := ⟨8, 8, 0⟩, freed := ⟨24, 8, 0⟩, creditOrder := [],
    resetOwed := false }

/-- A gate with GATE_ID 2A, five UP links and manager 5. -/
def base : Gate :=
  { Gate.reset 0x2A .power with
    trunk := { TrunkPort.reset with link := upTrunk }
    branches := Vector.replicate 4 { Branch.reset with link := upBranch }
    management := { Management.reset .power with manager := some 5 } }

/-- The gate after one command. -/
def after (c : Instr) (g : Gate) : Gate :=
  match exec c { gate := g, pending := [] } with
  | .next s => s.gate
  | _ => g

/-- The base gate with a CONTROL packet of manager 5 waiting, tag 1. -/
def asking (c : Command) (operands : List Byte) : Gate :=
  { base with trunk := { base.trunk with ingressControl := [⟨5, 0x2A, 1, commandCode c, operands⟩] } }

/-- The first packet of the control transmit queue. -/
def firstOut (g : Gate) : Option ControlOut := g.management.controlQueue.head?

/-- What was put on a link last. -/
def lastSent (g : Gate) : Option Sent := g.sent.getLast?

/-- The base gate with a context 2: ACTIVE, root 1000 hex, 16 pages, epoch 3. -/
def mapped : Gate :=
  { base with
    contexts := base.contexts.set 2 { Context.reset with state := .active, mapRoot := 0x1000, mapLength := 16, epoch := 3 } }

/-- The base gate with stream 16, which is number 0 of branch 1, in a mode. -/
def bound (g : Gate) (m : Mode) : Gate := { g with streams := g.streams.set 16 { Stream.reset with mode := m } }

/-- A FETCH of 2 bytes at 2004 hex with device tag 7. -/
def fetch : Request := { kind := .fetch, tag := 7, address := 0x2004, length := 2, payload := [] }

/-- A PUSH of one byte at 7. -/
def push : Request := { kind := .push, tag := 0, address := 7, length := 1, payload := [9] }

/-- Stream 16, DIRECT, with the head `r` READY under this generation. -/
def readyHead (r : Request) (generation : Word16) : Gate :=
  { base with
    streams := base.streams.set 16
      { mode := .direct, generation := 0, queue := [r], head := some (.ready r.address ⟨generation, none⟩), slot := some 0 }
    branches := base.branches.set 1
      { Branch.reset with link := upBranch, slots := (Vector.replicate 64 .free).set 0 (.reserved 0 7) } }

/-- The LIVE entry of that FETCH. -/
def liveEntry (b : EntryBinding) : LiveEntry :=
  { stream := 16, tag := 7, kind := .fetch, length := 2, page := 2, slot := some 0, generation := 0, binding := b,
    orphan := false, timer := 8 }

/-- The mapped gate with request tag 3 in the given entry state. -/
def withEntry (e : Entry) : Gate := { mapped with entries := mapped.entries.set 3 e }

/-- A walk of context 2, page 2, whose FETCH is sent, with stream 16 as its waiter. -/
def theWalk : Walk :=
  { context := 2, page := 2, epoch := 3, entryAddress := 0x1010, sent := some 8, waiters := [⟨16, 0⟩] }

/-- The mapped gate with that walk in slot 1, and its waiter with the FETCH as head. -/
def walking (w : WalkSlot) : Gate :=
  { mapped with
    walks := mapped.walks.set 1 w
    streams := mapped.streams.set 16
      { mode := .mapped 2, generation := 0, queue := [fetch], head := some .waitWalk, slot := some 0 } }

/-- A READY head on stream 16 with a stale stamp, and a walk in slot 1 whose FETCH is unsent (worked sequence 4.6). -/
def staleAndWalk : Gate :=
  { readyHead fetch 5 with walks := mapped.walks.set 1 (.walking { theWalk with sent := none, waiters := [] }) }

/-- A host FETCH of 4 bytes at 12345 hex from node 9. -/
def hostFetch : HostRequest := { kind := .fetch, origin := 9, tag := 4, address := 0x12345, length := 4, payload := [] }

/-- The base gate with a host request at the front and window 0 forwarding 10000 to 1FFFF hex to branch 2. -/
def hosting (r : HostRequest) (access : WindowAccess) : Gate :=
  { base with
    trunk := { base.trunk with ingressRequests := [r] }
    windows := base.windows.set 0 { enabled := true, kind := .forward 0x70000 2 access, base := 0x10000, last := 0x10000 } }

/-! ### Well-formed terms -/

/-- A packet of an accepted kind is no instance of UNACCEPTED_KIND_ARRIVAL (R137). -/
theorem test_accepted_kind_is_ill_formed : Instr.wellFormed (.unacceptedKindArrival .trunk [0x10]) = false := by decide
theorem test_control_on_a_branch_is_well_formed :
    Instr.wellFormed (.unacceptedKindArrival (.branch 3) [0x30]) = true := by decide
/-- The table gives no row any bits. -/
theorem test_no_row_has_bits : decodeTableWord 16 0x1234 = none := by decide

/-! ### Links (R129 to R138) -/

theorem test_power_on_samples_the_straps : (after (.powerOn 0x5A) base).gateId = 0x5A := by decide
theorem test_power_on_holds_links_down : ((after (.powerOn 0) base).branch 3).link.state = .down := by decide
theorem test_init_announces_capacity : lastSent (after (.linkPresent .trunk) State.reset.gate) =
    some ⟨.trunk, .packet [1, 0, 16, 32, 4, 0, 0, 0]⟩ := by decide
theorem test_trunk_loss_frees_granted : (after .trunkLinkLoss base).trunk.link.freed = ⟨16, 32, 4⟩ := by decide
theorem test_branch_loss_counts : ((after (.branchLinkLoss 2) base).branch 2).counters.linkDowns = 1 := by decide
theorem test_branch_loss_owes_notice : (after (.branchLinkLoss 2) base).management.branchOwed[2] = true := by decide
theorem test_init_brings_up :
    ((after (.initReceived (.branch 1) [0, 5, 6, 0, 0, 0, 0]) (after (.linkPresent (.branch 1)) State.reset.gate)).branch
      1).link.held = ⟨5, 6, 0⟩ := by decide
theorem test_trunk_reset_keeps_gate_id :
    (after (.initReceived .trunk [1, 5, 6, 7, 0, 0, 0]) base).management.manager = none ∧
    (after (.initReceived .trunk [1, 5, 6, 7, 0, 0, 0]) base).gateId = 0x2A := by decide
theorem test_credit_to_255 : (after (.creditReceived .trunk [3, 247, 0]) base).trunk.link.held.control = 255 := by decide
theorem test_credit_past_255 :
    (after (.creditReceived .trunk [3, 248, 0]) base).management.counters.trunkMalformed = 1 := by decide
theorem test_credit_send :
    lastSent (after (.creditSend .trunk)
      { base with trunk := { base.trunk with link := { upTrunk with creditOrder := [.answer] } } }) =
    some ⟨.trunk, .packet [2, 2, 24, 0]⟩ := by decide
theorem test_notice_from_trunk_is_malformed :
    (after (.unacceptedKindArrival .trunk [0x32, 0, 0]) base).trunk.link.granted.control = 1 := by decide
theorem test_unknown_kind_on_a_branch :
    (after (.unacceptedKindArrival (.branch 0) [0x55]) base).log.records.map (fun r => r.fault.kind) = [.malformed] := by
  decide

/-! ### Arrivals and heads (R51 to R62, R135) -/

theorem test_blocked_push_is_refused :
    ((after (.branchRequestArrival 1 .push [0, 0, 0, 0, 1, 0, 0, 0, 0, 0, 7, 9]) base).branch 1).counters.refused = 1 := by
  decide
theorem test_direct_fetch_is_ready :
    ((after (.branchRequestArrival 1 .fetch [0, 7, 0, 0, 2, 0, 0, 0, 0, 0x20, 4]) (bound base .direct)).stream 16).head =
    some (.ready 0x2004 ⟨0, none⟩) := by decide
theorem test_branch_answer_joins :
    ((after (.branchAnswerArrival 0 [9, 4, 0, 0, 1, 0, 0, 0xEE]) base).branch 0).ingressAnswers =
    [⟨9, 4, .done, [0xEE]⟩] := by decide
theorem test_host_request_joins :
    (after (.trunkRequestArrival .fetch [9, 4, 0, 0, 4, 0, 0, 0, 1, 0x23, 0x45]) base).trunk.ingressRequests =
    [hostFetch] := by decide
theorem test_control_joins :
    (after (.trunkControlArrival [5, 0x2A, 1, 3, 0, 0, 0]) base).trunk.ingressControl = [⟨5, 0x2A, 1, 3, []⟩] := by decide
/-- R80, R81: the answer fills slot 0 of branch 1. -/
theorem test_answer_fills_slot :
    ((after (.trunkAnswerArrival [0x2A, 3, 0, 0, 2, 0, 0, 0xAB, 0xCD]) (withEntry (.live (liveEntry .direct)))).branch
      1).egressAnswers = [⟨0, 0, 7, .done, [0xAB, 0xCD]⟩] := by decide
theorem test_stray_answer :
    (after (.trunkAnswerArrival [0x2B, 3, 0, 0, 0, 0, 0]) base).management.counters.strayAnswers = 1 := by decide

/-! ### Host path (R119 to R123) -/

theorem test_host_request_is_rebased :
    ((after .hostRequestOffer (hosting hostFetch .readOnly)).branch 2).egressRequests =
    [{ hostFetch with address := 0x72345 }] := by decide
theorem test_refused_push_is_counted :
    (after .hostRequestOffer (hosting { hostFetch with kind := .push } .readOnly)).management.counters.hostRefused = 1 := by
  decide
theorem test_refused_commit_is_denied :
    (after .answerQueueGrant (after .hostRequestOffer (hosting { hostFetch with kind := .commit } .readOnly))).trunk.answerQueue =
    [⟨9, 4, .denied, []⟩] := by decide

/-! ### Departures and transmitters (R61, R67 to R73, R149) -/

theorem test_push_departs : lastSent (after .departureGrant (readyHead push 0)) =
    some ⟨.trunk, .packet [0x10, 0x2A, 0, 0, 0, 1, 0, 0, 0, 0, 0, 7, 9]⟩ := by decide
/-- A stale head is sent back, and the next candidate departs in the same turn (R69, 4.6). -/
theorem test_stale_head_is_sent_back :
    ((after .departureGrant staleAndWalk).stream 16).head = some (.ready 0x2004 ⟨0, none⟩) ∧
    lastSent (after .departureGrant staleAndWalk) =
      some ⟨.trunk, .packet [0x12, 0x2A, 253, 0, 0, 8, 0, 0, 0, 0, 0x10, 0x10]⟩ := by decide
theorem test_answer_transmit :
    lastSent (after .trunkAnswerTransmit { base with trunk := { base.trunk with answerQueue := [⟨9, 4, .noroute, []⟩] } }) =
    some ⟨.trunk, .packet [0x20, 9, 4, 2, 0, 0, 0, 0]⟩ := by decide
theorem test_notice_transmit :
    lastSent (after .controlTransmit { base with management := { base.management with controlQueue := [.branchNotice 5 3] } }) =
    some ⟨.trunk, .packet [0x32, 5, 2, 0, 3, 2, 0, 0]⟩ := by decide
theorem test_branch_answer_transmit :
    lastSent (after (.branchAnswerTransmit 1)
      { base with
        branches := base.branches.set 1
          { Branch.reset with link := upBranch, egressAnswers := [⟨0, 0, 7, .denied, []⟩] } }) =
    some ⟨.branch 1, .packet [0x20, 0, 7, 1, 0, 0, 0, 0]⟩ := by decide
theorem test_branch_request_transmit :
    lastSent (after (.branchRequestTransmit 2) (after .hostRequestOffer (hosting hostFetch .readOnly))) =
    some ⟨.branch 2, .packet [0x12, 9, 4, 0, 0, 4, 0, 0, 0, 7, 0x23, 0x45]⟩ := by decide

/-! ### Timers (R39, R40, R82, R84) -/

theorem test_entry_expiry : (after (.entryExpiry 3) (withEntry (.live (liveEntry .direct)))).entry 3 = .late 8 := by decide
theorem test_quarantine_end : (after (.quarantineEnd 3) (withEntry (.late 8))).entry 3 = .free := by decide
theorem test_walk_expiry : (after (.walkExpiry 1) (walking (.walking theWalk))).walk 1 = .quarantined 8 := by decide
theorem test_walk_quarantine_end : (after (.walkQuarantineEnd 1) (walking (.quarantined 8))).walk 1 = .free := by decide
/-- R36: the map entry of frame 5, valid and readable, makes the FETCH at offset 4 READY at 5004 hex. -/
theorem test_walk_answer_makes_ready :
    ((after (.trunkAnswerArrival [0x2A, 253, 0, 0, 8, 0, 0, 0, 0, 0, 0, 0, 0, 0x50, 3]) (walking (.walking theWalk))).stream
      16).head = some (.ready 0x5004 ⟨0, some (2, 3)⟩) := by decide

/-! ### Long commands and notices (R7 to R10, R88 to R92, R148) -/

/-- The mapped gate with a long command of context 2 pending. -/
def pendingLong (command : LongCommand) : Gate :=
  { mapped with
    contexts := mapped.contexts.set 2
      { mapped.context 2 with
        state := (match command with | .retire => .draining | .invalidate _ _ => .active), pending := some ⟨command, 1, 5⟩ }
    management := { mapped.management with pendingList := [⟨command, 2, 1, 5⟩] } }

theorem test_retire_complete : ((after (.retireComplete 2) (pendingLong .retire)).context 2).state = .free := by decide
theorem test_invalidate_complete : firstOut (after (.invalidateComplete 2) (pendingLong (.invalidate 0 1))) =
    some (.reply 5 1 .done 0x30 [2, 0, 0, 3]) := by decide
theorem test_notice_place :
    firstOut (after .noticePlace
      { base with management := { base.management with branchOwed := base.management.branchOwed.set 2 true } }) =
    some (.branchNotice 5 2) := by decide

/-! ### Management commands (09) -/

/-- The mapped gate with a CONTROL packet of manager 5 waiting. -/
def askingMapped (c : Command) (operands : List Byte) : Gate :=
  { mapped with trunk := { mapped.trunk with ingressControl := [⟨5, 0x2A, 1, commandCode c, operands⟩] } }

theorem test_claim : firstOut (after .claim (asking .claim [])) = some (.reply 5 1 .done 1 []) := by decide
theorem test_release : (after .release (asking .release [])).management.manager = none := by decide
theorem test_identify : firstOut (after .identify (asking .identify [])) =
    some (.reply 5 1 .done 3 [0xB7, 3, 4, 0x16, 0, 0x2A, 1, 5, 64, 16, 128, 4, 252, 8, 32, 0]) := by decide
theorem test_gate_read : firstOut (after .gateRead (asking .gateRead [])) =
    some (.reply 5 1 .done 4 (List.replicate 24 0)) := by decide
theorem test_setup : ((after .contextSetup
    (asking .contextSetup [4, 1, 0, 0, 0, 0, 0, 16, 0, 0, 0, 0, 0x10, 0, 0, 0])).context 4).mapRoot = 0x1000 := by decide
theorem test_open_active_is_refused : firstOut (after .contextOpen (askingMapped .contextOpen [2, 0, 0, 0])) =
    some (.reply 5 1 .state 0x11 []) := by decide
theorem test_retire_raises_epoch :
    ((after .contextRetire (askingMapped .contextRetire [2, 0, 0, 0])).context 2).epoch = 4 := by decide
theorem test_context_read_of_16 : firstOut (after .contextRead (asking .contextRead [16, 0, 0, 0])) =
    some (.reply 5 1 .badArgument 0x13 []) := by decide
theorem test_bind : ((after .streamBind (askingMapped .streamBind [16, 2, 2, 0])).stream 16).mode = .mapped 2 := by decide
theorem test_stream_read : firstOut (after .streamRead (asking .streamRead [63, 0, 0, 0])) =
    some (.reply 5 1 .done 0x21 (63 :: List.replicate 15 0)) := by decide
theorem test_invalidate :
    firstOut (after .invalidate (askingMapped .invalidate [2, 0, 0, 0, 0, 0, 0, 15, 0, 0, 0, 1])) =
    some (.reply 5 1 .done 0x30 [2, 0, 0, 4]) := by decide
theorem test_timeout_set : (after .timeoutSet (asking .timeoutSet [11, 0, 0, 0])).exponent = 11 := by decide
theorem test_window_set : (after .windowSet (asking .windowSet
    [7, 0, 0, 0, 0xFF, 0xFF, 0xFF, 0xFF, 0, 0, 0xFF, 0xFF, 0xFF, 0xFF, 0, 0, 1, 1, 1, 1, 1, 1, 0, 0])).window 7 =
    { enabled := true, kind := .exclude, base := 0xFFFFFFFF0000, last := 0xFFFFFFFF0000 } := by decide
theorem test_window_clear : ((after .windowClear { asking .windowClear [0, 0, 0, 0] with
    windows := (hosting hostFetch .readOnly).windows }).window 0).enabled = false := by decide
theorem test_window_read_of_8 : firstOut (after .windowRead (asking .windowRead [8, 0, 0, 0])) =
    some (.reply 5 1 .badArgument 0x52 []) := by decide
theorem test_faults_take_of_none : firstOut (after .faultsTake (asking .faultsTake [8, 0, 0, 0])) =
    some (.reply 5 1 .done 0x60 [0, 0, 0, 0]) := by decide
theorem test_faults_policy : (after .faultsPolicy (asking .faultsPolicy [0, 0, 0, 0])).log.policy = false := by decide
theorem test_branch_reset : firstOut (after .branchReset (asking .branchReset [3, 0, 0, 0])) =
    some (.reply 5 1 .done 0x70 [3, 2, 0, 0]) := by decide
theorem test_branch_read_of_4 : firstOut (after .branchRead (asking .branchRead [4, 0, 0, 0])) =
    some (.reply 5 1 .badArgument 0x71 []) := by decide
theorem test_unknown_command : firstOut (after .unknownCommand
    { base with trunk := { base.trunk with ingressControl := [⟨5, 0x2A, 1, 0x05, []⟩] } }) =
    some (.reply 5 1 .unknown 5 []) := by decide
theorem test_misdirected : (after .misdirectedControl
    { base with trunk := { base.trunk with ingressControl := [⟨5, 0x2B, 1, 3, []⟩] } }).management.counters.misdirected = 1 := by
  decide

/-! ### Steps -/

theorem test_step_runs_the_front :
    step { gate := State.reset.gate, pending := [.linkPresent .trunk, .claim] } =
    .next { gate := after (.linkPresent .trunk) State.reset.gate, pending := [.claim] } := rfl
theorem test_idle : step State.reset = .next State.reset := rfl

/-! ### Witnesses: states and operands that meet the hypotheses of the statements, clause by clause -/

/-- The packet that `asking` puts in the buffer. -/
def packetOf (c : Command) (operands : List Byte) : ControlPacket := ⟨5, 0x2A, 1, commandCode c, operands⟩

/-- The machine with this gate and no command waiting. -/
def machine (g : Gate) : State := { gate := g, pending := [] }

/-- The packet at the front of `asking` is one that a command takes and that passes the shared checks. -/
theorem witness_Passes (c : Command) (operands : List Byte) :
    (machine (asking c operands)).gate.Passes c (packetOf c operands) [] :=
  { takes := { front := rfl, forUs := rfl, code := rfl, place := Nat.succ_pos 11 }, sender := .inr rfl, room := Nat.succ_pos 7 }

/-- The same over the gate with context 2 ACTIVE. -/
theorem witness_PassesMapped (c : Command) (operands : List Byte) :
    (machine (askingMapped c operands)).gate.Passes c (packetOf c operands) [] :=
  { takes := { front := rfl, forUs := rfl, code := rfl, place := Nat.succ_pos 11 }, sender := .inr rfl, room := Nat.succ_pos 7 }

theorem witness_StepRunsTheFrontCommand :
    ({ gate := base, pending := [.claim] } : State).pending = [.claim] ∧ State.reset.pending = [] := by decide

theorem witness_TrunkResetResetsEveryBlock :
    (1 : Byte) ≠ 0 ∧ (255 : Byte) ≠ 0 ∧ (machine base).gate.trunk.link.state ≠ .down := by decide

/-- A gate just powered on with straps 5A, with a command waiting, for the statements that a step keeps an invariant. -/
def poweredOn : State := { gate := Gate.reset 0x5A .power, pending := [.linkPresent .trunk] }

theorem witness_FaultLogStaysSound : poweredOn.gate.log.Sound ∧ ∃ s', step poweredOn = .next s' := ⟨log_reset_sound, _, rfl⟩

theorem witness_CreditsAreConserved : poweredOn.gate.LinksSound ∧ ∃ s', step poweredOn = .next s' :=
  ⟨links_fresh (LinkRecord.down_sound rfl rfl rfl rfl rfl) (fun c => by cases c <;> rfl) ⟨rfl, rfl, rfl⟩
    (branch_reset 0x5A .power) (stream_reset 0x5A .power), _, rfl⟩

theorem witness_CompletionRepliesKeepTheirPlaces : poweredOn.gate.PlacesSound ∧ ∃ s', step poweredOn = .next s' :=
  ⟨places_fresh (m := .reset .power) rfl (context_reset 0x5A .power), _, rfl⟩

theorem witness_NoticesStaySound : poweredOn.gate.NoticesSound ∧ ∃ s', step poweredOn = .next s' :=
  ⟨notices_fresh (c := .power) rfl rfl, _, rfl⟩

theorem witness_TranslationTablesStaySound : poweredOn.gate.TablesSound ∧ ∃ s', step poweredOn = .next s' :=
  ⟨tables_fresh (context_reset 0x5A .power) rfl (walk_reset 0x5A .power), _, rfl⟩

theorem witness_QueuesStayBounded : poweredOn.gate.QueuesBounded ∧ ∃ s', step poweredOn = .next s' :=
  ⟨queues_fresh rfl rfl, _, rfl⟩

theorem witness_HeadsAndSlotsSound : poweredOn.gate.HeadsSound ∧ poweredOn.gate.SlotsSound :=
  have fresh := holds_fresh (stream_reset 0x5A .power) (branch_reset 0x5A .power) (walk_reset 0x5A .power) rfl
    (entry_reset 0x5A .power)
  ⟨fresh.heads, fresh.slots⟩

/-- For the five statements about which commands change what: a well-formed command and what it answers. -/
theorem witness_onlyByCommands : Instr.wellFormed .departureGrant = true ∧
    ∃ g, exec .departureGrant (machine (readyHead fetch 0)) = .next ((machine (readyHead fetch 0)).withGate g) ∧
      g.entry 0 ≠ .free := ⟨rfl, _, rfl, by decide⟩

/-- Checks 3 to 5 one after the other: CLAIM from another node than the manager; 8 commands pending and 7; a block of 5 bytes. -/
theorem witness_SharedChecksRefuseInOrder :
    (asking .claim []).management.manager ≠ some 6 ∧
    (List.replicate 8 (⟨.retire, 2, 1, 5⟩ : PendingEntry)).length = 8 ∧ (packetOf .contextOpen [2, 0, 0, 0, 0]).operands.length ≠
      operandLength .contextOpen ∧ (∃ i ∈ reservedOffsets .contextOpen, (packetOf .contextOpen [2, 1, 0, 0]).operands.getD i 0 ≠ 0) := by
  decide

theorem witness_PacketsWaitForAnOpenPlace :
    12 ≤ (List.replicate 12 (ControlOut.branchNotice 5 0)).length + (machine base).gate.management.pendingList.length ∧
    (machine base).gate.trunk.ingressControl = [] := by decide

/-- At the front a packet for this gate with the code of CLAIM; one of no command; one for another gate. -/
theorem witness_packetsOfOtherRows :
    (asking .claim []).trunk.ingressControl = [packetOf .claim []] ∧ (packetOf .claim []).gateId = (asking .claim []).gateId ∧
    (packetOf .claim []).code ≠ commandCode .release ∧ (packetOf .claim []).code = commandCode .claim ∧
    ({ packetOf .claim [] with gateId := 0x2B } : ControlPacket).gateId ≠ (asking .claim []).gateId := by decide

theorem witness_MisdirectedAndUnknownPackets :
    (0x2B : Byte) ≠ base.gateId ∧ (0x05 : Byte) ∉ ([0x01, 0x02, 0x03, 0x04, 0x10, 0x11, 0x12, 0x13, 0x20, 0x21, 0x30, 0x40, 0x50,
      0x51, 0x52, 0x60, 0x61, 0x70, 0x71] : List Byte) ∧ base.management.controlQueue.length + base.management.pendingList.length < 12 := by
  decide

theorem witness_ClaimAndRelease : (machine (asking .claim [])).gate.Takes .claim (packetOf .claim []) [] ∧
    (machine (asking .release [])).gate.Takes .release (packetOf .release []) [] ∧
    (machine (asking .claim [])).gate.management.pendingList.length < 8 :=
  ⟨(witness_Passes .claim []).takes, (witness_Passes .release []).takes, by decide⟩

/-- Exponents 11 and 12; policies 0, 1 and 2; takes of 1, 8, 0 and 9; with the packets that carry them. -/
theorem witness_oneByteOperands :
    (11 : Byte).toNat < 12 ∧ 12 ≤ (12 : Byte).toNat ∧ (2 : Byte) ≠ 0 ∧ (2 : Byte) ≠ 1 ∧ 1 ≤ (1 : Byte).toNat ∧ (8 : Byte).toNat ≤ 8 ∧
      8 < (9 : Byte).toNat ∧
    (machine (asking .timeoutSet [12, 0, 0, 0])).gate.Passes .timeoutSet (packetOf .timeoutSet [12, 0, 0, 0]) [] ∧
    (machine (asking .faultsPolicy [2, 0, 0, 0])).gate.Passes .faultsPolicy (packetOf .faultsPolicy [2, 0, 0, 0]) [] ∧
    (machine (asking .faultsTake [9, 0, 0, 0])).gate.Passes .faultsTake (packetOf .faultsTake [9, 0, 0, 0]) [] ∧
    (machine (asking .faultsTake [9, 0, 0, 0])).gate.log.Sound :=
  ⟨by decide, by decide, by decide, by decide, by decide, by decide, by decide, witness_Passes .., witness_Passes ..,
    witness_Passes .., log_reset_sound⟩

/-- A record at the ends of its ranges. -/
def fullRecord : FaultRecord :=
  { sequence := 0xFFFF, fault := ⟨.mapReadError, some 63, some 15, some (2 ^ 36 - 1), some .fetch, some .timeout⟩,
    repeats := 255, lostBefore := some 255 }

theorem witness_FaultRecordBytesSayTheRecord : 1 ≤ fullRecord.repeats ∧ fullRecord.repeats ≤ 255 ∧
    (∀ n, fullRecord.lostBefore = some n → n ≤ 255) ∧ (∀ n, fullRecord.fault.page = some n → n < 2 ^ 36) := by
  refine ⟨by decide, by decide, ?_, ?_⟩ <;> intro n h <;> cases h <;> decide

/-- A silenced fault, one that merges at repeat 254, one that joins at 31 records, one that is lost at 32. -/
theorem witness_OfferedFaultOutcomes :
    (mapped.context 2).report = false ∧ base.log.policy = true ∧
    (∃ before r, [{ fullRecord with repeats := 254 }] = before ++ [r] ∧ r.fault = fullRecord.fault ∧ r.repeats < 255) ∧
    (List.replicate 31 fullRecord).length < 32 ∧ 32 ≤ (List.replicate 32 fullRecord).length :=
  ⟨by decide, by decide, ⟨[], _, rfl, rfl, by decide⟩, by decide, by decide⟩

theorem witness_NoticePlaceOutcomes :
    let m := { base.management with branchOwed := base.management.branchOwed.set 3 true }
    m.manager = some 5 ∧ m.controlQueue.length + m.pendingList.length < 12 ∧ m.faultsOwed = false ∧ m.branchOwed[3] = true ∧
    (∀ d : BranchNo, d < 3 → m.branchOwed[d.val] = false) ∧ State.reset.gate.management.manager = none := by decide

/-- The last map that fits: 1,048,576 pages whose table ends at 2^48; and one page more is too many. -/
theorem witness_ContextSetupOutcomes :
    let length : List Byte := [0, 0x10, 0, 0]
    let root : List Byte := [0xFF, 0xFF, 0xFF, 0x80, 0, 0]
    natOfBytes root % 4096 = 0 ∧ natOfBytes length = 1048576 ∧ natOfBytes root + 8 * natOfBytes length = 2 ^ 48 ∧
    1048576 < natOfBytes [0, 0x10, 0, 1] ∧ (mapped.context 2).state = .active ∧ (mapped.context 3).state = .free ∧
    (mapped.context 3).pending = none ∧ 15 < ((packetOf .contextRead [16, 0, 0, 0]).operands.getD 0 0).toNat := by decide

/-- A gate whose context 2 is in this state. -/
def contextIn (x : ContextState) : Gate :=
  { mapped with contexts := mapped.contexts.set 2 { mapped.context 2 with state := x } }

theorem witness_contextStates :
    ((contextIn .ready).context 2).state = .ready ∧ ((contextIn .ready).context 2).pending = none ∧
    ((contextIn .free).context 2).state = .free ∧ ((contextIn .draining).context 2).state = .draining ∧
    (mapped.context 2).state = .active ∧ (mapped.context 2).pending = none ∧
    (∀ e ∈ mapped.management.pendingList, e.context ≠ 2) ∧ ((pendingLong (.invalidate 0 1)).context 2).pending.isSome ∧
    ((pendingLong (.invalidate 0 1)).context 2).state = .active := by decide

/-- The records that the statements about OPEN and CONTEXT-READ suppose sound. -/
theorem witness_contextSound : (mapped.context 2).Sound ∧ ((contextIn .ready).context 2).Sound := by
  constructor <;>
    exact ⟨by decide, by decide, by decide, by decide,
      ⟨fun h => absurd h (by decide), fun ⟨_, _, h⟩ => absurd h (by simp [contextIn, mapped, Gate.context, Context.reset])⟩,
      fun _ _ _ _ h => absurd h (by simp [contextIn, mapped, Gate.context, Context.reset])⟩

/-- The last page of the map of 16 pages, and the first range past it. -/
theorem witness_invalidateRanges :
    let count : List Byte := [0, 0, 0, 1]
    1 ≤ natOfBytes count ∧ natOfBytes [0, 0, 0, 15] + natOfBytes count ≤ (mapped.context 2).mapLength ∧
    ¬ natOfBytes [0, 0, 0, 16] + natOfBytes count ≤ (mapped.context 2).mapLength := by decide

/-- A LIVE entry under context 2 at its current epoch, a walk of it, and neither. -/
theorem witness_drains :
    (∃ t e, (withEntry (.live (liveEntry (.mapped 2 3)))).entry t = .live e ∧ e.binding = .mapped 2 3) ∧
    (∃ i w, (walking (.walking theWalk)).walk i = .walking w ∧ w.context = 2 ∧ w.epoch = 3) ∧
    (∀ t : RequestTag, mapped.entry t = .free) ∧ (∀ i, mapped.walk i = .free) ∧
    ((pendingLong .retire).context 2).pending = some ⟨.retire, 1, 5⟩ ∧
    ((pendingLong (.invalidate 0 1)).context 2).pending = some ⟨.invalidate 0 1, 1, 5⟩ :=
  ⟨⟨3, liveEntry (.mapped 2 3), by decide, rfl⟩, ⟨1, theWalk, by decide, rfl, rfl⟩, fun t => entry_reset 0x2A .power t, by decide,
    by decide, by decide⟩

theorem witness_StreamBindOutcomes :
    (machine (askingMapped .streamBind [63, 2, 2, 0])).gate.Passes .streamBind (packetOf .streamBind [63, 2, 2, 0]) [] ∧
    2 < (3 : Byte).toNat ∧ 15 < (16 : Byte).toNat ∧ (2 : Byte) = BitVec.ofNat 8 (2 : ContextNo).val ∧ 63 < (64 : Byte).toNat :=
  ⟨witness_PassesMapped .., by decide, by decide, by decide, by decide⟩

/-- A context without a pending command, with a pending RETIRE, with a pending INVALIDATE; a head that is not READY. -/
theorem witness_zeroFields :
    (mapped.context 2).pending = none ∧ ((pendingLong .retire).context 2).pending = some ⟨.retire, 1, 5⟩ ∧
    ((pendingLong (.invalidate 0 1)).context 2).pending = some ⟨.invalidate 0 1, 1, 5⟩ ∧
    ((walking (.walking theWalk)).stream 16).head = some .waitWalk := by decide

theorem witness_StreamReadResults : ((readyHead fetch 0).stream 16).queue.length ≤ 32 ∧
    ((readyHead fetch 0).stream 16).head = some (.ready 0x2004 ⟨0, none⟩) ∧
    63 < ((packetOf .streamRead [64, 0, 0, 0]).operands.getD 0 0).toNat := by decide

/-- The last granule of the address space; a base that is no multiple; the first index, branch and access out of range. -/
theorem witness_WindowSetAndClearOutcomes :
    let last : List Byte := [0xFF, 0xFF, 0xFF, 0xFF, 0, 0]
    natOfBytes last % 65536 = 0 ∧ natOfBytes last + 65536 = 2 ^ 48 ∧ natOfBytes [0, 0, 0, 0, 0, 1] % 65536 ≠ 0 ∧
    7 < (8 : Byte).toNat ∧ 1 < (2 : Byte).toNat ∧ 3 < (4 : Byte).toNat ∧ (7 : Byte) = BitVec.ofNat 8 (7 : WindowNo).val := by decide

theorem witness_WindowAndBranchReadResults : poweredOn.gate.LinksSound ∧ (poweredOn.gate.branch 3).slotWait.length ≤ 16 ∧
    (poweredOn.gate.branch 3).egressRequests.length ≤ 16 ∧ (3 : Byte) = BitVec.ofNat 8 (3 : BranchNo).val ∧ 3 < (4 : Byte).toNat :=
  ⟨witness_CreditsAreConserved.1, by decide, by decide, by decide, by decide⟩

theorem witness_BranchResetOutcomes : (poweredOn.gate.branch 0).link.state = .down ∧ (base.branch 3).link.state ≠ .down := by
  decide

/-- Links in each state; the figures 1 and 255 of an INIT. -/
theorem witness_links :
    (poweredOn.gate.link .trunk).state = .down ∧ (poweredOn.gate.link (.branch 3)).state = .down ∧
    ((after (.linkPresent (.branch 3)) poweredOn.gate).link (.branch 3)).state = .training ∧ (base.link .trunk).state = .up ∧
    (base.link (.branch 0)).state = .up ∧ (1 : Byte) ≠ 0 ∧ (255 : Byte) ≠ 0 := by decide

/-- A CREDIT that raises 8 held credits to 255, and one that would pass it; a CREDIT of CONTROL on a branch; one due. -/
theorem witness_CreditOutcomes :
    (base.link .trunk).held.get .control + (247 : Byte).toNat = 255 ∧ 255 < (base.link .trunk).held.get .control + (248 : Byte).toNat ∧
    (base.link .trunk).partnerInit = true ∧ LinkId.branch 0 ≠ .trunk ∧ 3 < (4 : Byte).toNat ∧
    ({ upTrunk with creditOrder := [.answer] } : LinkRecord).creditOrder = .answer :: [] := by decide

theorem witness_MalformedPacketsAreDiscarded :
    (0x31 : Byte) ∉ ([0x01, 0x02, 0x10, 0x11, 0x12, 0x20, 0x30] : List Byte) ∧ LinkId.branch 1 ≠ .trunk ∧ 1 < (2 : Byte).toNat ∧
    (base.link .trunk).state ≠ .down ∧ upTrunk.granted.get .control ≠ 0 := by decide

theorem witness_EventsThatCannotOccurChangeNothing :
    (poweredOn.gate.link (.branch 2)).state = .down ∧ (base.link (.branch 2)).state ≠ .down ∧ base.entry 251 = .free ∧
    base.walk 3 = .free ∧ base.trunk.ingressRequests = [] ∧ (List.replicate 32 (⟨9, 4, .done, []⟩ : Answer)).length = 32 ∧
    base.trunk.answerQueue = [] ∧ base.management.controlQueue = [] ∧ (base.branch 3).egressAnswers = [] ∧
    (base.branch 3).egressRequests = [] := by decide

/-- Sizes on either side of a CREDIT, an INIT and the two kinds of header; origins 15 and 16 and none. -/
theorem witness_shortPackets :
    ([1, 1] : List Byte).length ≠ 3 ∧ ([1, 1, 0, 0] : List Byte).length ≠ 3 ∧ ([0, 1, 1, 0, 0, 0] : List Byte).length ≠ 7 ∧
    ([0, 1, 1, 0, 0, 0, 0, 0] : List Byte).length ≠ 7 ∧ ([9, 4, 0, 0, 0, 0] : List Byte).length < 7 ∧
    (15 :: List.replicate 9 (0 : Byte)).length < 11 ∧ ([] : List Byte).length < 11 ∧ (15 : Byte).toNat < 16 ∧
    16 ≤ (16 : Byte).toNat ∧ (base.branch 3).link.state ≠ .down := by decide

/-- A request of 256 bytes that ends at 2^48, and a length of 257. -/
theorem witness_arrivingRequests :
    natOfBytes [1, 0] = 256 ∧ natOfBytes [0xFF, 0xFF, 0xFF, 0xFF, 0xFF, 0] + 256 = 2 ^ 48 ∧ ¬ natOfBytes [1, 1] ≤ 256 ∧
    (base.link .trunk).granted.request = 8 ∧ (base.link (.branch 3)).partnerInit = true ∧
    (63 : StreamId).val = 16 * (3 : BranchNo).val + (15 : Byte).toNat ∧ 16 ≤ (16 : Byte).toNat ∧
    (base.stream 63).queue = [] := by decide

/-- A PUSH; a COMMIT with slot 63 the only free one; no slot free; another head waiting. -/
theorem witness_HeadsBegin :
    push.kind = .push ∧ fetch.kind ≠ .push ∧ (base.branch 1).slotWait = [] ∧ (∃ k : SlotNo, (base.branch 1).slots[k.val] = .free) ∧
    (∀ k : SlotNo, (Vector.replicate 64 AnswerSlot.occupied)[k.val] ≠ .free) ∧ ((readyHead fetch 0).stream 16).queue = fetch :: [] := by
  decide

/-- The three modes; a closed context; a split page; page 16 of a map of 16; a hit; a joined walk; no slot free. -/
theorem witness_HeadChecks :
    ((bound base .blocked).stream 16).mode = .blocked ∧ ((bound base .direct).stream 16).mode = .direct ∧
    ((bound mapped (.mapped 2)).stream 16).mode = .mapped 2 ∧ (base.context 2).state ≠ .active ∧
    ¬ ((4095 + 2 - 1) / 4096 = 4095 / 4096) ∧ (mapped.context 2).mapLength ≤ 0x10000 / 4096 ∧
    fetch.address.toNat / 4096 < (mapped.context 2).mapLength ∧
    ([(⟨2, 2, 5, true, false⟩ : CacheEntry)].map fun e => (e.context, e.page)).Nodup ∧
    (walking (.walking theWalk)).walk 1 = .walking theWalk ∧ theWalk.context = 2 ∧ theWalk.page = fetch.address.toNat / 4096 ∧
    theWalk.epoch = (mapped.context 2).epoch ∧ (∀ i, mapped.walk i = .free) ∧
    (∀ i : WalkNo, (Vector.replicate 4 (WalkSlot.quarantined 8))[i.val] ≠ .free) := by decide

/-- The key of the only walk is distinct. -/
theorem witness_WalkKeysDistinct : (walking (.walking theWalk)).WalkKeysDistinct := by
  intro i j w x hi hj _ _ _
  have only : ∀ k, k ≠ 1 → (walking (.walking theWalk)).walk k = .free := by decide
  by_cases h : i = 1
  · by_cases h' : j = 1
    · rw [h, h']
    · rw [only j h'] at hj; cases hj
  · rw [only i h] at hi; cases hi

/-- An answer to a FREE, a LATE and a LIVE tag, with the entry's 2 bytes and with 3; to the first and the last tag. -/
theorem witness_AnswersToRequestTags :
    (0x2B : Byte) ≠ base.gateId ∧ (0 : Byte) = BitVec.ofNat 8 (0 : RequestTag).val ∧ (251 : Byte) = BitVec.ofNat 8 (251 : RequestTag).val ∧
    (withEntry .free).entry 3 = .free ∧ (withEntry (.late 8)).entry 3 = .late 8 ∧
    (withEntry (.live (liveEntry .direct))).entry 3 = .live (liveEntry .direct) ∧
    ([0xAB, 0xCD] : List Byte).length = (liveEntry .direct).length ∧ ([1, 2, 3] : List Byte).length ≠ (liveEntry .direct).length := by
  decide

/-- The walk's slot in each condition; a current answer, a stale one, and one of a generation that has changed. -/
theorem witness_AnswersToWalkTags :
    (255 : Byte) = BitVec.ofNat 8 (252 + (3 : WalkNo).val) ∧ (walking .free).walk 1 = .free ∧
    (walking (.quarantined 8)).walk 1 = .quarantined 8 ∧ (walking (.walking theWalk)).walk 1 = .walking theWalk ∧
    theWalk.sent ≠ none ∧ ({ theWalk with sent := none } : Walk).sent = none ∧
    theWalk.epoch = ((walking (.walking theWalk)).context 2).epoch ∧ ((walking (.walking theWalk)).context 2).state = .active ∧
    theWalk.waiters = [⟨16, 0⟩] ∧ ((walking (.walking theWalk)).stream 16).queue = [fetch] ∧
    ((walking (.walking theWalk)).stream 16).generation = 0 ∧ natOfBytes [0, 0, 0, 0, 0, 0, 0x50, 3] / 4096 = 5 ∧
    natOfBytes [0, 0, 0, 0, 0, 0, 0x50, 3] % 2 = 1 ∧ natOfBytes [0, 0, 0, 0, 0, 0, 0x50, 3] / 2 % 2 = 1 := by decide

/-- The walk with a second waiter, of stream 17; its entry in each condition, with bit 4 and with bit 48 set; its key cached. -/
theorem witness_settledWaiters :
    ({ theWalk with waiters := [⟨16, 0⟩, ⟨17, 1⟩] } : Walk).waiters = ⟨16, 0⟩ :: [⟨17, 1⟩] ∧
    ((walking (.walking theWalk)).stream 17).generation ≠ 1 ∧ ((walking (.walking theWalk)).stream 16).queue = fetch :: [] ∧
    (readMapEntry [0, 0, 0, 0, 0, 0, 0x50, 2]).valid = false ∧ (readMapEntry [0, 0, 0, 0, 0, 0, 0x50, 0x13]).reservedZero = false ∧
    (readMapEntry [0, 1, 0, 0, 0, 0, 0x50, 3]).reservedZero = false ∧ (readMapEntry [0, 0, 0, 0, 0, 0, 0x50, 5]).readable = false ∧
    (readMapEntry [0, 0, 0, 0, 0, 0, 0x50, 3]).writable = false ∧
    (∃ e ∈ [(⟨2, 2, 5, true, false⟩ : CacheEntry)], e.context = theWalk.context ∧ e.page = theWalk.page) := by decide

/-- A head on the walk waiting list, with a slot FREE and with none. -/
theorem witness_waitingHeads :
    ({ mapped with walkWaiting := [16, 17] } : Gate).walkWaiting = 16 :: [17] ∧ (∃ i, mapped.walk i = .free) ∧
    (∀ i, ({ mapped with walks := Vector.replicate 4 (.quarantined 8) } : Gate).walk i ≠ .free) := by decide

theorem witness_expiries :
    (withEntry (.live (liveEntry (.mapped 2 3)))).entry 3 = .live (liveEntry (.mapped 2 3)) ∧ (withEntry (.late 0)).entry 3 = .late 0 ∧
    (walking (.walking theWalk)).walk 1 = .walking theWalk ∧ theWalk.sent ≠ none ∧
    ((walking (.walking theWalk)).stream 16).generation = 0 ∧ (0 : Word16) ≠ 1 ∧ mapped.walkWaiting = [] ∧
    (∃ i, mapped.walk i = .free) := by decide

/-- Window 0 covers 10000 to 1FFFF hex: its last byte and the next; a held request. -/
theorem witness_HostRequestOfferOutcomes :
    let w := (hosting hostFetch .readOnly).window 0
    w.enabled = true ∧ w.last.toNat + 65535 = 0x1FFFF ∧ w.base.toNat ≤ hostFetch.address.toNat ∧
    (hosting hostFetch .readOnly).trunk.ingressRequests = [hostFetch] ∧
    (hosting hostFetch .readOnly).matchHost hostFetch = .forward 2 0x72345 ∧
    (hosting hostFetch .readOnly).matchHost { hostFetch with kind := .commit } = .refuse .denied ∧
    (hosting hostFetch .readOnly).matchHost { hostFetch with address := 0x1FFFD } = .refuse .noroute ∧
    ((hosting hostFetch .readOnly).branch 2).egressRequests.length < 16 ∧ 16 ≤ (List.replicate 16 hostFetch).length ∧
    (after .hostRequestOffer (hosting { hostFetch with kind := .commit } .readOnly)).trunk.hostOffer ≠ none := by decide

/-- The gate whose trunk source alone waits, and one whose branch 3 alone waits. -/
def refusedCommit : Gate := after .hostRequestOffer (hosting { hostFetch with kind := .commit } .readOnly)

theorem witness_trunkSourceIsNext : refusedCommit.NextSource .trunk ∧ refusedCommit.trunk.answerQueue.length < 32 := by
  refine ⟨⟨⟨_, _, _, rfl, rfl, by decide⟩, fun y h => ?_⟩, by decide⟩
  exact absurd h (by rw [show refusedCommit.trunk.lastSource = .branch 3 from rfl]; simp [sourceNumber])

/-- The base gate with an answer of branch 0 waiting. -/
def answering : Gate :=
  { base with branches := base.branches.set 0 { Branch.reset with link := upBranch, ingressAnswers := [⟨9, 4, .done, []⟩] } }

theorem witness_branchSourceIsNext : answering.NextSource (.branch 0) ∧ (answering.branch 0).ingressAnswers = [⟨9, 4, .done, []⟩] := by
  refine ⟨⟨by simp [Gate.Waits]; decide, fun y h => ?_⟩, by decide⟩
  cases y with
  | trunk => rintro ⟨_, _, _, front, _⟩; exact absurd front (by simp [answering, base, TrunkPort.reset])
  | branch b =>
    exfalso
    revert b
    rw [show answering.trunk.lastSource = .branch 3 from rfl]
    decide

theorem witness_noSourceWaits : ∀ x, ¬ base.Waits x := by
  rintro (_ | b)
  · rintro ⟨_, _, _, front, _⟩
    exact absurd front (by simp [base, TrunkPort.reset])
  · revert b
    simp only [Gate.Waits]
    decide

/-- A READY head on stream 16 and nothing else to grant; a walk slot; the walk slot once a stale head has been sent back. -/
theorem witness_DepartureGrantOutcomes :
    (readyHead fetch 0).NextGrant [] 16 ∧ (∃ g, (readyHead fetch 0).grant 16 = .departed g) ∧
    (walking (.walking { theWalk with sent := none })).NextGrant [] 65 ∧ staleAndWalk.NextGrant [] 16 ∧
    staleAndWalk.NextGrant [16] 65 :=
  ⟨(nextCandidate_iff _ _ _).mp (by decide), ⟨_, rfl⟩, (nextCandidate_iff _ _ _).mp (by decide),
    (nextCandidate_iff _ _ _).mp (by decide), (nextCandidate_iff _ _ _).mp (by decide)⟩

theorem witness_departingHeads :
    (readyHead fetch 0).trunkTurn = some .request ∧
    (walking (.walking { theWalk with sent := none })).trunkTurn = some .request ∧
    ((readyHead push 5).stream 16).head = some (.ready 7 ⟨5, none⟩) ∧ (5 : Word16) ≠ ((readyHead push 5).stream 16).generation ∧
    ((readyHead fetch 0).stream 16).head = some (.ready 0x2004 ⟨0, none⟩) ∧ (readyHead fetch 0).entry 0 = .free ∧
    base.trunkTurn ≠ some .request := by decide

theorem witness_TrunkTransmitterOutcomes :
    ({ base with trunk := { base.trunk with answerQueue := [⟨9, 4, .done, []⟩] } } : Gate).trunkTurn = some .answer ∧
    ({ base with management := { base.management with controlQueue := [.faultsNotice 5 32] } } : Gate).trunkTurn =
      some .control := by decide

/-- A branch that holds an answer and a host request and sent a request last. -/
theorem witness_BranchTransmitterOutcomes :
    ({ Branch.reset with link := upBranch, egressAnswers := [⟨0, 0, 7, .denied, []⟩], egressRequests := [hostFetch] } : Branch).turn =
      some .answers ∧
    ({ Branch.reset with link := upBranch, egressRequests := [hostFetch] } : Branch).turn = some .requests ∧
    (base.branch 1).slotWait = [] ∧ branchOf 16 = 1 := by decide

end Sys2Proof.Tests
end

/-! Operand blocks (10.3): what their readers give, and how exec answers a command by the block's layout. Used by every
statement about one management command. -/

namespace Sys2Proof.Machine

/-! ### Readers of one byte -/

/-- The byte of a number below `n` reads back as that number. -/
theorem operandBelow_ofNat {n : Nat} (small : n ≤ 256) {operands : List Byte} {offset : Nat} {k : Fin n}
    (byte : operands.getD offset 0 = BitVec.ofNat 8 k.val) : operandBelow n operands offset = some k := by
  have field : operandField operands offset 1 = k.val := by
    rw [operandField_one, byte, BitVec.toNat_ofNat]
    exact Nat.mod_eq_of_lt (by omega)
  simp [operandBelow, field]

theorem operandBelow_eq_none {n : Nat} {operands : List Byte} {offset : Nat} (above : n ≤ (operands.getD offset 0).toNat) :
    operandBelow n operands offset = none := by
  rw [operandBelow, operandField_one, dif_neg (Nat.not_lt.mpr above)]

/-- R155: a flag byte is 0 or 1, and any other value is none. -/
theorem operandFlag_eq (operands : List Byte) (offset : Nat) :
    operandFlag operands offset =
      if operands.getD offset 0 = 0 ∨ operands.getD offset 0 = 1 then some (decide (operands.getD offset 0 = 1)) else none := by
  unfold operandFlag
  rw [operandField_one]
  generalize operands.getD offset 0 = b
  have isZero : b.toNat = 0 ↔ b = 0 := by bv_omega
  have isOne : b.toNat = 1 ↔ b = 1 := by bv_omega
  simp only [isZero, isOne]
  by_cases zero : b = 0
  · subst zero; decide
  · by_cases one : b = 1
    · subst one; decide
    · simp only [zero, one, or_self, if_false]

/-! ### Layouts -/

/-- The block of the commands whose one operand is a number: that byte and three reserved ones. -/
theorem operandsFit_number {c : Command} (oneNumber : operandLength c = 4 ∧ reservedOffsets c = [1, 2, 3]) (b : Byte) :
    operandsFit c [b, 0, 0, 0] = true := by
  obtain ⟨length, reserved⟩ := oneNumber
  simp [operandsFit, length, reserved, operandField_one]

section setup
variable {b report : Byte} {length root : List Byte}

theorem operandsFit_contextSetup (four : length.length = 4) (six : root.length = 6) :
    operandsFit .contextSetup ([b, report, 0, 0] ++ length ++ root ++ [0, 0]) = true := by
  simp [operandsFit, operandLength, reservedOffsets, operandField_one, four, six]

theorem contextSetup_length (four : length.length = 4) :
    operandField ([b, report, 0, 0] ++ length ++ root ++ [0, 0]) 4 4 = natOfBytes length := by
  have field := operandField_at [b, report, 0, 0] length (root ++ [0, 0])
  rwa [four, ← List.append_assoc] at field

theorem contextSetup_root (four : length.length = 4) (six : root.length = 6) :
    operandField ([b, report, 0, 0] ++ length ++ root ++ [0, 0]) 8 6 = natOfBytes root := by
  have field := operandField_at ([b, report, 0, 0] ++ length) root [0, 0]
  rwa [List.length_append, four, six] at field

end setup

/-! ### Taking a command (R142, R143) -/

section taking
variable {s : State} {c : Command} {p : ControlPacket} {rest : List ControlPacket}

/-- Check 3 of R143. -/
theorem Gate.Passes.mayIssue {g : Gate} (h : g.Passes c p rest) : mayIssue c g.management.manager p.source = true := by
  unfold Machine.mayIssue
  rcases h.sender with read | manager
  · simp [read]
  · simp [manager]

/-- Check 5 of R143: an operand block that is not of its command's layout is refused. -/
theorem exec_badOperands (h : s.gate.Passes c p rest) (unfit : operandsFit c p.operands = false) :
    exec c.instr s = .next (s.withGate (s.gate.replied p rest .badArgument [])) := by
  have room : ¬ Config.pendingCommands ≤ s.gate.management.pendingList.length := Nat.not_le.mpr h.room
  have management : (s.gate.taken rest).management = s.gate.management := rfl
  rw [exec_command, takeCommand_takes h.takes, Gate.checked, management]
  simp [h.mayIssue, room, unfit, refuse_eq, Gate.replied]

/-- A command whose run does `after` to the gate and replies (R143). A refusal leaves the gate as it was. -/
theorem exec_replies {after : Gate} {status : ReplyStatus} {results : List Byte} (h : s.gate.Passes c p rest)
    (fit : operandsFit c p.operands = true)
    (ran : c.run p (s.gate.taken rest) = (after.taken rest).reply p status results) :
    exec c.instr s = .next (s.withGate (after.replied p rest status results)) := by
  rw [exec_passes h fit, ran]
  rfl

end taking
end Sys2Proof.Machine

/-! The commands of the context table (01): what each run does, case by case in the order of R3, and the statements about
CONTEXT-SETUP, CONTEXT-OPEN and CONTEXT-RETIRE. -/

namespace Sys2Proof.Machine

/-! ### Context records -/

/-- R4: a READY context has no pending long command. -/
theorem Context.Sound.idle_of_ready {x : Context} (sound : x.Sound) (ready : x.state = .ready) : x.pending = none := by
  match pending : x.pending with
  | none => rfl
  | some ⟨.retire, tag, node⟩ => exact absurd (sound.draining.mpr ⟨tag, node, pending⟩) (by simp [ready])
  | some ⟨.invalidate first count, tag, node⟩ => exact absurd (sound.active first count tag node pending) (by simp [ready])

theorem mapFits_iff {root length : Nat} :
    mapFits root length = true ↔ root % 4096 = 0 ∧ 1 ≤ length ∧ length ≤ 1048576 ∧ root + 8 * length ≤ 2 ^ 48 := by
  simp only [mapFits, Bool.and_eq_true, beq_iff_eq, decide_eq_true_eq, and_assoc]
  rfl

section runs
variable {g : Gate} {p : ControlPacket} {rest : List ControlPacket} {c : ContextNo}

/-- R3, R12, R88: a context number above 15 is the first thing that each context command refuses. -/
theorem run_contextAboveRange {d : Command}
    (context : d ∈ [Command.contextSetup, .contextOpen, .contextRetire, .contextRead, .invalidate])
    (above : operandBelow 16 p.operands 0 = none) : d.run p g = g.refuse p .badArgument := by
  simp only [List.mem_cons, List.not_mem_nil, or_false] at context
  obtain rfl | rfl | rfl | rfl | rfl := context
  · simp [Command.run, Gate.runContextSetup, above]
  · simp [Command.run, Gate.runContextOpen, above]
  · simp [Command.run, Gate.runContextRetire, above]
  · simp [Command.run, Gate.runContextRead, above]
  · simp [Command.run, Gate.runInvalidate, above]

/-! ### CONTEXT-SETUP (R5) -/

theorem runContextSetup_closed (number : operandBelow 16 p.operands 0 = some c)
    (closed : ¬ ((g.context c).state = .free ∨ (g.context c).state = .ready)) :
    g.runContextSetup p = g.refuse p .state := by
  rw [not_or] at closed
  simp [Gate.runContextSetup, number, closed]

theorem runContextSetup_done {report : Bool} (number : operandBelow 16 p.operands 0 = some c)
    (settable : (g.context c).state = .free ∨ (g.context c).state = .ready) (idle : (g.context c).pending = none)
    (flag : operandFlag p.operands 1 = some report)
    (fits : mapFits (operandField p.operands 8 6) (operandField p.operands 4 4) = true) :
    g.runContextSetup p =
      (g.setupContext c (BitVec.ofNat 48 (operandField p.operands 8 6)) (operandField p.operands 4 4) report).answerDone p [] := by
  rcases settable with free | ready
  · simp [Gate.runContextSetup, number, free, idle, flag, fits]
  · simp [Gate.runContextSetup, number, ready, idle, flag, fits]

theorem runContextSetup_outOfRange (number : operandBelow 16 p.operands 0 = some c)
    (settable : (g.context c).state = .free ∨ (g.context c).state = .ready) (idle : (g.context c).pending = none)
    (bad : operandFlag p.operands 1 = none ∨ mapFits (operandField p.operands 8 6) (operandField p.operands 4 4) = false) :
    g.runContextSetup p = g.refuse p .badArgument := by
  have state : ¬ ((g.context c).state ≠ .free ∧ (g.context c).state ≠ .ready) := by rwa [← not_or, not_not]
  simp only [Gate.runContextSetup, number, if_neg state, idle]
  rcases bad with noFlag | unfit
  · simp [noFlag]
  · cases operandFlag p.operands 1 <;> simp [unfit]

/-! ### CONTEXT-OPEN (R6) -/

theorem runContextOpen_ready (number : operandBelow 16 p.operands 0 = some c) (ready : (g.context c).state = .ready)
    (idle : (g.context c).pending = none) :
    g.runContextOpen p = (g.modContext c fun x => { x with state := .active }).answerDone p [] := by
  simp [Gate.runContextOpen, number, ready, idle]

theorem runContextOpen_notReady (number : operandBelow 16 p.operands 0 = some c)
    (notReady : (g.context c).state ≠ .ready) : g.runContextOpen p = g.refuse p .state := by
  simp [Gate.runContextOpen, number, notReady]

/-! ### CONTEXT-RETIRE (R7) -/

theorem runContextRetire_closed (number : operandBelow 16 p.operands 0 = some c)
    (closed : (g.context c).state = .free ∨ (g.context c).state = .draining) :
    g.runContextRetire p = g.refuse p .state := by
  rcases closed with free | draining
  · simp [Gate.runContextRetire, number, free]
  · simp [Gate.runContextRetire, number, draining]

theorem runContextRetire_busy (number : operandBelow 16 p.operands 0 = some c) (active : (g.context c).state = .active)
    (busy : (g.context c).pending.isSome) : g.runContextRetire p = g.refuse p .conflict := by
  simp [Gate.runContextRetire, number, active, busy]

theorem runContextRetire_ready (number : operandBelow 16 p.operands 0 = some c) (ready : (g.context c).state = .ready)
    (idle : (g.context c).pending = none) : g.runContextRetire p = g.retireReady c p := by
  simp [Gate.runContextRetire, number, ready, idle]

/-- R7: what becomes of each binding when the bindings of a context are withdrawn. -/
theorem Gate.stream_unbindContext (x : StreamId) :
    (g.unbindContext c).stream x =
      if (g.stream x).mode = .mapped c then
        { g.stream x with mode := .blocked, generation := (g.stream x).generation + 1 }
      else g.stream x := by
  rw [Gate.stream, Gate.unbindContext, Vector.getElem_map]
  rfl

/-- The gate past the retirement of READY context `c`, before its reply (R7). -/
def Gate.retired (g : Gate) (c : ContextNo) : Gate :=
  ((g.raiseEpoch c).unbindContext c).modContext c fun x => { x with state := .free }

theorem retireReady_taken : (g.taken rest).retireReady c p = ((g.retired c).taken rest).reply p .done [] := rfl

theorem Gate.stream_retired (x : StreamId) : (g.retired c).stream x = (g.unbindContext c).stream x := rfl

/-- The retirement of a READY context changes its record and the bindings, and nothing else. -/
theorem Gate.retired_eq :
    g.retired c =
      { g with
        contexts := g.contexts.set c.val { g.context c with state := .free, epoch := (g.context c).epoch + 1 }
        streams := (g.retired c).streams } := by
  simp [Gate.retired, Gate.raiseEpoch, Gate.unbindContext, Gate.modContext, Gate.context]

end runs

/-! ### The statements -/

/-- Settles O29: the checks of R3 and R5 in their order. A context number above 15 fails the layout's check or the first
check of the command, with the same reply. -/
theorem contextSetupOutcomes : Obligations.ContextSetupOutcomes := by
  unfold Obligations.ContextSetupOutcomes
  refine ⟨fun s p rest c report length root passes four six block => ?_, fun d s p rest passes context above => ?_⟩
  · have fit : operandsFit .contextSetup p.operands = true := by rw [block]; exact operandsFit_contextSetup four six
    have number : operandBelow 16 p.operands 0 = some c := operandBelow_ofNat (by decide) (by rw [block]; rfl)
    have flag := operandFlag_eq p.operands 1
    rw [show p.operands.getD 1 0 = report by rw [block]; rfl] at flag
    have atLength : operandField p.operands 4 4 = natOfBytes length := by rw [block]; exact contextSetup_length four
    have atRoot : operandField p.operands 8 6 = natOfBytes root := by rw [block]; exact contextSetup_root four six
    refine ⟨fun idle settable fits => ?_, fun closed => ?_, fun idle settable unfit => ?_⟩
    · obtain ⟨aligned, nonempty, bounded, inSpace, isFlag⟩ := fits
      have fits := mapFits_iff.mpr ⟨aligned, nonempty, bounded, inSpace⟩
      rw [if_pos isFlag] at flag
      rw [← atLength, ← atRoot] at fits ⊢
      exact exec_replies passes fit (runContextSetup_done number settable idle flag fits)
    · exact exec_replies passes fit (runContextSetup_closed number closed)
    · refine exec_replies passes fit (runContextSetup_outOfRange number settable idle ?_)
      by_cases isFlag : report = 0 ∨ report = 1
      · right
        rw [atLength, atRoot, ← Bool.not_eq_true, mapFits_iff]
        exact fun ⟨aligned, nonempty, bounded, inSpace⟩ => unfit ⟨aligned, nonempty, bounded, inSpace, isFlag⟩
      · exact .inl (flag.trans (if_neg isFlag))
  · cases fit : operandsFit d p.operands with
    | false => exact exec_badOperands passes fit
    | true => exact exec_replies passes fit (run_contextAboveRange context (operandBelow_eq_none above))

/-- Settles O31: of READY by `Gate.retired`, and the two refusals by R3. -/
theorem retireReadyOrRefused : Obligations.RetireReadyOrRefused := by
  unfold Obligations.RetireReadyOrRefused
  intro s p rest c passes block
  have fit : operandsFit .contextRetire p.operands = true := by rw [block]; exact operandsFit_number ⟨rfl, rfl⟩ _
  have number : operandBelow 16 p.operands 0 = some c := operandBelow_ofNat (by decide) (by rw [block]; rfl)
  refine ⟨fun ready idle => ⟨s.gate.retired c, ?_, Gate.retired_eq, fun x => ?_⟩, fun closed => ?_, fun active busy => ?_⟩
  · have retires := runContextRetire_ready (g := s.gate.taken rest) number ready idle
    exact exec_replies passes fit (retires.trans retireReady_taken)
  · rw [Gate.stream_retired, Gate.stream_unbindContext]
  · exact exec_replies passes fit (runContextRetire_closed number closed)
  · exact exec_replies passes fit (runContextRetire_busy number active busy)

/-- Settles O30: a READY context has no pending command, so that OPEN is never refused with CONFLICT. -/
theorem contextOpenOutcomes : Obligations.ContextOpenOutcomes := by
  unfold Obligations.ContextOpenOutcomes
  intro s p rest c passes block sound
  have fit : operandsFit .contextOpen p.operands = true := by rw [block]; exact operandsFit_number ⟨rfl, rfl⟩ _
  have number : operandBelow 16 p.operands 0 = some c := operandBelow_ofNat (by decide) (by rw [block]; rfl)
  split
  case isTrue ready =>
    exact exec_replies passes fit (runContextOpen_ready number ready (sound.idle_of_ready ready))
  case isFalse notReady => exact exec_replies passes fit (runContextOpen_notReady number notReady)

end Sys2Proof.Machine

/-! The check of a head (02): what its binding, its context, the translation cache and the walk slots make of it, one lemma for
each outcome, and the statement about `Gate.checkHead`. -/

namespace Sys2Proof.Machine

section check
variable {g : Gate} {x : StreamId} {r : Request} {c : ContextNo} {page : Nat}

/-! ### The binding (R56) -/

theorem checkHead_blocked (blocked : (g.stream x).mode = .blocked) : g.checkHead x r = .refused g (blockedFault x r) := by
  simp [Gate.checkHead, blocked]

theorem checkHead_direct (direct : (g.stream x).mode = .direct) :
    g.checkHead x r = .stays (g.setHead x (.ready r.address ⟨(g.stream x).generation, none⟩)) := by
  simp [Gate.checkHead, direct]

theorem checkHead_mapped (mapped : (g.stream x).mode = .mapped c) : g.checkHead x r = g.lookup x c r := by
  simp [Gate.checkHead, mapped]

/-! ### The refusals before the search (R19, R20) -/

theorem lookup_closed (closed : (g.context c).state ≠ .active) :
    g.lookup x c r = .refused g (mappedFault .contextClosed x c r none) := by
  simp [Gate.lookup, closed]

theorem lookup_split (active : (g.context c).state = .active)
    (split : (r.address.toNat + r.length - 1) / Config.pageSize ≠ pageOf r.address) :
    g.lookup x c r = .refused g (mappedFault .splitPage x c r none) := by
  simp [Gate.lookup, active, split]

theorem lookup_outOfMap (active : (g.context c).state = .active)
    (onePage : (r.address.toNat + r.length - 1) / Config.pageSize = pageOf r.address)
    (outside : (g.context c).mapLength ≤ pageOf r.address) :
    g.lookup x c r = .refused g (mappedFault .outOfMap x c r none) := by
  simp [Gate.lookup, active, onePage, outside]

/-- The request passes the checks that come before the search of the cache. -/
structure Gate.Searches (g : Gate) (c : ContextNo) (r : Request) : Prop where
  active : (g.context c).state = .active
  onePage : (r.address.toNat + r.length - 1) / Config.pageSize = pageOf r.address
  inMap : pageOf r.address < (g.context c).mapLength

/-! ### What a search counts (R17, R18) -/

/-- The counters of a context after a search that had `hits` hits and started `walks` walks. -/
def searchCount (hits walks : Counter) (k : ContextCounters) : ContextCounters :=
  { k with lookups := k.lookups + 1, cacheHits := k.cacheHits + hits, walksStarted := k.walksStarted + walks }

theorem Gate.context_count_self (f : ContextCounters → ContextCounters) :
    (g.count c f).context c = { g.context c with counters := f (g.context c).counters } := by
  simp [Gate.count, Gate.context_modContext]

theorem Gate.count_count (f h : ContextCounters → ContextCounters) :
    (g.count c f).count c h = g.count c fun k => h (f k) := by
  rw [Gate.count, Gate.modContext, Gate.context_count_self]
  simp [Gate.count, Gate.modContext]

theorem count_lookup : (g.count c fun k => { k with lookups := k.lookups + 1 }) = g.count c (searchCount 0 0) :=
  congrArg (g.count c) (funext fun k => by simp [searchCount])

theorem count_hit :
    ((g.count c fun k => { k with lookups := k.lookups + 1 }).count c fun k => { k with cacheHits := k.cacheHits + 1 }) =
      g.count c (searchCount 1 0) := by
  rw [Gate.count_count]
  exact congrArg (g.count c) (funext fun k => by simp [searchCount])

theorem count_walk :
    ((g.count c (searchCount 0 0)).count c fun k => { k with walksStarted := k.walksStarted + 1 }) =
      g.count c (searchCount 0 1) := by
  rw [Gate.count_count]
  exact congrArg (g.count c) (funext fun k => by simp [searchCount])

/-! ### The search of the cache (R21, R24) -/

/-- R24: of a cache with at most one entry for each context and page, the search finds that entry. -/
theorem findCached_eq_some {e : CacheEntry} (cached : e ∈ g.cache) (ofContext : e.context = c) (ofPage : e.page = page)
    (distinct : (g.cache.map fun e => (e.context, e.page)).Nodup) : g.findCached c page = some e := by
  have found : (g.findCached c page).isSome := List.find?_isSome.mpr ⟨e, cached, by simp [ofContext, ofPage]⟩
  obtain ⟨d, first⟩ := Option.isSome_iff_exists.mp found
  obtain ⟨context, page⟩ : d.context = c ∧ d.page = page := by simpa using List.find?_some first
  have same : d = e :=
    List.inj_on_of_nodup_map distinct (List.mem_of_find?_eq_some first) cached
      (Prod.ext (context.trans ofContext.symm) (page.trans ofPage.symm))
  rw [first, same]

theorem findCached_eq_none : g.findCached c page = none ↔ ∀ e ∈ g.cache, e.context = c → e.page ≠ page := by
  simp [Gate.findCached]

theorem lookup_permitted {e : CacheEntry} (searches : g.Searches c r) (hit : g.findCached c (pageOf r.address) = some e)
    (allowed : permits e.readable e.writable r.kind = true) :
    g.lookup x c r = .stays ((g.count c (searchCount 1 0)).setHead x
      (.ready (physicalAddress e.frame r.address) (g.mappedStamp x c))) := by
  rw [← count_hit]
  simp [Gate.lookup, searches.active, searches.onePage, searches.inMap.not_ge, hit, allowed]

theorem lookup_denied {e : CacheEntry} (searches : g.Searches c r) (hit : g.findCached c (pageOf r.address) = some e)
    (denied : permits e.readable e.writable r.kind = false) :
    g.lookup x c r = .refused (g.count c (searchCount 1 0)) (mappedFault (deniedKind r.kind) x c r none) := by
  rw [← count_hit]
  simp [Gate.lookup, searches.active, searches.onePage, searches.inMap.not_ge, hit, denied]

theorem lookup_missed (searches : g.Searches c r) (miss : g.findCached c (pageOf r.address) = none) :
    g.lookup x c r = .stays ((g.count c (searchCount 0 0)).handleMiss x c (pageOf r.address)) := by
  rw [← count_lookup]
  simp [Gate.lookup, searches.active, searches.onePage, searches.inMap.not_ge, miss]

/-! ### A miss (R22, R29, R30) -/

/-- The walk has this key (R29). -/
def Walk.Keyed (w : Walk) (c : ContextNo) (page : Nat) (epoch : Word16) : Prop :=
  w.context = c ∧ w.page = page ∧ w.epoch = epoch

theorem hasKey_iff {slot : WalkSlot} {epoch : Word16} :
    slot.hasKey c page epoch = true ↔ ∃ w, slot = .walking w ∧ w.Keyed c page epoch := by
  cases slot <;> simp [WalkSlot.hasKey, Walk.Keyed, and_assoc]

/-- R29: the walk of a key is the one that the search of the slots finds. -/
theorem lowest_hasKey {i : WalkNo} {w : Walk} {epoch : Word16} (walks : g.walk i = .walking w)
    (keyed : w.Keyed c page epoch) (distinct : g.WalkKeysDistinct) :
    lowest g.walks (·.hasKey c page epoch) = some i := by
  refine (lowest_eq_some _ _ _).mpr ⟨hasKey_iff.mpr ⟨w, walks, keyed⟩, fun j before => ?_⟩
  refine Bool.eq_false_iff.mpr fun has => ?_
  obtain ⟨v, walks', context, page, epoch⟩ := hasKey_iff.mp has
  obtain ⟨context', page', epoch'⟩ := keyed
  exact before.ne (distinct j i v w walks' walks (context.trans context'.symm) (page.trans page'.symm)
    (epoch.trans epoch'.symm))

theorem lowest_hasKey_eq_none {epoch : Word16} (fresh : ∀ i w, g.walk i = .walking w → ¬ w.Keyed c page epoch) :
    lowest g.walks (·.hasKey c page epoch) = none := by
  refine (lowest_eq_none _ _).mpr fun i => Bool.eq_false_iff.mpr fun has => ?_
  obtain ⟨w, walks, keyed⟩ := hasKey_iff.mp has
  exact fresh i w walks keyed

theorem handleMiss_joins {i : WalkNo} {w : Walk} (walks : g.walk i = .walking w)
    (keyed : w.Keyed c page (g.context c).epoch) (distinct : g.WalkKeysDistinct) :
    g.handleMiss x c page =
      (g.setWalk i (.walking { w with waiters := w.waiters ++ [⟨x, (g.stream x).generation⟩] })).setHead x .waitWalk := by
  simp [Gate.handleMiss, lowest_hasKey walks keyed distinct, Gate.joinWalk, walks]

/-- R30: the walk of a head that was searched for is counted with its search; its map entry is where the context's map has it. -/
theorem startWalk_searched (i : WalkNo) :
    (g.count c (searchCount 0 0)).startWalk x c page i =
      ((g.count c (searchCount 0 1)).setWalk i (.walking
        ⟨c, page, (g.context c).epoch, BitVec.ofNat 48 ((g.context c).mapRoot.toNat + 8 * page), none,
          [⟨x, (g.stream x).generation⟩]⟩)).setHead x .waitWalk := by
  rw [Gate.startWalk, Gate.context_count_self, ← count_walk]
  rfl

theorem handleMiss_starts {i : WalkNo} (fresh : ∀ i w, g.walk i = .walking w → ¬ w.Keyed c page (g.context c).epoch)
    (free : g.walk i = .free) (before : ∀ j, j < i → g.walk j ≠ .free) :
    g.handleMiss x c page = g.startWalk x c page i := by
  have first : lowest g.walks (· == .free) = some i :=
    (lowest_eq_some _ _ _).mpr ⟨beq_iff_eq.mpr free, fun j lower => beq_eq_false_iff_ne.mpr (before j lower)⟩
  simp [Gate.handleMiss, lowest_hasKey_eq_none fresh, first]

theorem handleMiss_waits (fresh : ∀ i w, g.walk i = .walking w → ¬ w.Keyed c page (g.context c).epoch)
    (full : ∀ i, g.walk i ≠ .free) :
    g.handleMiss x c page = { g with walkWaiting := g.walkWaiting ++ [x] }.setHead x .waitWalkSlot := by
  have noneFree : lowest g.walks (· == .free) = none :=
    (lowest_eq_none _ _).mpr fun i => beq_eq_false_iff_ne.mpr (full i)
  simp [Gate.handleMiss, lowest_hasKey_eq_none fresh, noneFree]

end check

/-! ### The statement -/

/-- Settles O51: the binding, then the checks of R19 to R22 in their order, each by the lemma of its outcome. Counting the search
leaves the epoch of the context as it was, so that a walk's key is the same before and after. -/
theorem headChecks : Obligations.HeadChecks := by
  unfold Obligations.HeadChecks
  intro g x r
  refine ⟨checkHead_blocked, checkHead_direct, fun c mapped => ?_⟩
  rw [checkHead_mapped mapped]
  have epoch : (g.context c).epoch = ((g.count c (searchCount 0 0)).context c).epoch := by rw [Gate.context_count_self]
  refine ⟨lookup_closed, lookup_split, lookup_outOfMap, fun active onePage inMap => ?_⟩
  have searches : g.Searches c r := ⟨active, onePage, inMap⟩
  refine ⟨fun e cached context page distinct => ?_, fun uncached => ?_⟩
  · have hit : g.findCached c (pageOf r.address) = some e :=
      findCached_eq_some cached context page distinct
    refine ⟨fun allowed => ?_, fun denied => ?_⟩
    · exact lookup_permitted searches hit allowed
    · refine (lookup_denied searches hit denied).trans
        (congrArg (fun kind => HeadOutcome.refused _ (mappedFault kind x c r none)) ?_)
      cases r.kind <;> rfl
  · rw [lookup_missed searches (findCached_eq_none.mpr uncached)]
    refine ⟨fun i w walks keyed distinct => ?_, fun fresh => ⟨fun i free before => ?_, fun full => ?_⟩⟩
    · rw [handleMiss_joins (g := g.count c _) walks (epoch ▸ keyed) distinct]
      rfl
    · rw [handleMiss_starts (g := g.count c _) (epoch ▸ fresh) free before, startWalk_searched]
      rfl
    · rw [handleMiss_waits (g := g.count c _) (epoch ▸ fresh) full]
      rfl

end Sys2Proof.Machine

/-! The commands of the stream table (03): what STREAM-BIND makes of its operands, check by check in the order of R47, the bytes
of STREAM-READ, and the statements about both. -/

namespace Sys2Proof.Machine

/-! ### STREAM-BIND (R47, R48) -/

section bind
variable {g : Gate} {operands : List Byte} {c : ContextNo}

theorem bindCheck_blocked (mode : operands.getD 1 0 = 0) : g.bindCheck operands = .mode .blocked := by
  rw [Gate.bindCheck, operandField_one, mode]
  rfl

theorem bindCheck_direct (mode : operands.getD 1 0 = 1) : g.bindCheck operands = .mode .direct := by
  rw [Gate.bindCheck, operandField_one, mode]
  rfl

/-- Checks 3 and 4 of R47. -/
theorem bindCheck_mapped (mode : operands.getD 1 0 = 2) (number : operandBelow 16 operands 2 = some c) :
    g.bindCheck operands =
      if (g.context c).state = .free ∨ (g.context c).state = .draining then .refused .state
      else if (g.context c).pending.isSome then .refused .conflict
      else .mode (.mapped c) := by
  have bindable : ((g.context c).state ≠ .ready ∧ (g.context c).state ≠ .active) ↔
      ((g.context c).state = .free ∨ (g.context c).state = .draining) := by
    cases (g.context c).state <;> decide
  simp only [Gate.bindCheck, operandField_one, mode, number, bindable]
  rfl

/-- Check 1 of R47, and check 2 where the mode is MAPPED. -/
theorem bindCheck_outOfRange
    (out : 2 < (operands.getD 1 0).toNat ∨ operands.getD 1 0 = 2 ∧ 15 < (operands.getD 2 0).toNat) :
    g.bindCheck operands = .refused .badArgument := by
  rw [Gate.bindCheck, operandField_one]
  rcases out with undefined | ⟨mapped, above⟩
  · rw [if_neg (by omega), if_neg (by omega), if_neg (by omega)]
  · rw [operandBelow_eq_none above, mapped]
    rfl

theorem operandsFit_streamBind (stream mode context : Byte) :
    operandsFit .streamBind [stream, mode, context, 0] = true := by
  simp [operandsFit, operandLength, reservedOffsets, operandField_one]

variable {p : ControlPacket} {m : Mode} {x : StreamId}

theorem runStreamBind_refused {status : ReplyStatus} (check : g.bindCheck p.operands = .refused status) :
    g.runStreamBind p = g.refuse p status := by
  rw [Gate.runStreamBind, check]

theorem runStreamBind_binds (check : g.bindCheck p.operands = .mode m) (number : operandBelow 64 p.operands 0 = some x) :
    g.runStreamBind p = (g.bindStream x m).answerDone p [] := by
  simp only [Gate.runStreamBind, check, number]

/-- R47: the stream number is examined after the mode and the context. -/
theorem runStreamBind_streamAboveRange (check : g.bindCheck p.operands = .mode m)
    (above : operandBelow 64 p.operands 0 = none) : g.runStreamBind p = g.refuse p .badArgument := by
  simp only [Gate.runStreamBind, check, above]

end bind

/-- Settles O37: R47's checks decide by `bindCheck` alone; the stream number is looked at only where they leave a mode. -/
theorem streamBindOutcomes : Obligations.StreamBindOutcomes := by
  unfold Obligations.StreamBindOutcomes
  refine ⟨?_, ?_⟩
  · intro s p rest x mode context passes block bound
    have fit : operandsFit .streamBind p.operands = true := by rw [block]; exact operandsFit_streamBind ..
    have number : operandBelow 64 p.operands 0 = some x := operandBelow_ofNat (by decide) (by rw [block]; rfl)
    have modeByte : p.operands.getD 1 0 = mode := by rw [block]; rfl
    have contextByte : p.operands.getD 2 0 = context := by rw [block]; rfl
    refine ⟨fun blocked => ?_, fun direct => ?_, fun mapped c isContext => ?_, fun out => ?_⟩
    · exact exec_replies passes fit (runStreamBind_binds (bindCheck_blocked (modeByte.trans blocked)) number)
    · exact exec_replies passes fit (runStreamBind_binds (bindCheck_direct (modeByte.trans direct)) number)
    · have check := bindCheck_mapped (g := s.gate) (modeByte.trans mapped)
        (operandBelow_ofNat (by decide) (contextByte.trans isContext))
      split_ifs at check ⊢ with closed busy
      · exact exec_replies passes fit (runStreamBind_refused check)
      · exact exec_replies passes fit (runStreamBind_refused check)
      · exact exec_replies passes fit (runStreamBind_binds check number)
    · rw [← modeByte, ← contextByte] at out
      exact exec_replies passes fit (runStreamBind_refused (bindCheck_outOfRange out))
  · intro s p rest stream mode context passes block above
    have fit : operandsFit .streamBind p.operands = true := by rw [block]; exact operandsFit_streamBind ..
    have noStream : operandBelow 64 p.operands 0 = none := operandBelow_eq_none (by rw [block]; exact above)
    have modeByte : p.operands.getD 1 0 = mode := by rw [block]; rfl
    have contextByte : p.operands.getD 2 0 = context := by rw [block]; rfl
    refine ⟨fun notMapped => ?_, fun mapped above => ?_, fun mapped c isContext => ?_⟩
    · have modes : mode = 0 ∨ mode = 1 ∨ 2 < mode.toNat := by bv_omega
      rcases modes with blocked | direct | undefined
      · exact exec_replies passes fit (runStreamBind_streamAboveRange (bindCheck_blocked (modeByte.trans blocked)) noStream)
      · exact exec_replies passes fit (runStreamBind_streamAboveRange (bindCheck_direct (modeByte.trans direct)) noStream)
      · exact exec_replies passes fit (runStreamBind_refused (bindCheck_outOfRange (.inl (modeByte ▸ undefined))))
    · exact exec_replies passes fit (runStreamBind_refused
        (bindCheck_outOfRange (.inr ⟨modeByte.trans mapped, contextByte ▸ above⟩)))
    · have check := bindCheck_mapped (g := s.gate) (modeByte.trans mapped)
        (operandBelow_ofNat (by decide) (contextByte.trans isContext))
      split_ifs at check ⊢ with closed busy
      · exact exec_replies passes fit (runStreamBind_refused check)
      · exact exec_replies passes fit (runStreamBind_refused check)
      · exact exec_replies passes fit (runStreamBind_streamAboveRange check noStream)

/-! ### STREAM-READ (R50, 10.3) -/

/-- A number that was written as bytes and fits its field is read back at its offset. -/
theorem operandField_bytesOfNat {width n : Nat} (fits : n < 256 ^ width) (before after : List Byte) :
    operandField (before ++ bytesOfNat width n ++ after) before.length width = n := by
  have field := operandField_at before (bytesOfNat width n) after
  rwa [bytesOfNat_length, natOfBytes_bytesOfNat, Nat.mod_eq_of_lt fits] at field

theorem toNat_byte {n : Nat} (fits : n < 256) : (BitVec.ofNat 8 n).toNat = n :=
  BitVec.toNat_ofNat n 8 |>.trans (Nat.mod_eq_of_lt fits)

/-- A word that is zero where it is absent fits two bytes. -/
theorem word_getD_lt {α : Type} (word : α → Word16) (x : Option α) :
    (x.map fun y => (word y).toNat).getD 0 < 256 ^ 2 := by
  cases x with
  | none => exact Nat.pow_pos (by decide)
  | some y => exact (word y).isLt

/-! ### Codes of the binding and of the head -/

theorem modeCode_toNat (m : Mode) : (modeCode m).toNat = match m with | .blocked => 0 | .direct => 1 | .mapped _ => 2 := by
  cases m <;> rfl

theorem headStateCode_toNat (h : Option HeadState) :
    (headStateCode h).toNat =
      match h with
      | none => 0 | some .waitSlot => 1 | some .translating => 2 | some .waitWalk => 3 | some .waitWalkSlot => 4
      | some (.ready _ _) => 5 := by
  cases h with
  | none => rfl
  | some h => cases h <;> rfl

theorem modeContext_toNat (m : Mode) : (modeContext m).toNat = match m with | .mapped c => c.val | _ => 0 := by
  cases m with
  | blocked => rfl
  | direct => rfl
  | mapped c => exact toNat_byte (by omega)

/-! ### The head and its stamp (R45) -/

section head
variable {x : Stream}

theorem Stream.stamp_ready {address : Addr} {stamp : Stamp} (ready : x.head = some (.ready address stamp)) :
    x.stamp = some stamp := by
  rw [Stream.stamp, ready]

theorem Stream.stamp_notReady (notReady : ∀ address stamp, x.head ≠ some (.ready address stamp)) : x.stamp = none := by
  unfold Stream.stamp
  split
  case h_1 address stamp ready => exact absurd ready (notReady address stamp)
  case h_2 => rfl

/-- The epoch of the head's stamp, for a READY head that was MAPPED (R45). -/
def Stream.stampEpoch (x : Stream) : Option Word16 := x.stamp.bind fun y => y.mapped.map Prod.snd

theorem presenceBits_lt :
    presenceBit x.headTag 1 + presenceBit x.stamp 2 + presenceBit x.stampEpoch 4 < 256 := by
  unfold presenceBit
  split_ifs <;> decide

theorem headTag_presence :
    presenceBit x.headTag 1 = match x.queue with | [] => 0 | r :: _ => if r.kind = .push then 0 else 1 := by
  unfold Stream.headTag
  cases x.queue with
  | nil => rfl
  | cons r rest =>
    obtain ⟨kind, tag, address, length, payload⟩ := r
    cases kind <;> rfl

theorem headTag_toNat :
    (x.headTag.getD 0).toNat = match x.queue with | [] => 0 | r :: _ => if r.kind = .push then 0 else r.tag.toNat := by
  unfold Stream.headTag
  cases x.queue with
  | nil => rfl
  | cons r rest =>
    obtain ⟨kind, tag, address, length, payload⟩ := r
    cases kind <;> rfl

theorem headKindCode_toNat :
    x.headKindCode.toNat =
      match x.queue with
      | [] => 0
      | r :: _ => (match r.kind with | .push => 1 | .commit => 2 | .fetch => 3) := by
  unfold Stream.headKindCode
  cases x.queue with
  | nil => rfl
  | cons r rest =>
    obtain ⟨kind, tag, address, length, payload⟩ := r
    cases kind <;> rfl

/-- The presence bits of the stamp and of its epoch (10.3). -/
theorem stamp_presence :
    presenceBit x.stamp 2 + presenceBit x.stampEpoch 4 =
      match x.head with
      | some (.ready _ stamp) => (match stamp.mapped with | none => 2 | some _ => 6)
      | _ => 0 := by
  unfold Stream.stampEpoch Stream.stamp
  cases x.head with
  | none => rfl
  | some h =>
    cases h with
    | ready address stamp =>
      obtain ⟨generation, mapped⟩ := stamp
      cases mapped <;> rfl
    | _ => rfl

end head

/-! ### The result bytes -/

section read
variable {g : Gate} {i : StreamId}

theorem liveOfStream_eq (g : Gate) (i : StreamId) :
    g.liveOfStream i = g.entries.toList.countP (fun e => match e with | .live e => e.stream == i | _ => false) := by
  rw [Gate.liveOfStream, Gate.liveEntries, List.countP_filterMap]
  refine congrArg (List.countP · _) (funext fun e => ?_)
  cases e <;> rfl

theorem liveOfStream_lt (g : Gate) (i : StreamId) : g.liveOfStream i < 256 := by
  rw [liveOfStream_eq]
  exact Nat.lt_of_le_of_lt List.countP_le_length (by simp)

theorem streamReadResults_generation :
    operandField (g.streamReadResults i) 4 2 = (g.stream i).generation.toNat :=
  operandField_bytesOfNat (width := 2) (g.stream i).generation.isLt [_, _, _, _] [_, _, _, _, _, _, _, _, _, _]

theorem streamReadResults_stampGeneration :
    operandField (g.streamReadResults i) 10 2 = ((g.stream i).stamp.map fun y => y.generation.toNat).getD 0 :=
  operandField_bytesOfNat (word_getD_lt Stamp.generation _) [_, _, _, _, _, _, _, _, _, _] [_, _, _, _]

theorem streamReadResults_stampEpoch :
    operandField (g.streamReadResults i) 12 2 = ((g.stream i).stampEpoch.map fun y => y.toNat).getD 0 :=
  operandField_bytesOfNat (word_getD_lt id _) [_, _, _, _, _, _, _, _, _, _, _, _] [_, _]

theorem streamReadResults_presence :
    operandField (g.streamReadResults i) 9 1 =
      presenceBit (g.stream i).headTag 1 + presenceBit (g.stream i).stamp 2 + presenceBit (g.stream i).stampEpoch 4 :=
  (operandField_one _ _).trans (toNat_byte presenceBits_lt)

variable {p : ControlPacket}

theorem runStreamRead_done (number : operandBelow 64 p.operands 0 = some i) :
    g.runStreamRead p = g.answerDone p (g.streamReadResults i) := by
  rw [Gate.runStreamRead, number]

theorem runStreamRead_streamAboveRange (above : operandBelow 64 p.operands 0 = none) :
    g.runStreamRead p = g.refuse p .badArgument := by
  rw [Gate.runStreamRead, above]

end read

/-! ### The statement about STREAM-READ -/

/-- Settles O38: each byte of `streamReadResults` at its place; a number above 63 fails the layout's check or is refused by the
command itself, with the same reply. -/
theorem streamReadResults : Obligations.StreamReadResults := by
  unfold Obligations.StreamReadResults
  refine ⟨?_, fun s p rest passes above => ?_⟩
  · intro s p rest i passes block bounded x
    have fit : operandsFit .streamRead p.operands = true := by rw [block]; exact operandsFit_number ⟨rfl, rfl⟩ _
    have number : operandBelow 64 p.operands 0 = some i := operandBelow_ofNat (by decide) (by rw [block]; rfl)
    have byte (k : Nat) := operandField_one (s.gate.streamReadResults i) k
    refine ⟨s.gate.streamReadResults i, exec_replies passes fit (runStreamRead_done number), rfl,
      (byte 0).trans (toNat_byte (by omega)), (byte 1).trans (modeCode_toNat _), (byte 2).trans (modeContext_toNat _),
      (byte 3).trans (headStateCode_toNat _), streamReadResults_generation, (byte 6).trans (toNat_byte (by omega)),
      (byte 7).trans headKindCode_toNat, (byte 8).trans headTag_toNat, ?presence, fun address stamp ready => ?ready,
      fun notReady => ?notReady, byte 15, (byte 14).trans ?live⟩
    case presence =>
      exact streamReadResults_presence.trans <|
        (Nat.add_assoc _ _ _).trans (congrArg₂ (· + ·) headTag_presence stamp_presence)
    case ready =>
      rw [streamReadResults_stampGeneration, streamReadResults_stampEpoch, Stream.stampEpoch, Stream.stamp_ready ready]
      obtain ⟨generation, mapped⟩ := stamp
      cases mapped <;> exact ⟨rfl, rfl⟩
    case notReady =>
      rw [streamReadResults_stampGeneration, streamReadResults_stampEpoch, Stream.stampEpoch, Stream.stamp_notReady notReady]
      exact ⟨rfl, rfl⟩
    case live => exact (toNat_byte (liveOfStream_lt _ _)).trans (liveOfStream_eq _ _)
  · cases fit : operandsFit .streamRead p.operands with
    | false => exact exec_badOperands passes fit
    | true => exact exec_replies passes fit (runStreamRead_streamAboveRange (operandBelow_eq_none above))

end Sys2Proof.Machine

/-! The outstanding table (04): what an answer to a request tag, the expiry of a LIVE entry and the end of a quarantine come to,
each as one update of the gate, and the statements about them. -/

namespace Sys2Proof.Machine

section outstanding
variable {g : Gate} {t : RequestTag} {e : LiveEntry} {a : Answer} {c : ContextNo}

/-! ### The answer and the counting of a LIVE entry (R77, R81, R82) -/

theorem answerEntry_eq (g : Gate) (e : LiveEntry) (status : AnswerStatus) (payload : List Byte) :
    g.answerEntry e status payload =
      match e.orphan, e.slot with
      | false, some k => g.withAnswer e.stream k e.tag status payload
      | _, _ => g := by
  cases orphan : e.orphan with
  | true => simp [Gate.answerEntry, orphan]
  | false =>
    cases slot : e.slot with
    | none => simp [Gate.answerEntry, orphan, slot, Gate.placeAnswerIn]
    | some k => simp [Gate.answerEntry, orphan, slot, Gate.placeAnswerIn, placeAnswer_eq]

theorem contexts_answerEntry (e : LiveEntry) (status : AnswerStatus) (payload : List Byte) :
    (g.answerEntry e status payload).contexts = g.contexts := by
  rw [answerEntry_eq]
  split <;> rfl

/-- R18: counting an entry in the context that it departed under, where its answer has left the contexts as they were. -/
theorem countEntry_eq {answered : Gate} (same : answered.contexts = g.contexts) (f : ContextCounters → ContextCounters) :
    answered.countEntry e f =
      match e.binding with
      | .direct => answered
      | .mapped c _ =>
        { answered with
          contexts := g.contexts.set c.val { g.context c with counters := f (g.context c).counters } } := by
  cases binding : e.binding with
  | direct => simp [Gate.countEntry, binding]
  | mapped c epoch => simp [Gate.countEntry, binding, Gate.count, Gate.modContext, Gate.context, same]

theorem reportLeft_eq : g.reportLeft e = match e.binding with | .direct => g | .mapped c _ => g.judgeDrain c := rfl

/-! ### Which answers the outstanding table takes, and for which entry (R80, R84, R85) -/

theorem takeAnswer_elsewhere (elsewhere : a.destination ≠ g.gateId) : g.takeAnswer a = g.countStray := by
  simp [Gate.takeAnswer, elsewhere]

theorem takeAnswer_requestTag (here : a.destination = g.gateId) (tag : a.tag = BitVec.ofNat 8 t.val) :
    g.takeAnswer a = g.takeEntryAnswer t a := by
  have number : a.tag.toNat = t.val := by rw [tag, BitVec.toNat_ofNat]; omega
  simp [Gate.takeAnswer, here, number]

theorem takeEntryAnswer_free (free : g.entry t = .free) : g.takeEntryAnswer t a = g.countStray := by
  rw [Gate.takeEntryAnswer, free]

theorem takeEntryAnswer_late {k : Exponent} (late : g.entry t = .late k) :
    g.takeEntryAnswer t a = (g.setEntry t .free).countLate := by
  rw [Gate.takeEntryAnswer, late]

theorem Answer.fits_iff :
    a.fits e = true ↔ a.payload.length = if a.status = .done ∧ e.kind = .fetch then e.length else 0 :=
  beq_iff_eq

theorem takeEntryAnswer_misfit (live : g.entry t = .live e) (misfit : ¬ a.fits e = true) :
    g.takeEntryAnswer t a = g.countTrunkMalformed := by
  simp [Gate.takeEntryAnswer, live, misfit]

theorem takeEntryAnswer_fits (live : g.entry t = .live e) (fits : a.fits e = true) :
    g.takeEntryAnswer t a = g.settleEntry t e a := by
  simp [Gate.takeEntryAnswer, live, fits]

/-! ### Expiry and quarantine (R82, R84) -/

theorem exponent_answerEntry (e : LiveEntry) (status : AnswerStatus) (payload : List Byte) :
    (g.answerEntry e status payload).exponent = g.exponent := by
  rw [answerEntry_eq]
  split <;> rfl

theorem exponent_countEntry (e : LiveEntry) (f : ContextCounters → ContextCounters) :
    (g.countEntry e f).exponent = g.exponent := by
  rw [countEntry_eq rfl]
  split <;> rfl

/-- R82: the steps before the entry becomes LATE leave the table and the exponent in force as they were. -/
theorem expireEntry_eq :
    g.expireEntry t e =
      Gate.reportLeft
        { ((g.answerEntry e .timeout []).countEntry e
              fun k => { k with answerTimeouts := k.answerTimeouts + 1 }).offerFault (e.fault .answerTimeout) with
          entries := g.entries.set t.val (.late g.exponent) } e := by
  simp only [Gate.expireEntry, Gate.setEntry, Gate.offerFault_entries, Gate.offerFault_exponent, entries_countEntry,
    exponent_countEntry, entries_answerEntry, exponent_answerEntry]

theorem exec_entryExpiry_live {s : State} (live : s.gate.entry t = .live e) :
    exec (.entryExpiry t) s = .next (s.withGate (s.gate.expireEntry t e)) := by
  change execEntryExpiry t s = _
  rw [execEntryExpiry, State.act_eq, live]

theorem exec_quarantineEnd_late {s : State} {k : Exponent} (late : s.gate.entry t = .late k) :
    exec (.quarantineEnd t) s = .next (s.withGate (s.gate.setEntry t .free)) := by
  change execQuarantineEnd t s = _
  rw [execQuarantineEnd, State.act_eq, late]

/-! ### The judging of a drain (R10, R92) -/

theorem judgeRetire_of_noRetire (noRetire : ∀ tag node, (g.context c).pending ≠ some ⟨.retire, tag, node⟩) :
    g.judgeRetire c = g := by
  unfold Gate.judgeRetire
  split
  case h_1 tag node retire => exact absurd retire (noRetire tag node)
  case h_2 => rfl

theorem judgeInvalidate_of_noInvalidate
    (noInvalidate : ∀ first count tag node, (g.context c).pending ≠ some ⟨.invalidate first count, tag, node⟩) :
    g.judgeInvalidate c = g := by
  unfold Gate.judgeInvalidate
  split
  case h_1 first count tag node invalidate => exact absurd invalidate (noInvalidate first count tag node)
  case h_2 => rfl

theorem pending_clearPending (g : Gate) (c : ContextNo) : ((g.clearPending c).context c).pending = none := by
  change ((g.modContext c fun x => { x with pending := none }).context c).pending = none
  rw [Gate.context_modContext, if_pos rfl]

/-- A retire that completes leaves nothing pending for its context (R10). -/
theorem pending_completeRetire (c : ContextNo) (tag node : Byte) :
    ((g.completeRetire c tag node).context c).pending = none :=
  pending_clearPending _ c

/-- A retire that is pending stays so or completes. -/
theorem pending_judgeRetire {tag node : Byte} (retire : (g.context c).pending = some ⟨.retire, tag, node⟩) :
    ((g.judgeRetire c).context c).pending = some ⟨.retire, tag, node⟩ ∨ ((g.judgeRetire c).context c).pending = none := by
  simp only [Gate.judgeRetire, retire]
  split
  · exact .inr (pending_completeRetire c tag node)
  · exact .inl retire

/-- The two judgings one after the other are that of the command that is pending: a context has one at most (R4). -/
theorem judgeRetire_judgeInvalidate (g : Gate) (c : ContextNo) : (g.judgeRetire c).judgeInvalidate c = g.judgeDrain c := by
  unfold Gate.judgeDrain
  split
  case h_1 tag node retire =>
    refine judgeInvalidate_of_noInvalidate fun first count tag' node' invalidate => ?_
    rcases pending_judgeRetire retire with pending | pending <;> simp [pending] at invalidate
  case h_2 first count tag node invalidate =>
    rw [judgeRetire_of_noRetire (by simp [invalidate])]
  case h_3 idle =>
    rw [judgeRetire_of_noRetire (by simp [idle]), judgeInvalidate_of_noInvalidate (by simp [idle])]

end outstanding

/-! ### The statements -/

/-- Settles O52: destination, tag and entry decide what becomes of the answer; a fitting one to a LIVE entry takes the three
steps of `Gate.settleEntry`, each named as the statement names it. -/
theorem answersToRequestTags : Obligations.AnswersToRequestTags := by
  unfold Obligations.AnswersToRequestTags
  refine ⟨fun g a => ?_, fun s c => ⟨s.gate.judgeRetire c, exec_retireComplete s c, ?_⟩⟩
  · intro m stray
    refine ⟨takeAnswer_elsewhere, fun t here tag => ?_⟩
    rw [takeAnswer_requestTag here tag]
    intro freed
    refine ⟨takeEntryAnswer_free, fun k => takeEntryAnswer_late, fun e live => ?_⟩
    intro size answered counted context noted
    refine ⟨fun misfit => takeEntryAnswer_misfit live (mt Answer.fits_iff.mp misfit), fun fits => ?_⟩
    rw [takeEntryAnswer_fits live (Answer.fits_iff.mpr fits)]
    have isAnswered : freed.answerEntry e a.status a.payload = answered := answerEntry_eq ..
    have same : answered.contexts = g.contexts := isAnswered ▸ contexts_answerEntry e _ _
    have isCounted : answered.countEntry e (fun k => { k with corruptAnswers := k.corruptAnswers + 1 }) = counted :=
      countEntry_eq same _
    have isNoted : answered.noteCorrupt e a.status = noted := by
      rw [Gate.noteCorrupt, isCounted]
      rfl
    calc g.settleEntry t e a = ((freed.answerEntry e a.status a.payload).noteCorrupt e a.status).reportLeft e := rfl
      _ = noted.reportLeft e := by rw [isAnswered, isNoted]
      _ = _ := reportLeft_eq
  · rw [exec_invalidateComplete, State.withGate_gate, judgeRetire_judgeInvalidate]
    rfl

/-- Settles O54: the steps of R82 one by one, each named as the statement names it. -/
theorem entryExpiryAndQuarantine : Obligations.EntryExpiryAndQuarantine := by
  unfold Obligations.EntryExpiryAndQuarantine
  intro s t g
  refine ⟨fun e live => ?_, fun k => exec_quarantineEnd_late⟩
  intro answered counted context told late
  have isAnswered : g.answerEntry e .timeout [] = answered := answerEntry_eq ..
  have same : answered.contexts = g.contexts := isAnswered ▸ contexts_answerEntry e _ _
  have isCounted : answered.countEntry e (fun k => { k with answerTimeouts := k.answerTimeouts + 1 }) = counted :=
    countEntry_eq same _
  have isLate : g.expireEntry t e = late.reportLeft e := by
    rw [expireEntry_eq, isAnswered, isCounted]
    rfl
  rw [exec_entryExpiry_live live, isLate]
  rfl

end Sys2Proof.Machine

/-! INVALIDATE (05): its checks in the order of R88, what it does to a READY and to an ACTIVE context, its drain, and the
statements about it. -/

namespace Sys2Proof.Machine

section invalidate
variable {g : Gate} {p : ControlPacket} {c : ContextNo} {first count : Nat}

/-! ### The operand block (10.3) -/

section block
variable {b : Byte} {firstBytes countBytes : List Byte}

theorem operandsFit_invalidate (firstFour : firstBytes.length = 4) (countFour : countBytes.length = 4) :
    operandsFit .invalidate ([b, 0, 0, 0] ++ firstBytes ++ countBytes) = true := by
  simp [operandsFit, operandLength, reservedOffsets, operandField_one, firstFour, countFour]

theorem invalidate_first (firstFour : firstBytes.length = 4) :
    operandField ([b, 0, 0, 0] ++ firstBytes ++ countBytes) 4 4 = natOfBytes firstBytes := by
  have field := operandField_at [b, 0, 0, 0] firstBytes countBytes
  rwa [firstFour] at field

theorem invalidate_count (firstFour : firstBytes.length = 4) (countFour : countBytes.length = 4) :
    operandField ([b, 0, 0, 0] ++ firstBytes ++ countBytes) 8 4 = natOfBytes countBytes := by
  have field := operandField_at ([b, 0, 0, 0] ++ firstBytes) countBytes []
  rwa [List.append_nil, List.length_append, firstFour, countFour] at field

end block

/-! ### The checks (R88) -/

/-- The range of an INVALIDATE is not empty and lies in the context's map (R88). -/
def Context.HasRange (x : Context) (first count : Nat) : Prop :=
  1 ≤ count ∧ count ≤ 1048576 ∧ first + count ≤ x.mapLength

theorem Context.not_hasRange_iff {x : Context} :
    ¬ x.HasRange first count ↔ count < 1 ∨ Config.maxMapLength < count ∨ x.mapLength < first + count := by
  simp only [HasRange, Config.maxMapLength]
  omega

theorem runInvalidate_closed (number : operandBelow 16 p.operands 0 = some c)
    (closed : (g.context c).state = .free ∨ (g.context c).state = .draining) : g.runInvalidate p = g.refuse p .state := by
  rcases closed with free | draining
  · simp [Gate.runInvalidate, number, free]
  · simp [Gate.runInvalidate, number, draining]

theorem runInvalidate_busy (number : operandBelow 16 p.operands 0 = some c) (active : (g.context c).state = .active)
    (busy : (g.context c).pending.isSome) : g.runInvalidate p = g.refuse p .conflict := by
  simp [Gate.runInvalidate, number, active, busy]

/-- Past the checks of state and pending command, the range decides. -/
theorem runInvalidate_open (number : operandBelow 16 p.operands 0 = some c)
    (isOpen : (g.context c).state = .ready ∨ (g.context c).state = .active) (idle : (g.context c).pending = none)
    (isFirst : operandField p.operands 4 4 = first) (isCount : operandField p.operands 8 4 = count) :
    g.runInvalidate p =
      if count < 1 ∨ Config.maxMapLength < count ∨ (g.context c).mapLength < first + count then g.refuse p .badArgument
      else if (g.context c).state = .ready then g.invalidateReady c p
      else g.invalidateActive c first count p := by
  subst isFirst isCount
  rcases isOpen with ready | active
  · simp [Gate.runInvalidate, number, ready, idle]
  · simp [Gate.runInvalidate, number, active, idle]

theorem runInvalidate_outOfRange (number : operandBelow 16 p.operands 0 = some c)
    (isOpen : (g.context c).state = .ready ∨ (g.context c).state = .active) (idle : (g.context c).pending = none)
    (isFirst : operandField p.operands 4 4 = first) (isCount : operandField p.operands 8 4 = count)
    (outside : ¬ (g.context c).HasRange first count) : g.runInvalidate p = g.refuse p .badArgument := by
  rw [runInvalidate_open number isOpen idle isFirst isCount, if_pos (Context.not_hasRange_iff.mp outside)]

theorem runInvalidate_ready (number : operandBelow 16 p.operands 0 = some c) (ready : (g.context c).state = .ready)
    (idle : (g.context c).pending = none) (isFirst : operandField p.operands 4 4 = first)
    (isCount : operandField p.operands 8 4 = count) (inside : (g.context c).HasRange first count) :
    g.runInvalidate p = g.invalidateReady c p := by
  rw [runInvalidate_open number (.inl ready) idle isFirst isCount,
    if_neg (fun outside => Context.not_hasRange_iff.mpr outside inside), if_pos ready]

theorem runInvalidate_active (number : operandBelow 16 p.operands 0 = some c) (active : (g.context c).state = .active)
    (idle : (g.context c).pending = none) (isFirst : operandField p.operands 4 4 = first)
    (isCount : operandField p.operands 8 4 = count) (inside : (g.context c).HasRange first count) :
    g.runInvalidate p = g.invalidateActive c first count p := by
  rw [runInvalidate_open number (.inr active) idle isFirst isCount,
    if_neg (fun outside => Context.not_hasRange_iff.mpr outside inside), if_neg (by simp [active])]

/-! ### Of a READY context (R89) -/

/-- The epoch of the context's record, and nothing else. -/
theorem raiseEpoch_eq (g : Gate) (c : ContextNo) :
    g.raiseEpoch c =
      { g with contexts := g.contexts.set c.val { g.context c with epoch := (g.context c).epoch + 1 } } := rfl

theorem epoch_raiseEpoch (g : Gate) (c : ContextNo) : ((g.raiseEpoch c).context c).epoch = (g.context c).epoch + 1 := by
  rw [context_raiseEpoch, if_pos rfl]

theorem invalidateReady_eq :
    g.invalidateReady c p = (g.raiseEpoch c).reply p .done (invalidateResults c ((g.context c).epoch + 1)) := by
  rw [← epoch_raiseEpoch]
  rfl

/-! ### The drain (R91) -/

theorem mem_filterMap_toList {α β : Type} {n : Nat} {v : Vector α n} {f : α → Option β} {b : β} :
    b ∈ v.toList.filterMap f ↔ ∃ i : Fin n, f v[i.val] = some b := by
  simp [List.mem_filterMap, Vector.mem_iff_getElem, Fin.exists_iff]

theorem mem_liveEntries {e : LiveEntry} : e ∈ g.liveEntries ↔ ∃ t, g.entry t = .live e := by
  rw [Gate.liveEntries, mem_filterMap_toList]
  refine exists_congr fun t => ?_
  rw [Gate.entry]
  cases g.entries[t.val] <;> simp

theorem mem_walksUnderWay {w : Walk} : w ∈ g.walksUnderWay ↔ ∃ i, g.walk i = .walking w := by
  rw [Gate.walksUnderWay, mem_filterMap_toList]
  refine exists_congr fun i => ?_
  rw [Gate.walk]
  cases g.walks[i.val] <;> simp

theorem LiveEntry.ofEpoch_iff {e : LiveEntry} {epoch : Word16} : e.ofEpoch c epoch = true ↔ e.binding = .mapped c epoch := by
  unfold ofEpoch
  cases e.binding <;> simp

/-- An entry is LIVE under the context, or a walk under way for it, at this epoch (R91). -/
def Gate.HeldAt (g : Gate) (c : ContextNo) (epoch : Word16) : Prop :=
  (∃ t e, g.entry t = .live e ∧ e.binding = .mapped c epoch) ∨
    (∃ i w, g.walk i = .walking w ∧ w.context = c ∧ w.epoch = epoch)

theorem invalidateDrained_iff : g.invalidateDrained c = true ↔ ¬ g.HeldAt c ((g.context c).epoch - 1) := by
  rw [Gate.invalidateDrained, Gate.HeldAt, not_or, Bool.and_eq_true]
  refine and_congr ?entries ?walks
  case entries =>
    simp only [List.all_eq_true, mem_liveEntries, Bool.not_eq_true', ← Bool.not_eq_true, LiveEntry.ofEpoch_iff]
    exact ⟨fun free ⟨t, e, live, bound⟩ => free e ⟨t, live⟩ bound, fun free e ⟨t, live⟩ bound => free ⟨t, e, live, bound⟩⟩
  case walks =>
    simp only [List.all_eq_true, mem_walksUnderWay, Bool.not_eq_true', ← Bool.not_eq_true, Bool.and_eq_true, beq_iff_eq]
    exact ⟨fun free ⟨i, w, walking, old⟩ => free w ⟨i, walking⟩ old, fun free w ⟨i, walking⟩ old => free ⟨i, w, walking, old⟩⟩

/-! ### Of an ACTIVE context (R26, R90, R92) -/

/-- The gate past the removal of a range and the raise of the epoch, before the drain is judged (R90). -/
def Gate.invalidated (g : Gate) (c : ContextNo) (first count : Nat) : Gate :=
  (g.removeCached c fun page => first ≤ page && page < first + count).raiseEpoch c

/-- Two fields change: the cache by the range (R26), and the epoch of the context (R90). -/
theorem invalidated_eq :
    g.invalidated c first count =
      { g with
        cache := g.cache.filter fun e => !decide (e.context = c ∧ first ≤ e.page ∧ e.page < first + count)
        contexts := g.contexts.set c.val { g.context c with epoch := (g.context c).epoch + 1 } } := by
  have inRange : (fun e : CacheEntry => !(e.context == c && (decide (first ≤ e.page) && decide (e.page < first + count)))) =
      fun e => !decide (e.context = c ∧ first ≤ e.page ∧ e.page < first + count) :=
    funext fun e => by simp only [Bool.decide_and, beq_eq_decide]
  rw [Gate.invalidated, raiseEpoch_eq, Gate.removeCached, inRange]
  rfl

theorem context_invalidated :
    (g.invalidated c first count).context c = { g.context c with epoch := (g.context c).epoch + 1 } := by
  rw [Gate.invalidated, context_raiseEpoch, if_pos rfl]
  rfl

/-- The old epoch of the drain is the one before the increment; the entries and walks are as they were (R91). -/
theorem invalidateDrained_invalidated :
    (g.invalidated c first count).invalidateDrained c = true ↔ ¬ g.HeldAt c (g.context c).epoch := by
  rw [invalidateDrained_iff, context_invalidated, add_sub_cancel_right]
  rfl

theorem invalidateActive_held (held : g.HeldAt c (g.context c).epoch) :
    g.invalidateActive c first count p =
      (g.invalidated c first count).setPending c (.invalidate first count) p.tag p.source :=
  if_neg fun drained => invalidateDrained_invalidated.mp drained held

theorem invalidateActive_drained (drained : ¬ g.HeldAt c (g.context c).epoch) :
    g.invalidateActive c first count p = (g.invalidated c first count).completeInvalidate c p.tag p.source :=
  if_pos (invalidateDrained_invalidated.mpr drained)

/-- R90: the command is recorded with its range, in the record of the context and at the tail of the pending list. -/
theorem setPending_invalidated {command : LongCommand} {tag node : Byte} :
    (g.invalidated c first count).setPending c command tag node =
      { g with
        cache := g.cache.filter fun e => !decide (e.context = c ∧ first ≤ e.page ∧ e.page < first + count)
        contexts := g.contexts.set c.val
          { g.context c with epoch := (g.context c).epoch + 1, pending := some ⟨command, tag, node⟩ }
        management :=
          { g.management with pendingList := g.management.pendingList ++ [⟨command, c, tag, node⟩] } } := by
  rw [Gate.setPending, Gate.modContext, context_invalidated, invalidated_eq]
  simp [Gate.modManagement]

/-- Clearing changes nothing where no long command of the context is recorded. -/
theorem clearPending_idle (idle : (g.context c).pending = none)
    (unlisted : ∀ e ∈ g.management.pendingList, e.context ≠ c) : g.clearPending c = g := by
  have record : { g.context c with pending := none } = g.context c := by rw [← idle]
  have list : g.management.pendingList.filter (fun e => e.context != c) = g.management.pendingList :=
    List.filter_eq_self.mpr fun e listed => bne_iff_ne.mpr (unlisted e listed)
  have same : g.contexts.set c.val (g.context c) = g.contexts := Vector.set_getElem_self c.isLt
  rw [Gate.clearPending, Gate.modContext, record, same, Gate.modManagement, list]

/-- R90, R92: a command that completes when taken has not been recorded, so that the reply is all that is left to do. -/
theorem completeInvalidate_invalidated (idle : (g.context c).pending = none)
    (unlisted : ∀ e ∈ g.management.pendingList, e.context ≠ c) (code : p.code = commandCode .invalidate) :
    (g.invalidated c first count).completeInvalidate c p.tag p.source =
      (g.invalidated c first count).reply p .done (invalidateResults c ((g.context c).epoch + 1)) := by
  have idle' : ((g.invalidated c first count).context c).pending = none := by rw [context_invalidated]; exact idle
  rw [Gate.completeInvalidate, clearPending_idle idle' unlisted, context_invalidated, ← code]
  rfl

end invalidate

/-! ### The statements -/

/-- Settles O33: the checks of R88 in their order, then the epoch and the reply of R89. -/
theorem invalidateReadyOrRefused : Obligations.InvalidateReadyOrRefused := by
  unfold Obligations.InvalidateReadyOrRefused
  intro s p rest c first count passes firstFour countFour block x inside
  have fit : operandsFit .invalidate p.operands = true := by rw [block]; exact operandsFit_invalidate firstFour countFour
  have number : operandBelow 16 p.operands 0 = some c := operandBelow_ofNat (by decide) (by rw [block]; rfl)
  have isFirst : operandField p.operands 4 4 = natOfBytes first := by rw [block]; exact invalidate_first firstFour
  have isCount : operandField p.operands 8 4 = natOfBytes count := by rw [block]; exact invalidate_count firstFour countFour
  refine ⟨fun ready idle isInside => ?_, fun closed => ?_, fun active busy => ?_, fun isOpen idle outside => ?_⟩
  · have raises := runInvalidate_ready (g := s.gate.taken rest) number ready idle isFirst isCount isInside
    exact exec_replies passes fit (raises.trans invalidateReady_eq)
  · exact exec_replies passes fit (runInvalidate_closed number closed)
  · exact exec_replies passes fit (runInvalidate_busy number active busy)
  · exact exec_replies passes fit (runInvalidate_outOfRange number isOpen idle isFirst isCount outside)

/-- Settles O34: `Gate.HeldAt` the epoch before the increment decides between recording the command and completing it. -/
theorem invalidateActiveDrainsOrCompletes : Obligations.InvalidateActiveDrainsOrCompletes := by
  unfold Obligations.InvalidateActiveDrainsOrCompletes
  intro s p rest c first count passes firstFour countFour block active idle unlisted nonempty bounded inMap x cache held
  have fit : operandsFit .invalidate p.operands = true := by rw [block]; exact operandsFit_invalidate firstFour countFour
  have number : operandBelow 16 p.operands 0 = some c := operandBelow_ofNat (by decide) (by rw [block]; rfl)
  have isFirst : operandField p.operands 4 4 = natOfBytes first := by rw [block]; exact invalidate_first firstFour
  have isCount : operandField p.operands 8 4 = natOfBytes count := by rw [block]; exact invalidate_count firstFour countFour
  have ran := runInvalidate_active (g := s.gate.taken rest) number active idle isFirst isCount ⟨nonempty, bounded, inMap⟩
  refine ⟨fun isHeld => ?_, fun isDrained => ?_⟩
  · have recorded := (ran.trans (invalidateActive_held isHeld)).trans setPending_invalidated
    exact (exec_passes passes fit).trans (congrArg (fun g => Host.Outcome.next (s.withGate g)) recorded)
  · have completed := (ran.trans (invalidateActive_drained isDrained)).trans
      (completeInvalidate_invalidated idle unlisted passes.takes.code)
    rw [invalidated_eq] at completed
    exact exec_replies passes fit completed

end Sys2Proof.Machine

/-! The fault log (06): what becomes of an offered fault, the operand of FAULTS-POLICY and the records of FAULTS-TAKE, and the
statements about them. -/

namespace Sys2Proof.Machine

/-! ### Merging into the newest record (R108) -/

section log
variable {l : FaultLog} {f : FaultReport} {before : List FaultRecord} {r : FaultRecord}

theorem FaultLog.merges_iff :
    l.merges f = true ↔ ∃ before r, l.records = before ++ [r] ∧ r.fault = f ∧ r.repeats < 255 := by
  unfold FaultLog.merges
  split
  case h_1 empty => simp [List.getLast?_eq_none_iff.mp empty]
  case h_2 r newest =>
    rw [Bool.and_eq_true, beq_iff_eq, decide_eq_true_iff]
    refine ⟨fun ⟨same, below⟩ => ?_, fun ⟨before, r', ends, same, below⟩ => ?_⟩
    · obtain ⟨before, ends⟩ := List.getLast?_eq_some_iff.mp newest
      exact ⟨before, r, ends, same, below⟩
    · obtain rfl : r' = r := by simpa [ends] using newest
      exact ⟨same, below⟩

theorem FaultLog.merge_append (ends : l.records = before ++ [r]) :
    l.merge = { l with records := before ++ [{ r with repeats := r.repeats + 1 }] } := by
  simp [FaultLog.merge, ends]

end log

/-! ### A fault that the log is to keep (R108 to R110) -/

section offer
variable {g : Gate} {f : FaultReport}

theorem Gate.oweFaults_eq :
    g.oweFaults =
      { g with
        management := { g.management with faultsOwed := g.management.faultsOwed || g.management.manager.isSome } } := by
  unfold Gate.oweFaults
  cases g.management.manager.isSome <;> simp [Gate.modManagement]

theorem keepFault_merges (merges : g.log.merges f = true) : g.keepFault f = { g with log := g.log.merge } :=
  if_pos merges

/-- R109, R112: a fault joins; only where the latch was clear does the log ask for a FAULTS notice. -/
theorem keepFault_joins (fresh : ¬ g.log.merges f = true) (room : g.log.records.length < 32) :
    g.keepFault f =
      { g with
        log := g.log.join f
        management :=
          { g.management with
            faultsOwed := g.management.faultsOwed || (!g.log.latch && g.management.manager.isSome) } } := by
  have place : g.log.records.length < Config.logRecords := room
  rw [Gate.keepFault, if_neg fresh, if_pos place]
  cases g.log.latch with
  | true => simp
  | false => exact Gate.oweFaults_eq

theorem keepFault_lost (fresh : ¬ g.log.merges f = true) (full : 32 ≤ g.log.records.length) :
    g.keepFault f =
      { g with
        log := g.log.lose
        management :=
          { g.management with
            counters := { g.management.counters with lostFaults := g.management.counters.lostFaults + 1 } } } := by
  have noPlace : ¬ g.log.records.length < Config.logRecords := Nat.not_lt.mpr full
  rw [Gate.keepFault, if_neg fresh, if_neg noPlace]
  rfl

/-- R108 to R110: keeping a fault changes the log and the management unit alone. -/
theorem keepFault_frame (g : Gate) (f : FaultReport) :
    ∃ log management, g.keepFault f = { g with log := log, management := management } := by
  by_cases merges : g.log.merges f = true
  · exact ⟨_, _, keepFault_merges merges⟩
  · rcases Nat.lt_or_ge g.log.records.length 32 with room | full
    · exact ⟨_, _, keepFault_joins merges room⟩
    · exact ⟨_, _, keepFault_lost merges full⟩

/-! ### Counting an attached fault, and silencing (R18, R105) -/

/-- The fault is kept from the log: an attached one by its context's report flag, an unattached one by the policy (R105). -/
def Gate.Silences (g : Gate) (f : FaultReport) : Prop :=
  match f.context with
  | some c => (g.context c).report = false
  | none => g.log.policy = false

/-- The gate with an attached fault counted in its context, as recorded or as silenced (R18). -/
def Gate.countFault (g : Gate) (f : FaultReport) : Gate :=
  match f.context with
  | none => g
  | some c =>
    g.count c fun k =>
      if (g.context c).report then { k with faultsRecorded := k.faultsRecorded + 1 }
      else { k with faultsSilenced := k.faultsSilenced + 1 }

theorem countFault_unattached (unattached : f.context = none) : g.countFault f = g := by
  rw [Gate.countFault, unattached]

theorem countFault_attached {c : ContextNo} (attached : f.context = some c) :
    g.countFault f =
      g.count c fun k =>
        if (g.context c).report then { k with faultsRecorded := k.faultsRecorded + 1 }
        else { k with faultsSilenced := k.faultsSilenced + 1 } := by
  rw [Gate.countFault, attached]

/-- Counting a fault changes the contexts alone. -/
theorem countFault_frame (g : Gate) (f : FaultReport) : g.countFault f = { g with contexts := (g.countFault f).contexts } := by
  unfold Gate.countFault
  cases f.context <;> rfl

@[simp] theorem Gate.countFault_log : (g.countFault f).log = g.log := by rw [countFault_frame]

@[simp] theorem Gate.countFault_management : (g.countFault f).management = g.management := by rw [countFault_frame]

theorem offerFault_silenced (silenced : g.Silences f) : g.offerFault f = g.countFault f := by
  unfold Gate.Silences at silenced
  cases context : f.context with
  | none =>
    simp only [context] at silenced
    simp [Gate.offerFault, context, silenced, countFault_unattached context]
  | some c =>
    simp only [context] at silenced
    simp [Gate.offerFault, context, silenced, countFault_attached context]

theorem offerFault_kept (kept : ¬ g.Silences f) : g.offerFault f = (g.countFault f).keepFault f := by
  unfold Gate.Silences at kept
  cases context : f.context with
  | none =>
    simp only [context, Bool.not_eq_false] at kept
    simp [Gate.offerFault, context, kept, countFault_unattached context]
  | some c =>
    simp only [context, Bool.not_eq_false] at kept
    simp [Gate.offerFault, context, kept, countFault_attached context]

/-- R105: whether it is kept or silenced, a fault changes the contexts by its count alone. -/
theorem contexts_offerFault (g : Gate) (f : FaultReport) : (g.offerFault f).contexts = (g.countFault f).contexts := by
  by_cases silenced : g.Silences f
  · rw [offerFault_silenced silenced]
  · rw [offerFault_kept silenced, Gate.keepFault_contexts]

theorem offerFault_frame (g : Gate) (f : FaultReport) :
    ∃ contexts log management,
      g.offerFault f = { g with contexts := contexts, log := log, management := management } := by
  by_cases silenced : g.Silences f
  · exact ⟨_, g.log, g.management, (offerFault_silenced silenced).trans (countFault_frame g f)⟩
  · obtain ⟨log, management, keeps⟩ := keepFault_frame (g.countFault f) f
    exact ⟨_, log, management, by rw [offerFault_kept silenced, keeps, countFault_frame]⟩

end offer

/-- Settles O27: `Gate.Silences` and `FaultLog.merges` decide between the outcomes, each given by the lemma of its case of
`Gate.keepFault`. -/
theorem offeredFaultOutcomes : Obligations.OfferedFaultOutcomes := by
  unfold Obligations.OfferedFaultOutcomes
  intro g f silenced merges
  have counted_merges : (g.countFault f).log.merges f = true ↔ merges := by
    rw [Gate.countFault_log]; exact FaultLog.merges_iff
  refine ⟨?_, ?_, fun silent => ?_, fun kept before r ends same below => ?_, fun kept fresh room => ?_,
    fun kept fresh full => ?_⟩
  · obtain ⟨contexts, log, management, offers⟩ := offerFault_frame g f
    rw [offers]
  · rw [contexts_offerFault]
    cases context : f.context with
    | none => rw [countFault_unattached context]
    | some c => rw [countFault_attached context]; rfl
  · rw [offerFault_silenced silent]
    exact ⟨Gate.countFault_log, Gate.countFault_management⟩
  · rw [offerFault_kept kept, keepFault_merges (counted_merges.mpr ⟨before, r, ends, same, below⟩), Gate.countFault_log]
    exact ⟨FaultLog.merge_append ends, Gate.countFault_management⟩
  · rw [offerFault_kept kept, keepFault_joins (mt counted_merges.mp fresh) (by rwa [Gate.countFault_log]),
      Gate.countFault_log, Gate.countFault_management]
    exact ⟨rfl, rfl⟩
  · rw [offerFault_kept kept, keepFault_lost (mt counted_merges.mp fresh) (by rwa [Gate.countFault_log]),
      Gate.countFault_log, Gate.countFault_management]
    exact ⟨rfl, rfl⟩

/-! ### FAULTS-TAKE (R113) -/

section take
variable {g : Gate} {p : ControlPacket} {n : Byte}

/-- The result bytes of FAULTS-TAKE: the number removed, the number left, and the records removed (10.3). -/
def FaultLog.takeResults (l : FaultLog) (n : Nat) : List Byte :=
  [BitVec.ofNat 8 (l.records.take n).length, BitVec.ofNat 8 (l.records.drop n).length, 0, 0] ++
    (l.records.take n).flatMap faultRecordBytes

theorem runFaultsTake_takes (operand : p.operands.getD 0 0 = n) (positive : 1 ≤ n.toNat) (bounded : n.toNat ≤ 8) :
    g.runFaultsTake p = (g.takeRecords n.toNat).answerDone p (g.log.takeResults n.toNat) := by
  have inRange : ¬ (n.toNat < 1 ∨ Config.maxTake < n.toNat) := by unfold Config.maxTake; omega
  rw [Gate.runFaultsTake, operandField_one, operand]
  exact if_neg inRange

theorem runFaultsTake_outOfRange (operand : p.operands.getD 0 0 = n) (outside : n = 0 ∨ 8 < n.toNat) :
    g.runFaultsTake p = g.refuse p .badArgument := by
  have refused : n.toNat < 1 ∨ Config.maxTake < n.toNat := outside.imp_left fun zero => by simp [zero]
  rw [Gate.runFaultsTake, operandField_one, operand]
  exact if_pos refused

variable {l : FaultLog} {k : Nat}

/-- The number removed fits its byte because the operand is at most 8. -/
theorem takeResults_removed (bounded : k ≤ 8) : operandField (l.takeResults k) 0 1 = min k l.records.length := by
  have fits : (l.records.take k).length < 256 := by rw [List.length_take]; omega
  exact (operandField_one _ _).trans ((toNat_byte fits).trans List.length_take)

/-- The number left fits its byte because the log holds at most 32 records (R102). -/
theorem takeResults_left (sound : l.Sound) : operandField (l.takeResults k) 1 1 = l.records.length - k := by
  have atMost : l.records.length ≤ 32 := sound.bounded
  have fits : (l.records.drop k).length < 256 := by rw [List.length_drop]; omega
  exact (operandField_one _ _).trans ((toNat_byte fits).trans List.length_drop)

theorem takeResults_reserved : operandField (l.takeResults k) 2 2 = 0 := by
  simp [FaultLog.takeResults, operandField, natOfBytes, List.range_succ]

end take

/-- Settles O25: the operand decides between `takeRecords` and the refusal, and each field of `takeResults` is at its place. -/
theorem faultsTakeOutcomes : Obligations.FaultsTakeOutcomes := by
  unfold Obligations.FaultsTakeOutcomes
  intro s p rest n passes block sound
  have fit : operandsFit .faultsTake p.operands = true := by rw [block]; exact operandsFit_number ⟨rfl, rfl⟩ _
  have operand : p.operands.getD 0 0 = n := by rw [block]; rfl
  refine ⟨fun positive bounded => ?_, fun outside => ?_⟩
  · exact ⟨s.gate.log.takeResults n.toNat, exec_replies passes fit (runFaultsTake_takes operand positive bounded),
      takeResults_removed bounded, takeResults_left sound, takeResults_reserved, rfl⟩
  · exact exec_replies passes fit (runFaultsTake_outOfRange operand outside)

/-! ### FAULTS-POLICY (R107) -/

section policy
variable {g : Gate} {p : ControlPacket} {policy : Bool}

theorem runFaultsPolicy_sets (flag : operandFlag p.operands 0 = some policy) :
    g.runFaultsPolicy p =
      { g with log := { g.log with policy := policy } }.answerDone p [boolByte g.log.policy, 0, 0, 0] := by
  rw [Gate.runFaultsPolicy, flag]

theorem runFaultsPolicy_outOfRange (flag : operandFlag p.operands 0 = none) :
    g.runFaultsPolicy p = g.refuse p .badArgument := by
  rw [Gate.runFaultsPolicy, flag]

end policy

/-- Settles O24: the flag byte of R155 is off, on, or refused. -/
theorem faultsPolicyOutcomes : Obligations.FaultsPolicyOutcomes := by
  unfold Obligations.FaultsPolicyOutcomes
  intro s p rest x passes block before
  have fit : operandsFit .faultsPolicy p.operands = true := by rw [block]; exact operandsFit_number ⟨rfl, rfl⟩ _
  have flag := operandFlag_eq p.operands 0
  rw [show p.operands.getD 0 0 = x by rw [block]; rfl] at flag
  split_ifs with off on
  · subst off
    exact exec_replies passes fit (runFaultsPolicy_sets flag)
  · subst on
    exact exec_replies passes fit (runFaultsPolicy_sets flag)
  · rw [if_neg (not_or.mpr ⟨off, on⟩)] at flag
    exact exec_replies passes fit (runFaultsPolicy_outOfRange flag)

end Sys2Proof.Machine

/-! The commands that write the route windows (07): the operand block of WINDOW-SET, the checks of R117 one by one, and the
statement about WINDOW-SET and WINDOW-CLEAR. -/

namespace Sys2Proof.Machine

/-! ### The operand block of WINDOW-SET (10.3) -/

section block
variable {operands : List Byte} {index kind branch access : Byte} {base last target : List Byte}
  (block : operands = [index, kind, branch, access] ++ base ++ last ++ target ++ [0, 0])
  (baseSix : base.length = 6) (lastSix : last.length = 6) (targetSix : target.length = 6)
include block baseSix

theorem windowSet_base : operandField operands 4 6 = natOfBytes base := by
  have field := operandField_at [index, kind, branch, access] base (last ++ target ++ [0, 0])
  rw [baseSix] at field
  simpa [block] using field

include lastSix

theorem windowSet_last : operandField operands 10 6 = natOfBytes last := by
  have field := operandField_at ([index, kind, branch, access] ++ base) last (target ++ [0, 0])
  rw [List.length_append, baseSix, lastSix] at field
  simpa [block] using field

include targetSix

theorem windowSet_target : operandField operands 16 6 = natOfBytes target := by
  have field := operandField_at ([index, kind, branch, access] ++ base ++ last) target [0, 0]
  rw [List.length_append, List.length_append, baseSix, lastSix, targetSix] at field
  simpa [block] using field

theorem operandsFit_windowSet : operandsFit .windowSet operands = true := by
  simp [block, operandsFit, operandLength, reservedOffsets, operandField_one, baseSix, lastSix, targetSix]

end block

/-! ### The checks of R117 -/

/-- Check 3 of R117. -/
theorem rangeFits_iff {base last : Nat} :
    rangeFits base last = true ↔ base % 65536 = 0 ∧ last % 65536 = 0 ∧ base ≤ last ∧ last + 65536 ≤ 2 ^ 48 := by
  simp only [rangeFits, Bool.and_eq_true, beq_iff_eq, decide_eq_true_eq, and_assoc]
  rfl

/-- Check 4 of R117. -/
theorem targetFits_iff {base last target : Nat} :
    targetFits base last target = true ↔ target % 65536 = 0 ∧ target + (last - base) + 65536 ≤ 2 ^ 48 := by
  simp only [targetFits, Bool.and_eq_true, beq_iff_eq, decide_eq_true_eq]
  rfl

theorem windowAccessOf_code (a : WindowAccess) : windowAccessOf (windowAccessCode a).toNat = some a := by
  cases a <;> rfl

theorem windowAccessOf_eq_none {n : Nat} (above : 1 < n) : windowAccessOf n = none := by
  rw [windowAccessOf, if_neg (by omega), if_neg (by omega)]

section window
variable {operands : List Byte}

/-- R117: for EXCLUDE the target, the branch and the window access are not examined. -/
theorem readWindow_exclude (exclude : operandField operands 1 1 = 0)
    (range : rangeFits (operandField operands 4 6) (operandField operands 10 6) = true) :
    readWindow operands =
      some
        { enabled := true, kind := .exclude, base := BitVec.ofNat 48 (operandField operands 4 6),
          last := BitVec.ofNat 48 (operandField operands 10 6) } := by
  simp [readWindow, exclude, range]

theorem readWindow_forward {b : BranchNo} {a : WindowAccess} (forward : operandField operands 1 1 = 1)
    (range : rangeFits (operandField operands 4 6) (operandField operands 10 6) = true)
    (rebased : targetFits (operandField operands 4 6) (operandField operands 10 6) (operandField operands 16 6) = true)
    (branch : operandBelow 4 operands 2 = some b) (access : windowAccessOf (operandField operands 3 1) = some a) :
    readWindow operands =
      some
        { enabled := true, kind := .forward (BitVec.ofNat 48 (operandField operands 16 6)) b a,
          base := BitVec.ofNat 48 (operandField operands 4 6),
          last := BitVec.ofNat 48 (operandField operands 10 6) } := by
  simp [readWindow, forward, range, rebased, branch, access]

/-- Check 2 of R117. -/
theorem readWindow_undefinedKind (undefined : 1 < operandField operands 1 1) : readWindow operands = none :=
  if_pos (by omega)

theorem readWindow_rangeUnfit (unfit : rangeFits (operandField operands 4 6) (operandField operands 10 6) = false) :
    readWindow operands = none := by
  simp [readWindow, unfit]

theorem readWindow_targetUnfit (forward : operandField operands 1 1 = 1)
    (unfit : targetFits (operandField operands 4 6) (operandField operands 10 6) (operandField operands 16 6) = false) :
    readWindow operands = none := by
  simp [readWindow, forward, unfit]

/-- Check 5 of R117. -/
theorem readWindow_branchOrAccessUndefined (forward : operandField operands 1 1 = 1)
    (undefined : operandBelow 4 operands 2 = none ∨ windowAccessOf (operandField operands 3 1) = none) :
    readWindow operands = none := by
  rcases undefined with noBranch | noAccess
  · simp [readWindow, forward, noBranch]
  · simp [readWindow, forward, noAccess]

end window

/-! ### The two runs (R117, R118) -/

section runs
variable {s : State} {g : Gate} {c : Command} {p : ControlPacket} {rest : List ControlPacket} {i : WindowNo} {w : Window}

theorem runWindowSet_sets (number : operandBelow 8 p.operands 0 = some i) (read : readWindow p.operands = some w) :
    g.runWindowSet p = ((g.setWindow i w).answerDone p []).offerHeldAgain := by
  simp only [Gate.runWindowSet, number, read]

theorem runWindowSet_refused (out : operandBelow 8 p.operands 0 = none ∨ readWindow p.operands = none) :
    g.runWindowSet p = g.refuse p .badArgument := by
  rcases out with noIndex | noWindow
  · simp only [Gate.runWindowSet, noIndex]
  · cases number : operandBelow 8 p.operands 0 <;> simp only [Gate.runWindowSet, number, noWindow]

theorem runWindowClear_disables (number : operandBelow 8 p.operands 0 = some i) :
    g.runWindowClear p = ((g.setWindow i { g.window i with enabled := false }).answerDone p []).offerHeldAgain := by
  simp only [Gate.runWindowClear, number]

theorem runWindowClear_refused (noIndex : operandBelow 8 p.operands 0 = none) :
    g.runWindowClear p = g.refuse p .badArgument := by
  simp only [Gate.runWindowClear, noIndex]

/-- R120: a command whose run sets a window, replies DONE and then offers a held host request again. -/
theorem exec_setsWindow (h : s.gate.Passes c p rest) (fit : operandsFit c p.operands = true)
    (ran : c.run p (s.gate.taken rest) =
      (((s.gate.taken rest).setWindow i w).answerDone p []).offerHeldAgain) :
    exec c.instr s = .next (s.withGate ((s.gate.setWindow i w).replied p rest .done []).offerHeldAgain) := by
  rw [exec_passes h fit, ran]
  rfl

end runs

/-! ### The statement -/

/-- Settles O39: `readWindow` gives the window of R117 or nothing, and a window that is written is offered to a held
request; the refusals reply and end there. -/
theorem windowSetAndClearOutcomes : Obligations.WindowSetAndClearOutcomes := by
  unfold Obligations.WindowSetAndClearOutcomes
  refine ⟨?_, ?_⟩
  · intro s p rest index kind branch access base last target passes baseSix lastSix targetSix block inRange inTarget written
    have fit := operandsFit_windowSet block baseSix lastSix targetSix
    have indexByte : p.operands.getD 0 0 = index := by rw [block]; rfl
    have kindField : operandField p.operands 1 1 = kind.toNat := by rw [operandField_one, block]; rfl
    have branchByte : p.operands.getD 2 0 = branch := by rw [block]; rfl
    have accessField : operandField p.operands 3 1 = access.toNat := by rw [operandField_one, block]; rfl
    have atBase := windowSet_base block baseSix
    have atLast := windowSet_last block baseSix lastSix
    have atTarget := windowSet_target block baseSix lastSix targetSix
    have range_iff : rangeFits (operandField p.operands 4 6) (operandField p.operands 10 6) = true ↔ inRange := by
      rw [atBase, atLast]; exact rangeFits_iff
    have target_iff : targetFits (operandField p.operands 4 6) (operandField p.operands 10 6)
        (operandField p.operands 16 6) = true ↔ inTarget := by
      rw [atBase, atLast, atTarget]; exact targetFits_iff
    refine ⟨fun i isIndex exclude ranged => ?_, fun i b a isIndex forward ranged rebased isBranch isAccess => ?_,
      fun out => ?_⟩
    · have number : operandBelow 8 p.operands 0 = some i := operandBelow_ofNat (by decide) (indexByte.trans isIndex)
      have read := readWindow_exclude (kindField.trans (congrArg BitVec.toNat exclude)) (range_iff.mpr ranged)
      rw [atBase, atLast] at read
      exact exec_setsWindow passes fit (runWindowSet_sets number read)
    · have number : operandBelow 8 p.operands 0 = some i := operandBelow_ofNat (by decide) (indexByte.trans isIndex)
      have hasBranch : operandBelow 4 p.operands 2 = some b := operandBelow_ofNat (by decide) (branchByte.trans isBranch)
      have hasAccess : windowAccessOf (operandField p.operands 3 1) = some a := by
        rw [accessField, isAccess]; exact windowAccessOf_code a
      have read := readWindow_forward (kindField.trans (congrArg BitVec.toNat forward)) (range_iff.mpr ranged)
        (target_iff.mpr rebased) hasBranch hasAccess
      rw [atBase, atLast, atTarget] at read
      exact exec_setsWindow passes fit (runWindowSet_sets number read)
    · refine exec_replies passes fit (runWindowSet_refused ?_)
      rw [← range_iff, ← target_iff, Bool.not_eq_true, Bool.not_eq_true] at out
      obtain above | undefined | unranged | ⟨forward, bad⟩ := out
      · exact .inl (operandBelow_eq_none (indexByte ▸ above))
      · exact .inr (readWindow_undefinedKind (kindField ▸ undefined))
      · exact .inr (readWindow_rangeUnfit unranged)
      · right
        have forward := kindField.trans (congrArg BitVec.toNat forward)
        obtain unrebased | noBranch | noAccess := bad
        · exact readWindow_targetUnfit forward unrebased
        · exact readWindow_branchOrAccessUndefined forward (.inl (operandBelow_eq_none (branchByte ▸ noBranch)))
        · exact readWindow_branchOrAccessUndefined forward (.inr (windowAccessOf_eq_none (accessField ▸ noAccess)))
  · intro s p rest index passes block
    have fit : operandsFit .windowClear p.operands = true := by rw [block]; exact operandsFit_number ⟨rfl, rfl⟩ _
    have indexByte : p.operands.getD 0 0 = index := by rw [block]; rfl
    refine ⟨fun i isIndex => ?_, fun above => ?_⟩
    · have number : operandBelow 8 p.operands 0 = some i := operandBelow_ofNat (by decide) (indexByte.trans isIndex)
      exact exec_setsWindow passes fit (runWindowClear_disables number)
    · exact exec_replies passes fit (runWindowClear_refused (operandBelow_eq_none (indexByte ▸ above)))

end Sys2Proof.Machine

/-! The manager (09): check 3 of R143 decided either way for a packet that is taken, what CLAIM and RELEASE run past the
checks, and the two statements about them. -/

namespace Sys2Proof.Machine

/-! ### Who may issue a command (R143, R144) -/

/-- R145: CLAIM is the command that is open to every node while there is no manager. -/
theorem mayIssue_claim_iff {manager : Option Byte} {source : Byte} :
    mayIssue .claim manager source = true ↔ manager = none ∨ manager = some source := by
  simp [mayIssue, isRead]

/-- R146. -/
theorem mayIssue_release_iff {manager : Option Byte} {source : Byte} :
    mayIssue .release manager source = true ↔ manager = some source := by
  simp [mayIssue, isRead]

section taking
variable {s : State} {c : Command} {p : ControlPacket} {rest : List ControlPacket}

@[simp] theorem Gate.taken_management (g : Gate) (rest : List ControlPacket) : (g.taken rest).management = g.management := rfl

/-- A command that is taken meets checks 3 to 5 of R143. -/
theorem exec_takes (h : s.gate.Takes c p rest) :
    exec c.instr s = .next (s.withGate (Gate.checked c c.run p (s.gate.taken rest))) := by
  rw [exec_command, takeCommand_takes h]

/-- Check 3 of R143: a command from a node that may not issue it is refused, whatever its operands. -/
theorem exec_notManager (h : s.gate.Takes c p rest)
    (mayNot : ¬ mayIssue c s.gate.management.manager p.source = true) :
    exec c.instr s = .next (s.withGate (s.gate.replied p rest .notManager [])) := by
  rw [exec_takes h, Gate.checked]
  simp [mayNot, refuse_eq, Gate.replied]

/-- A command from a node that may issue it, which need not be the manager: its run does `after` to the gate and replies. -/
theorem exec_replies_of_mayIssue {after : Gate} {status : ReplyStatus} {results : List Byte} (h : s.gate.Takes c p rest)
    (may : mayIssue c s.gate.management.manager p.source = true) (room : s.gate.management.pendingList.length < 8)
    (fit : operandsFit c p.operands = true)
    (ran : c.run p (s.gate.taken rest) = (after.taken rest).reply p status results) :
    exec c.instr s = .next (s.withGate (after.replied p rest status results)) := by
  have place : ¬ Config.pendingCommands ≤ s.gate.management.pendingList.length := Nat.not_le.mpr room
  have passed : Gate.checked c c.run p (s.gate.taken rest) = c.run p (s.gate.taken rest) := by
    simp [Gate.checked, may, place, fit]
  rw [exec_takes h, passed, ran]
  rfl

end taking

/-! ### What the two commands run -/

section runs
variable {g : Gate} {p : ControlPacket} {rest : List ControlPacket}

/-- The gate with the node as its manager (R145). -/
def Gate.managedBy (g : Gate) (node : Byte) : Gate :=
  { g with management := { g.management with manager := some node } }

/-- The gate without a manager and without an owed notice (R146). -/
def Gate.unmanaged (g : Gate) : Gate :=
  { g with
    management :=
      { g.management with manager := none, faultsOwed := false, branchOwed := Vector.replicate 4 false } }

theorem runClaim_taken : (g.taken rest).runClaim p = ((g.managedBy p.source).taken rest).reply p .done [] := rfl

theorem runRelease_taken : (g.taken rest).runRelease p = (g.unmanaged.taken rest).reply p .done [] := rfl

/-- R145: a claim by the manager changes nothing. -/
theorem managedBy_manager {node : Byte} (manager : g.management.manager = some node) : g.managedBy node = g := by
  rw [Gate.managedBy, ← manager]

end runs

/-! ### The statements -/

section claim
variable {s : State} {p : ControlPacket} {rest : List ControlPacket}

/-- A claim that check 3 of R143 lets through makes its sender the manager, also where the sender is it already. -/
theorem exec_claim (h : s.gate.Takes .claim p rest) (room : s.gate.management.pendingList.length < 8)
    (block : p.operands = []) (may : s.gate.management.manager = none ∨ s.gate.management.manager = some p.source) :
    exec .claim s = .next (s.withGate ((s.gate.managedBy p.source).replied p rest .done [])) := by
  have fit : operandsFit .claim p.operands = true := by rw [block]; rfl
  exact exec_replies_of_mayIssue h (mayIssue_claim_iff.mpr may) room fit runClaim_taken

end claim

/-- Settles O20: check 3 of R143 admits the claim where there is no manager or the sender is it; in the second case being made
the manager is no change. -/
theorem claimOutcomes : Obligations.ClaimOutcomes := by
  unfold Obligations.ClaimOutcomes
  intro s p rest takes room block
  cases manager : s.gate.management.manager with
  | none => exact exec_claim takes room block (.inl manager)
  | some m =>
    dsimp only
    split_ifs with same
    · rw [same] at manager
      rw [exec_claim takes room block (.inr manager), managedBy_manager manager]
    · refine exec_notManager takes ?_
      rw [mayIssue_claim_iff, manager]
      simp [same]

/-- Settles O21: a RELEASE from the manager passes the shared checks and runs; from any other node check 3 of R143 refuses it. -/
theorem releaseOutcomes : Obligations.ReleaseOutcomes := by
  unfold Obligations.ReleaseOutcomes
  intro s p rest takes room block
  have fit : operandsFit .release p.operands = true := by rw [block]; rfl
  split_ifs with manager
  · exact exec_replies_of_mayIssue takes (mayIssue_release_iff.mpr manager) room fit runRelease_taken
  · exact exec_notManager takes (mt mayIssue_release_iff.mp manager)

end Sys2Proof.Machine

/-! What every step keeps: each invariant of Safety.lean that the single acts keep is kept by a step, which is a sequence of acts;
the heads and the answer slots, which single acts may leave unsound for a moment, are kept by each command as a whole. -/

namespace Sys2Proof.Machine

section steps
variable {s s' : State}

/-- An invariant of the gate that each act keeps is kept by a step. -/
theorem step_keeps (P : Gate → Prop) (act : ∀ {k : Kind} {g g' : Gate}, GateStep k g g' → P g → P g') (start : P s.gate)
    (next : step s = .next s') : P s'.gate :=
  (step_reaches next).keeps P (fun _ _ _ _ st => act st) start

/-- A step idles, or answers what the command at the front of the queue answers. -/
theorem step_eq_next (next : step s = .next s') :
    s' = s ∨ ∃ (c : Instr) (rest : List Instr), s.pending = c :: rest ∧ exec c { s with pending := rest } = .next s' := by
  unfold step at next
  split at next
  case h_1 => exact .inl (Host.Outcome.next.inj next).symm
  case h_2 c rest front => exact .inr ⟨c, rest, front, next⟩

theorem step_keeps_holds (start : s.gate.Holds fun _ => False) (next : step s = .next s') :
    s'.gate.Holds fun _ => False := by
  obtain rfl | ⟨c, rest, -, answers⟩ := step_eq_next next
  · exact start
  · obtain ⟨g', answers', kept⟩ := exec_keeps_holds c { s with pending := rest } start
    obtain rfl := Host.Outcome.next.inj (answers'.symm.trans answers)
    exact kept

end steps

/-! ### The statements -/

/-- Settles O6. -/
theorem faultLogStaysSound : Obligations.FaultLogStaysSound := by
  unfold Obligations.FaultLogStaysSound
  exact fun s s' => step_keeps (fun g => g.log.Sound) GateStep.keeps_log

/-- Settles O7. -/
theorem creditsAreConserved : Obligations.CreditsAreConserved := by
  unfold Obligations.CreditsAreConserved
  exact fun s s' => step_keeps Gate.LinksSound GateStep.keeps_links

/-- Settles O8. -/
theorem completionRepliesKeepTheirPlaces : Obligations.CompletionRepliesKeepTheirPlaces := by
  unfold Obligations.CompletionRepliesKeepTheirPlaces
  exact fun s s' => step_keeps Gate.PlacesSound GateStep.keeps_places

/-- Settles O9. -/
theorem noticesStaySound : Obligations.NoticesStaySound := by
  unfold Obligations.NoticesStaySound
  exact fun s s' => step_keeps Gate.NoticesSound GateStep.keeps_notices

/-- Settles O10. -/
theorem translationTablesStaySound : Obligations.TranslationTablesStaySound := by
  unfold Obligations.TranslationTablesStaySound
  exact fun s s' => step_keeps Gate.TablesSound GateStep.keeps_tables

/-- Settles O11: the sizes by the acts; the heads and slots by the commands, with no head between two waits before or after; the
bounds of the lists by the heads being distinct, of the answers by their slots being distinct. -/
theorem queuesStayBounded : Obligations.QueuesStayBounded := by
  unfold Obligations.QueuesStayBounded
  refine ⟨fun s s' => step_keeps Gate.QueuesBounded GateStep.keeps_queues, fun s s' heads slots next => ?_, fun g => ?_⟩
  · have kept := step_keeps_holds ⟨heads, slots, fun _ => False.elim⟩ next
    exact ⟨kept.heads, kept.slots⟩
  · exact ⟨fun heads => ⟨slotWait_length heads, walkWaiting_length heads, heads.walkWaitingOnce⟩, egressAnswers_length⟩

/-- Settles O1. -/
theorem stepRunsTheFrontCommand : Obligations.StepRunsTheFrontCommand := by
  unfold Obligations.StepRunsTheFrontCommand
  refine ⟨fun c rest s front => ?_, fun s idle => ?_⟩
  · rw [step, front]
  · rw [step, idle]

/-- Settles O2. -/
theorem everyCommandAnswersNext : Obligations.EveryCommandAnswersNext := by
  unfold Obligations.EveryCommandAnswersNext
  intro c s
  obtain ⟨g, answers, -⟩ := exec_reaches c s
  exact ⟨g, answers⟩

end Sys2Proof.Machine

/-! Which commands may change what: what each kind of act leaves alone, which commands perform acts of a kind, and the statements
that the manager, the epochs, the bindings, the configuration and the request entries change only by the commands that may
change them. -/

namespace Sys2Proof.Machine

-- One proof after the other: side by side, the many short proofs of this part hold more threads than a check allows.
set_option Elab.async false

/-! ### What an act leaves alone -/

section acts
variable {k : Kind} {g g' : Gate}

theorem manager_placeNotice (g : Gate) : g.placeNotice.management.manager = g.management.manager := by
  unfold Gate.placeNotice
  repeat' split
  all_goals rfl

/-- R144: an act that is neither a claim, nor a release, nor a reset. -/
theorem GateStep.keeps_manager (st : GateStep k g g') (other : k ∉ [Kind.claim, .reset]) :
    g'.management.manager = g.management.manager := by
  cases st
  case fault f => exact (offerFault_management f).2.2.1
  case oweBranch b => exact (oweBranch_management b).2.2.1
  case notice => exact manager_placeNotice g
  case claim => simp at other
  case release => simp at other
  case powerOn => simp at other
  case trunkReset => simp at other
  all_goals first | rfl | simp

theorem policy_keepFault (f : FaultReport) : (g.keepFault f).log.policy = g.log.policy := by
  unfold Gate.keepFault FaultLog.merge
  dsimp only
  split
  · split <;> rfl
  split
  · split
    · rfl
    · rw [Gate.oweFaults_log]; rfl
  · rfl

theorem policy_offerFault (f : FaultReport) : (g.offerFault f).log.policy = g.log.policy := by
  unfold Gate.offerFault
  repeat' split
  all_goals simp [policy_keepFault]

theorem GateStep.keeps_policy (st : GateStep k g g') (other : k ∉ [Kind.config, .reset]) :
    g'.log.policy = g.log.policy := by
  cases st
  case fault f => exact policy_offerFault f
  case policy => simp at other
  case powerOn => simp at other
  case trunkReset => simp at other
  all_goals first | rfl | simp

theorem GateStep.keeps_exponent (st : GateStep k g g') (other : k ∉ [Kind.config, .reset]) :
    g'.exponent = g.exponent := by
  cases st
  case exponent => simp at other
  case powerOn => simp at other
  case trunkReset => simp at other
  all_goals simp

theorem GateStep.keeps_windows (st : GateStep k g g') (other : k ∉ [Kind.config, .reset]) :
    g'.windows = g.windows := by
  cases st
  case window => simp at other
  case powerOn => simp at other
  case trunkReset => simp at other
  all_goals simp

theorem GateStep.keeps_gateId (st : GateStep k g g') (other : k ≠ .reset) : g'.gateId = g.gateId := by
  cases st
  case powerOn => exact absurd rfl other
  all_goals first | rfl | simp

theorem epoch_completeRetire (c d : ContextNo) (tag node : Byte) :
    ((g.completeRetire c tag node).context d).epoch = (g.context d).epoch := by
  have freed : SameNumbers (g.unbindContext c) ((g.unbindContext c).modContext c fun x => { x with state := .free }) :=
    sameNumbers_modContext fun _ => rfl
  have cleared := sameNumbers_modContext (g := (g.unbindContext c).modContext c fun x => { x with state := .free }) (c := c)
    (f := fun x => { x with pending := none }) fun _ => rfl
  exact (freed.trans cleared).epoch d

/-- R13: an act that is neither of a command on a context record, nor a reset. -/
theorem GateStep.keeps_epoch (st : GateStep k g g') (other : k ∉ [Kind.context, .reset]) (c : ContextNo) :
    (g'.context c).epoch = (g.context c).epoch := by
  cases st
  case fault f => exact ((GateStep.fault g f).sameNumbers (by decide)).epoch c
  case count d f => exact ((GateStep.count g d f).sameNumbers (by decide)).epoch c
  case invalidateJudged pending => exact ((GateStep.invalidateJudged g _ _ _ _ _ pending).sameNumbers (by decide)).epoch c
  case retireNow => exact (epoch_completeRetire ..).trans ((sameNumbers_modContext (by intro; rfl)).epoch c)
  case retireJudged => exact epoch_completeRetire ..
  case setup => simp at other
  case openContext => simp at other
  case raiseEpoch => simp at other
  case freeReady => simp at other
  case pendRetire => simp at other
  case pendInvalidate => simp at other
  case invalidateNow => simp at other
  case powerOn => simp at other
  case trunkReset => simp at other
  all_goals first | rfl | simp [Gate.context]

/-- The stream has the same binding: mode and generation (R45). -/
def SameBinding (g g' : Gate) (x : StreamId) : Prop :=
  (g'.stream x).mode = (g.stream x).mode ∧ (g'.stream x).generation = (g.stream x).generation

theorem sameBinding_modStream {s : StreamId} {f : Stream → Stream}
    (keeps : ∀ y, (f y).mode = y.mode ∧ (f y).generation = y.generation) (x : StreamId) :
    SameBinding g (g.modStream s f) x := by
  rw [SameBinding, Gate.stream_modStream]
  split
  case isTrue same => subst same; exact keeps _
  case isFalse => exact ⟨rfl, rfl⟩

theorem sameBinding_clearStreams (b : BranchNo) (x : StreamId) : SameBinding g (g.clearStreams b) x := by
  simp only [SameBinding, Gate.clearStreams, Gate.stream, Vector.getElem_mapFinIdx]
  split <;> exact ⟨rfl, rfl⟩

theorem sameBinding_of_streams (streams : g'.streams = g.streams) (x : StreamId) : SameBinding g g' x := by
  rw [SameBinding, Gate.stream, streams]
  exact ⟨rfl, rfl⟩

theorem GateStep.keeps_binding (st : GateStep k g g') (other : k ∉ [Kind.bind, .rebind, .reset]) (x : StreamId) :
    SameBinding g g' x := by
  cases st
  case stream keeps => exact sameBinding_modStream (fun y => (keeps y).2) x
  case leave s r rest _ =>
    exact sameBinding_modStream (s := s) (f := fun y => { y with queue := rest, head := none, slot := none })
      (fun _ => ⟨rfl, rfl⟩) x
  case arriveRequest s r spent =>
    exact sameBinding_modStream (g := g.modLink (.branch (branchOf s)) (·.useGranted .request)) (by intro; exact ⟨rfl, rfl⟩) x
  case clearBranch b => exact sameBinding_clearStreams b x
  case retireNow => simp at other
  case retireJudged => simp at other
  case unbind => simp at other
  case rebind => simp at other
  case powerOn => simp at other
  case trunkReset => simp at other
  all_goals exact sameBinding_of_streams (by simp) x

/-- The stream was MAPPED and is BLOCKED with its generation one more (R10). -/
def Unbound (g g' : Gate) (x : StreamId) : Prop :=
  (∃ c, (g.stream x).mode = .mapped c) ∧ (g'.stream x).mode = .blocked ∧
    (g'.stream x).generation = (g.stream x).generation + 1

theorem sameBinding_or_unbound (c : ContextNo) (x : StreamId) :
    SameBinding g (g.unbindContext c) x ∨ Unbound g (g.unbindContext c) x := by
  unfold SameBinding Unbound
  rw [Gate.stream_unbindContext]
  split
  case isTrue mapped => exact .inr ⟨⟨c, mapped⟩, rfl, rfl⟩
  case isFalse => exact .inl ⟨rfl, rfl⟩

/-- R10: the acts that withdraw bindings withdraw those of one context. -/
theorem GateStep.unbinds (st : GateStep .bind g g') (x : StreamId) : SameBinding g g' x ∨ Unbound g g' x := by
  cases st
  case retireNow c _ _ _ _ _ _ _ => exact sameBinding_or_unbound (g := g.modContext c _) c x
  case retireJudged c _ _ _ _ => exact sameBinding_or_unbound (g := g) c x
  case unbind c => exact sameBinding_or_unbound c x

/-- A binding that has been withdrawn is no longer MAPPED, so that acts withdraw it once at most. -/
theorem Reaches.unbinds {K : List Kind} (h : Reaches K g g') (kinds : ∀ k ∈ K, k ∉ [Kind.rebind, .reset]) (x : StreamId) :
    SameBinding g g' x ∨ Unbound g g' x := by
  refine h.keeps (fun a => SameBinding g a x ∨ Unbound g a x) (fun k mem a b st before => ?_) (.inl ⟨rfl, rfl⟩)
  have next : SameBinding a b x ∨ Unbound a b x := by
    by_cases bind : k = .bind
    · subst bind; exact st.unbinds x
    · exact .inl (st.keeps_binding (by simpa [bind] using kinds k mem) x)
  obtain ⟨mode, generation⟩ | ⟨mapped, blocked, raised⟩ := before <;>
    obtain ⟨mode', generation'⟩ | ⟨⟨c, mapped'⟩, blocked', raised'⟩ := next
  · exact .inl ⟨mode'.trans mode, generation'.trans generation⟩
  · exact .inr ⟨⟨c, mode.symm.trans mapped'⟩, blocked', raised'.trans (by rw [generation])⟩
  · exact .inr ⟨mapped, mode'.trans blocked, generation'.trans raised⟩
  · exact absurd (blocked.symm.trans mapped') (by simp)

/-! ### Request entries (R75, R76) -/

theorem follows_markOrphans (b : BranchNo) (t : RequestTag) : (g.entry t).Follows ((g.markOrphans b).entry t) := by
  rw [Gate.markOrphans, Gate.entry, Gate.entry, Vector.getElem_map]
  cases g.entries[t.val] with
  | free => trivial
  | late k => exact .inl rfl
  | live e =>
    dsimp only
    split
    · exact ⟨e, rfl, .inr rfl⟩
    · exact ⟨e, rfl, .inl rfl⟩

/-- An act of another kind than a grant makes no entry LIVE. -/
theorem GateStep.entries_follow (st : GateStep k g g') (other : k ≠ .grant) (t : RequestTag) :
    (g.entry t).Follows (g'.entry t) := by
  cases st
  case entries follows => exact follows t
  case clearBranch b => exact follows_markOrphans (g := ((g.clearStreams b).dropHeads b).modBranch b Branch.clear) b t
  case powerOn straps =>
    have free : (Gate.reset straps .power).entry t = .free := entry_reset straps .power t
    exact free ▸ trivial
  case trunkReset =>
    have free : (Gate.reset g.gateId .trunk).entry t = .free := entry_reset g.gateId .trunk t
    exact free ▸ trivial
  case depart => exact absurd rfl other
  all_goals
    rw [Gate.entry, Gate.entry]
    simpa using Entry.follows_refl _

/-- The acts of departed requests, of a branch going DOWN and of resets apart, an act that is no grant leaves every entry as it
was. -/
theorem GateStep.keeps_entry (st : GateStep k g g') (other : k ∉ [Kind.settle, .down, .grant, .reset]) (t : RequestTag) :
    g'.entry t = g.entry t := by
  cases st
  case entries => simp at other
  case clearBranch => simp at other
  case granted => simp at other
  case depart => simp at other
  case powerOn => simp at other
  case trunkReset => simp at other
  all_goals simp [Gate.entry]

/-- An entry that was FREE is LIVE, as a grant makes it: no orphan, with the exponent in force, under the current generation of
its stream's binding and the current epoch of its context (R71, R76). -/
def Granted (g g' : Gate) (t : RequestTag) : Prop :=
  g.entry t = .free ∧ ∃ e, g'.entry t = .live e ∧ e.orphan = false ∧ e.timer = g.exponent ∧
    e.generation = (g.stream e.stream).generation ∧
    ∀ c epoch, e.binding = .mapped c epoch → epoch = (g.context c).epoch

/-- What the acts of the departure arbiter keep, seen from the gate `g` that a turn began with. -/
structure Granting (g g' : Gate) : Prop where
  binding : ∀ x, SameBinding g g' x
  epoch : ∀ c, (g'.context c).epoch = (g.context c).epoch
  exponent : g'.exponent = g.exponent
  entries : ∀ t, g'.entry t = g.entry t ∨ Granted g g' t

theorem Granting.act {g₀ : Gate} (before : Granting g₀ g) (st : GateStep k g g') (mem : k ∈ granting) : Granting g₀ g' where
  binding x := by
    obtain ⟨mode, generation⟩ := st.keeps_binding (by revert mem; cases k <;> simp) x
    exact ⟨mode.trans (before.binding x).1, generation.trans (before.binding x).2⟩
  epoch c := (st.keeps_epoch (by revert mem; cases k <;> simp) c).trans (before.epoch c)
  exponent := (st.keeps_exponent (by revert mem; cases k <;> simp)).trans before.exponent
  entries t := by
    have kept (same : g'.entry t = g.entry t) : g'.entry t = g₀.entry t ∨ Granted g₀ g' t := by
      unfold Granted
      rw [same]
      exact before.entries t
    by_cases grant : k = .grant
    · subst grant
      cases st
      case granted => exact kept rfl
      case depart u e young free timer bound current =>
        by_cases here : u = t
        · subst here
          have wasFree : g₀.entry u = .free := by
            obtain same | ⟨-, e', live, -⟩ := before.entries u
            · exact same.symm.trans free
            · exact absurd (live.symm.trans free) (by simp)
          refine .inr ⟨wasFree, e, ?_, young, timer.trans before.exponent, bound.trans (before.binding _).2,
            fun c epoch mapped => (current c epoch mapped).trans (before.epoch c)⟩
          rw [Gate.entry_setEntry, if_pos rfl]
        · exact kept (by rw [Gate.entry_setEntry, if_neg here])
    · exact kept (st.keeps_entry (by revert mem grant; cases k <;> simp) t)

theorem Reaches.granting {g₀ : Gate} (h : Reaches granting g₀ g) : Granting g₀ g :=
  h.keeps (Granting g₀) (fun _ mem _ _ st before => before.act st mem)
    ⟨fun _ => ⟨rfl, rfl⟩, fun _ => rfl, rfl, fun _ => .inl rfl⟩

theorem Reaches.entries_follow {K : List Kind} (h : Reaches K g g') (other : .grant ∉ K) (t : RequestTag) :
    (g.entry t).Follows (g'.entry t) :=
  h.keeps (fun a => (g.entry t).Follows (a.entry t))
    (fun _ mem _ _ st before => before.trans (st.entries_follow (fun grant => other (grant ▸ mem)) t)) (Entry.follows_refl _)

end acts

/-! ### Which commands perform acts of a kind -/

section commands
variable {c : Instr} {s : State} {g : Gate}

theorem exec_reaches_of_next (answers : exec c s = .next (s.withGate g)) : Reaches (kindsOf c) s.gate g := by
  obtain ⟨g', answers', reach⟩ := exec_reaches c s
  obtain rfl : g' = g := congrArg State.gate (Host.Outcome.next.inj (answers'.symm.trans answers))
  exact reach

/-- What each act of the command's kinds leaves alone, the command leaves alone. -/
theorem exec_keeps {α : Type} (f : Gate → α) {K : List Kind}
    (act : ∀ {k : Kind} {a b : Gate}, GateStep k a b → k ∉ K → f b = f a) (kinds : ∀ k ∈ K, k ∉ kindsOf c)
    (answers : exec c s = .next (s.withGate g)) : f g = f s.gate :=
  (exec_reaches_of_next answers).keeps (fun a => f a = f s.gate)
    (fun k mem _ _ st before => (act st fun bad => kinds k bad mem).trans before) rfl

theorem claim_of_kind (kind : .claim ∈ kindsOf c) : c = .claim ∨ c = .release := by
  cases c
  case claim => exact .inl rfl
  case release => exact .inr rfl
  all_goals simp [kindsOf, apply_ite (Kind.claim ∈ ·)] at kind

theorem reset_of_kind (formed : c.wellFormed = true) (kind : .reset ∈ kindsOf c) :
    (∃ straps, c = .powerOn straps) ∨ ∃ body, c = .initReceived .trunk body := by
  cases c
  case powerOn straps => exact .inl ⟨straps, rfl⟩
  case initReceived l body =>
    cases l with
    | trunk => exact .inr ⟨body, rfl⟩
    | branch b => simp [kindsOf] at kind
  case unacceptedKindArrival l packet =>
    have unaccepted : isUnacceptedKind l packet = true := formed
    simp [kindsOf, unaccepted] at kind
  all_goals simp [kindsOf] at kind

theorem context_of_kind (kind : .context ∈ kindsOf c) :
    c = .contextSetup ∨ c = .contextOpen ∨ c = .contextRetire ∨ c = .invalidate := by
  cases c
  case contextSetup => exact .inl rfl
  case contextOpen => exact .inr (.inl rfl)
  case contextRetire => exact .inr (.inr (.inl rfl))
  case invalidate => exact .inr (.inr (.inr rfl))
  all_goals simp [kindsOf, apply_ite (Kind.context ∈ ·)] at kind

theorem bind_of_kind (formed : c.wellFormed = true) (kind : .bind ∈ kindsOf c) :
    c = .contextRetire ∨ (∃ body, c = .trunkAnswerArrival body) ∨ (∃ t, c = .entryExpiry t) ∨ (∃ i, c = .walkExpiry i) ∨
      ∃ x, c = .retireComplete x := by
  cases c
  case contextRetire => exact .inl rfl
  case trunkAnswerArrival body => exact .inr (.inl ⟨body, rfl⟩)
  case entryExpiry t => exact .inr (.inr (.inl ⟨t, rfl⟩))
  case walkExpiry i => exact .inr (.inr (.inr (.inl ⟨i, rfl⟩)))
  case retireComplete x => exact .inr (.inr (.inr (.inr ⟨x, rfl⟩)))
  case unacceptedKindArrival l packet =>
    have unaccepted : isUnacceptedKind l packet = true := formed
    simp [kindsOf, unaccepted] at kind
  all_goals simp [kindsOf, apply_ite (Kind.bind ∈ ·)] at kind

theorem rebind_of_kind (kind : .rebind ∈ kindsOf c) : c = .streamBind := by
  cases c
  case streamBind => rfl
  all_goals simp [kindsOf, apply_ite (Kind.rebind ∈ ·)] at kind

theorem config_of_kind (kind : .config ∈ kindsOf c) :
    c = .timeoutSet ∨ c = .faultsPolicy ∨ c = .windowSet ∨ c = .windowClear := by
  cases c
  case timeoutSet => exact .inl rfl
  case faultsPolicy => exact .inr (.inl rfl)
  case windowSet => exact .inr (.inr (.inl rfl))
  case windowClear => exact .inr (.inr (.inr rfl))
  all_goals simp [kindsOf, apply_ite (Kind.config ∈ ·)] at kind

theorem grant_of_kind (kind : .grant ∈ kindsOf c) : c = .departureGrant := by
  cases c
  case departureGrant => rfl
  all_goals simp [kindsOf, apply_ite (Kind.grant ∈ ·)] at kind

end commands

/-! ### The commands whose acts of a kind change less than the kind may -/

section runs
variable {α : Type} {f : Gate → α} {d : Command} {s : State} {g : Gate} {p : ControlPacket}

/-- What the taking of a packet, a reply and the command's own part leave alone, the command leaves alone. -/
theorem exec_command_keeps (taken : ∀ a rest, f (Gate.takeControl a rest) = f a)
    (replied : ∀ a p status results, f (Gate.reply a p status results) = f a) (ran : ∀ p a, f (d.run p a) = f a)
    (answers : exec d.instr s = .next (s.withGate g)) : f g = f s.gate := by
  rw [exec_command] at answers
  obtain rfl : Gate.takeCommand d d.run s.gate = g := congrArg State.gate (Host.Outcome.next.inj answers)
  unfold Gate.takeCommand Gate.takeFront Gate.checked Gate.refuse
  split
  case h_1 => rfl
  case h_2 => split_ifs <;> simp [taken, replied, ran]

theorem epoch_modContext {d : ContextNo} {h : Context → Context} (same : ∀ x, (h x).epoch = x.epoch) (c : ContextNo) :
    ((g.modContext d h).context c).epoch = (g.context c).epoch := (sameNumbers_modContext same).epoch c

theorem epoch_runContextSetup (c : ContextNo) : ((g.runContextSetup p).context c).epoch = (g.context c).epoch := by
  have setup (d : ContextNo) (root : Addr) (length : Nat) (report : Bool) :
      ((g.setupContext d root length report).context c).epoch = (g.context c).epoch := epoch_modContext (by intro; rfl) c
  unfold Gate.runContextSetup
  dsimp only
  repeat' split
  all_goals first | rfl | exact setup ..

theorem epoch_runContextOpen (c : ContextNo) : ((g.runContextOpen p).context c).epoch = (g.context c).epoch := by
  have opened (d : ContextNo) :
      ((g.modContext d fun x => { x with state := .active }).context c).epoch = (g.context c).epoch :=
    epoch_modContext (by intro; rfl) c
  unfold Gate.runContextOpen
  repeat' split
  all_goals first | rfl | exact opened _

theorem policy_and_windows_runTimeoutSet :
    (g.runTimeoutSet p).log.policy = g.log.policy ∧ (g.runTimeoutSet p).windows = g.windows := by
  unfold Gate.runTimeoutSet
  split <;> exact ⟨rfl, rfl⟩

theorem exponent_and_windows_runFaultsPolicy :
    (g.runFaultsPolicy p).exponent = g.exponent ∧ (g.runFaultsPolicy p).windows = g.windows := by
  unfold Gate.runFaultsPolicy
  split <;> exact ⟨rfl, rfl⟩

theorem exponent_and_policy_offerHeldAgain :
    g.offerHeldAgain.exponent = g.exponent ∧ g.offerHeldAgain.log.policy = g.log.policy := by
  refine (reaches_offerHeldAgain (g := g)).keeps (fun a => a.exponent = g.exponent ∧ a.log.policy = g.log.policy)
    (fun k mem a b st before => ?_) ⟨rfl, rfl⟩
  have other : k ∉ [Kind.config, .reset] := by revert mem; cases k <;> simp
  exact ⟨(st.keeps_exponent other).trans before.1, (st.keeps_policy other).trans before.2⟩

theorem exponent_and_policy_runWindowSet :
    (g.runWindowSet p).exponent = g.exponent ∧ (g.runWindowSet p).log.policy = g.log.policy := by
  unfold Gate.runWindowSet
  split
  · exact exponent_and_policy_offerHeldAgain
  · exact ⟨rfl, rfl⟩

theorem exponent_and_policy_runWindowClear :
    (g.runWindowClear p).exponent = g.exponent ∧ (g.runWindowClear p).log.policy = g.log.policy := by
  unfold Gate.runWindowClear
  split
  · exact ⟨rfl, rfl⟩
  · exact exponent_and_policy_offerHeldAgain

theorem Reaches.keeps_gateId {K : List Kind} {g' : Gate} (h : Reaches K g g') (other : .reset ∉ K) : g'.gateId = g.gateId :=
  h.keeps (fun a => a.gateId = g.gateId)
    (fun _ mem _ _ st before => (st.keeps_gateId fun reset => other (reset ▸ mem)).trans before) rfl

/-- R133: a trunk reset keeps GATE_ID, and the other ends of an INIT reset nothing. -/
theorem gateId_receiveInit (l : LinkId) (body : List Byte) : (g.receiveInit l body).gateId = g.gateId := by
  unfold Gate.receiveInit
  split
  · rfl
  split
  · exact (reaches_discardMalformed _ _ _).keeps_gateId (by decide)
  split
  · rfl
  case isFalse down _ _ read _ =>
    split
    · exact (reaches_restart _ _ (readInit_fits read)).keeps_gateId (by decide)
    case isFalse up =>
      have training : (g.link l).state = .training := by
        revert down up
        cases (g.link l).state <;> simp
      exact (reaches_takeInit _ _ training (readInit_fits read)).keeps_gateId (by decide)

theorem gateId_initReceived {l : LinkId} {body : List Byte} (answers : exec (.initReceived l body) s = .next (s.withGate g)) :
    g.gateId = s.gate.gateId := by
  rw [exec_initReceived] at answers
  obtain rfl : s.gate.receiveInit l body = g := congrArg State.gate (Host.Outcome.next.inj answers)
  exact gateId_receiveInit l body

end runs

/-! ### The statements -/

/-- Settles O12: the departure arbiter's acts keep what a grant is judged by, and leave each entry as it was or grant it; no other
command has an act that makes an entry LIVE. -/
theorem entriesGoLiveOnlyAtAGrant : Obligations.EntriesGoLiveOnlyAtAGrant := by
  unfold Obligations.EntriesGoLiveOnlyAtAGrant
  intro c s g answers t
  have reach := exec_reaches_of_next answers
  by_cases grant : c = .departureGrant
  · subst grant
    obtain same | ⟨free, e, live, young, timer, bound, current⟩ := reach.granting.entries t
    · rw [same]
      cases s.gate.entry t with
      | free => trivial
      | late k => exact .inl rfl
      | live e => exact .inl ⟨e, rfl, .inl rfl⟩
    · rw [live]
      exact .inr ⟨rfl, free, young, timer, bound, current⟩
  · have follows := reach.entries_follow (fun kind => grant (grant_of_kind kind)) t
    cases entry : g.entry t with
    | free => trivial
    | late k => rw [entry] at follows; exact follows
    | live e => rw [entry] at follows; exact .inl follows

/-- Settles O13. -/
theorem managerChangesOnlyByClaimReleaseReset : Obligations.ManagerChangesOnlyByClaimReleaseReset := by
  unfold Obligations.ManagerChangesOnlyByClaimReleaseReset
  intro c s g formed answers
  by_cases claim : .claim ∈ kindsOf c
  · exact .inr ((claim_of_kind claim).imp_right .inl)
  by_cases reset : .reset ∈ kindsOf c
  · exact .inr (.inr (.inr (reset_of_kind formed reset)))
  · exact .inl (exec_keeps (fun a => a.management.manager) GateStep.keeps_manager (by simp [claim, reset]) answers)

/-- Settles O14: of the commands on context records, CONTEXT-SETUP and CONTEXT-OPEN leave the epoch alone. -/
theorem epochsChangeOnlyByRetireInvalidateReset : Obligations.EpochsChangeOnlyByRetireInvalidateReset := by
  unfold Obligations.EpochsChangeOnlyByRetireInvalidateReset
  intro c s g formed answers x
  by_cases context : .context ∈ kindsOf c
  · obtain rfl | rfl | rfl | rfl := context_of_kind context
    · exact .inl (exec_command_keeps (f := fun a => (a.context x).epoch) (d := .contextSetup) (fun _ _ => rfl)
        (fun _ _ _ _ => rfl) (fun _ _ => epoch_runContextSetup x) answers)
    · exact .inl (exec_command_keeps (f := fun a => (a.context x).epoch) (d := .contextOpen) (fun _ _ => rfl)
        (fun _ _ _ _ => rfl) (fun _ _ => epoch_runContextOpen x) answers)
    · exact .inr (.inl rfl)
    · exact .inr (.inr (.inl rfl))
  by_cases reset : .reset ∈ kindsOf c
  · exact .inr (.inr (.inr (reset_of_kind formed reset)))
  · exact .inl (exec_keeps (fun a => (a.context x).epoch) (fun st other => st.keeps_epoch other x) (by simp [context, reset])
      answers)

/-- Settles O15: the commands that may complete a retire perform no other act on a binding. -/
theorem bindingsChangeOnlyByBindRetireReset : Obligations.BindingsChangeOnlyByBindRetireReset := by
  unfold Obligations.BindingsChangeOnlyByBindRetireReset
  intro c s g formed answers x
  by_cases rebind : .rebind ∈ kindsOf c
  · exact .inr (.inl (rebind_of_kind rebind))
  by_cases reset : .reset ∈ kindsOf c
  · exact .inr (.inr ((reset_of_kind formed reset).imp_right .inl))
  have kinds : ∀ k ∈ kindsOf c, k ∉ [Kind.rebind, .reset] := fun k mem => by
    rw [List.mem_pair]
    rintro (rfl | rfl)
    · exact rebind mem
    · exact reset mem
  obtain same | unbound := (exec_reaches_of_next answers).unbinds kinds x
  · exact .inl same
  by_cases bind : .bind ∈ kindsOf c
  · exact .inr (.inr (.inr (.inr ⟨bind_of_kind formed bind, unbound⟩)))
  · have mode : (g.stream x).mode = (s.gate.stream x).mode :=
      exec_keeps (fun a => (a.stream x).mode) (fun st other => (st.keeps_binding other x).1)
        (by simp [bind, rebind, reset]) answers
    obtain ⟨⟨y, mapped⟩, blocked, -⟩ := unbound
    exact absurd (blocked.symm.trans (mode.trans mapped)) (by simp)

/-- Settles O16: GATE_ID by the acts alone; of the four commands of the configuration, each leaves alone what is not its own. -/
theorem configurationChangesOnlyByItsCommands : Obligations.ConfigurationChangesOnlyByItsCommands := by
  unfold Obligations.ConfigurationChangesOnlyByItsCommands
  intro c s g formed answers
  by_cases reset : .reset ∈ kindsOf c
  · obtain power | ⟨body, rfl⟩ := reset_of_kind formed reset
    · exact .inl power
    · exact .inr ⟨gateId_initReceived answers, .inl ⟨body, rfl⟩⟩
  refine .inr ⟨exec_keeps (K := [.reset]) Gate.gateId (fun st other => st.keeps_gateId (by simpa using other))
    (by simpa using reset) answers, .inr ?_⟩
  by_cases config : .config ∈ kindsOf c
  · obtain rfl | rfl | rfl | rfl := config_of_kind config
    · obtain ⟨policy, windows⟩ := Prod.mk.inj (exec_command_keeps (f := fun a => (a.log.policy, a.windows)) (d := .timeoutSet)
        (fun _ _ => rfl) (fun _ _ _ _ => rfl) (fun _ _ => Prod.ext_iff.mpr policy_and_windows_runTimeoutSet) answers)
      exact ⟨.inr rfl, .inl policy, .inl windows⟩
    · obtain ⟨exponent, windows⟩ := Prod.mk.inj (exec_command_keeps (f := fun a => (a.exponent, a.windows)) (d := .faultsPolicy)
        (fun _ _ => rfl) (fun _ _ _ _ => rfl) (fun _ _ => Prod.ext_iff.mpr exponent_and_windows_runFaultsPolicy) answers)
      exact ⟨.inl exponent, .inr rfl, .inl windows⟩
    · obtain ⟨exponent, policy⟩ := Prod.mk.inj (exec_command_keeps (f := fun a => (a.exponent, a.log.policy)) (d := .windowSet)
        (fun _ _ => rfl) (fun _ _ _ _ => rfl) (fun _ _ => Prod.ext_iff.mpr exponent_and_policy_runWindowSet) answers)
      exact ⟨.inl exponent, .inl policy, .inr (.inl rfl)⟩
    · obtain ⟨exponent, policy⟩ := Prod.mk.inj (exec_command_keeps (f := fun a => (a.exponent, a.log.policy)) (d := .windowClear)
        (fun _ _ => rfl) (fun _ _ _ _ => rfl) (fun _ _ => Prod.ext_iff.mpr exponent_and_policy_runWindowClear) answers)
      exact ⟨.inl exponent, .inl policy, .inr (.inr rfl)⟩
  · have kinds : ∀ k ∈ [Kind.config, .reset], k ∉ kindsOf c := by simp [config, reset]
    exact ⟨.inl (exec_keeps Gate.exponent GateStep.keeps_exponent kinds answers),
      .inl (exec_keeps (fun a => a.log.policy) GateStep.keeps_policy kinds answers),
      .inl (exec_keeps Gate.windows GateStep.keeps_windows kinds answers)⟩

end Sys2Proof.Machine

/-! The taking of CONTROL packets (09): the order of checks 3 to 5 of R143, the packets that stay at the front, and those that are
no command of this gate. -/

namespace Sys2Proof.Machine

/-! ### What checks 2, 3 and 5 of R143 ask -/

theorem mem_allCommands (c : Command) : c ∈ allCommands := by
  cases c <;> simp [allCommands]

theorem commandOf_isNone_iff {code : Byte} : (commandOf code).isNone = true ↔ ∀ c, code ≠ commandCode c := by
  simp only [commandOf, Option.isNone_iff_eq_none, List.find?_eq_none, beq_iff_eq]
  exact ⟨fun unknown c code => unknown c (mem_allCommands c) code.symm, fun unknown c _ code => unknown c code.symm⟩

theorem isRead_iff {c : Command} :
    isRead c = true ↔ c ∈ [Command.identify, .gateRead, .contextRead, .streamRead, .windowRead, .branchRead] := by
  cases c <;> simp [isRead]

/-- R144, R145: the reads are open to every node, CLAIM also while there is no manager, and all commands to the manager. -/
theorem mayIssue_iff {c : Command} {manager : Option Byte} {source : Byte} :
    mayIssue c manager source = true ↔
      c ∈ [Command.identify, .gateRead, .contextRead, .streamRead, .windowRead, .branchRead] ∨ manager = some source ∨
        (c = .claim ∧ manager = none) := by
  rw [← isRead_iff]
  by_cases claim : c = .claim
  · subst claim
    rw [mayIssue_claim_iff]
    simp [isRead, or_comm]
  · by_cases read : isRead c = true <;> simp [mayIssue, read, claim]

/-- R154: the block has its command's length, and zero at each reserved offset. -/
theorem operandsFit_iff {c : Command} {operands : List Byte} :
    operandsFit c operands = true ↔
      operands.length = operandLength c ∧ ∀ i ∈ reservedOffsets c, operands.getD i 0 = 0 := by
  have zero (b : Byte) : b.toNat = 0 ↔ b = 0 := by bv_omega
  simp [operandsFit, operandField_one, zero]

section taking
variable {s : State} {g : Gate} {c : Command} {p : ControlPacket} {rest : List ControlPacket}

/-- Check 4 of R143. -/
theorem exec_busy (h : s.gate.Takes c p rest) (may : mayIssue c s.gate.management.manager p.source = true)
    (full : 8 ≤ s.gate.management.pendingList.length) :
    exec c.instr s = .next (s.withGate (s.gate.replied p rest .busy [])) := by
  have noRoom : Config.pendingCommands ≤ s.gate.management.pendingList.length := full
  rw [exec_takes h, Gate.checked]
  simp [may, noRoom, refuse_eq, Gate.replied]

/-- Check 5 of R143, for a sender that may issue the command, which need not be the manager. -/
theorem exec_unfit (h : s.gate.Takes c p rest) (may : mayIssue c s.gate.management.manager p.source = true)
    (room : s.gate.management.pendingList.length < 8) (unfit : ¬ operandsFit c p.operands = true) :
    exec c.instr s = .next (s.withGate (s.gate.replied p rest .badArgument [])) := by
  have place : ¬ Config.pendingCommands ≤ s.gate.management.pendingList.length := Nat.not_le.mpr room
  rw [exec_takes h, Gate.checked]
  simp [may, place, unfit, refuse_eq, Gate.replied]

/-! ### Packets that stay at the front, and packets that are taken (R142) -/

/-- R142: a packet that is another row's, or for which there is no open place, stays where it is. -/
theorem takeFront_stays {mine : ControlPacket → Bool} (act : ControlPacket → Gate → Gate)
    (stays : ∀ p rest, g.trunk.ingressControl = p :: rest → mine p = true → g.management.openPlaces = 0) :
    g.takeFront mine act = g := by
  unfold Gate.takeFront
  split
  case h_1 => rfl
  case h_2 p rest front =>
    refine if_neg fun ⟨isMine, isOpen⟩ => ?_
    exact isOpen.ne' (stays p rest front isMine)

theorem takeFront_takes {mine : ControlPacket → Bool} (act : ControlPacket → Gate → Gate)
    (front : g.trunk.ingressControl = p :: rest) (isMine : mine p = true)
    (place : g.management.controlQueue.length + g.management.pendingList.length < 12) :
    g.takeFront mine act = act p (g.taken rest) := by
  rw [Gate.takeFront, front]
  exact if_pos ⟨isMine, openPlaces_pos place⟩

theorem openPlaces_eq_zero (full : 12 ≤ g.management.controlQueue.length + g.management.pendingList.length) :
    g.management.openPlaces = 0 := by
  unfold Management.openPlaces Config.controlPlaces
  omega

theorem exec_unknownCommand (s : State) :
    exec .unknownCommand s = .next (s.withGate (s.gate.takeFront
      (fun p => p.gateId == s.gate.gateId && (commandOf p.code).isNone) fun p g => g.refuse p .unknown)) := rfl

theorem exec_misdirectedControl (s : State) :
    exec .misdirectedControl s = .next (s.withGate (s.gate.takeFront (fun p => p.gateId != s.gate.gateId)
      fun _ g => g.countGate fun c => { c with misdirected := c.misdirected + 1 })) := rfl

theorem next_withGate_self {g : Gate} (same : g = s.gate) :
    (.next (s.withGate g) : Host.Outcome State Fault Refusal) = .next s := by
  rw [same]
  rfl

/-- A management row that finds no packet of its own, or no open place, changes nothing. -/
theorem exec_command_stays (stays : ∀ p rest, s.gate.trunk.ingressControl = p :: rest → p.gateId = s.gate.gateId →
    p.code = commandCode c → s.gate.management.openPlaces = 0) : exec c.instr s = .next s := by
  rw [exec_command]
  refine next_withGate_self (takeFront_stays _ fun p rest front mine => ?_)
  obtain ⟨forUs, code⟩ := Bool.and_eq_true_iff.mp mine
  exact stays p rest front (eq_of_beq forUs) (eq_of_beq code)

theorem exec_unknownCommand_stays (stays : ∀ p rest, s.gate.trunk.ingressControl = p :: rest → p.gateId = s.gate.gateId →
    (∀ d, p.code ≠ commandCode d) → s.gate.management.openPlaces = 0) : exec .unknownCommand s = .next s := by
  rw [exec_unknownCommand]
  refine next_withGate_self (takeFront_stays _ fun p rest front mine => ?_)
  obtain ⟨forUs, unknown⟩ := Bool.and_eq_true_iff.mp mine
  exact stays p rest front (eq_of_beq forUs) (commandOf_isNone_iff.mp unknown)

theorem exec_misdirectedControl_stays (stays : ∀ p rest, s.gate.trunk.ingressControl = p :: rest →
    p.gateId ≠ s.gate.gateId → s.gate.management.openPlaces = 0) : exec .misdirectedControl s = .next s := by
  rw [exec_misdirectedControl]
  exact next_withGate_self (takeFront_stays _ fun p rest front elsewhere => stays p rest front (bne_iff_ne.mp elsewhere))

end taking

/-! ### The statements -/

/-- Settles O17: checks 3, 4 and 5 in their order, each refused where the ones before it passed. -/
theorem sharedChecksRefuseInOrder : Obligations.SharedChecksRefuseInOrder := by
  unfold Obligations.SharedChecksRefuseInOrder
  intro c s p rest takes reads may badLength badReserved
  refine ⟨fun mayNot => exec_notManager takes (mt mayIssue_iff.mp mayNot), fun isAllowed full => ?_,
    fun isAllowed room bad => ?_⟩
  · exact exec_busy takes (mayIssue_iff.mpr isAllowed) full
  · refine exec_unfit takes (mayIssue_iff.mpr isAllowed) room fun fits => ?_
    obtain ⟨length, reserved⟩ := operandsFit_iff.mp fits
    obtain wrongLength | ⟨i, isReserved, nonzero⟩ := bad
    · exact wrongLength length
    · exact nonzero (reserved i isReserved)

/-- Settles O18: no row finds a packet of its own with an open place. -/
theorem packetsWaitForAnOpenPlace : Obligations.PacketsWaitForAnOpenPlace := by
  unfold Obligations.PacketsWaitForAnOpenPlace
  refine ⟨fun c s row waits => ?_, fun s p rest front => ?_⟩
  · have stays (p : ControlPacket) (rest : List ControlPacket) (front : s.gate.trunk.ingressControl = p :: rest) :
        s.gate.management.openPlaces = 0 := by
      obtain full | empty := waits
      · exact openPlaces_eq_zero full
      · exact absurd (empty.symm.trans front) (by simp)
    obtain ⟨d, rfl⟩ | rfl | rfl := row
    · exact exec_command_stays fun p rest front _ _ => stays p rest front
    · exact exec_unknownCommand_stays fun p rest front _ _ => stays p rest front
    · exact exec_misdirectedControl_stays fun p rest front _ => stays p rest front
  · have isFront {q : ControlPacket} {more : List ControlPacket} (front' : s.gate.trunk.ingressControl = q :: more) :
        q = p := (List.cons.inj (front'.symm.trans front)).1
    refine ⟨fun d other => ?_, fun other => ?_, fun forUs => ?_⟩
    · refine exec_command_stays fun q more front' forUs code => ?_
      obtain rfl := isFront front'
      exact absurd forUs (other.resolve_right (not_not.mpr code))
    · refine exec_unknownCommand_stays fun q more front' forUs unknown => ?_
      obtain rfl := isFront front'
      obtain elsewhere | ⟨d, code⟩ := other
      · exact absurd forUs elsewhere
      · exact absurd code (unknown d)
    · refine exec_misdirectedControl_stays fun q more front' elsewhere => ?_
      obtain rfl := isFront front'
      exact absurd forUs elsewhere

/-- Settles O19: a packet for another gate is MISDIRECTED_CONTROL's; the codes of the 19 commands are those of 10.3, and a packet
with another code is UNKNOWN_COMMAND's. -/
theorem misdirectedAndUnknownPackets : Obligations.MisdirectedAndUnknownPackets := by
  unfold Obligations.MisdirectedAndUnknownPackets
  intro s p rest front place
  refine ⟨fun elsewhere => ?_, fun forUs unlisted => ?_⟩
  · have mine : (p.gateId != s.gate.gateId) = true := bne_iff_ne.mpr elsewhere
    rw [exec_misdirectedControl, takeFront_takes (mine := fun p => p.gateId != s.gate.gateId) _ front mine place]
    rfl
  · have unknown : ∀ c, p.code ≠ commandCode c := fun c code =>
      unlisted (code ▸ List.mem_map_of_mem (f := commandCode) (mem_allCommands c))
    have mine : (p.gateId == s.gate.gateId && (commandOf p.code).isNone) = true := by
      rw [commandOf_isNone_iff.mpr unknown, forUs]
      simp
    rw [exec_unknownCommand, takeFront_takes _ front mine place]
    rfl

end Sys2Proof.Machine

/-! The commands of the gate itself: the results of IDENTIFY and GATE-READ (R151), the exponent of TIMEOUT-SET (R79), and the
placing of a notice (R148, R149). -/

namespace Sys2Proof.Machine

/-! ### The fields of a result block -/

/-- A field behind the first byte. -/
theorem operandField_cons (b : Byte) (rest : List Byte) (offset width : Nat) :
    operandField (b :: rest) (offset + 1) width = operandField rest offset width := by
  refine congrArg natOfBytes (List.map_congr_left fun i _ => ?_)
  rw [Nat.add_right_comm, List.getD_cons_succ]

/-- A field behind a number. -/
theorem operandField_skip {w n offset : Nat} (behind : w ≤ offset) (rest : List Byte) (width : Nat) :
    operandField (bytesOfNat w n ++ rest) offset width = operandField rest (offset - w) width := by
  refine congrArg natOfBytes (List.map_congr_left fun i _ => ?_)
  rw [List.getD_append_right _ _ _ _ (by simp; omega), bytesOfNat_length]
  congr 1
  omega

/-- A number at the front reads back where it fits its field. -/
theorem operandField_front (w n : Nat) (rest : List Byte) : operandField (bytesOfNat w n ++ rest) 0 w = n % 256 ^ w := by
  have field := operandField_at [] (bytesOfNat w n) rest
  rwa [List.nil_append, bytesOfNat_length, natOfBytes_bytesOfNat] at field

theorem operandField_whole (w n : Nat) : operandField (bytesOfNat w n) 0 w = n % 256 ^ w := by
  simpa using operandField_front w n []

section results
variable {g : Gate} {p : ControlPacket}

/-! ### IDENTIFY and GATE-READ -/

theorem identifyResults_eq :
    g.identifyResults =
      [0xB7, 3, 0x04, 0x16, (match g.management.resetCause with | .power => 0 | .trunk => 1), g.gateId] ++
        (match g.management.manager with | none => [0, 0] | some m => [1, m]) ++ [64, 16, 128, 4, 252, 8, 32, 0] := by
  unfold Gate.identifyResults
  cases g.management.resetCause <;> cases g.management.manager <;> rfl

/-- The six counters one after the other (10.3). -/
theorem gateReadResults_eq :
    g.gateReadResults =
      bytesOfNat 4 g.management.counters.trunkMalformed.toNat ++ (bytesOfNat 4 g.management.counters.strayAnswers.toNat ++
        (bytesOfNat 4 g.management.counters.lateAnswers.toNat ++ (bytesOfNat 4 g.management.counters.misdirected.toNat ++
          (bytesOfNat 4 g.management.counters.hostRefused.toNat ++
            bytesOfNat 4 g.management.counters.lostFaults.toNat)))) := by
  simp [Gate.gateReadResults, counterBytes]

end results

/-- Settles O22. -/
theorem identifyAndGateReadResults : Obligations.IdentifyAndGateReadResults := by
  unfold Obligations.IdentifyAndGateReadResults
  refine ⟨fun s p rest passes block => ?_, fun s p rest passes block => ?_⟩
  · have fit : operandsFit .identify p.operands = true := by rw [block]; rfl
    exact (exec_replies passes fit rfl).trans
      (congrArg (fun results =>
        (Host.Outcome.next (s.withGate (s.gate.replied p rest .done results)) : Host.Outcome State Fault Refusal))
        identifyResults_eq)
  · have fit : operandsFit .gateRead p.operands = true := by rw [block]; rfl
    have whole (n : Counter) : n.toNat % 4294967296 = n.toNat := Nat.mod_eq_of_lt n.isLt
    refine ⟨s.gate.gateReadResults, exec_replies passes fit rfl, ?_⟩
    rw [gateReadResults_eq]
    simp [operandField_skip, operandField_front, operandField_whole, whole]

/-- Settles O23: the operand is an exponent of 0 to 11, or the command refuses it. -/
theorem timeoutSetOutcomes : Obligations.TimeoutSetOutcomes := by
  unfold Obligations.TimeoutSetOutcomes
  intro s p rest k passes block
  have fit : operandsFit .timeoutSet p.operands = true := by rw [block]; exact operandsFit_number ⟨rfl, rfl⟩ _
  have operand : p.operands.getD 0 0 = k := by rw [block]; rfl
  refine ⟨fun below => exec_replies passes fit ?_, fun above => exec_replies passes fit ?_⟩
  · have number : operandBelow 12 p.operands 0 = some ⟨k.toNat, below⟩ :=
      operandBelow_ofNat (by decide) (operand.trans (by simp))
    simp only [Command.run, Gate.runTimeoutSet, number]
    rfl
  · have number : operandBelow 12 p.operands 0 = none := operandBelow_eq_none (operand ▸ above)
    simp only [Command.run, Gate.runTimeoutSet, number]
    rfl

/-! ### Notices (R148, R149) -/

section notices
variable {g : Gate} {node : Byte}

theorem firstOwed_faults {m : Management} (owed : m.faultsOwed = true) : m.firstOwed = some none := if_pos owed

theorem firstOwed_branch {m : Management} {b : BranchNo} (noFaults : m.faultsOwed = false)
    (owed : m.branchOwed[b.val] = true) (first : ∀ d : BranchNo, d < b → m.branchOwed[d.val] = false) :
    m.firstOwed = some (some b) := by
  have lowestOwed : lowest m.branchOwed id = some b := (lowest_eq_some _ _ _).mpr ⟨owed, first⟩
  simp [Management.firstOwed, noFaults, lowestOwed]

theorem firstOwed_none {m : Management} (noFaults : m.faultsOwed = false)
    (noBranch : ∀ d : BranchNo, m.branchOwed[d.val] = false) : m.firstOwed = none := by
  have noneOwed : lowest m.branchOwed id = none := (lowest_eq_none _ _).mpr noBranch
  simp [Management.firstOwed, noFaults, noneOwed]

theorem placeNotice_faults (manager : g.management.manager = some node)
    (place : g.management.controlQueue.length + g.management.pendingList.length < 12)
    (first : g.management.firstOwed = some none) :
    g.placeNotice =
      { g with
        management :=
          { g.management with
            controlQueue := g.management.controlQueue ++ [.faultsNotice node g.log.records.length], faultsOwed := false } } := by
  conv_lhs => simp only [Gate.placeNotice, manager, if_neg (openPlaces_pos place).ne', first]
  rfl

theorem placeNotice_branch {b : BranchNo} (manager : g.management.manager = some node)
    (place : g.management.controlQueue.length + g.management.pendingList.length < 12)
    (first : g.management.firstOwed = some (some b)) :
    g.placeNotice =
      { g with
        management :=
          { g.management with
            controlQueue := g.management.controlQueue ++ [.branchNotice node b]
            branchOwed := g.management.branchOwed.set b.val false } } := by
  conv_lhs => simp only [Gate.placeNotice, manager, if_neg (openPlaces_pos place).ne', first]
  rfl

theorem placeNotice_unmanaged (none : g.management.manager = none) : g.placeNotice = g := by
  simp only [Gate.placeNotice, none]

theorem placeNotice_noneOwed (noneOwed : g.management.firstOwed = none) : g.placeNotice = g := by
  unfold Gate.placeNotice
  simp only [noneOwed, ite_self]
  split <;> rfl

theorem placeNotice_full (full : 12 ≤ g.management.controlQueue.length + g.management.pendingList.length) :
    g.placeNotice = g := by
  unfold Gate.placeNotice
  split
  · rfl
  · exact if_pos (openPlaces_eq_zero full)

end notices

/-- Settles O28. -/
theorem noticePlaceOutcomes : Obligations.NoticePlaceOutcomes := by
  unfold Obligations.NoticePlaceOutcomes
  intro s m
  refine ⟨fun node manager place owed => ?_, fun node b manager place noFaults owed first => ?_, fun nothing => ?_⟩
  · rw [exec_noticePlace, placeNotice_faults manager place (firstOwed_faults owed)]
  · rw [exec_noticePlace, placeNotice_branch manager place (firstOwed_branch noFaults owed first)]
  · rw [exec_noticePlace]
    refine next_withGate_self ?_
    obtain unmanaged | full | ⟨noFaults, noBranch⟩ := nothing
    · exact placeNotice_unmanaged unmanaged
    · exact placeNotice_full full
    · exact placeNotice_noneOwed (firstOwed_none noFaults noBranch)

end Sys2Proof.Machine

/-! Whole-gate resets (R133), and the events that cannot occur as the state stands (log entries 5, 14 and 15). -/

namespace Sys2Proof.Machine

set_option Elab.async false

/-! ### Whole-gate resets -/

/-- The gate after a whole-gate reset, whatever its trunk link record and what was sent before. -/
def Gate.afterReset (gateId : Byte) (cause : ResetCause) (link : LinkRecord) (sent : List Sent) : Gate :=
  { Gate.reset gateId cause with trunk := { TrunkPort.reset with link := link }, sent := sent }

theorem isReset_afterReset (gateId : Byte) (cause : ResetCause) (link : LinkRecord) (sent : List Sent) :
    (Gate.afterReset gateId cause link sent).IsReset gateId cause where
  gateId := rfl
  contexts := context_reset gateId cause
  cache := rfl
  walks := walk_reset gateId cause
  walkWaiting := rfl
  streams := stream_reset gateId cause
  entries := entry_reset gateId cause
  exponent := rfl
  lastGranted := rfl
  windows := window_reset gateId cause
  log := rfl
  manager := rfl
  pendingList := rfl
  controlQueue := rfl
  faultsOwed := rfl
  branchOwed b := Vector.getElem_replicate ..
  cause := rfl
  counters := rfl
  requests := rfl
  answers := rfl
  control := rfl
  answerQueue := rfl
  lastSource := rfl
  lastClass := rfl
  branchLinks b := congrArg Branch.link (branch_reset gateId cause b)
  slots b k := (congrArg (fun x : Branch => x.slots[k.val]) (branch_reset gateId cause b)).trans (Vector.getElem_replicate ..)
  slotWait b := congrArg Branch.slotWait (branch_reset gateId cause b)
  egressAnswers b := congrArg Branch.egressAnswers (branch_reset gateId cause b)
  egressRequests b := congrArg Branch.egressRequests (branch_reset gateId cause b)
  ingressAnswers b := congrArg Branch.ingressAnswers (branch_reset gateId cause b)
  lastSent b := congrArg Branch.lastSent (branch_reset gateId cause b)
  branchCounters b := congrArg Branch.counters (branch_reset gateId cause b)

/-- Settles O3. -/
theorem powerOnResetsEveryBlock : Obligations.PowerOnResetsEveryBlock := by
  unfold Obligations.PowerOnResetsEveryBlock
  intro straps s
  exact ⟨.afterReset straps .power (.reset trunkCapacity) s.gate.sent, rfl, isReset_afterReset .., rfl, rfl⟩

/-- Settles O4: each invariant holds of the fresh blocks that it speaks of. -/
theorem resetStateIsSound : Obligations.ResetStateIsSound := by
  unfold Obligations.ResetStateIsSound
  have contexts := context_reset 0 .power
  have walks := walk_reset 0 .power
  have links : State.reset.gate.LinksSound :=
    links_fresh (LinkRecord.down_sound rfl rfl rfl rfl rfl) (fun c => by cases c <;> rfl) ⟨rfl, rfl, rfl⟩
      (branch_reset 0 .power) (stream_reset 0 .power)
  have holds := holds_fresh (stream_reset 0 .power) (branch_reset 0 .power) walks rfl (entry_reset 0 .power)
  exact ⟨isReset_afterReset 0 .power (.reset trunkCapacity) [],
    { tables := tables_fresh contexts rfl walks
      log := log_reset_sound
      places := places_fresh (m := .reset .power) rfl contexts
      notices := notices_fresh (c := .power) rfl rfl
      links := links
      queues := queues_fresh rfl rfl
      heads := holds.heads
      slots := holds.slots },
    rfl⟩

/-! ### Reading an INIT (10.2) -/

section init
variable {l : LinkId} {flags request answer control r5 r6 r7 : Byte}

theorem reservedFlags_iff : flags &&& 0xFE = 0 ↔ flags.toNat ≤ 1 := by
  revert flags
  decide

theorem one_le_toNat_iff {b : Byte} : 1 ≤ b.toNat ↔ b ≠ 0 := by bv_omega

theorem figuresFit_iff {x : Credits} :
    figuresFit l x = true ↔
      1 ≤ x.request ∧ 1 ≤ x.answer ∧ (l = .trunk → 1 ≤ x.control) ∧ (l ≠ .trunk → x.control = 0) := by
  cases l <;> simp [figuresFit, and_assoc]

/-- What an INIT of the right size must be (R129, R137, R154). -/
structure InitFits (l : LinkId) (flags request answer control r5 r6 r7 : Byte) : Prop where
  flags : flags.toNat ≤ 1
  request : request ≠ 0
  answer : answer ≠ 0
  trunk : l = .trunk → control ≠ 0
  branch : l ≠ .trunk → control = 0
  reserved : r5 = 0 ∧ r6 = 0 ∧ r7 = 0

theorem readInit_condition_iff :
    (flags &&& 0xFE = 0 ∧ r5 = 0 ∧ r6 = 0 ∧ r7 = 0 ∧ figuresFit l ⟨request.toNat, answer.toNat, control.toNat⟩) ↔
      InitFits l flags request answer control r5 r6 r7 := by
  have zero : control.toNat = 0 ↔ control = 0 := by bv_omega
  simp only [reservedFlags_iff, figuresFit_iff, one_le_toNat_iff, zero]
  exact ⟨fun ⟨f, a, b, c, q, n, t, x⟩ => ⟨f, q, n, t, x, a, b, c⟩,
    fun ⟨f, q, n, t, x, a, b, c⟩ => ⟨f, a, b, c, q, n, t, x⟩⟩

theorem readInit_of_fits (fits : InitFits l flags request answer control r5 r6 r7) :
    readInit l [flags, request, answer, control, r5, r6, r7] =
      some { reset := flags = 1, figures := ⟨request.toNat, answer.toNat, control.toNat⟩ } :=
  if_pos (readInit_condition_iff.mpr fits)

theorem readInit_of_not_fits (unfit : ¬ InitFits l flags request answer control r5 r6 r7) :
    readInit l [flags, request, answer, control, r5, r6, r7] = none :=
  if_neg (mt readInit_condition_iff.mp unfit)

theorem readInit_wrongLength {body : List Byte} (wrong : body.length ≠ 7) : readInit l body = none := by
  unfold readInit
  split
  · exact absurd rfl wrong
  · rfl

end init

/-- Settles O5: the INIT of the resetting partner fits, and its reset flag is set. -/
theorem trunkResetResetsEveryBlock : Obligations.TrunkResetResetsEveryBlock := by
  unfold Obligations.TrunkResetResetsEveryBlock
  intro request answer control s hasRequest hasAnswer hasControl notDown
  have fits : InitFits .trunk 1 request answer control 0 0 0 :=
    ⟨by decide, hasRequest, hasAnswer, fun _ => hasControl, fun branch => absurd rfl branch, rfl, rfl, rfl⟩
  have resets : s.gate.receiveInit .trunk [1, request, answer, control, 0, 0, 0] =
      s.gate.trunkReset ⟨request.toNat, answer.toNat, control.toNat⟩ := by
    unfold Gate.receiveInit
    rw [if_neg (show (s.gate.link .trunk).state ≠ .down from notDown), readInit_of_fits fits]
    rfl
  refine ⟨s.gate.trunkReset ⟨request.toNat, answer.toNat, control.toNat⟩, ?_, isReset_afterReset .., rfl, ?_⟩
  · rw [exec_initReceived, resets]
  · simp only [Gate.trunkReset, Gate.dropBranchLinks, Gate.modTrunk, Gate.emit, List.append_assoc]
    rfl

/-! ### Events that cannot occur -/

section cannotOccur
variable {g : Gate}

theorem arrive_down {α : Type} {l : LinkId} (down : (g.link l).state = .down) (c : PacketClass) (packet : Option α)
    (stream : Option StreamId) (join : α → Gate → Gate) : g.arrive l c packet stream join = g := if_pos down

theorem receiveInit_down {l : LinkId} (down : (g.link l).state = .down) (body : List Byte) : g.receiveInit l body = g :=
  if_pos down

theorem receiveCredit_down {l : LinkId} (down : (g.link l).state = .down) (body : List Byte) :
    g.receiveCredit l body = g := if_pos down

/-- A packet of any kind. -/
theorem receive_down {l : LinkId} (down : (g.link l).state = .down) (packet : List Byte) : g.receive l packet = g := by
  have request (kind : RequestKind) (body : List Byte) : g.receiveRequest l kind body = g := by
    cases l <;> exact if_pos down
  unfold Gate.receive
  split
  · exact if_pos down
  · next kind body =>
    simp only [receiveInit_down down, receiveCredit_down down, request]
    cases l <;> simp [Gate.receiveTrunkAnswer, Gate.receiveBranchAnswer, Gate.receiveControl, Gate.receiveUnaccepted,
      arrive_down down, down]

end cannotOccur

/-- Settles O47: each row finds no case of its own. -/
theorem eventsThatCannotOccurChangeNothing : Obligations.EventsThatCannotOccurChangeNothing := by
  unfold Obligations.EventsThatCannotOccurChangeNothing
  intro s
  refine ⟨fun l body packet down => ⟨next_withGate_self ?_, next_withGate_self ?_, next_withGate_self ?_⟩,
    fun kind body down => ⟨next_withGate_self ?_, next_withGate_self ?_, next_withGate_self ?_⟩,
    fun b kind body down => ⟨next_withGate_self ?_, next_withGate_self ?_⟩,
    fun l notDown => next_withGate_self ?_, fun t dead => next_withGate_self ?_, fun t early => next_withGate_self ?_,
    fun i unsent => next_withGate_self ?_, fun i active => next_withGate_self ?_, fun empty => next_withGate_self ?_,
    fun full => next_withGate_self ?_, fun empty => next_withGate_self ?_, fun empty => next_withGate_self ?_,
    fun b empty => next_withGate_self ?_, fun b empty => next_withGate_self ?_⟩
  · exact receiveInit_down down body
  · exact receiveCredit_down down body
  · exact receive_down down packet
  · exact if_pos down
  · exact if_pos down
  · exact if_pos down
  · exact if_pos down
  · exact if_pos down
  · exact if_neg notDown
  · dsimp only
    split
    next e live => exact absurd live (dead e)
    next => rfl
  · dsimp only
    split
    next k late => exact absurd late (early k)
    next => rfl
  · dsimp only
    split
    next w walking => rw [unsent w walking]; rfl
    next => rfl
  · dsimp only
    split
    next k quarantined => exact absurd quarantined (active k)
    next => rfl
  · unfold Gate.offerHost
    rw [empty]
  · exact if_neg (Nat.not_lt.mpr full)
  · dsimp only
    rw [empty]
  · dsimp only
    rw [empty]
  · dsimp only
    rw [empty]
  · dsimp only
    rw [empty]

end Sys2Proof.Machine

/-! Links (08): a branch going DOWN, training and INIT, losses and restarts, credits, and malformed packets. -/

namespace Sys2Proof.Machine

set_option Elab.async false

section links
variable {g : Gate} {b : BranchNo}

/-! ### A branch going DOWN (R64, R131) -/

theorem oweBranch_eq (g : Gate) (b : BranchNo) :
    g.oweBranch b =
      { g with
        management :=
          { g.management with
            branchOwed :=
              if g.management.manager.isSome then g.management.branchOwed.set b.val true
              else g.management.branchOwed } } := by
  unfold Gate.oweBranch
  split <;> rfl

/-- The gate that `branchDown` leaves before it offers a held host request again. -/
def Gate.cleared (g : Gate) (b : BranchNo) : Gate :=
  ((((g.clearStreams b).dropHeads b).modBranch b Branch.clear).markOrphans b).oweBranch b

theorem branchOf_eq_iff {x : StreamId} : branchOf x = b ↔ x.val / 16 = b.val := by
  simp [branchOf, Fin.ext_iff]

theorem branchOf_bne {x : StreamId} : (branchOf x != b) = decide (x.val / 16 ≠ b.val) := by
  rw [Bool.eq_iff_iff]
  simp [branchOf_eq_iff]

theorem dropWaiters_walking (w : Walk) :
    (WalkSlot.walking w).dropWaiters b =
      .walking { w with waiters := w.waiters.filter fun y => y.stream.val / 16 ≠ b.val } := by
  simp [WalkSlot.dropWaiters, branchOf_bne]

theorem stream_cleared (x : StreamId) :
    (g.cleared b).stream x =
      if x.val / 16 = b.val then { g.stream x with queue := [], head := none, slot := none } else g.stream x := by
  have streams : (g.cleared b).stream x = (g.clearStreams b).stream x := by simp [Gate.cleared, Gate.stream]
  rw [streams]
  simp [Gate.stream, Gate.clearStreams, branchOf_eq_iff, Stream.clear]

theorem walk_cleared (i : WalkNo) : (g.cleared b).walk i = (g.walk i).dropWaiters b := by
  have walks : (g.cleared b).walk i = (g.dropHeads b).walk i := by simp [Gate.cleared, Gate.walk, Gate.dropHeads]
  rw [walks]
  simp [Gate.walk, Gate.dropHeads]

theorem branch_cleared (c : BranchNo) : (g.cleared b).branch c = if b = c then (g.branch b).clear else g.branch c := by
  have ports : (g.cleared b).branch c = (g.modBranch b Branch.clear).branch c := by
    simp [Gate.cleared, Gate.branch, Gate.modBranch]
  rw [ports]
  exact Gate.branch_modBranch _ b c Branch.clear

theorem entry_cleared (t : RequestTag) : (g.cleared b).entry t = (g.markOrphans b).entry t := by
  simp [Gate.cleared, Gate.entry, Gate.markOrphans]

theorem branchCleared : g.BranchCleared b (g.cleared b) where
  nothingElse := by rw [Gate.cleared, oweBranch_eq]; rfl
  streams := stream_cleared
  walks i := by
    rw [walk_cleared]
    cases g.walk i with
    | free => rfl
    | quarantined k => rfl
    | walking w => exact dropWaiters_walking w
  walkWaiting := by
    have waiting : (g.cleared b).walkWaiting = g.walkWaiting.filter fun x => branchOf x != b := by
      rw [Gate.cleared, oweBranch_eq]; rfl
    simp [waiting, branchOf_bne]
  branch := by rw [branch_cleared, if_pos rfl]; rfl
  otherBranches c other := by rw [branch_cleared, if_neg (Ne.symm other)]
  entries t := by
    rw [entry_cleared]
    simp only [Gate.entry, Gate.markOrphans, Vector.getElem_map]
    cases g.entries[t.val] with
    | free => rfl
    | late k => rfl
    | live e => by_cases of : e.stream.val / 16 = b.val <;> simp [branchOf_eq_iff, of]
  management := by rw [Gate.cleared, oweBranch_eq]; rfl

end links

/-- Settles O44. -/
theorem linkLosses : Obligations.LinkLosses := by
  unfold Obligations.LinkLosses
  intro s
  refine ⟨fun notDown => ?_, fun down => next_withGate_self (if_pos down),
    fun b => ⟨fun notDown => ⟨s.gate.cleared b, branchCleared, ?_⟩, fun down => next_withGate_self (if_pos down)⟩⟩
  · rw [exec_trunkLinkLoss, if_neg notDown]
    rfl
  · rw [exec_branchLinkLoss, if_neg notDown]
    rfl

/-! ### BRANCH-RESET (R139) -/

section branchReset
variable {s : State} {p : ControlPacket} {rest : List ControlPacket} {x : Byte} {b : BranchNo}

theorem linkStateCode_eq (state : LinkState) :
    linkStateCode state = match state with | .down => 0 | .training => 1 | .up => 2 := by
  cases state <;> rfl

theorem exec_branchReset (passes : s.gate.Passes .branchReset p rest) (block : p.operands = [x, 0, 0, 0])
    (is : x = BitVec.ofNat 8 b.val) :
    exec .branchReset s = .next (s.withGate (((s.gate.taken rest).resetBranch b).replying p .done
      [x, linkStateCode (s.gate.branch b).link.state, 0, 0])) := by
  have fit : operandsFit .branchReset p.operands = true := by rw [block]; exact operandsFit_number ⟨rfl, rfl⟩ _
  have number : operandBelow 4 p.operands 0 = some b := by
    rw [block]
    exact operandBelow_ofNat (n := 4) (by decide) is
  refine (exec_passes passes fit).trans ?_
  simp only [Command.run, Gate.runBranchReset, number]
  rw [is]
  rfl

end branchReset

/-- Settles O41. -/
theorem branchResetOutcomes : Obligations.BranchResetOutcomes := by
  unfold Obligations.BranchResetOutcomes
  intro s p rest x passes block
  refine ⟨fun b is => ?_, fun above => ?_⟩
  · have runs := exec_branchReset passes block is
    refine ⟨fun down => runs.trans ?_, fun notDown => ⟨_, branchCleared, runs.trans ?_⟩⟩
    · have stays : (s.gate.taken rest).resetBranch b = _ := if_pos down
      rw [stays, down]
      rfl
    · have resets : (s.gate.taken rest).resetBranch b = _ := if_neg notDown
      rw [resets, linkStateCode_eq]
      rfl
  · have fit : operandsFit .branchReset p.operands = true := by rw [block]; exact operandsFit_number ⟨rfl, rfl⟩ _
    have number : operandBelow 4 p.operands 0 = none := by
      rw [block]
      exact operandBelow_eq_none above
    refine exec_replies passes fit ?_
    simp only [Command.run, Gate.runBranchReset, number]
    rfl

/-! ### Training and INIT (R129, R132) -/

/-- The flags and the CONTROL figure that a partner's INIT has on a link, with its reset flag clear on the trunk. -/
def InitOpens (l : LinkId) (flags control : Byte) : Prop :=
  match l with
  | .trunk => flags = 0 ∧ control ≠ 0
  | .branch _ => (flags = 0 ∨ flags = 1) ∧ control = 0

section training
variable {s : State} {g : Gate} {l : LinkId} {flags request answer control : Byte}

theorem InitOpens.fits (opens : InitOpens l flags control) (hasRequest : request ≠ 0) (hasAnswer : answer ≠ 0) :
    InitFits l flags request answer control 0 0 0 := by
  cases l with
  | trunk =>
    obtain ⟨rfl, hasControl⟩ := opens
    exact ⟨by decide, hasRequest, hasAnswer, fun _ => hasControl, fun branch => absurd rfl branch, rfl, rfl, rfl⟩
  | branch b =>
    obtain ⟨flag, noControl⟩ := opens
    have isFlag : flags.toNat ≤ 1 := by obtain rfl | rfl := flag <;> decide
    exact ⟨isFlag, hasRequest, hasAnswer, (nomatch ·), fun _ => noControl, rfl, rfl, rfl⟩

/-- An INIT that opens a link, or restarts it, is no reset of the gate. -/
theorem receiveInit_opens (opens : InitOpens l flags control) (hasRequest : request ≠ 0) (hasAnswer : answer ≠ 0)
    (notDown : (g.link l).state ≠ .down) :
    g.receiveInit l [flags, request, answer, control, 0, 0, 0] =
      if (g.link l).state = .up then g.restart l ⟨request.toNat, answer.toNat, control.toNat⟩
      else g.takeInit l ⟨request.toNat, answer.toNat, control.toNat⟩ := by
  have noReset : ¬ (l = .trunk ∧ decide (flags = 1) = true) := by
    rintro ⟨rfl, set⟩
    obtain ⟨rfl, -⟩ := opens
    exact absurd set (by decide)
  unfold Gate.receiveInit
  rw [if_neg notDown, readInit_of_fits (opens.fits hasRequest hasAnswer)]
  exact if_neg noReset

theorem link_modBranch {f : Branch → Branch} (same : ∀ x, (f x).link = x.link) (g : Gate) (b : BranchNo) (m : LinkId) :
    (g.modBranch b f).link m = g.link m := by
  cases m with
  | trunk => rfl
  | branch c =>
    show ((g.modBranch b f).branch c).link = (g.branch c).link
    rw [Gate.branch_modBranch]
    split
    next is => rw [same, is]
    next => rfl

theorem held_takeHost (g : Gate) (rest : List HostRequest) (m : LinkId) :
    ((g.takeHost rest).link m).held = (g.link m).held := by
  cases m <;> rfl

theorem held_forwardHost (g : Gate) (b : BranchNo) (r : HostRequest) (address : Addr) (m : LinkId) :
    ((g.forwardHost b r address).link m).held = (g.link m).held := by
  unfold Gate.forwardHost
  rw [link_modBranch]
  exact fun _ => rfl

theorem held_countHostRefused (g : Gate) (m : LinkId) : (g.countHostRefused.link m).held = (g.link m).held := by
  cases m <;> rfl

theorem held_holdHost (g : Gate) (o : HostOutcome) (m : LinkId) : ((g.holdHost o).link m).held = (g.link m).held := by
  cases m <;> rfl

theorem held_offerHost (g : Gate) (m : LinkId) : (g.offerHost.link m).held = (g.link m).held := by
  unfold Gate.offerHost
  split
  · rfl
  · split
    · split
      · rw [held_forwardHost, held_takeHost]
      · rw [held_holdHost]
    · split
      · rw [held_countHostRefused, held_takeHost]
      · rw [held_holdHost]

theorem held_linkChanged (g : Gate) (l m : LinkId) : ((g.linkChanged l).link m).held = (g.link m).held := by
  cases l with
  | trunk => rfl
  | branch b =>
    show (g.offerHeldAgain.link m).held = _
    unfold Gate.offerHeldAgain
    split
    · exact held_offerHost g m
    · rfl

theorem link_noteUp (g : Gate) (l m : LinkId) : (g.noteUp l).link m = g.link m := by
  cases l with
  | trunk => rfl
  | branch b => cases m <;> simp [Gate.noteUp, oweBranch_eq, Gate.link, Gate.branch]

theorem state_takeInit (figures : Credits) : ((g.takeInit l figures).link l).state = .up := by
  rw [Gate.takeInit, state_linkChanged, link_noteUp, Gate.link_modLink, if_pos rfl]
  rfl

theorem held_takeInit (figures : Credits) : ((g.takeInit l figures).link l).held = figures := by
  rw [Gate.takeInit, held_linkChanged, link_noteUp, Gate.link_modLink, if_pos rfl]
  rfl

end training

/-- Settles O42. -/
theorem linksTrainAndComeUp : Obligations.LinksTrainAndComeUp := by
  unfold Obligations.LinksTrainAndComeUp
  refine ⟨fun s l down => ?_, fun s l flags request answer control training hasRequest hasAnswer opens => ?_⟩
  · rw [exec_linkPresent, if_pos down]
    cases l <;> rfl
  · have notDown : (s.gate.link l).state ≠ .down := by simp [training]
    have notUp : (s.gate.link l).state ≠ .up := by simp [training]
    rw [exec_initReceived, receiveInit_opens opens hasRequest hasAnswer notDown, if_neg notUp]
    cases l with
    | trunk => rfl
    | branch b =>
      have takes (figures : Credits) : s.gate.takeInit (.branch b) figures =
          ((s.gate.modLink (.branch b) (·.goUp figures)).oweBranch b).offerHeldAgain := rfl
      rw [takes, oweBranch_eq]
      rfl

/-- Settles O43: the three commands in turn make up the restart. -/
theorem initRestartsAnUpLink : Obligations.InitRestartsAnUpLink := by
  unfold Obligations.InitRestartsAnUpLink
  intro s l flags request answer control up hasRequest hasAnswer opens
  have notDown : (s.gate.link l).state ≠ .down := by simp [up]
  let lost := s.gate.linkDown l
  let trained := lost.enterTraining l
  have down : (lost.link l).state = .down := state_linkDown l
  have training : (trained.link l).state = .training := state_enterTraining l
  refine ⟨lost, trained, trained.takeInit l ⟨request.toNat, answer.toNat, control.toNat⟩, ?_, down, ?_, training, ?_,
    state_takeInit _, held_takeInit _, ?_⟩
  · cases l with
    | trunk => exact (exec_trunkLinkLoss s).trans (by rw [if_neg (show s.gate.trunk.link.state ≠ .down from notDown)])
    | branch b => exact (exec_branchLinkLoss s b).trans (by rw [if_neg (show (s.gate.branch b).link.state ≠ .down from notDown)])
  · rw [exec_linkPresent]
    exact congrArg (fun g : Gate => (Host.Outcome.next (s.withGate g) : Host.Outcome State Fault Refusal)) (if_pos down)
  · rw [exec_initReceived, State.withGate_gate, receiveInit_opens opens hasRequest hasAnswer (by simp [training]),
      if_neg (by simp [training])]
    rfl
  · rw [exec_initReceived, receiveInit_opens opens hasRequest hasAnswer notDown, if_pos up]
    rfl

/-! ### Credits (R134, R135) -/

section credits
variable {g : Gate} {l : LinkId} {c : PacketClass} {code count reserved : Byte} {n : Nat}

theorem creditClassOf_eq_some_iff :
    creditClassOf l code = some c ↔ code = packetClassCode c ∧ (c = .control → l = .trunk) := by
  unfold creditClassOf
  split_ifs with request answer control
  · subst request
    cases c <;> simp [packetClassCode]
  · subst answer
    cases c <;> simp [packetClassCode]
  · subst control
    cases c <;> cases l <;> simp [packetClassCode]
  · refine iff_of_false (by simp) fun ⟨isCode, _⟩ => ?_
    cases c with
    | request => exact request isCode
    | answer => exact answer isCode
    | control => exact control isCode

theorem packetClassCode_injective {d : PacketClass} (same : packetClassCode c = packetClassCode d) : c = d :=
  Option.some.inj ((creditClassOf_eq_some_iff.mpr ⟨rfl, fun _ => rfl⟩).symm.trans
    (creditClassOf_eq_some_iff (l := .trunk).mpr ⟨same, fun _ => rfl⟩))

theorem packetClassCode_ne_zero : packetClassCode c ≠ 0 := by
  cases c <;> decide

theorem packetClassCode_le : (packetClassCode c).toNat ≤ 3 := by
  cases c <;> decide

theorem readCredit_eq_some_iff :
    readCredit l [code, count, reserved] = some (c, n) ↔
      code = packetClassCode c ∧ (c = .control → l = .trunk) ∧ count ≠ 0 ∧ reserved = 0 ∧ n = count.toNat := by
  have read : readCredit l [code, count, reserved] =
      (creditClassOf l code).bind fun d => if count = 0 ∨ reserved ≠ 0 then none else some (d, count.toNat) := by
    cases h : creditClassOf l code <;> simp [readCredit, h]
  rw [read, Option.bind_eq_some_iff]
  simp only [creditClassOf_eq_some_iff, ite_eq_iff, reduceCtorEq, and_false, false_or, not_or, not_not, Option.some.injEq,
    Prod.mk.injEq, and_assoc]
  constructor
  · rintro ⟨d, isCode, isTrunk, nonzero, noReserved, rfl, rfl⟩
    exact ⟨isCode, isTrunk, nonzero, noReserved, rfl⟩
  · rintro ⟨isCode, isTrunk, nonzero, noReserved, rfl⟩
    exact ⟨c, isCode, isTrunk, nonzero, noReserved, rfl, rfl⟩

theorem readCredit_wrongLength {body : List Byte} (wrong : body.length ≠ 3) : readCredit l body = none := by
  unfold readCredit
  split
  · exact absurd rfl wrong
  · rfl

theorem receiveCredit_adds {body : List Byte} (notDown : (g.link l).state ≠ .down) (read : readCredit l body = some (c, n))
    (partner : (g.link l).partnerInit = true) (bound : (g.link l).held.get c + n ≤ 255) :
    g.receiveCredit l body = g.modLink l fun r => { r with held := r.held.set c (r.held.get c + n) } := by
  unfold Gate.receiveCredit
  rw [if_neg notDown, read]
  exact if_pos ⟨partner, bound⟩

theorem receiveCredit_discards {body : List Byte} (notDown : (g.link l).state ≠ .down)
    (unfit : ∀ c n, readCredit l body = some (c, n) → (g.link l).partnerInit = true → 255 < (g.link l).held.get c + n) :
    g.receiveCredit l body = g.discardMalformed l none none := by
  unfold Gate.receiveCredit
  rw [if_neg notDown]
  split
  next c n read => exact if_neg fun ⟨partner, bound⟩ => Nat.not_le.mpr (unfit c n read partner) bound
  next => rfl

end credits

/-- Settles O45. -/
theorem creditOutcomes : Obligations.CreditOutcomes := by
  unfold Obligations.CreditOutcomes
  refine ⟨fun s l code count reserved notDown => ⟨fun c isCode isTrunk nonzero noReserved partner bound => ?_,
    fun bad => ?_, fun c isCode above => ?_⟩, fun s l body notDown wrong => ?_,
    fun s l => ⟨fun c later up due => ?_, fun idle => next_withGate_self ?_⟩⟩
  · rw [exec_creditReceived, receiveCredit_adds notDown
      (readCredit_eq_some_iff.mpr ⟨isCode, isTrunk, nonzero, noReserved, rfl⟩) partner bound]
  · rw [exec_creditReceived, receiveCredit_discards notDown fun c n read partner => ?_]
    obtain ⟨rfl, isTrunk, nonzero, noReserved, rfl⟩ := readCredit_eq_some_iff.mp read
    obtain low | high | ⟨isControl, elsewhere⟩ | zero | isReserved | noPartner := bad
    · exact absurd low packetClassCode_ne_zero
    · exact absurd packetClassCode_le (Nat.not_le.mpr high)
    · exact absurd (isTrunk (packetClassCode_injective (d := .control) isControl)) elsewhere
    · exact absurd zero nonzero
    · exact absurd noReserved isReserved
    · exact absurd (partner.symm.trans noPartner) (by decide)
  · rw [exec_creditReceived, receiveCredit_discards notDown fun d n read partner => ?_]
    obtain ⟨sameCode, isTrunk, nonzero, noReserved, rfl⟩ := readCredit_eq_some_iff.mp read
    have same : c = d := packetClassCode_injective (isCode.symm.trans sameCode)
    exact same ▸ above
  · rw [exec_creditReceived, receiveCredit_discards notDown fun c n read _ => ?_]
    rw [readCredit_wrongLength wrong] at read
    cases read
  · refine (show exec (.creditSend l) s = .next (s.withGate _) from rfl).trans ?_
    dsimp only
    rw [due]
    dsimp only
    rw [if_pos up]
    cases l <;> cases c <;> rfl
  · dsimp only
    split
    next => rfl
    next c rest due => exact if_neg (idle.resolve_right (by simp [due]))

/-! ### Malformed packets (R137, R138) -/

section malformed
variable {g : Gate} {l : LinkId}

theorem returnSpent_eq (r : LinkRecord) (c : PacketClass) :
    r.returnSpent c =
      if r.granted.get c = 0 then r
      else
        { r with
          granted := r.granted.set c (r.granted.get c - 1), freed := r.freed.set c (r.freed.get c + 1)
          creditOrder := if r.freed.get c = 0 then r.creditOrder ++ [c] else r.creditOrder } := by
  unfold LinkRecord.returnSpent
  split
  next granted => exact (if_neg granted.ne').symm
  next none => exact (if_pos (Nat.eq_zero_of_not_pos none)).symm

theorem modBranch_modBranch (g : Gate) (b : BranchNo) (f h : Branch → Branch) :
    (g.modBranch b f).modBranch b h = g.modBranch b fun x => h (f x) := by
  simp [Gate.modBranch, Gate.branch]

theorem discardMalformed_branch (b : BranchNo) (cls : Option PacketClass) (x : Option StreamId) :
    g.discardMalformed (.branch b) cls x =
      (g.modBranch b fun y =>
        { y with
          link := cls.elim y.link y.link.returnSpent
          counters := { y.counters with malformed := y.counters.malformed + 1 } }).offerFault (malformedFault x) := by
  cases cls with
  | none => rfl
  | some c =>
    exact congrArg (fun g : Gate => g.offerFault (malformedFault x))
      (modBranch_modBranch g b (fun y => { y with link := y.link.returnSpent c }) fun y =>
        { y with counters := { y.counters with malformed := y.counters.malformed + 1 } })

/-- The malformed arrival of a packet of no class of its row. -/
theorem receiveInit_discards {body : List Byte} (notDown : (g.link l).state ≠ .down) (unfit : readInit l body = none) :
    g.receiveInit l body = g.discardMalformed l none none := by
  unfold Gate.receiveInit
  rw [if_neg notDown, unfit]

theorem receive_discards {packet : List Byte} (notDown : (g.link l).state ≠ .down) (kind : isUnacceptedKind l packet = true) :
    g.receive l packet = g.discardMalformed l (classOfUnaccepted packet) none :=
  (receive_unaccepted kind).trans (if_neg notDown)

theorem isUnacceptedKind_cons {kind : Byte} {body : List Byte}
    (unaccepted : kind ∉ ([0x01, 0x02, 0x10, 0x11, 0x12, 0x20, 0x30] : List Byte) ∨ (kind = 0x30 ∧ l ≠ .trunk)) :
    isUnacceptedKind l (kind :: body) = true := by
  obtain unknown | ⟨rfl, elsewhere⟩ := unaccepted
  · have sub : ∀ k ∈ acceptedKinds l, k ∈ ([0x01, 0x02, 0x10, 0x11, 0x12, 0x20, 0x30] : List Byte) := by
      cases l <;> simp [acceptedKinds]
    simpa [isUnacceptedKind] using fun accepted => unknown (sub kind accepted)
  · cases l with
    | trunk => exact absurd rfl elsewhere
    | branch b => rfl

end malformed

/-- Settles O46. -/
theorem malformedPacketsAreDiscarded : Obligations.MalformedPacketsAreDiscarded := by
  unfold Obligations.MalformedPacketsAreDiscarded
  refine ⟨fun g cls x => ⟨?_, fun b => ?_⟩, fun s l kind body notDown unaccepted => ?_,
    fun s l flags request answer control r5 r6 r7 notDown bad => ?_,
    fun s l notDown => ⟨fun body wrong => ?_, ?_⟩⟩
  · cases cls with
    | none => rfl
    | some c =>
      simp only [← returnSpent_eq]
      rfl
  · rw [discardMalformed_branch]
    cases cls with
    | none => rfl
    | some c =>
      simp only [← returnSpent_eq]
      rfl
  · rw [exec_unacceptedKindArrival, receive_discards notDown (isUnacceptedKind_cons unaccepted)]
    rfl
  · rw [exec_initReceived, receiveInit_discards notDown (readInit_of_not_fits fun fits => ?_)]
    obtain ⟨flag, hasRequest, hasAnswer, trunk, branch, r5Zero, r6Zero, r7Zero⟩ := fits
    obtain above | noRequest | noAnswer | ⟨onTrunk, noControl⟩ | ⟨onBranch, hasControl⟩ | r5Set | r6Set | r7Set := bad
    · exact Nat.not_lt.mpr flag above
    · exact hasRequest noRequest
    · exact hasAnswer noAnswer
    · exact trunk onTrunk noControl
    · exact hasControl (branch onBranch)
    · exact r5Set r5Zero
    · exact r6Set r6Zero
    · exact r7Set r7Zero
  · rw [exec_initReceived, receiveInit_discards notDown (readInit_wrongLength wrong)]
  · rw [exec_unacceptedKindArrival, receive_discards notDown rfl]
    rfl

end Sys2Proof.Machine

/-! The replies of the other reads (10.3) and the fault record (10.5), byte by byte. -/

namespace Sys2Proof.Machine

set_option Elab.async false

/-! ### Codes -/

theorem boolByte_toNat (b : Bool) : (boolByte b).toNat = if b then 1 else 0 := by
  cases b <;> rfl

/-- A field of one byte that is zero where it is absent. -/
theorem optionalByte_toNat {α : Type} {x : Option α} {n : α → Nat} (fits : ∀ y, x = some y → n y < 256) :
    ((x.map fun y => BitVec.ofNat 8 (n y)).getD 0).toNat = (x.map n).getD 0 := by
  cases x with
  | none => rfl
  | some y => exact toNat_byte (fits y rfl)

/-! ### The fault record -/

section record
variable {r : FaultRecord}

theorem faultPresence_lt :
    presenceBit r.fault.stream 1 + presenceBit r.fault.context 2 + presenceBit r.fault.page 4 +
      presenceBit r.fault.access 8 + presenceBit r.fault.detail 16 + presenceBit r.lostBefore 32 < 256 := by
  have bit {α : Type} (x : Option α) (weight : Nat) : presenceBit x weight ≤ weight := by
    unfold presenceBit
    split <;> omega
  have := bit r.fault.stream 1
  have := bit r.fault.context 2
  have := bit r.fault.page 4
  have := bit r.fault.access 8
  have := bit r.fault.detail 16
  have := bit r.lostBefore 32
  omega

end record

/-- Settles O26: each byte of the record at its place. -/
theorem faultRecordBytesSayTheRecord : Obligations.FaultRecordBytesSayTheRecord := by
  unfold Obligations.FaultRecordBytesSayTheRecord
  intro r _ repeats lost pages
  have byte (k : Nat) := operandField_one (faultRecordBytes r) k
  have page : r.fault.page.getD 0 < 256 ^ 6 := by
    cases known : r.fault.page with
    | none => exact Nat.pow_pos (by decide)
    | some n => exact Nat.lt_trans (pages n known) (by decide)
  have before : r.lostBefore.getD 0 < 256 := by
    cases known : r.lostBefore with
    | none => decide
    | some n => exact Nat.lt_succ_of_le (lost n known)
  refine ⟨rfl, operandField_bytesOfNat (width := 2) r.sequence.isLt [] (_ :: _), (byte 2).trans ?kind,
    (byte 6).trans ?access, (byte 7).trans ?detail, (byte 8).trans (toNat_byte (by omega)),
    (byte 9).trans (toNat_byte before),
    (congrArg (operandField · 10 6) (List.append_nil _).symm).trans
      (operandField_bytesOfNat page [_, _, _, _, _, _, _, _, _, _] []),
    (byte 4).trans (optionalByte_toNat fun _ _ => by omega), (byte 5).trans (optionalByte_toNat fun _ _ => by omega),
    (byte 3).trans (toNat_byte faultPresence_lt)⟩
  case kind =>
    show (faultKindCode r.fault.kind).toNat = _
    cases r.fault.kind <;> rfl
  case access =>
    show ((r.fault.access.map accessCode).getD 0).toNat = _
    cases r.fault.access with
    | none => rfl
    | some kind => cases kind <;> rfl
  case detail =>
    show ((r.fault.detail.map answerStatusCode).getD 0).toNat = _
    cases r.fault.detail with
    | none => rfl
    | some status => cases status <;> rfl

/-! ### Figures that count entries and walks -/

section figures
variable {g : Gate}

theorem countP_liveEntries {live : LiveEntry → Bool} {counted : Entry → Bool} (ofLive : ∀ e, counted (.live e) = live e)
    (ofFree : counted .free = false) (ofLate : ∀ k, counted (.late k) = false) :
    g.liveEntries.countP live = g.entries.toList.countP counted := by
  rw [Gate.liveEntries, List.countP_filterMap]
  refine congrArg (List.countP · _) (funext fun e => ?_)
  cases e with
  | free => exact ofFree.symm
  | live e => exact (ofLive e).symm
  | late k => exact (ofLate k).symm

theorem countP_walksUnderWay {walking : Walk → Bool} {counted : WalkSlot → Bool}
    (ofWalking : ∀ w, counted (.walking w) = walking w) (ofFree : counted .free = false)
    (ofQuarantined : ∀ k, counted (.quarantined k) = false) :
    g.walksUnderWay.countP walking = g.walks.toList.countP counted := by
  rw [Gate.walksUnderWay, List.countP_filterMap]
  refine congrArg (List.countP · _) (funext fun x => ?_)
  cases x with
  | free => exact ofFree.symm
  | walking w => exact (ofWalking w).symm
  | quarantined k => exact (ofQuarantined k).symm

/-- A figure that counts places of a table of at most 255 fits its byte. -/
theorem countP_lt_256 {α : Type} {n : Nat} (small : n < 256) (v : Vector α n) (counted : α → Bool) :
    v.toList.countP counted < 256 :=
  Nat.lt_of_le_of_lt List.countP_le_length (by simpa using small)

end figures

/-! ### CONTEXT-READ (R12) -/

section contextRead
variable {g : Gate} {c : ContextNo}

/-- First page and count of a pending INVALIDATE. -/
def rangeOf : Option PendingLong → Nat × Nat
  | some ⟨.invalidate first count, _, _⟩ => (first, count)
  | _ => (0, 0)

theorem pendingRange_eq (pending : Option PendingLong) :
    pendingRange pending = bytesOfNat 4 (rangeOf pending).1 ++ bytesOfNat 4 (rangeOf pending).2 := by
  cases pending with
  | none => rfl
  | some l =>
    obtain ⟨command, tag, node⟩ := l
    cases command <;> rfl

theorem rangeOf_noInvalidate {pending : Option PendingLong}
    (other : ∀ first count tag node, pending ≠ some ⟨.invalidate first count, tag, node⟩) : rangeOf pending = (0, 0) := by
  unfold rangeOf
  split
  next first count tag node => exact absurd rfl (other first count tag node)
  next => rfl

/-- The fields of the record one after the other (10.3). -/
theorem contextReadResults_eq :
    g.contextReadResults c =
      [BitVec.ofNat 8 c.val, contextStateCode (g.context c).state, boolByte (g.context c).report,
        pendingCode (g.context c).pending] ++ (bytesOfNat 2 (g.context c).epoch.toNat ++
      ([((g.context c).pending.map (·.tag)).getD 0, ((g.context c).pending.map (·.node)).getD 0] ++
      (bytesOfNat 4 (g.context c).mapLength ++ (bytesOfNat 6 (g.context c).mapRoot.toNat ++ ([0, 0] ++
      (bytesOfNat 4 (rangeOf (g.context c).pending).1 ++ (bytesOfNat 4 (rangeOf (g.context c).pending).2 ++
      ([BitVec.ofNat 8 (g.liveOf c), BitVec.ofNat 8 (g.oldEpochOf c), BitVec.ofNat 8 (g.walksOf c),
        BitVec.ofNat 8 (g.boundStreams c)] ++ contextCounterBytes (g.context c).counters)))))))) := by
  simp [Gate.contextReadResults, pendingRange_eq]

theorem contextReadResults_length : (g.contextReadResults c).length = 60 := by
  simp [contextReadResults_eq, contextCounterBytes]

/-- The fields of more than one byte before the drain figures. -/
theorem contextReadResults_record :
    operandField (g.contextReadResults c) 4 2 = (g.context c).epoch.toNat ∧
    operandField (g.contextReadResults c) 8 4 = (g.context c).mapLength % 256 ^ 4 ∧
    operandField (g.contextReadResults c) 12 6 = (g.context c).mapRoot.toNat ∧
    operandField (g.contextReadResults c) 18 2 = 0 ∧
    operandField (g.contextReadResults c) 20 4 = (rangeOf (g.context c).pending).1 % 256 ^ 4 ∧
    operandField (g.contextReadResults c) 24 4 = (rangeOf (g.context c).pending).2 % 256 ^ 4 := by
  have epoch : (g.context c).epoch.toNat % 256 ^ 2 = (g.context c).epoch.toNat := Nat.mod_eq_of_lt (g.context c).epoch.isLt
  have root : (g.context c).mapRoot.toNat % 256 ^ 6 = (g.context c).mapRoot.toNat :=
    Nat.mod_eq_of_lt (g.context c).mapRoot.isLt
  have reserved (rest : List Byte) : operandField (0#8 :: 0#8 :: rest) 0 2 = 0 := operandField_front 2 0 rest
  simp [contextReadResults_eq, operandField_cons, operandField_skip, operandField_front, reserved, epoch, root,
    -Nat.reducePow]

theorem contextReadResults_figures :
    operandField (g.contextReadResults c) 28 1 = g.liveOf c % 256 ∧
    operandField (g.contextReadResults c) 29 1 = g.oldEpochOf c % 256 ∧
    operandField (g.contextReadResults c) 30 1 = g.walksOf c % 256 ∧
    operandField (g.contextReadResults c) 31 1 = g.boundStreams c % 256 := by
  have byte (n : Nat) (rest : List Byte) : operandField (BitVec.ofNat 8 n :: rest) 0 1 = n % 256 := operandField_front 1 n rest
  simp [contextReadResults_eq, operandField_cons, operandField_skip, byte]

theorem contextReadResults_counters :
    operandField (g.contextReadResults c) 32 4 = (g.context c).counters.lookups.toNat ∧
    operandField (g.contextReadResults c) 36 4 = (g.context c).counters.cacheHits.toNat ∧
    operandField (g.contextReadResults c) 40 4 = (g.context c).counters.walksStarted.toNat ∧
    operandField (g.contextReadResults c) 44 4 = (g.context c).counters.faultsRecorded.toNat ∧
    operandField (g.contextReadResults c) 48 4 = (g.context c).counters.faultsSilenced.toNat ∧
    operandField (g.contextReadResults c) 52 4 = (g.context c).counters.answerTimeouts.toNat ∧
    operandField (g.contextReadResults c) 56 4 = (g.context c).counters.corruptAnswers.toNat := by
  have whole (n : Counter) : n.toNat % 4294967296 = n.toNat := Nat.mod_eq_of_lt n.isLt
  simp [contextReadResults_eq, contextCounterBytes, operandField_cons, operandField_skip, operandField_front,
    operandField_whole, whole]

end contextRead

/-- Settles O36: each field of `contextReadResults_eq` at its place. -/
theorem contextReadResults : Obligations.ContextReadResults := by
  unfold Obligations.ContextReadResults
  intro s p rest c passes block sound x
  have fit : operandsFit .contextRead p.operands = true := by rw [block]; exact operandsFit_number ⟨rfl, rfl⟩ _
  have number : operandBelow 16 p.operands 0 = some c := operandBelow_ofNat (by decide) (by rw [block]; rfl)
  have ran : Gate.runContextRead p (s.gate.taken rest) =
      (s.gate.taken rest).answerDone p (s.gate.contextReadResults c) := by
    rw [Gate.runContextRead, number]
    rfl
  have byte (k : Nat) := operandField_one (s.gate.contextReadResults c) k
  obtain ⟨epoch, length, root, reserved, first, count⟩ := contextReadResults_record (g := s.gate) (c := c)
  obtain ⟨live, oldEpoch, walks, streams⟩ := contextReadResults_figures (g := s.gate) (c := c)
  have inRange : (s.gate.context c).mapLength < 256 ^ 4 := Nat.lt_of_le_of_lt sound.bounded (by decide)
  refine ⟨s.gate.contextReadResults c, exec_replies passes fit ran, contextReadResults_length,
    (byte 0).trans (toNat_byte (by omega)), (byte 1).trans ?state, (byte 2).trans (boolByte_toNat _),
    (byte 3).trans ?pending, epoch, length.trans (Nat.mod_eq_of_lt inRange), root, reserved, (byte 6).trans ?tag,
    (byte 7).trans ?node, fun i n tag node invalidate firstFits countFits => ⟨first.trans ?first, count.trans ?count⟩,
    fun other => ⟨first.trans ?noFirst, count.trans ?noCount⟩, live.trans ?live, oldEpoch.trans ?oldEpoch,
    walks.trans ?walks, streams.trans ?streams, contextReadResults_counters⟩
  case state =>
    show (contextStateCode (s.gate.context c).state).toNat = _
    cases (s.gate.context c).state <;> rfl
  case pending =>
    show (pendingCode (s.gate.context c).pending).toNat = _
    cases (s.gate.context c).pending with
    | none => rfl
    | some l =>
      obtain ⟨command, tag, node⟩ := l
      cases command <;> rfl
  case tag =>
    show (((s.gate.context c).pending.map PendingLong.tag).getD 0).toNat = _
    cases (s.gate.context c).pending <;> rfl
  case node =>
    show (((s.gate.context c).pending.map PendingLong.node).getD 0).toNat = _
    cases (s.gate.context c).pending <;> rfl
  case first => rw [invalidate]; exact Nat.mod_eq_of_lt firstFits
  case count => rw [invalidate]; exact Nat.mod_eq_of_lt countFits
  case noFirst => rw [rangeOf_noInvalidate other]; exact Nat.zero_mod _
  case noCount => rw [rangeOf_noInvalidate other]; exact Nat.zero_mod _
  case live =>
    refine (congrArg (· % 256) (countP_liveEntries (fun e => ?_) rfl fun _ => rfl)).trans
      (Nat.mod_eq_of_lt (countP_lt_256 (by decide) _ _))
    obtain ⟨stream, tag, kind, length, page, slot, generation, binding, orphan, timer⟩ := e
    cases binding <;> rfl
  case oldEpoch =>
    refine (congrArg (· % 256) (countP_liveEntries (fun e => ?_) rfl fun _ => rfl)).trans
      (Nat.mod_eq_of_lt (countP_lt_256 (by decide) _ _))
    obtain ⟨stream, tag, kind, length, page, slot, generation, binding, orphan, timer⟩ := e
    cases binding <;> rfl
  case walks =>
    refine (congrArg (· % 256) (countP_walksUnderWay (fun w => ?_) rfl fun k => ?_)).trans
      (Nat.mod_eq_of_lt (countP_lt_256 (by decide) _ _))
    · rfl
    · rfl
  case streams => exact Nat.mod_eq_of_lt (countP_lt_256 (by decide) _ _)

/-! ### WINDOW-READ (R118) -/

section windowRead
variable {i : WindowNo} {w : Window}

/-- The target base that WINDOW-READ shows (10.3). -/
def WindowKind.shownTarget : WindowKind → Addr
  | .exclude => 0
  | .forward target _ _ => target

theorem windowReadResults_addresses :
    operandField (windowReadResults i w) 4 6 = w.base.toNat ∧ operandField (windowReadResults i w) 10 6 = w.last.toNat ∧
      operandField (windowReadResults i w) 16 6 = w.kind.shownTarget.toNat := by
  have whole (a : Addr) : a.toNat % 256 ^ 6 = a.toNat := Nat.mod_eq_of_lt a.isLt
  obtain ⟨enabled, kind, base, last⟩ := w
  cases kind <;>
    simp [windowReadResults, WindowKind.shownTarget, operandField_cons, operandField_skip, operandField_front, whole,
      -Nat.reducePow]

theorem runWindowRead_done {g : Gate} {p : ControlPacket} (number : operandBelow 8 p.operands 0 = some i) :
    g.runWindowRead p = g.answerDone p (windowReadResults i (g.window i)) := by
  rw [Gate.runWindowRead, number]

theorem runWindowRead_refused {g : Gate} {p : ControlPacket} (above : operandBelow 8 p.operands 0 = none) :
    g.runWindowRead p = g.refuse p .badArgument := by
  rw [Gate.runWindowRead, above]

end windowRead

/-! ### BRANCH-READ (R140) -/

section branchRead
variable {g : Gate} {b : BranchNo}

/-- Credits of a branch that are held, granted or stand for a buffered packet fit their bytes (R128). -/
theorem branchCredits_lt (sound : g.LinksSound) (c : PacketClass) :
    (g.branch b).link.held.get c < 256 ∧ (g.branch b).link.granted.get c < 256 ∧ g.buffered (.branch b) c < 256 := by
  have held : (g.branch b).link.held.get c ≤ 255 := (sound.records (.branch b)).held c
  have conserved : (g.branch b).link.granted.get c + g.buffered (.branch b) c + (g.branch b).link.freed.get c =
      branchCapacity.get c := sound.conserved (.branch b) c
  have small : branchCapacity.get c ≤ 32 := by cases c <;> decide
  omega

theorem branchReadResults_counters :
    operandField (g.branchReadResults b) 14 2 = 0 ∧
    operandField (g.branchReadResults b) 16 4 = (g.branch b).counters.queued.toNat ∧
    operandField (g.branchReadResults b) 20 4 = (g.branch b).counters.departed.toNat ∧
    operandField (g.branchReadResults b) 24 4 = (g.branch b).counters.refused.toNat ∧
    operandField (g.branchReadResults b) 28 4 = (g.branch b).counters.answersSent.toNat ∧
    operandField (g.branchReadResults b) 32 4 = (g.branch b).counters.malformed.toNat ∧
    operandField (g.branchReadResults b) 36 4 = (g.branch b).counters.linkDowns.toNat := by
  have whole (n : Counter) : n.toNat % 4294967296 = n.toNat := Nat.mod_eq_of_lt n.isLt
  have reserved (rest : List Byte) : operandField (0#8 :: 0#8 :: rest) 0 2 = 0 := operandField_front 2 0 rest
  simp [Gate.branchReadResults, operandField_cons, operandField_skip, operandField_front, operandField_whole, whole,
    reserved]

theorem runBranchRead_done {p : ControlPacket} (number : operandBelow 4 p.operands 0 = some b) :
    g.runBranchRead p = g.answerDone p (g.branchReadResults b) := by
  rw [Gate.runBranchRead, number]

theorem runBranchRead_refused {p : ControlPacket} (above : operandBelow 4 p.operands 0 = none) :
    g.runBranchRead p = g.refuse p .badArgument := by
  rw [Gate.runBranchRead, above]

end branchRead

/-- Settles O40: the addresses and counters by the lemmas above, each other byte at its place. -/
theorem windowAndBranchReadResults : Obligations.WindowAndBranchReadResults := by
  unfold Obligations.WindowAndBranchReadResults
  refine ⟨fun s p rest index passes block => ?_, fun s p rest x passes block => ?_⟩
  · have fit : operandsFit .windowRead p.operands = true := by rw [block]; exact operandsFit_number ⟨rfl, rfl⟩ _
    refine ⟨fun i is => ?_, fun above => exec_replies passes fit (runWindowRead_refused (operandBelow_eq_none ?_))⟩
    · have number : operandBelow 8 p.operands 0 = some i := operandBelow_ofNat (by decide) (by rw [block]; exact is)
      have byte (k : Nat) := operandField_one (windowReadResults i (s.gate.window i)) k
      obtain ⟨base, last, target⟩ := windowReadResults_addresses (i := i) (w := s.gate.window i)
      refine ⟨windowReadResults i (s.gate.window i), exec_replies passes fit (runWindowRead_done number), ?_⟩
      generalize s.gate.window i = w at *
      obtain ⟨enabled, kind, baseOf, lastOf⟩ := w
      cases kind with
      | exclude =>
        exact ⟨rfl, (byte 0).trans (toNat_byte (by omega)), byte 1, base, last, (byte 22).trans (boolByte_toNat _), byte 23,
          byte 2, byte 3, target⟩
      | forward targetOf b access =>
        refine ⟨rfl, (byte 0).trans (toNat_byte (by omega)), byte 1, base, last, (byte 22).trans (boolByte_toNat _), byte 23,
          (byte 2).trans (toNat_byte (by omega)), (byte 3).trans ?_, target⟩
        cases access <;> rfl
    · rw [block]
      exact above
  · have fit : operandsFit .branchRead p.operands = true := by rw [block]; exact operandsFit_number ⟨rfl, rfl⟩ _
    refine ⟨fun b is sound waiting egress => ?_,
      fun above => exec_replies passes fit (runBranchRead_refused (operandBelow_eq_none ?_))⟩
    · have number : operandBelow 4 p.operands 0 = some b := operandBelow_ofNat (by decide) (by rw [block]; exact is)
      have byte (k : Nat) := operandField_one (s.gate.branchReadResults b) k
      obtain ⟨heldRequest, grantedRequest, queued⟩ := branchCredits_lt (b := b) sound .request
      obtain ⟨heldAnswer, grantedAnswer, ingress⟩ := branchCredits_lt (b := b) sound .answer
      obtain ⟨reserved, counters⟩ := branchReadResults_counters (g := s.gate) (b := b)
      have waitingFits : (s.gate.branch b).slotWait.length < 256 := by omega
      have egressFits : (s.gate.branch b).egressRequests.length < 256 := by omega
      refine ⟨s.gate.branchReadResults b, exec_replies passes fit (runBranchRead_done number), rfl,
        (byte 0).trans (toNat_byte (by omega)), (byte 1).trans ?state, (byte 2).trans (boolByte_toNat _), byte 3, reserved,
        (byte 4).trans (toNat_byte heldRequest), (byte 5).trans (toNat_byte heldAnswer),
        (byte 6).trans (toNat_byte grantedRequest), (byte 7).trans (toNat_byte grantedAnswer),
        (byte 8).trans (toNat_byte queued), (byte 9).trans (toNat_byte waitingFits),
        (byte 10).trans ((toNat_byte (countP_lt_256 (by decide) _ _)).trans ?reservedSlots),
        (byte 11).trans ((toNat_byte (countP_lt_256 (by decide) _ _)).trans ?occupiedSlots),
        (byte 12).trans (toNat_byte egressFits), (byte 13).trans (toNat_byte ingress), counters⟩
      case state =>
        show (linkStateCode (s.gate.branch b).link.state).toNat = _
        cases (s.gate.branch b).link.state <;> rfl
      case reservedSlots => rfl
      case occupiedSlots =>
        refine congrArg (List.countP · _) (funext fun k => ?_)
        cases k <;> rfl
    · rw [block]
      exact above

end Sys2Proof.Machine

/-! The retire of an ACTIVE context (R8 to R10), and the two commands that find a drain complete (R10, R92). -/

namespace Sys2Proof.Machine

set_option Elab.async false

section drain
variable {s : State} {g : Gate} {c : ContextNo} {p : ControlPacket} {rest : List ControlPacket} {tag node : Byte}

/-! ### The drain of a retire (R9) -/

theorem LiveEntry.ofContext_iff {e : LiveEntry} : e.ofContext c = true ↔ ∃ epoch, e.binding = .mapped c epoch := by
  unfold ofContext
  cases e.binding <;> simp

/-- An entry is LIVE under the context, or a walk under way for it, whatever the epoch (R9). -/
def Gate.Held (g : Gate) (c : ContextNo) : Prop :=
  (∃ t e epoch, g.entry t = .live e ∧ e.binding = .mapped c epoch) ∨ (∃ i w, g.walk i = .walking w ∧ w.context = c)

theorem retireDrained_iff : g.retireDrained c = true ↔ ¬ g.Held c := by
  rw [Gate.retireDrained, Gate.Held, not_or, Bool.and_eq_true]
  refine and_congr ?entries ?walks
  case entries =>
    simp only [List.all_eq_true, mem_liveEntries, Bool.not_eq_true', ← Bool.not_eq_true, LiveEntry.ofContext_iff]
    exact ⟨fun free ⟨t, e, epoch, live, bound⟩ => free e ⟨t, live⟩ ⟨epoch, bound⟩,
      fun free e ⟨t, live⟩ ⟨epoch, bound⟩ => free ⟨t, e, epoch, live, bound⟩⟩
  case walks =>
    simp only [List.all_eq_true, mem_walksUnderWay, bne_iff_ne]
    exact ⟨fun free ⟨i, w, walking, same⟩ => free w ⟨i, walking⟩ same,
      fun free w ⟨i, walking⟩ same => free ⟨i, w, walking, same⟩⟩

/-! ### The retire of an ACTIVE context (R8) -/

theorem runContextRetire_active (number : operandBelow 16 p.operands 0 = some c) (active : (g.context c).state = .active)
    (idle : (g.context c).pending = none) : g.runContextRetire p = g.retireActive c p := by
  simp [Gate.runContextRetire, number, active, idle]

/-- The gate past the removal of the cache entries and the raise of the epoch, with the context DRAINING, before the drain is
judged (R8). -/
def Gate.draining (g : Gate) (c : ContextNo) : Gate :=
  ((g.raiseEpoch c).removeCached c fun _ => true).modContext c fun x => { x with state := .draining }

theorem draining_eq :
    g.draining c =
      { g with
        cache := g.cache.filter fun e => e.context != c
        contexts := g.contexts.set c.val { g.context c with state := .draining, epoch := (g.context c).epoch + 1 } } := by
  simp [Gate.draining, Gate.raiseEpoch, Gate.removeCached, Gate.modContext, Gate.context, bne]

theorem context_draining :
    (g.draining c).context c = { g.context c with state := .draining, epoch := (g.context c).epoch + 1 } := by
  simp [draining_eq, Gate.context]

theorem retireDrained_draining : (g.draining c).retireDrained c = true ↔ ¬ g.Held c := retireDrained_iff

theorem retireActive_held (held : g.Held c) :
    g.retireActive c p = (g.draining c).setPending c .retire p.tag p.source :=
  if_neg fun drained => retireDrained_draining.mp drained held

theorem retireActive_drained (drained : ¬ g.Held c) :
    g.retireActive c p = (g.draining c).completeRetire c p.tag p.source :=
  if_pos (retireDrained_draining.mpr drained)

theorem setPending_draining :
    (g.draining c).setPending c .retire tag node =
      { g with
        cache := g.cache.filter fun e => e.context != c
        contexts := g.contexts.set c.val
          { g.context c with
            state := .draining, epoch := (g.context c).epoch + 1, pending := some ⟨.retire, tag, node⟩ }
        management := { g.management with pendingList := g.management.pendingList ++ [⟨.retire, c, tag, node⟩] } } := by
  rw [Gate.setPending, Gate.modContext, context_draining, draining_eq]
  simp [Gate.modManagement]

/-- The bindings of the context are withdrawn, and it is FREE (R10). -/
def Gate.freed (g : Gate) (c : ContextNo) : Gate := (g.unbindContext c).modContext c fun x => { x with state := .free }

theorem stream_freed (x : StreamId) : (g.freed c).stream x = (g.unbindContext c).stream x := rfl

theorem freed_draining_eq :
    (g.draining c).freed c =
      { g with
        cache := g.cache.filter fun e => e.context != c
        contexts := g.contexts.set c.val { g.context c with state := .free, epoch := (g.context c).epoch + 1 }
        streams := ((g.draining c).freed c).streams } := by
  simp [Gate.freed, draining_eq, Gate.unbindContext, Gate.modContext, Gate.context]

/-- R8, R10: a retire that completes when taken has not been recorded. -/
theorem completeRetire_draining (idle : (g.context c).pending = none)
    (unlisted : ∀ e ∈ g.management.pendingList, e.context ≠ c) (code : p.code = commandCode .contextRetire) :
    (g.draining c).completeRetire c p.tag p.source = ((g.draining c).freed c).reply p .done [] := by
  have idle' : (((g.draining c).freed c).context c).pending = none := by
    rw [Gate.freed, Gate.context_modContext, if_pos rfl]
    exact (congrArg Context.pending context_draining).trans idle
  have unlisted' : ∀ e ∈ ((g.draining c).freed c).management.pendingList, e.context ≠ c := unlisted
  have clears := clearPending_idle idle' unlisted'
  rw [Gate.completeRetire, ← Gate.freed, clears, ← code]
  rfl

end drain

/-- Settles O32: `Gate.Held` decides between recording the command and completing it. -/
theorem retireActiveDrainsOrCompletes : Obligations.RetireActiveDrainsOrCompletes := by
  unfold Obligations.RetireActiveDrainsOrCompletes
  intro s p rest c passes block active idle unlisted cache held
  have fit : operandsFit .contextRetire p.operands = true := by rw [block]; exact operandsFit_number ⟨rfl, rfl⟩ _
  have number : operandBelow 16 p.operands 0 = some c := operandBelow_ofNat (by decide) (by rw [block]; rfl)
  have ran := runContextRetire_active (g := s.gate.taken rest) number active idle
  refine ⟨fun isHeld => ?_, fun isDrained => ⟨(s.gate.draining c).freed c, ?_, freed_draining_eq, fun x => ?_⟩⟩
  · have recorded := (ran.trans (retireActive_held isHeld)).trans setPending_draining
    exact (exec_passes passes fit).trans (congrArg (fun g => Host.Outcome.next (s.withGate g)) recorded)
  · have completed := (ran.trans (retireActive_drained isDrained)).trans
      (completeRetire_draining idle unlisted passes.takes.code)
    exact exec_replies passes fit completed
  · rw [stream_freed, Gate.stream_unbindContext]
    rfl

/-! ### RETIRE_COMPLETE and INVALIDATE_COMPLETE (R10, R92) -/

section complete
variable {g : Gate} {c : ContextNo} {tag node : Byte}

theorem judgeRetire_drained (retire : (g.context c).pending = some ⟨.retire, tag, node⟩) (drained : ¬ g.Held c) :
    g.judgeRetire c = g.completeRetire c tag node := by
  simp only [Gate.judgeRetire, retire]
  exact if_pos (retireDrained_iff.mpr drained)

theorem judgeRetire_held (held : g.Held c) : g.judgeRetire c = g := by
  unfold Gate.judgeRetire
  split
  · exact if_neg fun drained => retireDrained_iff.mp drained held
  · rfl

theorem completeRetire_eq :
    g.completeRetire c tag node =
      { g with
        contexts := g.contexts.set c.val { g.context c with state := .free, pending := none }
        streams := (g.completeRetire c tag node).streams
        management :=
          { g.management with
            pendingList := g.management.pendingList.filter fun e => e.context != c
            controlQueue := g.management.controlQueue ++ [.reply node tag .done 0x12 []] } } := by
  simp [Gate.completeRetire, Gate.unbindContext, Gate.clearPending, Gate.queueReply, Gate.modContext, Gate.modManagement,
    Gate.context, commandCode]

theorem judgeInvalidate_drained {first count : Nat}
    (invalidate : (g.context c).pending = some ⟨.invalidate first count, tag, node⟩)
    (drained : ¬ g.HeldAt c ((g.context c).epoch - 1)) : g.judgeInvalidate c = g.completeInvalidate c tag node := by
  simp only [Gate.judgeInvalidate, invalidate]
  exact if_pos (invalidateDrained_iff.mpr drained)

theorem judgeInvalidate_held (held : g.HeldAt c ((g.context c).epoch - 1)) : g.judgeInvalidate c = g := by
  unfold Gate.judgeInvalidate
  split
  · exact if_neg fun drained => invalidateDrained_iff.mp drained held
  · rfl

end complete

/-- Settles O35. -/
theorem drainCompletionOutcomes : Obligations.DrainCompletionOutcomes := by
  unfold Obligations.DrainCompletionOutcomes
  refine ⟨fun s c => ⟨fun tag node retire drained => ?_, fun held => next_withGate_self ?_⟩,
    fun s c => ⟨fun first count tag node invalidate drained => ?_, fun held => next_withGate_self ?_⟩⟩
  · refine ⟨s.gate.completeRetire c tag node, ?_, completeRetire_eq, fun x => ?_⟩
    · rw [exec_retireComplete, judgeRetire_drained retire drained]
    · exact Gate.stream_unbindContext x
  · obtain held | noRetire := held
    · exact judgeRetire_held held
    · exact judgeRetire_of_noRetire noRetire
  · rw [exec_invalidateComplete, judgeInvalidate_drained invalidate drained]
    rfl
  · obtain held | noInvalidate := held
    · exact judgeInvalidate_held held
    · exact judgeInvalidate_of_noInvalidate noInvalidate

end Sys2Proof.Machine

/-! Arrivals of class packets (08): what each reader asks of the bytes, and how a packet joins its buffer. -/

namespace Sys2Proof.Machine

set_option Elab.async false

theorem next_congr {s : State} {g h : Gate} (same : g = h) :
    (.next (s.withGate g) : Host.Outcome State Fault Refusal) = .next (s.withGate h) := by rw [same]

/-! ### The joining of a class packet (R135, R137) -/

section arrive
variable {α : Type} {g : Gate} {l : LinkId} {c : PacketClass} {packet : Option α} {stream : Option StreamId}
  {join : α → Gate → Gate}

theorem arrive_joins {p : α} (notDown : (g.link l).state ≠ .down) (read : packet = some p)
    (partner : (g.link l).partnerInit = true) (granted : 0 < (g.link l).granted.get c) :
    g.arrive l c packet stream join = join p (g.modLink l (·.useGranted c)) := by
  unfold Gate.arrive
  rw [if_neg notDown, read]
  exact if_pos ⟨partner, granted⟩

theorem arrive_discards (notDown : (g.link l).state ≠ .down)
    (unfit : ∀ p, packet = some p → ¬ ((g.link l).partnerInit = true ∧ 0 < (g.link l).granted.get c)) :
    g.arrive l c packet stream join = g.discardMalformed l (some c) stream := by
  unfold Gate.arrive
  rw [if_neg notDown]
  split
  next p => exact if_neg (unfit p rfl)
  next => rfl

end arrive

/-! ### Reading a request (10.2) -/

section request
variable {kind : RequestKind} {origin tag reserved : Byte} {length address payload : List Byte}

/-- What the fields of a request of the right layout must be (R137, R154). -/
def RequestFits (kind : RequestKind) (tag reserved : Byte) (size address : Nat) (payload : List Byte) : Prop :=
  (kind = .push → tag = 0) ∧ reserved = 0 ∧ 1 ≤ size ∧ size ≤ 256 ∧ address + size ≤ 2 ^ 48 ∧
    payload.length = (if kind = .fetch then 0 else size)

theorem readRequest_of_fits (two : length.length = 2) (six : address.length = 6)
    (fits : RequestFits kind tag reserved (natOfBytes length) (natOfBytes address) payload) :
    readRequest kind ([origin, tag, reserved] ++ length ++ address ++ payload) =
      some { kind := kind, origin := origin, tag := tag, address := BitVec.ofNat 48 (natOfBytes address),
             length := natOfBytes length, payload := payload } := by
  match length, address, two, six with
  | [_, _], [_, _, _, _, _, _], _, _ => exact if_pos fits

theorem readRequest_of_not_fits (two : length.length = 2) (six : address.length = 6)
    (unfit : ¬ RequestFits kind tag reserved (natOfBytes length) (natOfBytes address) payload) :
    readRequest kind ([origin, tag, reserved] ++ length ++ address ++ payload) = none := by
  match length, address, two, six with
  | [_, _], [_, _, _, _, _, _], _, _ => exact if_neg unfit

theorem requestFits_of_read {p : HostRequest} (two : length.length = 2) (six : address.length = 6)
    (read : readRequest kind ([origin, tag, reserved] ++ length ++ address ++ payload) = some p) :
    RequestFits kind tag reserved (natOfBytes length) (natOfBytes address) payload := by
  by_contra unfit
  rw [readRequest_of_not_fits two six unfit] at read
  cases read

theorem origin_of_read {p : HostRequest} (two : length.length = 2) (six : address.length = 6)
    (read : readRequest kind ([origin, tag, reserved] ++ length ++ address ++ payload) = some p) : p.origin = origin := by
  rw [readRequest_of_fits two six (requestFits_of_read two six read)] at read
  exact (congrArg HostRequest.origin (Option.some.inj read)).symm

/-- The payload of a FETCH is empty, that of a PUSH or COMMIT has the request's length. -/
theorem payloadLength_iff {size : Nat} :
    payload.length = (match kind with | .fetch => 0 | _ => size) ↔ payload.length = (if kind = .fetch then 0 else size) := by
  cases kind <;> rfl

theorem readRequest_short {body : List Byte} (short : body.length < 11) : readRequest kind body = none := by
  unfold readRequest
  split
  · simp only [List.length_cons] at short
    omega
  · rfl

end request

/-! ### Reading a CONTROL packet and an ANSWER (10.2) -/

section control
variable {source gateId tag code reserved : Byte} {length operands : List Byte}

theorem readControl_of_fits (two : length.length = 2) (fits : reserved = 0 ∧ operands.length = natOfBytes length) :
    readControl ([source, gateId, tag, code, reserved] ++ length ++ operands) = some ⟨source, gateId, tag, code, operands⟩ := by
  match length, two with
  | [_, _], _ => exact if_pos fits

theorem readControl_of_not_fits (two : length.length = 2) (unfit : ¬ (reserved = 0 ∧ operands.length = natOfBytes length)) :
    readControl ([source, gateId, tag, code, reserved] ++ length ++ operands) = none := by
  match length, two with
  | [_, _], _ => exact if_neg unfit

theorem controlFits_of_read {p : ControlPacket} (two : length.length = 2)
    (read : readControl ([source, gateId, tag, code, reserved] ++ length ++ operands) = some p) :
    reserved = 0 ∧ operands.length = natOfBytes length := by
  by_contra unfit
  rw [readControl_of_not_fits two unfit] at read
  cases read

theorem readControl_short {body : List Byte} (short : body.length < 7) : readControl body = none := by
  unfold readControl
  split
  · simp only [List.length_cons] at short
    omega
  · rfl

end control

section answer
variable {destination tag code r6 r7 : Byte} {length payload : List Byte} {status : AnswerStatus}

theorem answerStatusOf_eq_some_iff : answerStatusOf code = some status ↔ code = answerStatusCode status := by
  have written (st : AnswerStatus) : answerStatusOf (answerStatusCode st) = some st := by cases st <;> rfl
  refine ⟨fun read => ?_, fun is => is ▸ written status⟩
  unfold answerStatusOf at read
  split_ifs at read with done denied noroute timeout corrupt
  all_goals
    obtain rfl := Option.some.inj read
    assumption

/-- What the fields of an ANSWER of the right layout must be, past its status (R137, R154). -/
def AnswerFits (status : AnswerStatus) (r6 r7 : Byte) (size : Nat) (payload : List Byte) : Prop :=
  r6 = 0 ∧ r7 = 0 ∧ payload.length = size ∧ payload.length ≤ 256 ∧ (status ≠ .done → payload = [])

theorem readAnswer_eq_some_iff {a : Answer} (two : length.length = 2) :
    readAnswer ([destination, tag, code] ++ length ++ [r6, r7] ++ payload) = some a ↔
      ∃ status, code = answerStatusCode status ∧ AnswerFits status r6 r7 (natOfBytes length) payload ∧
        a = ⟨destination, tag, status, payload⟩ := by
  match length, two with
  | [l1, l0], _ =>
    have read : readAnswer ([destination, tag, code] ++ [l1, l0] ++ [r6, r7] ++ payload) =
        (answerStatusOf code).bind fun st =>
          if r6 = 0 ∧ r7 = 0 ∧ payload.length = natOfBytes [l1, l0] ∧ payload.length ≤ Config.maxLength ∧
            (st ≠ .done → payload = []) then some ⟨destination, tag, st, payload⟩ else none := by
      cases status : answerStatusOf code with
      | none => simp [readAnswer, status]
      | some st => simp [readAnswer, status]
    rw [read, Option.bind_eq_some_iff]
    refine exists_congr fun st => and_congr answerStatusOf_eq_some_iff ?_
    rw [Option.ite_none_right_eq_some]
    exact and_congr Iff.rfl (Option.some_inj.trans eq_comm)

theorem readAnswer_short {body : List Byte} (short : body.length < 7) : readAnswer body = none := by
  unfold readAnswer
  split
  · simp only [List.length_cons] at short
    omega
  · rfl

end answer

/-! ### The statements -/

section buffers
variable {g : Gate}

/-- An ANSWER of the trunk is taken from its buffer at once, with those before it (R80). -/
theorem receiveTrunkAnswer_joins {body : List Byte} {a : Answer} (notDown : g.trunk.link.state ≠ .down)
    (read : readAnswer body = some a) (partner : g.trunk.link.partnerInit = true) (granted : 0 < g.trunk.link.granted.answer) :
    g.receiveTrunkAnswer body =
      Gate.takeAnswers (g.trunk.ingressAnswers ++ [a])
        { g with
          trunk :=
            { g.trunk with
              link := g.trunk.link.useGranted .answer, ingressAnswers := g.trunk.ingressAnswers ++ [a] } } :=
  arrive_joins (l := .trunk) (c := .answer) notDown read partner granted

theorem receiveBranchAnswer_joins {b : BranchNo} {body : List Byte} {a : Answer} (notDown : (g.branch b).link.state ≠ .down)
    (read : readAnswer body = some a) (partner : (g.branch b).link.partnerInit = true)
    (granted : 0 < (g.branch b).link.granted.answer) :
    g.receiveBranchAnswer b body =
      g.modBranch b fun y =>
        { y with link := y.link.useGranted .answer, ingressAnswers := y.ingressAnswers ++ [a] } :=
  (arrive_joins (l := .branch b) (c := .answer) notDown read partner granted).trans
    (modBranch_modBranch g b (fun y => { y with link := y.link.useGranted .answer }) fun y =>
      { y with ingressAnswers := y.ingressAnswers ++ [a] })

end buffers

/-- Settles O48: each reader decides with the credit between joining and discarding. -/
theorem classPacketsJoinTheirBuffers : Obligations.ClassPacketsJoinTheirBuffers := by
  unfold Obligations.ClassPacketsJoinTheirBuffers
  refine ⟨fun s kind origin tag reserved length address payload notDown two six => ?request,
    fun s source gateId tag code reserved length operands notDown two => ?control,
    fun s l destination tag code r6 r7 length payload notDown two => ?answer, fun g a rest => ⟨rfl, rfl⟩,
    fun s kind body notDown => ⟨fun short => ?_, fun short => ⟨?_, ?_⟩⟩, fun s b body notDown short => ?_⟩
  case request =>
    refine ⟨fun ⟨push, noReserved, one, most, space, exact, partner, granted⟩ => ?_, fun unfit => ?_⟩
    · have fits := payloadLength_iff.mp exact
      have read := readRequest_of_fits (origin := origin) two six ⟨push, noReserved, one, most, space, fits⟩
      exact next_congr (arrive_joins (l := .trunk) (c := .request) notDown read partner granted)
    · refine next_congr (arrive_discards (l := .trunk) (c := .request) notDown fun p read ⟨partner, granted⟩ => unfit ?_)
      obtain ⟨push, noReserved, one, most, space, fits⟩ := requestFits_of_read two six read
      exact ⟨push, noReserved, one, most, space, payloadLength_iff.mpr fits, partner, granted⟩
  case control =>
    refine ⟨fun ⟨noReserved, exact, partner, granted⟩ => ?_, fun unfit => ?_⟩
    · exact next_congr (arrive_joins (l := .trunk) (c := .control) notDown (readControl_of_fits two ⟨noReserved, exact⟩)
        partner granted)
    · refine next_congr (arrive_discards (l := .trunk) (c := .control) notDown fun p read ⟨partner, granted⟩ => unfit ?_)
      obtain ⟨noReserved, exact⟩ := controlFits_of_read two read
      exact ⟨noReserved, exact, partner, granted⟩
  case answer =>
    refine ⟨fun status ⟨isCode, r6Zero, r7Zero, exact, most, empty, partner, granted⟩ => ?_, fun unfit => ?_⟩
    · have read := (readAnswer_eq_some_iff (destination := destination) (tag := tag) two).mpr
        ⟨status, isCode, ⟨r6Zero, r7Zero, exact, most, empty⟩, rfl⟩
      cases l with
      | trunk => exact next_congr (receiveTrunkAnswer_joins notDown read partner granted)
      | branch b => exact next_congr (receiveBranchAnswer_joins notDown read partner granted)
    · have discards (a : Answer)
          (read : readAnswer ([destination, tag, code] ++ length ++ [r6, r7] ++ payload) = some a) :
          ¬ ((s.gate.link l).partnerInit = true ∧ 0 < (s.gate.link l).granted.get .answer) := by
        rintro ⟨partner, granted⟩
        obtain ⟨status, isCode, ⟨r6Zero, r7Zero, exact, most, empty⟩, -⟩ := (readAnswer_eq_some_iff two).mp read
        exact unfit status ⟨isCode, r6Zero, r7Zero, exact, most, empty, partner, granted⟩
      cases l with
      | trunk => exact next_congr (arrive_discards (l := .trunk) notDown discards)
      | branch b => exact next_congr (arrive_discards (l := .branch b) notDown discards)
  · refine next_congr (arrive_discards (l := .trunk) notDown fun p read => ?_)
    rw [readRequest_short short] at read
    cases read
  · refine next_congr (arrive_discards (l := .trunk) notDown fun p read => ?_)
    rw [readControl_short short] at read
    cases read
  · refine next_congr (arrive_discards (l := .trunk) notDown fun p read => ?_)
    rw [readAnswer_short short] at read
    cases read
  · refine next_congr (arrive_discards (l := .branch b) notDown fun p read => ?_)
    rw [readAnswer_short short] at read
    cases read

/-! ### Requests of devices (R51) -/

section stream
variable {g : Gate} {b : BranchNo} {x : StreamId} {kind : RequestKind} {origin : Byte} {body more : List Byte}

theorem streamNoOf_map_streamIdOf (is : x.val = 16 * b.val + origin.toNat) (below : origin.toNat < 16) :
    (streamNoOf origin).map (streamIdOf b) = some x := by
  rw [streamNoOf, dif_pos below]
  exact congrArg some (Fin.ext is.symm)

theorem streamNoOf_eq_none (above : 16 ≤ origin.toNat) : streamNoOf origin = none := dif_neg (Nat.not_lt.mpr above)

theorem readableStream_eq_some (is : x.val = 16 * b.val + origin.toNat) (below : origin.toNat < 16) :
    readableStream b (origin :: more) = some x := streamNoOf_map_streamIdOf is below

theorem readableStream_eq_none (above : 16 ≤ origin.toNat) : readableStream b (origin :: more) = none := by
  rw [readableStream, streamNoOf_eq_none above]
  rfl

theorem readBranchRequest_eq_none (unread : readRequest kind body = none) : readBranchRequest b kind body = none := by
  rw [readBranchRequest, unread]

theorem readRequest_of_readBranchRequest {p : StreamId × Request} (read : readBranchRequest b kind body = some p) :
    ∃ q, readRequest kind body = some q ∧ (streamNoOf q.origin).isSome := by
  unfold readBranchRequest at read
  split at read
  next q isRead =>
    obtain ⟨n, isNumber, -⟩ := Option.map_eq_some_iff.mp read
    exact ⟨q, isRead, by rw [isNumber]; rfl⟩
  next => cases read

theorem branchOf_of_eq (is : x.val = 16 * b.val + origin.toNat) (below : origin.toNat < 16) : branchOf x = b := by
  rw [branchOf_eq_iff]
  omega

theorem readBranchRequest_eq_some {q : HostRequest} (read : readRequest kind body = some q) (isOrigin : q.origin = origin)
    (is : x.val = 16 * b.val + origin.toNat) (below : origin.toNat < 16) :
    readBranchRequest b kind body = some (x, ⟨q.kind, q.tag, q.address, q.length, q.payload⟩) := by
  subst isOrigin
  have number : streamNoOf q.origin = some ⟨q.origin.toNat, below⟩ := dif_pos below
  simp only [readBranchRequest, read, number]
  exact congrArg some (Prod.ext (Fin.ext is.symm) rfl)

/-- The gate with `r` at the tail of the queue of stream `x`, its credit used, and counted (R51, R63, R135). -/
def Gate.joined (g : Gate) (x : StreamId) (r : Request) : Gate :=
  { g with
    streams := g.streams.set x.val { g.stream x with queue := (g.stream x).queue ++ [r] }
    branches := g.branches.set (branchOf x).val
      { g.branch (branchOf x) with
        link := (g.branch (branchOf x)).link.useGranted .request
        counters :=
          { (g.branch (branchOf x)).counters with queued := (g.branch (branchOf x)).counters.queued + 1 } } }

theorem joinStream_useGranted (r : Request) :
    (g.modLink (.branch (branchOf x)) (·.useGranted .request)).joinStream x r =
      if (g.stream x).queue = [] then Gate.startHeads x [r] (g.joined x r) else g.joined x r := by
  have joins : ((g.modLink (.branch (branchOf x)) (·.useGranted .request)).modStream x fun y =>
      { y with queue := y.queue ++ [r] }).countBranch (branchOf x) (fun y => { y with queued := y.queued + 1 }) =
      g.joined x r := by
    simp [Gate.joined, Gate.modBranch, Gate.countBranch, Gate.modStream, Gate.branch, Gate.stream]
  have same : ((g.modLink (.branch (branchOf x)) (·.useGranted .request)).stream x).queue = (g.stream x).queue := rfl
  unfold Gate.joinStream
  simp only [joins, same, List.isEmpty_iff]

theorem receiveBranchRequest_discards (notDown : (g.branch b).link.state ≠ .down)
    (unfit : ∀ p, readBranchRequest b kind body = some p →
      ¬ ((g.branch b).link.partnerInit = true ∧ 0 < (g.branch b).link.granted.request)) :
    g.receiveBranchRequest b kind body = g.discardMalformed (.branch b) (some .request) (readableStream b body) :=
  arrive_discards (l := .branch b) (c := .request) notDown unfit

end stream

/-- Settles O49. -/
theorem requestsJoinTheirStreams : Obligations.RequestsJoinTheirStreams := by
  unfold Obligations.RequestsJoinTheirStreams
  refine ⟨fun s b kind origin tag reserved length address payload notDown two six => ⟨fun x is below fits => ?_,
    fun x is below unfit => ?_, fun above => ?_⟩, fun s b kind body notDown short => ?_⟩
  · obtain ⟨push, noReserved, one, most, space, exact, partner, granted⟩ := fits
    have payloadFits := payloadLength_iff.mp exact
    have read := readRequest_of_fits (origin := origin) two six ⟨push, noReserved, one, most, space, payloadFits⟩
    obtain rfl := branchOf_of_eq is below
    have joins := arrive_joins (l := .branch (branchOf x)) (c := .request)
      (stream := readableStream (branchOf x) ([origin, tag, reserved] ++ length ++ address ++ payload))
      (join := fun p g => g.joinStream p.1 p.2) notDown
      (readBranchRequest_eq_some read rfl is below) partner granted
    exact next_congr (joins.trans (joinStream_useGranted _))
  · refine next_congr ((receiveBranchRequest_discards notDown fun p read ⟨partner, granted⟩ => unfit ?_).trans
      (congrArg _ (readableStream_eq_some is below)))
    obtain ⟨q, isRead, -⟩ := readRequest_of_readBranchRequest read
    obtain ⟨push, noReserved, one, most, space, fits⟩ := requestFits_of_read two six isRead
    exact ⟨push, noReserved, one, most, space, payloadLength_iff.mpr fits, partner, granted⟩
  · refine next_congr ((receiveBranchRequest_discards notDown fun p read _ => ?_).trans
      (congrArg _ (readableStream_eq_none above)))
    obtain ⟨q, isRead, numbered⟩ := readRequest_of_readBranchRequest read
    rw [origin_of_read two six isRead, streamNoOf_eq_none above] at numbered
    cases numbered
  · have discards := receiveBranchRequest_discards (g := s.gate) (kind := kind) (body := body) notDown fun p read => by
      rw [readBranchRequest_eq_none (readRequest_short short)] at read
      cases read
    refine ⟨?_, ?_⟩
    · rintro rfl
      exact next_congr discards
    · rintro origin more rfl
      exact ⟨fun above => next_congr (discards.trans (congrArg _ (readableStream_eq_none above))),
        fun x is below => next_congr (discards.trans (congrArg _ (readableStream_eq_some is below)))⟩

end Sys2Proof.Machine

/-! Stream heads and walks (02, 03): how the requests of a stream begin, and what ends a walk. -/

namespace Sys2Proof.Machine

set_option Elab.async false

/-! ### How a head begins (R52, R54, R62) -/

section begin
variable {g : Gate} {x : StreamId} {r : Request} {rest : List Request}

theorem startHeads_admitted {h : Gate} (admits : g.admitHead x r = .admitted h) :
    Gate.startHeads x (r :: rest) g = (h.checkHead x r).settled x r rest := by
  simp only [Gate.startHeads, admits]
  cases h.checkHead x r with
  | stays g => rfl
  | refused g f => exact congrArg (Gate.startHeads x rest) (refuseHead_eq g x r rest f)

theorem startHeads_waits {h : Gate} (waits : g.admitHead x r = .waits h) : Gate.startHeads x (r :: rest) g = h := by
  simp only [Gate.startHeads, waits]

theorem admitHead_push (push : r.kind = .push) : g.admitHead x r = .admitted (g.setHead x .translating) := if_pos push

theorem freeSlot_eq_none_iff {b : BranchNo} : g.freeSlot b = none ↔ ∀ k : SlotNo, (g.branch b).slots[k.val] ≠ .free := by
  simp [Gate.freeSlot, lowest_eq_none]

theorem admitHead_waits (answered : r.kind ≠ .push)
    (taken : (g.branch (branchOf x)).slotWait ≠ [] ∨ ∀ k : SlotNo, (g.branch (branchOf x)).slots[k.val] ≠ .free) :
    g.admitHead x r =
      .waits ((g.modBranch (branchOf x) fun y => { y with slotWait := y.slotWait ++ [x] }).setHead x .waitSlot) := by
  unfold Gate.admitHead
  rw [if_neg answered]
  split
  next k waiting free =>
    obtain notEmpty | noneFree := taken
    · exact absurd waiting notEmpty
    · rw [freeSlot_eq_none_iff.mpr noneFree] at free
      cases free
  next => rfl

theorem admitHead_reserves {k : SlotNo} (answered : r.kind ≠ .push) (waiting : (g.branch (branchOf x)).slotWait = [])
    (free : g.freeSlot (branchOf x) = some k) :
    g.admitHead x r = .admitted ((g.reserve x r.tag k).setHead x .translating) := by
  unfold Gate.admitHead
  rw [if_neg answered]
  simp only [waiting, free]

theorem freeSlot_free {b : BranchNo} {k : SlotNo} (free : g.freeSlot b = some k) : (g.branch b).slots[k.val] = .free :=
  eq_of_beq (lowest_some free)

theorem modStream_modStream (g : Gate) (x : StreamId) (f h : Stream → Stream) :
    (g.modStream x f).modStream x h = g.modStream x fun y => h (f y) := by
  simp [Gate.modStream, Gate.stream]

/-- A head that takes a slot, in one update. -/
theorem reserve_setHead (tag : Byte) (k : SlotNo) (head : HeadState) :
    (g.reserve x tag k).setHead x head =
      (g.setSlot (branchOf x) k (.reserved (numberOf x) tag)).modStream x fun y =>
        { y with slot := some k, head := some head } :=
  modStream_modStream _ x (fun y => { y with slot := some k }) fun y => { y with head := some head }

theorem refuseAndGoOn_eq (queued : (g.stream x).queue = r :: rest) (f : FaultReport) :
    g.refuseAndGoOn x f = Gate.startHeads x rest (g.refusal x r rest f) := by
  simp only [Gate.refuseAndGoOn, queued, refuseHead_eq]

theorem recheckHead_eq (queued : (g.stream x).queue = r :: rest) :
    g.recheckHead x = ((g.setHead x .translating).checkHead x r).settled x r rest := by
  have keeps := ((Gate.queue_setHead (g := g) x .translating).trans (queue_checkHead x r)) x
  simp only [Gate.recheckHead, queued]
  cases checked : (g.setHead x .translating).checkHead x r with
  | stays h => rfl
  | refused h f =>
    rw [checked] at keeps
    exact refuseAndGoOn_eq (keeps.trans queued) f

end begin

/-- Settles O50. -/
theorem headsBegin : Obligations.HeadsBegin := by
  unfold Obligations.HeadsBegin
  intro g x
  refine ⟨rfl, fun r rest => ⟨fun push => startHeads_admitted (admitHead_push push),
    fun answered taken => startHeads_waits (admitHead_waits answered taken), fun answered waiting ⟨k, isFree⟩ => ?_,
    recheckHead_eq⟩⟩
  cases free : g.freeSlot (branchOf x) with
  | none => exact absurd isFree (freeSlot_eq_none_iff.mp free k)
  | some k =>
    refine ⟨k, freeSlot_free free, ?_⟩
    have begins := startHeads_admitted (rest := rest) (admitHead_reserves answered waiting free)
    rw [reserve_setHead] at begins
    exact begins

/-! ### The map entry (10.4, R15) -/

section entry
variable {payload : List Byte}

theorem natOfBytes_lt (bytes : List Byte) : natOfBytes bytes < 256 ^ bytes.length := by
  induction bytes using List.reverseRecOn with
  | nil => simp [natOfBytes]
  | append_singleton bytes b ih =>
    have byte := b.isLt
    rw [natOfBytes_append_one, List.length_append, List.length_singleton, pow_succ]
    omega

/-- The fields of the map entry, read from the number that its 8 bytes spell. -/
theorem readMapEntry_eq (eight : payload.length = 8) :
    readMapEntry payload =
      let n := natOfBytes payload
      { valid := decide (n % 2 = 1), reservedZero := decide (n / 16 % 256 = 0 ∧ n / 2 ^ 48 = 0)
        readable := decide (n / 2 % 2 = 1), writable := decide (n / 4 % 2 = 1), retain := decide (n / 8 % 2 = 1)
        frame := BitVec.ofNat 36 (n / 4096 % 2 ^ 36) } := by
  have small : natOfBytes payload < 2 ^ 64 := by
    have spelled := natOfBytes_lt payload
    rwa [eight] at spelled
  unfold readMapEntry
  generalize natOfBytes payload = n at small ⊢
  have bit {k : Nat} (inside : k < 64) : (BitVec.ofNat 64 n).getLsbD k = decide (n / 2 ^ k % 2 = 1) := by
    rw [BitVec.getLsbD_ofNat, Nat.testBit_eq_decide_div_mod_eq]
    simp [inside]
  have field (start len : Nat) :
      (BitVec.ofNat 64 n).extractLsb' start len = BitVec.ofNat len (n / 2 ^ start) := by
    refine BitVec.eq_of_toNat_eq ?_
    rw [BitVec.extractLsb'_toNat, BitVec.toNat_ofNat, BitVec.toNat_ofNat, Nat.mod_eq_of_lt small, Nat.shiftRight_eq_div_pow]
  have low : (BitVec.ofNat 64 n).extractLsb' 4 8 = 0 ↔ n / 16 % 256 = 0 := by
    rw [field]
    simp [← BitVec.toNat_inj]
  have high : (BitVec.ofNat 64 n).extractLsb' 48 16 = 0 ↔ n / 2 ^ 48 = 0 := by
    rw [field]
    simp [← BitVec.toNat_inj]
    omega
  have frame : (BitVec.ofNat 64 n).extractLsb' 12 36 = BitVec.ofNat 36 (n / 4096 % 2 ^ 36) := by
    rw [field]
    exact BitVec.eq_of_toNat_eq (by simp)
  have reserved : (decide ((BitVec.ofNat 64 n).extractLsb' 4 8 = 0) && decide ((BitVec.ofNat 64 n).extractLsb' 48 16 = 0)) =
      decide (n / 16 % 256 = 0 ∧ n / 2 ^ 48 = 0) := by
    rw [← Bool.decide_and, decide_eq_decide, low, high]
  have valid := bit (k := 0) (by decide)
  have readable := bit (k := 1) (by decide)
  have writable := bit (k := 2) (by decide)
  have retain := bit (k := 3) (by decide)
  rw [pow_zero, Nat.div_one] at valid
  simp only [valid, readable, writable, retain, reserved, frame]
  rfl

end entry

/-! ### What an answer ends a walk with (R35, R25) -/

section walk
variable {g : Gate} {a : Answer} {i : WalkNo} {w : Walk}

theorem takeAnswer_walkTag (here : a.destination = g.gateId) (tag : a.tag = BitVec.ofNat 8 (252 + i.val)) :
    g.takeAnswer a = g.takeWalkAnswer i a := by
  have number : a.tag.toNat = 252 + i.val := by rw [tag, BitVec.toNat_ofNat]; omega
  simp [Gate.takeAnswer, here, number]

theorem takeWalkAnswer_free (free : g.walk i = .free) : g.takeWalkAnswer i a = g.countStray := by
  rw [Gate.takeWalkAnswer, free]

theorem takeWalkAnswer_quarantined {k : Exponent} (quarantined : g.walk i = .quarantined k) :
    g.takeWalkAnswer i a = ((g.setWalk i .free).countLate).serveWaiting := by
  rw [Gate.takeWalkAnswer, quarantined]

theorem takeWalkAnswer_unsent (walking : g.walk i = .walking w) (unsent : w.sent = none) :
    g.takeWalkAnswer i a = g.countStray := by
  simp [Gate.takeWalkAnswer, walking, unsent]

theorem takeWalkAnswer_malformed (walking : g.walk i = .walking w) (sent : w.sent ≠ none)
    (malformed : g.walkResult w a = none) : g.takeWalkAnswer i a = g.countTrunkMalformed := by
  simp [Gate.takeWalkAnswer, walking, sent, malformed]

theorem takeWalkAnswer_ends {result : WalkResult} (walking : g.walk i = .walking w) (sent : w.sent ≠ none)
    (ends : g.walkResult w a = some result) : g.takeWalkAnswer i a = g.endWalk i w result := by
  simp [Gate.takeWalkAnswer, walking, sent, ends]

theorem walkResult_malformed (done : a.status = .done) (wrong : a.payload.length ≠ 8) : g.walkResult w a = none := by
  simp [Gate.walkResult, done, wrong]

theorem walkResult_ends (eight : a.status = .done → a.payload.length = 8) :
    g.walkResult w a = some
      (if a.status = .done ∧ w.epoch = (g.context w.context).epoch ∧ (g.context w.context).state = .active then
        .current (readMapEntry a.payload)
      else if a.status = .done then .stale else .failed a.status) := by
  by_cases done : a.status = .done
  · simp only [Gate.walkResult, done, eight done, if_true, true_and, ne_eq, not_true_eq_false, if_false]
    exact (apply_ite some _ _ _).symm
  · simp [Gate.walkResult, done]

theorem findCached_isSome {c : ContextNo} {page : Nat} :
    (g.findCached c page).isSome = true ↔ ∃ e ∈ g.cache, e.context = c ∧ e.page = page := by
  simp [Gate.findCached, List.find?_isSome]

theorem install_cached {e : MapEntry} {c : ContextNo} {page : Nat} (cached : ∃ x ∈ g.cache, x.context = c ∧ x.page = page) :
    g.install c page e = g := if_pos (findCached_isSome.mpr cached)

theorem install_new {e : MapEntry} {c : ContextNo} {page : Nat} (fresh : ¬ ∃ x ∈ g.cache, x.context = c ∧ x.page = page) :
    g.install c page e =
      { g with
        cache := (if g.cache.length < 128 then g.cache else g.cache.tail) ++ [⟨c, page, e.frame, e.readable, e.writable⟩] } := by
  have kept : (if Config.cacheEntries ≤ g.cache.length then g.cache.tail else g.cache) =
      if g.cache.length < 128 then g.cache else g.cache.tail := by
    simp only [Config.cacheEntries, ← Nat.not_lt, ite_not]
  rw [Gate.install, if_neg (mt findCached_isSome.mp fresh), kept]

theorem installResult_current {e : MapEntry} (installs : e.installs = true) :
    g.installResult w (.current e) = g.install w.context w.page e := if_pos installs

theorem installResult_kept {result : WalkResult} (notInstalled : ∀ e, result = .current e → e.installs = false) :
    g.installResult w result = g := by
  cases result with
  | current e => exact if_neg (by simp [notInstalled e rfl])
  | stale => rfl
  | failed status => rfl

theorem installResult_cached {result : WalkResult} (cached : ∃ x ∈ g.cache, x.context = w.context ∧ x.page = w.page) :
    g.installResult w result = g := by
  cases result with
  | current e =>
    show (if e.installs then g.install w.context w.page e else g) = g
    rw [install_cached cached, ite_self]
  | stale => rfl
  | failed status => rfl

/-- The slot rests in QUARANTINED while the waiters are settled; the installation leaves the slots alone. -/
theorem settleWalk_eq (result : WalkResult) :
    g.settleWalk i w result =
      Gate.settleWaiters w.context result w.waiters
        { g.installResult w result with walks := g.walks.set i.val (.quarantined g.exponent) } := by
  rw [Gate.settleWalk, Gate.setWalk, walks_installResult]

end walk

/-! ### The settling of the waiters (R36 to R39) -/

section settle
variable {g : Gate} {c : ContextNo} {result : WalkResult} {x : StreamId} {generation : Word16} {more : List Waiter}
  {r : Request} {rest : List Request}

theorem returnsWaiter_iff :
    g.returnsWaiter result ⟨x, generation⟩ = true ↔ (g.stream x).generation ≠ generation ∨ result = .stale := by
  simp [Gate.returnsWaiter]

theorem settleWaiters_returned (returned : (g.stream x).generation ≠ generation ∨ result = .stale) :
    Gate.settleWaiters c result (⟨x, generation⟩ :: more) g =
      ((Gate.settleWaiters c result more (g.setHead x .translating)).1,
        x :: (Gate.settleWaiters c result more (g.setHead x .translating)).2) := by
  rw [Gate.settleWaiters, if_pos (returnsWaiter_iff.mpr returned)]

theorem settleWaiters_settled (same : (g.stream x).generation = generation) (notStale : result ≠ .stale) :
    Gate.settleWaiters c result (⟨x, generation⟩ :: more) g =
      Gate.settleWaiters c result more (g.settleMatching c result x) := by
  rw [Gate.settleWaiters, if_neg]
  exact fun returns => (returnsWaiter_iff.mp returns).elim (fun changed => changed same) notStale

theorem settleMatching_failed {status : AnswerStatus} (queued : (g.stream x).queue = r :: rest) :
    g.settleMatching c (.failed status) x =
      Gate.startHeads x rest (g.refusal x r rest (mappedFault .mapReadError x c r (some status))) := by
  simp only [Gate.settleMatching, queued]
  exact refuseAndGoOn_eq queued _

theorem settleMatching_refused {e : MapEntry} {kind : FaultKind} (queued : (g.stream x).queue = r :: rest)
    (refused : e.refusal r.kind = some kind) :
    g.settleMatching c (.current e) x =
      Gate.startHeads x rest (g.refusal x r rest (mappedFault kind x c r none)) := by
  simp only [Gate.settleMatching, queued, refused]
  exact refuseAndGoOn_eq queued _

theorem settleMatching_ready {e : MapEntry} (queued : (g.stream x).queue = r :: rest) (allowed : e.refusal r.kind = none) :
    g.settleMatching c (.current e) x = g.setHead x (.ready (physicalAddress e.frame r.address) (g.mappedStamp x c)) := by
  simp only [Gate.settleMatching, queued, allowed]

variable {e : MapEntry} {kind : RequestKind}

theorem refusal_notValid (invalid : e.valid = false) : e.refusal kind = some .notPresent := by
  simp [MapEntry.refusal, invalid]

theorem refusal_notClean (valid : e.valid = true) (unclean : e.reservedZero = false) : e.refusal kind = some .badEntry := by
  simp [MapEntry.refusal, valid, unclean]

theorem refusal_notPermitted (valid : e.valid = true) (clean : e.reservedZero = true)
    (denied : permits e.readable e.writable kind = false) : e.refusal kind = some (deniedKind kind) := by
  simp [MapEntry.refusal, valid, clean, denied]

theorem refusal_permitted (valid : e.valid = true) (clean : e.reservedZero = true)
    (permitted : permits e.readable e.writable kind = true) : e.refusal kind = none := by
  simp [MapEntry.refusal, valid, clean, permitted]

theorem permits_eq {readable writable : Bool} : permits readable writable kind = if kind = .fetch then readable else writable := by
  cases kind <;> rfl

theorem deniedKind_eq : deniedKind kind = if kind = .fetch then .readDenied else .writeDenied := by
  cases kind <;> rfl

end settle

/-- Settles O53. -/
theorem answersToWalkTags : Obligations.AnswersToWalkTags := by
  unfold Obligations.AnswersToWalkTags
  refine ⟨fun g a i here tag => ?answers, fun c result g => ⟨rfl, fun x generation more => ?waiters⟩,
    fun g x more => ⟨rfl, rfl⟩⟩
  case answers =>
    have taken := takeAnswer_walkTag here tag
    refine ⟨fun free => taken.trans (takeWalkAnswer_free free),
      fun k quarantined => taken.trans (takeWalkAnswer_quarantined quarantined), fun w walking =>
      ⟨fun unsent => taken.trans (takeWalkAnswer_unsent walking unsent), fun sent done wrong =>
        taken.trans (takeWalkAnswer_malformed walking sent (walkResult_malformed done wrong)), fun sent eight => ?_⟩⟩
    intro c n current clean kept entry result cached
    have ends := walkResult_ends (g := g) (w := w) eight
    have isEntry (done : a.status = .done) : readMapEntry a.payload = entry := readMapEntry_eq (eight done)
    have isResult : g.walkResult w a = some result := by
      rw [ends]
      refine congrArg some ?_
      by_cases isCurrent : current
      · rw [if_pos isCurrent, isEntry isCurrent.1]
        exact (if_pos isCurrent).symm
      · rw [if_neg isCurrent]
        exact (if_neg isCurrent).symm
    have entryInstalls : entry.installs = true ↔ kept := by
      simp only [MapEntry.installs, entry, Bool.and_eq_true, decide_eq_true_eq, and_assoc, kept, clean]
    have notCurrent (stale : ¬ current) (e : MapEntry) : result ≠ .current e := by
      rw [show result = if a.status = .done then .stale else .failed a.status from if_neg stale]
      split <;> exact WalkResult.noConfusion
    refine ⟨g.installResult w result, fun left => ?_, fun isCurrent isKept fresh => ?_, _, _, Prod.mk.eta.symm, ?_⟩
    · obtain notKept | isCached := left
      · refine installResult_kept fun e is => Bool.eq_false_iff.mpr fun installs => notKept ?_
        by_cases isCurrent : current
        · obtain rfl : entry = e := WalkResult.current.inj ((if_pos isCurrent).symm.trans is)
          exact ⟨isCurrent, entryInstalls.mp installs⟩
        · exact absurd is (notCurrent isCurrent e)
      · exact installResult_cached isCached
    · rw [show result = .current entry from if_pos isCurrent, installResult_current (entryInstalls.mpr isKept),
        install_new fresh]
    · refine taken.trans ((takeWalkAnswer_ends walking sent isResult).trans ?_)
      rw [Gate.endWalk, settleWalk_eq]
      rfl
  case waiters =>
    refine ⟨settleWaiters_returned, fun r rest same queued => ⟨fun status failed => ?_, fun e isCurrent => ?_⟩⟩
    · subst failed
      rw [settleWaiters_settled same (by simp), settleMatching_failed queued]
      rfl
    · subst isCurrent
      have settles := settleWaiters_settled (c := c) (more := more) same (WalkResult.noConfusion : WalkResult.current e ≠ .stale)
      refine ⟨fun invalid => ?_, fun valid unclean => ?_, fun valid clean isFetch denied => ?_,
        fun valid clean notFetch denied => ?_, fun valid clean permitted => ?_⟩
      · rw [settles, settleMatching_refused queued (refusal_notValid invalid)]
        rfl
      · rw [settles, settleMatching_refused queued (refusal_notClean valid unclean)]
        rfl
      · have refused := refusal_notPermitted (kind := r.kind) valid clean (by rw [permits_eq, if_pos isFetch, denied])
        rw [settles, settleMatching_refused queued refused, deniedKind_eq, if_pos isFetch]
        rfl
      · have refused := refusal_notPermitted (kind := r.kind) valid clean (by rw [permits_eq, if_neg notFetch, denied])
        rw [settles, settleMatching_refused queued refused, deniedKind_eq, if_neg notFetch]
        rfl
      · rw [settles, settleMatching_ready queued (refusal_permitted valid clean (permits_eq.trans permitted))]
        rfl

/-! ### Expiry, the end of a quarantine, and the walk waiting list (R34, R39, R40) -/

section expiry
variable {s : State} {g : Gate} {i : WalkNo} {w : Walk}

theorem exec_walkExpiry_sent (walking : s.gate.walk i = .walking w) (sent : w.sent ≠ none) :
    exec (.walkExpiry i) s = .next (s.withGate (s.gate.expireWalk i w)) := by
  refine next_congr (h := s.gate.expireWalk i w) ?_
  simp only [walking]
  exact if_pos (Option.isSome_iff_ne_none.mpr sent)

theorem exec_walkQuarantineEnd_quarantined {k : Exponent} (quarantined : s.gate.walk i = .quarantined k) :
    exec (.walkQuarantineEnd i) s = .next (s.withGate (s.gate.setWalk i .free).serveWaiting) := by
  refine next_congr (h := (s.gate.setWalk i .free).serveWaiting) ?_
  simp only [quarantined]

theorem someWalkFree_iff : g.someWalkFree = true ↔ ∃ i, g.walk i = .free := by
  rw [Gate.someWalkFree, lowest_isSome]
  exact exists_congr fun i => beq_iff_eq

end expiry

/-- Settles O55. -/
theorem walkExpiryAndQuarantine : Obligations.WalkExpiryAndQuarantine := by
  unfold Obligations.WalkExpiryAndQuarantine
  refine ⟨fun s i w walking sent => ?_, fun c g x generation more r rest queued => ?_,
    fun s i k quarantined => exec_walkQuarantineEnd_quarantined quarantined, fun g => ⟨rfl, rfl, fun x more waiting => ?_⟩⟩
  · have settles := settleWalk_eq (g := s.gate) (i := i) (w := w) (.failed .timeout)
    exact ⟨_, _, settles.symm.trans Prod.mk.eta.symm, settleWalk_rests w (.failed .timeout),
      exec_walkExpiry_sent walking sent⟩
  · by_cases same : (g.stream x).generation = generation
    · rw [if_pos same, settleWaiters_settled same WalkResult.noConfusion, settleMatching_failed queued]
      rfl
    · rw [if_neg same, settleWaiters_returned (.inl same)]
      rfl
  · refine ⟨fun free => ?_, fun noneFree => ?_⟩
    · rw [Gate.serveHeads, if_pos (someWalkFree_iff.mpr free), waiting]
      rfl
    · rw [Gate.serveHeads, if_neg fun free => ?_]
      obtain ⟨i, isFree⟩ := someWalkFree_iff.mp free
      exact noneFree i isFree

end Sys2Proof.Machine

/-! The host path (07): the matching and the offer of a host request, and the arbiter of the trunk answer transmit queue. -/

namespace Sys2Proof.Machine

set_option Elab.async false

/-! ### Matching (R119) -/

section matching
variable {g : Gate} {r : HostRequest} {i : WindowNo} {w : Window} {a : Nat}

theorem contains_iff : w.contains a = true ↔ w.base.toNat ≤ a ∧ a ≤ w.last.toNat + 65535 := by
  rw [Window.contains, Bool.and_eq_true, decide_eq_true_eq, decide_eq_true_eq]
  rfl

theorem covers_iff : (w.enabled && w.contains a) = true ↔
    w.enabled = true ∧ w.base.toNat ≤ a ∧ a ≤ w.last.toNat + 65535 := by
  rw [Bool.and_eq_true, contains_iff]

theorem winner_eq_none (none : ∀ i, ¬ ((g.window i).enabled && (g.window i).contains r.address.toNat) = true) :
    g.winner r = .none := by
  rw [Gate.winner, (lowest_eq_none _ _).mpr fun i => Bool.eq_false_iff.mpr (none i)]
  rfl

theorem winner_eq_some (first : ((g.window i).enabled && (g.window i).contains r.address.toNat) = true)
    (before : ∀ j, j < i → ¬ ((g.window j).enabled && (g.window j).contains r.address.toNat) = true) :
    g.winner r = some (g.window i) := by
  rw [Gate.winner, (lowest_eq_some _ _ _).mpr ⟨first, fun j earlier => Bool.eq_false_iff.mpr (before j earlier)⟩]
  rfl

theorem matchHost_noWinner (none : g.winner r = .none) : g.matchHost r = .refuse .noroute := by
  rw [Gate.matchHost, none]

theorem matchHost_winner (winner : g.winner r = some w) : g.matchHost r = g.matchUnder r w := by
  rw [Gate.matchHost, winner]

theorem matchUnder_exclude (exclude : w.kind = .exclude) : g.matchUnder r w = .refuse .noroute := by
  simp only [Gate.matchUnder, exclude]

variable {target : Addr} {b : BranchNo} {access : WindowAccess}

theorem matchUnder_unreachable (forward : w.kind = .forward target b access)
    (unreachable : ¬ w.contains (r.address.toNat + r.length - 1) = true ∨ (g.branch b).link.state ≠ .up) :
    g.matchUnder r w = .refuse .noroute := by
  simp only [Gate.matchUnder, forward]
  obtain outside | notUp := unreachable
  · simp [outside]
  · rw [if_pos notUp, ite_self]

theorem matchUnder_forbidden (forward : w.kind = .forward target b access)
    (inside : w.contains (r.address.toNat + r.length - 1) = true) (up : (g.branch b).link.state = .up)
    (forbidden : r.kind ≠ .fetch ∧ access = .readOnly) : g.matchUnder r w = .refuse .denied := by
  simp only [Gate.matchUnder, forward]
  rw [if_neg (by simp [inside]), if_neg (by simp [up]), if_pos forbidden]

theorem matchUnder_forward (forward : w.kind = .forward target b access)
    (inside : w.contains (r.address.toNat + r.length - 1) = true) (up : (g.branch b).link.state = .up)
    (allowed : ¬ (r.kind ≠ .fetch ∧ access = .readOnly)) :
    g.matchUnder r w = .forward b (r.address - w.base + target) := by
  simp only [Gate.matchUnder, forward]
  rw [if_neg (by simp [inside]), if_neg (by simp [up]), if_neg allowed]

end matching

/-! ### The offer (R120, R121) -/

section offer
variable {s : State} {g : Gate} {r : HostRequest} {rest : List HostRequest} {b : BranchNo} {address : Addr}
  {status : AnswerStatus}

theorem offerHost_forwards (front : g.trunk.ingressRequests = r :: rest) (found : g.matchHost r = .forward b address)
    (room : (g.branch b).egressRequests.length < 16) : g.offerHost = (g.takeHost rest).forwardHost b r address := by
  unfold Gate.offerHost
  simp only [front, found]
  exact if_pos room

theorem offerHost_holds (front : g.trunk.ingressRequests = r :: rest) (found : g.matchHost r = .forward b address)
    (full : 16 ≤ (g.branch b).egressRequests.length) : g.offerHost = g.holdHost (.forward b address) := by
  unfold Gate.offerHost
  simp only [front, found]
  exact if_neg (Nat.not_lt.mpr full)

theorem offerHost_drops (front : g.trunk.ingressRequests = r :: rest) (found : g.matchHost r = .refuse status)
    (push : r.kind = .push) : g.offerHost = (g.takeHost rest).countHostRefused := by
  unfold Gate.offerHost
  simp only [front, found]
  exact if_pos push

theorem offerHost_refuses (front : g.trunk.ingressRequests = r :: rest) (found : g.matchHost r = .refuse status)
    (answered : r.kind ≠ .push) : g.offerHost = g.holdHost (.refuse status) := by
  unfold Gate.offerHost
  simp only [front, found]
  exact if_neg answered

end offer

/-- Settles O56. -/
theorem hostRequestOfferOutcomes : Obligations.HostRequestOfferOutcomes := by
  unfold Obligations.HostRequestOfferOutcomes
  refine ⟨fun g r => ?matching, fun s r rest front => ⟨fun b address found room => ?_, fun b address found full => ?_,
    fun status found push => ?_, fun status found answered => ?_⟩, fun s => ⟨fun none => ?_, fun held => ?_⟩⟩
  case matching =>
    intro covers final first
    have isFirst (i : WindowNo) : first i ↔ ((g.window i).enabled && (g.window i).contains r.address.toNat) = true :=
      covers_iff.symm
    refine ⟨fun none => matchHost_noWinner (winner_eq_none fun i => mt (isFirst i).mpr (none i)), fun i hit before => ?_⟩
    have winner := matchHost_winner (winner_eq_some ((isFirst i).mp hit) fun j earlier => mt (isFirst j).mpr (before j earlier))
    refine ⟨fun exclude => winner.trans (matchUnder_exclude exclude), fun target b access forward =>
      ⟨fun unreachable => winner.trans (matchUnder_unreachable forward (unreachable.imp_left (mt contains_iff.mp))),
        fun inside up forbidden => winner.trans (matchUnder_forbidden forward (contains_iff.mpr inside) up forbidden),
        fun inside up allowed => winner.trans (matchUnder_forward forward (contains_iff.mpr inside) up allowed)⟩⟩
  · exact next_congr (offerHost_forwards front found room)
  · exact next_congr (offerHost_holds front found full)
  · exact next_congr (offerHost_drops front found push)
  · exact next_congr (offerHost_refuses front found answered)
  · exact if_neg (by simp [none])
  · exact next_congr (if_pos (Option.isSome_iff_ne_none.mpr held)).symm

/-! ### The arbiter (R123) -/

section arbiter
variable {g : Gate} {x : AnswerSource} {r : HostRequest} {rest : List HostRequest} {last : AnswerSource}

/-- Round-robin distance of a source from the one after `last`. -/
def sourceDistance (last x : AnswerSource) : Nat := (sourceNumber x + 4 - sourceNumber last) % 5

theorem sourceOrder_rises (last : AnswerSource) :
    (sourceOrder last).Pairwise fun x y => sourceDistance last x < sourceDistance last y := by
  cases last with
  | trunk => decide
  | branch b =>
    revert b
    decide

theorem mem_sourceOrder (last x : AnswerSource) : x ∈ sourceOrder last := by
  cases last with
  | trunk =>
    cases x with
    | trunk => decide
    | branch c => revert c; decide
  | branch b =>
    cases x with
    | trunk => revert b; decide
    | branch c => revert b c; decide

/-- The sources before `x` in the order are those at a smaller distance. -/
theorem sourceOrder_split (last x : AnswerSource) :
    ∃ before after, sourceOrder last = before ++ x :: after ∧ ∀ y ∈ before, sourceDistance last y < sourceDistance last x := by
  obtain ⟨before, after, split⟩ := List.append_of_mem (mem_sourceOrder last x)
  refine ⟨before, after, split, fun y earlier => ?_⟩
  have rises := sourceOrder_rises last
  rw [split, List.pairwise_append] at rises
  obtain ⟨-, -, across⟩ := rises
  exact across y earlier x List.mem_cons_self

theorem grantPlace_append {before after : List AnswerSource} (idle : ∀ y ∈ before, ¬ g.Waits y) :
    Gate.grantPlace (before ++ after) g = Gate.grantPlace after g := by
  induction before with
  | nil => rfl
  | cons y before ih =>
    rw [List.cons_append, grantPlace_skip g y _ (idle y List.mem_cons_self)]
    exact ih fun z later => idle z (List.mem_cons_of_mem _ later)

theorem grantPlace_idle {order : List AnswerSource} (idle : ∀ y ∈ order, ¬ g.Waits y) : Gate.grantPlace order g = g := by
  rw [← List.append_nil order, grantPlace_append idle]
  rfl

theorem grantPlace_branch {b : BranchNo} {a : Answer} {more : List Answer} {after : List AnswerSource}
    (front : (g.branch b).ingressAnswers = a :: more) :
    Gate.grantPlace (.branch b :: after) g =
      ((g.modBranch b fun x => { x with ingressAnswers := more }).freeCredit (.branch b) .answer).placeTrunkAnswer
        (.branch b) a := by
  rw [Gate.grantPlace, front]

theorem sourceWaits_of_waits (waits : g.Waits .trunk) : g.trunk.sourceWaits = true := by
  obtain ⟨r, rest, status, front, offer, answered⟩ := waits
  simp [TrunkPort.sourceWaits, front, offer, answered]

theorem grantPlace_refused {status : AnswerStatus} {after : List AnswerSource} (waits : g.Waits .trunk)
    (front : g.trunk.ingressRequests = r :: rest) (found : g.matchHost r = .refuse status) :
    Gate.grantPlace (.trunk :: after) g =
      ((g.takeHost rest).countHostRefused).placeTrunkAnswer .trunk ⟨r.origin, r.tag, status, []⟩ := by
  simp only [Gate.grantPlace, sourceWaits_of_waits waits, front, found]

theorem grantPlace_forwarded {b : BranchNo} {address : Addr} {after : List AnswerSource} (waits : g.Waits .trunk)
    (front : g.trunk.ingressRequests = r :: rest) (found : g.matchHost r = .forward b address) :
    Gate.grantPlace (.trunk :: after) g = Gate.grantPlace after g.offerHost := by
  simp only [Gate.grantPlace, sourceWaits_of_waits waits, front, found]

theorem ingressAnswers_forwardHost (b c : BranchNo) (address : Addr) :
    ((g.forwardHost b r address).branch c).ingressAnswers = (g.branch c).ingressAnswers := by
  rw [Gate.forwardHost, Gate.branch_modBranch]
  split
  next same => rw [same]
  next => rfl

theorem ingressAnswers_offerHost (c : BranchNo) : (g.offerHost.branch c).ingressAnswers = (g.branch c).ingressAnswers := by
  unfold Gate.offerHost
  split
  · rfl
  · split
    · split
      · exact ingressAnswers_forwardHost ..
      · rfl
    · split <;> rfl

theorem not_waits_trunk {h : Gate} (offer : ∀ status, h.trunk.hostOffer ≠ some (.refuse status)) : ¬ h.Waits .trunk :=
  fun ⟨_, _, status, _, refused, _⟩ => offer status refused

theorem offerHost_forward_notWaits {b : BranchNo} {address : Addr} (front : g.trunk.ingressRequests = r :: rest)
    (found : g.matchHost r = .forward b address) : ¬ g.offerHost.Waits .trunk := by
  refine not_waits_trunk fun status => ?_
  by_cases room : (g.branch b).egressRequests.length < 16
  · rw [offerHost_forwards front found room]
    exact fun refused => nomatch refused
  · rw [offerHost_holds front found (Nat.not_lt.mp room)]
    exact fun refused => nomatch refused

theorem lastSource_offerHost : g.offerHost.trunk.lastSource = g.trunk.lastSource := by
  unfold Gate.offerHost
  split
  · rfl
  · split
    · split <;> rfl
    · split <;> rfl

end arbiter

section grant
variable {s : State}

theorem exec_answerQueueGrant (room : s.gate.trunk.answerQueue.length < 32) :
    exec .answerQueueGrant s =
      .next (s.withGate (Gate.grantPlace (sourceOrder s.gate.trunk.lastSource) s.gate)) :=
  next_congr (if_pos room)

/-- The place goes to the first source that waits, and the sources after it come in their order. -/
theorem grantPlace_next {g : Gate} {x : AnswerSource} (next : g.NextSource x) :
    ∃ before after, sourceOrder g.trunk.lastSource = before ++ x :: after ∧ (∀ y ∈ before, ¬ g.Waits y) ∧
      Gate.grantPlace (sourceOrder g.trunk.lastSource) g = Gate.grantPlace (x :: after) g := by
  obtain ⟨waits, first⟩ := next
  obtain ⟨before, after, split, nearer⟩ := sourceOrder_split g.trunk.lastSource x
  have idle : ∀ y ∈ before, ¬ g.Waits y := fun y earlier => first y (nearer y earlier)
  exact ⟨before, after, split, idle, by rw [split, grantPlace_append idle]⟩

end grant

/-- Settles O57. -/
theorem answerQueueGrantOutcomes : Obligations.AnswerQueueGrantOutcomes := by
  unfold Obligations.AnswerQueueGrantOutcomes
  intro s room
  have runs := exec_answerQueueGrant room
  refine ⟨fun idle => ?_, fun b a rest next front => ?_, fun r rest next front => ⟨fun status found => ?_,
    fun b address found => ?_⟩⟩
  · exact runs.trans (next_withGate_self (grantPlace_idle fun y _ => idle y))
  · obtain ⟨before, after, -, -, granted⟩ := grantPlace_next next
    rw [runs, granted, grantPlace_branch front]
    refine next_congr ?_
    rw [Gate.freeCredit, Gate.modLink_branch, modBranch_modBranch]
    rfl
  · obtain ⟨before, after, -, -, granted⟩ := grantPlace_next next
    rw [runs, granted, grantPlace_refused next.1 front found]
    rfl
  · obtain ⟨before, after, order, idle, granted⟩ := grantPlace_next next
    have notWaits := offerHost_forward_notWaits front found
    refine ⟨s.gate.offerHost, exec_hostRequestOffer s, notWaits, ?_⟩
    have stillIdle : ∀ y ∈ before ++ [.trunk], ¬ s.gate.offerHost.Waits y := by
      intro y earlier
      cases y with
      | trunk => exact notWaits
      | branch c =>
        have isBefore : AnswerSource.branch c ∈ before := by simpa using earlier
        exact fun waits => idle _ isBefore fun empty => waits ((ingressAnswers_offerHost c).trans empty)
    have room' : (s.withGate s.gate.offerHost).gate.trunk.answerQueue.length < 32 := by
      rw [State.withGate_gate, answerQueue_offerHost]
      exact room
    rw [runs, exec_answerQueueGrant room', granted, grantPlace_forwarded next.1 front found, State.withGate_gate,
      lastSource_offerHost, order, List.append_cons, grantPlace_append stillIdle]
    rfl

end Sys2Proof.Machine

/-! The transmitters (04, 03): whose turn it is on the trunk and on a branch, and what is sent at a turn. -/

namespace Sys2Proof.Machine

set_option Elab.async false

/-! ### The first in an order -/

/-- In a list of all things that rises by a measure, the first that satisfies `p` is the one of the least measure. -/
theorem find?_of_rises {α : Type} {order : List α} {measure : α → Nat} {p : α → Bool} {x : α}
    (rises : order.Pairwise fun y z => measure y < measure z) (all : ∀ y, y ∈ order) :
    order.find? p = some x ↔ p x = true ∧ ∀ y, measure y < measure x → ¬ p y = true := by
  rw [List.find?_eq_some_iff_append]
  refine and_congr_right fun _ => ⟨?_, fun first => ?_⟩
  · rintro ⟨before, after, split, none⟩ y nearer
    have isIn := all y
    rw [split, List.mem_append, List.mem_cons] at isIn
    rw [split, List.pairwise_append, List.pairwise_cons] at rises
    obtain ⟨-, ⟨farther, -⟩, -⟩ := rises
    obtain earlier | rfl | later := isIn
    · simpa using none y earlier
    · exact absurd nearer (Nat.lt_irrefl _)
    · exact absurd nearer (Nat.lt_asymm (farther y later))
  · obtain ⟨before, after, split⟩ := List.append_of_mem (all x)
    rw [split, List.pairwise_append] at rises
    obtain ⟨-, -, across⟩ := rises
    refine ⟨before, after, split, fun y earlier => ?_⟩
    simpa using first y (across y earlier x List.mem_cons_self)

/-! ### The turn on the trunk (R73) -/

section trunk
variable {g : Gate} {c : PacketClass}

theorem maySend_iff {r : LinkRecord} : r.maySend c = true ↔ r.state = .up ∧ 0 < r.held.get c ∧ r.creditOrder = [] := by
  simp [LinkRecord.maySend, and_assoc]

theorem nextCandidate_isSome : (g.nextCandidate []).isSome = true ↔ ∃ n, g.Candidate n := by
  rw [← not_iff_not, Bool.not_eq_true, Option.isSome_eq_false_iff, Option.isNone_iff_eq_none, nextCandidate_none]
  simp

/-- The source of a class has a packet to send (R73). -/
def Gate.HasPacket (g : Gate) : PacketClass → Prop
  | .request => ∃ n, g.Candidate n
  | .answer => g.trunk.answerQueue ≠ []
  | .control => g.management.controlQueue ≠ []

theorem classCanSend_iff :
    g.classCanSend c = true ↔
      g.trunk.link.state = .up ∧ 0 < g.trunk.link.held.get c ∧ g.trunk.link.creditOrder = [] ∧ g.HasPacket c := by
  unfold Gate.classCanSend
  rw [Bool.and_eq_true, maySend_iff, and_assoc, and_assoc]
  refine and_congr_right fun _ => and_congr_right fun _ => and_congr_right fun _ => ?_
  cases c with
  | request => exact nextCandidate_isSome
  | answer => simp [Gate.HasPacket]
  | control => simp [Gate.HasPacket]

/-- The classes in the order of R73. -/
def classNumber : PacketClass → Nat
  | .request => 0
  | .answer => 1
  | .control => 2

/-- Distance of a class from the one after the class of number `start`. -/
def classDistance (start : Nat) (c : PacketClass) : Nat := (classNumber c + 2 - start) % 3

/-- The number of the class after which the turn is offered: REQUEST after a turn of it that passed (log entry 9). -/
def TrunkPort.turnStart (t : TrunkPort) : Nat := if t.requestPassed then 0 else classNumber t.lastClass

theorem turnOrder_rises (t : TrunkPort) :
    t.turnOrder.Pairwise fun c d => classDistance t.turnStart c < classDistance t.turnStart d := by
  unfold TrunkPort.turnOrder TrunkPort.turnStart
  split
  · decide
  · cases t.lastClass <;> decide

theorem mem_turnOrder (t : TrunkPort) (c : PacketClass) : c ∈ t.turnOrder := by
  unfold TrunkPort.turnOrder
  split
  · cases c <;> decide
  · split <;> cases c <;> decide

theorem trunkTurn_iff :
    g.trunkTurn = some c ↔ g.classCanSend c = true ∧
      ∀ d, classDistance g.trunk.turnStart d < classDistance g.trunk.turnStart c → ¬ g.classCanSend d = true :=
  find?_of_rises (turnOrder_rises g.trunk) (mem_turnOrder g.trunk)

end trunk

/-! ### What is sent on the trunk (10.2) -/

section sent
variable {s : State}

theorem exec_trunkAnswerTransmit_turn {a : Answer} {rest : List Answer} (front : s.gate.trunk.answerQueue = a :: rest)
    (turn : s.gate.trunkTurn = some .answer) :
    exec .trunkAnswerTransmit s =
      .next (s.withGate ((s.gate.sendTrunk .answer (answerBytes a.destination a.tag a.status a.payload)).modTrunk fun t =>
        { t with answerQueue := rest })) := by
  refine next_congr (h := (s.gate.sendTrunk .answer _).modTrunk _) ?_
  simp only [front]
  exact if_pos turn

theorem exec_controlTransmit_turn {p : ControlOut} {rest : List ControlOut}
    (front : s.gate.management.controlQueue = p :: rest) (turn : s.gate.trunkTurn = some .control) :
    exec .controlTransmit s =
      .next (s.withGate ((s.gate.sendTrunk .control
        (controlOutBytes (fun b => (s.gate.branch b).link.state) p)).modManagement fun m => { m with controlQueue := rest })) := by
  refine next_congr (h := (s.gate.sendTrunk .control _).modManagement _) ?_
  simp only [front]
  exact if_pos turn

end sent

/-- Settles O59. -/
theorem trunkTransmitterOutcomes : Obligations.TrunkTransmitterOutcomes := by
  unfold Obligations.TrunkTransmitterOutcomes
  refine ⟨fun g c => ?turn, fun s a rest front => ⟨fun turn => ?_, fun other => next_withGate_self ?_⟩,
    fun s p rest front => ⟨fun turn => ?_, fun other => next_withGate_self ?_⟩⟩
  case turn =>
    intro number start can
    have isCan (d : PacketClass) : g.classCanSend d = true ↔ can d := by
      rw [classCanSend_iff]
      cases d <;> rfl
    have isNumber (d : PacketClass) : classNumber d = number d := by cases d <;> rfl
    rw [trunkTurn_iff, isCan]
    refine and_congr_right fun _ => forall_congr' fun d => ?_
    rw [isCan, classDistance, classDistance, TrunkPort.turnStart, isNumber, isNumber, isNumber]
  · refine (exec_trunkAnswerTransmit_turn front turn).trans (next_congr ?_)
    rfl
  · simp only [front]
    exact if_neg other
  · refine (exec_controlTransmit_turn front turn).trans ?_
    cases p <;> rfl
  · simp only [front]
    exact if_neg other

end Sys2Proof.Machine

/-! The branch transmitters (03, 07): whose turn it is on a branch, and what a sent answer or host request leaves. -/

namespace Sys2Proof.Machine

set_option Elab.async false

/-! ### The turn on a branch (R61) -/

section turn
variable {y : Branch} {q : BranchQueue}

/-- The queue holds a packet, and a credit of its class is held (R61). -/
def Branch.HasPacket (y : Branch) : BranchQueue → Prop
  | .answers => y.egressAnswers ≠ [] ∧ 0 < y.link.held.answer
  | .requests => y.egressRequests ≠ [] ∧ 0 < y.link.held.request

theorem branchCanSend_iff :
    y.canSend q = true ↔ y.link.state = .up ∧ y.link.creditOrder = [] ∧ y.HasPacket q := by
  cases q with
  | answers =>
    rw [Branch.canSend, Bool.and_eq_true, maySend_iff]
    simp only [Credits.get, Bool.not_eq_true', List.isEmpty_eq_false_iff]
    exact ⟨fun ⟨⟨up, held, noCredit⟩, packet⟩ => ⟨up, noCredit, packet, held⟩,
      fun ⟨up, noCredit, packet, held⟩ => ⟨⟨up, held, noCredit⟩, packet⟩⟩
  | requests =>
    rw [Branch.canSend, Bool.and_eq_true, maySend_iff]
    simp only [Credits.get, Bool.not_eq_true', List.isEmpty_eq_false_iff]
    exact ⟨fun ⟨⟨up, held, noCredit⟩, packet⟩ => ⟨up, noCredit, packet, held⟩,
      fun ⟨up, noCredit, packet, held⟩ => ⟨⟨up, held, noCredit⟩, packet⟩⟩

/-- The queue that sent the last packet is offered the turn after the other one. -/
def queueDistance (last q : BranchQueue) : Nat := if q = last then 1 else 0

theorem branchOrder_rises (y : Branch) :
    y.turnOrder.Pairwise fun p q => queueDistance y.lastSent p < queueDistance y.lastSent q := by
  unfold Branch.turnOrder
  cases y.lastSent <;> decide

theorem mem_branchOrder (y : Branch) (q : BranchQueue) : q ∈ y.turnOrder := by
  unfold Branch.turnOrder
  cases y.lastSent <;> cases q <;> decide

theorem queueDistance_lt_iff {last p : BranchQueue} : queueDistance last p < queueDistance last q ↔ last = q ∧ p ≠ q := by
  cases last <;> cases p <;> cases q <;> decide

theorem branchTurn_iff :
    y.turn = some q ↔ y.canSend q = true ∧ (y.lastSent ≠ q ∨ ∀ p, p ≠ q → ¬ y.canSend p = true) := by
  rw [Branch.turn, find?_of_rises (branchOrder_rises y) (mem_branchOrder y)]
  simp only [queueDistance_lt_iff, and_imp]
  refine and_congr_right fun _ => ?_
  by_cases last : y.lastSent = q
  · simp [last]
  · simp [last]

end turn

/-! ### A sent answer and a sent host request (R55, R61, R121) -/

section sent
variable {s : State} {g : Gate} {b : BranchNo} {a : EgressAnswer} {rest : List EgressAnswer}

/-- The port after the answer at the front of its queue was sent, its slot left in condition `slot` and `waiting` on its
slot-wait list (R61, R63). -/
def Branch.answered (y : Branch) (k : SlotNo) (rest : List EgressAnswer) (slot : AnswerSlot) (waiting : List StreamId) :
    Branch :=
  { y with
    link := y.link.useHeld .answer, lastSent := .answers, egressAnswers := rest, slots := y.slots.set k.val slot
    slotWait := waiting, counters := { y.counters with answersSent := y.counters.answersSent + 1 } }

/-- The gate after the answer was sent, before the slot-wait list is served. -/
def Gate.answerSent (g : Gate) (b : BranchNo) (a : EgressAnswer) (rest : List EgressAnswer) (slot : AnswerSlot)
    (waiting : List StreamId) : Gate :=
  { g with
    sent := g.sent ++ [⟨.branch b, .packet (answerBytes (BitVec.ofNat 8 a.stream.val) a.tag a.status a.payload)⟩]
    branches := g.branches.set b.val ((g.branch b).answered a.slot rest slot waiting) }

theorem exec_branchAnswerTransmit_turn (front : (s.gate.branch b).egressAnswers = a :: rest)
    (turn : (s.gate.branch b).turn = some .answers) :
    exec (.branchAnswerTransmit b) s =
      .next (s.withGate ((s.gate.answerSent b a rest .free (s.gate.branch b).slotWait).serveSlotWait b a.slot)) := by
  have sends : (((s.gate.sendBranch b .answer .answers
      (answerBytes (BitVec.ofNat 8 a.stream.val) a.tag a.status a.payload)).modBranch b fun x =>
        { x with egressAnswers := rest }).setSlot b a.slot .free).countBranch b (fun x =>
          { x with answersSent := x.answersSent + 1 }) =
      s.gate.answerSent b a rest .free (s.gate.branch b).slotWait := by
    simp [Gate.sendBranch, Gate.emit, Gate.setSlot, Gate.countBranch, Gate.modBranch, Gate.branch, Gate.answerSent,
      Branch.answered]
  rw [← sends]
  refine next_congr ?_
  simp only [front]
  exact if_pos turn

theorem branch_answerSent (slot : AnswerSlot) (waiting : List StreamId) :
    (g.answerSent b a rest slot waiting).branch b = (g.branch b).answered a.slot rest slot waiting := by
  simp [Gate.answerSent, Gate.branch]

theorem serveSlotWait_none {k : SlotNo} (noneWaits : (g.branch b).slotWait = []) : g.serveSlotWait b k = g := by
  rw [Gate.serveSlotWait, noneWaits]

/-- The oldest head that waits takes the slot and is checked (R55, R56). -/
theorem serveSlotWait_some {k : SlotNo} {x : StreamId} {waiting : List StreamId} {r : Request} {later : List Request}
    (waits : (g.branch b).slotWait = x :: waiting) (queued : (g.stream x).queue = r :: later) :
    g.serveSlotWait b k =
      ((((g.modBranch b fun y => { y with slotWait := waiting }).reserve x r.tag k).setHead x .translating).checkHead x
        r).settled x r later := by
  have keeps := queue_reserve (g := g.modBranch b fun y => { y with slotWait := waiting }) x r.tag k x
  rw [Gate.serveSlotWait, waits]
  simp only [queued]
  exact recheckHead_eq (keeps.trans queued)

theorem exec_branchRequestTransmit_turn {r : HostRequest} {later : List HostRequest}
    (front : (s.gate.branch b).egressRequests = r :: later) (turn : (s.gate.branch b).turn = some .requests) :
    exec (.branchRequestTransmit b) s =
      .next (s.withGate (((s.gate.sendBranch b .request .requests
        (requestBytes r.kind r.origin r.tag r.address r.length r.payload)).modBranch b fun x =>
          { x with egressRequests := later }).offerHeldAgain)) := by
  refine next_congr (h := ((s.gate.sendBranch b .request .requests _).modBranch b _).offerHeldAgain) ?_
  simp only [front]
  exact if_pos turn

end sent

/-- Settles O60. -/
theorem branchTransmitterOutcomes : Obligations.BranchTransmitterOutcomes := by
  unfold Obligations.BranchTransmitterOutcomes
  intro s b
  refine ⟨?turn, fun a rest front => ⟨fun turn noneWaits => ?_, fun x waiting r later turn waits isOn queued => ?_,
    fun other => next_withGate_self ?_⟩, fun r rest front => ⟨fun turn => ?_, fun other => next_withGate_self ?_⟩⟩
  case turn =>
    have isCan (p : BranchQueue) := branchCanSend_iff (y := s.gate.branch b) (q := p)
    exact fun q => branchTurn_iff.trans (and_congr (isCan q) (or_congr Iff.rfl
      (forall_congr' fun p => imp_congr Iff.rfl (not_congr (isCan p)))))
  · rw [exec_branchAnswerTransmit_turn front turn, serveSlotWait_none]
    · rw [noneWaits]
      rfl
    · rw [branch_answerSent]
      exact noneWaits
  · subst isOn
    have served : ((s.gate.answerSent (branchOf x) a rest .free (s.gate.branch (branchOf x)).slotWait).branch
        (branchOf x)).slotWait = x :: waiting := by
      rw [branch_answerSent]
      exact waits
    rw [exec_branchAnswerTransmit_turn front turn, serveSlotWait_some served queued, reserve_setHead]
    refine next_congr (congrArg (fun h : Gate => (h.checkHead x r).settled x r later) ?_)
    rw [Gate.setSlot, modBranch_modBranch, Gate.modBranch, branch_answerSent]
    simp only [Gate.answerSent, Gate.modStream, Branch.answered, Vector.set_set]
    rfl
  · simp only [front]
    exact if_neg other
  · rw [exec_branchRequestTransmit_turn front turn, Gate.sendBranch, modBranch_modBranch]
    refine next_congr (congrArg Gate.offerHeldAgain ?_)
    obtain ⟨kind, origin, tag, address, length, payload⟩ := r
    cases kind <;> rfl
  · simp only [front]
    exact if_neg other

end Sys2Proof.Machine

/-! Departures (04): what a grant does, and the course of a REQUEST turn. -/

namespace Sys2Proof.Machine

set_option Elab.async false

/-! ### A grant (R31, R70 to R72) -/

section grant
variable {g : Gate} {n : Fin 68} {x : StreamId} {i : WalkNo} {w : Walk} {r : Request} {rest : List Request} {address : Addr}
  {stamp : Stamp}

theorem positionOf_stream (at_x : n.val = x.val) : positionOf n = .stream x := by
  have low : n.val < 64 := at_x ▸ x.isLt
  rw [positionOf, dif_pos low]
  exact congrArg Position.stream (Fin.ext at_x)

theorem positionOf_walk (at_i : n.val = 64 + i.val) : positionOf n = .walk i := by
  have high : ¬ n.val < 64 := by omega
  have number : n.val - 64 = i.val := by omega
  rw [positionOf, dif_neg high]
  exact congrArg Position.walk (Fin.ext number)

theorem grant_walk (at_i : n.val = 64 + i.val) (walking : g.walk i = .walking w) :
    g.grant n = .departed
      (({ g with lastGranted := n }.sendTrunk .request
        (requestBytes .fetch g.gateId (BitVec.ofNat 8 (252 + i.val)) w.entryAddress 8 [])).setWalk i
        (.walking { w with sent := some g.exponent })) := by
  have departs : { g with lastGranted := n }.departWalk i =
      ({ g with lastGranted := n }.sendTrunk .request
        (requestBytes .fetch g.gateId (BitVec.ofNat 8 (252 + i.val)) w.entryAddress 8 [])).setWalk i
        (.walking { w with sent := some g.exponent }) := by
    have same : { g with lastGranted := n }.walk i = .walking w := walking
    rw [Gate.departWalk, same]
  rw [Gate.grant, positionOf_walk at_i]
  exact congrArg Grant.departed departs

theorem stampIsCurrent_iff :
    g.stampIsCurrent x stamp = true ↔ stamp.generation = (g.stream x).generation ∧
      ∀ c epoch, stamp.mapped = some (c, epoch) → epoch = (g.context c).epoch := by
  rw [Gate.stampIsCurrent, Bool.and_eq_true, beq_iff_eq]
  refine and_congr_right fun _ => ?_
  cases stamp.mapped with
  | none => simp
  | some mapped => simp [Prod.ext_iff]

theorem grant_current (at_x : n.val = x.val) (head : (g.stream x).head = some (.ready address stamp))
    (queued : (g.stream x).queue = r :: rest) (current : g.stampIsCurrent x stamp = true) :
    g.grant n = .departed ({ g with lastGranted := n }.departHead x r rest address stamp) := by
  rw [Gate.grant, positionOf_stream at_x]
  simp only [head, queued]
  exact if_pos current

theorem grant_stale (at_x : n.val = x.val) (head : (g.stream x).head = some (.ready address stamp))
    (queued : (g.stream x).queue = r :: rest) (stale : ¬ g.stampIsCurrent x stamp = true) :
    g.grant n = .sentBack ({ g with lastGranted := n }.recheckHead x) := by
  rw [Gate.grant, positionOf_stream at_x]
  simp only [head, queued]
  exact if_neg stale

/-- A departed head leaves its queue and is counted, in one update. -/
theorem leaveDeparted_eq (g : Gate) (x : StreamId) (rest : List Request) :
    (g.leaveQueue x rest).countBranch (branchOf x) (fun y => { y with departed := y.departed + 1 }) =
    { g with
      streams := g.streams.set x.val { g.stream x with queue := rest, head := none, slot := none }
      branches := g.branches.set (branchOf x).val
        { g.branch (branchOf x) with
          link := (g.branch (branchOf x)).link.free .request
          counters :=
            { (g.branch (branchOf x)).counters with departed := (g.branch (branchOf x)).counters.departed + 1 } } } := by
  simp [Gate.leaveQueue, Gate.modStream, Gate.freeCredit, Gate.modLink, Gate.countBranch, Gate.modBranch, Gate.branch]

theorem departWith_eq (g : Gate) (x : StreamId) (r : Request) (rest : List Request) (address : Addr) (tag : Byte) :
    g.departWith x r rest address tag =
      Gate.startHeads x rest
        (((g.sendTrunk .request (requestBytes r.kind g.gateId tag address r.length r.payload)).leaveQueue x rest).countBranch
          (branchOf x) fun y => { y with departed := y.departed + 1 }) := rfl

theorem departHead_push (push : r.kind = .push) : g.departHead x r rest address stamp = g.departWith x r rest address 0 :=
  if_pos push

theorem departHead_tagged {t : RequestTag} (answered : r.kind ≠ .push) (free : g.freeTag = some t) :
    g.departHead x r rest address stamp =
      (g.setEntry t (.live (g.liveEntryOf x r stamp))).departWith x r rest address (BitVec.ofNat 8 t.val) := by
  rw [Gate.departHead, if_neg answered, free]

theorem freeTag_eq_some {t : RequestTag} (free : g.entry t = .free) (lowest : ∀ u, u < t → g.entry u ≠ .free) :
    g.freeTag = some t :=
  (lowest_eq_some _ _ _).mpr ⟨beq_iff_eq.mpr free, fun u below => beq_eq_false_iff_ne.mpr (lowest u below)⟩

end grant

/-! ### The REQUEST turn (R69) -/

section turn
variable {s : State} {g g' : Gate} {n : Fin 68}

theorem requestTurn_departs {fuel : Nat} {sentBack : List (Fin 68)} (next : g.NextGrant sentBack n)
    (granted : g.grant n = .departed g') : Gate.requestTurn (fuel + 1) sentBack g = (g', true) := by
  rw [Gate.requestTurn, (nextCandidate_iff g sentBack n).mpr next]
  simp only [granted]

/-- What heads do among themselves leaves the trunk port and the control transmit queue alone. -/
theorem GateStep.keeps_trunk {k : Kind} (st : GateStep k g g') (among : k ∈ inner) : g'.trunk = g.trunk := by
  obtain rfl | rfl := List.mem_pair.mp among
  · cases st <;> simp
  · cases st <;> rfl

theorem trunk_recheckHead (g : Gate) (x : StreamId) : (g.recheckHead x).trunk = g.trunk :=
  (reaches_recheckHead x).keeps (fun h => h.trunk = g.trunk) (fun _ among _ _ act same => (act.keeps_trunk among).trans same) rfl

/-- A turn without a departure leaves the trunk port as it was. -/
theorem trunk_turn {sentBack : List (Fin 68)} {departed : Bool} (turn : Gate.Turn sentBack g g' departed)
    (none : departed = false) : g'.trunk = g.trunk := by
  induction turn with
  | spent => rfl
  | departs => cases none
  | goesOn next position granted _ ih =>
    rw [ih none]
    obtain ⟨h, departs⟩ | ⟨x, r, rest, -, -, -, back⟩ := grant_candidate next.1
    · rw [granted] at departs
      cases departs
    · rw [granted] at back
      rw [Grant.sentBack.inj back]
      exact trunk_recheckHead _ x

theorem exec_departureGrant_turn (turn : s.gate.trunkTurn = some .request) :
    exec .departureGrant s = .next (s.withGate
      (if (Gate.requestTurn 69 [] s.gate).2 then (Gate.requestTurn 69 [] s.gate).1
      else (Gate.requestTurn 69 [] s.gate).1.passRequest)) := next_congr (if_pos turn)

theorem passRequest_eq (up : g.trunk.link.state = .up) (noCredit : g.trunk.link.creditOrder = []) :
    g.passRequest =
      { g with
        trunk :=
          { g.trunk with
            requestPassed := decide
              ((g.trunk.answerQueue ≠ [] ∧ 0 < g.trunk.link.held.answer) ∨
                (g.management.controlQueue ≠ [] ∧ 0 < g.trunk.link.held.control)) } } := by
  have answer : g.classCanSend .answer = true ↔ g.trunk.answerQueue ≠ [] ∧ 0 < g.trunk.link.held.answer := by
    rw [classCanSend_iff]
    exact ⟨fun ⟨_, held, _, packet⟩ => ⟨packet, held⟩, fun ⟨packet, held⟩ => ⟨up, held, noCredit, packet⟩⟩
  have control : g.classCanSend .control = true ↔ g.management.controlQueue ≠ [] ∧ 0 < g.trunk.link.held.control := by
    rw [classCanSend_iff]
    exact ⟨fun ⟨_, held, _, packet⟩ => ⟨packet, held⟩, fun ⟨packet, held⟩ => ⟨up, held, noCredit, packet⟩⟩
  have passed : (g.classCanSend .answer || g.classCanSend .control) = decide
      ((g.trunk.answerQueue ≠ [] ∧ 0 < g.trunk.link.held.answer) ∨
        (g.management.controlQueue ≠ [] ∧ 0 < g.trunk.link.held.control)) := by
    rw [Bool.eq_iff_iff, Bool.or_eq_true, decide_eq_true_iff, answer, control]
  rw [Gate.passRequest, Gate.modTrunk, passed]

end turn

/-- Settles O58. -/
theorem departureGrantOutcomes : Obligations.DepartureGrantOutcomes := by
  unfold Obligations.DepartureGrantOutcomes
  refine ⟨fun s other => next_withGate_self (if_neg other), fun s turn => ⟨fun n g next granted => ?_, ?_⟩,
    fun g n => ⟨fun i w at_i walking => ?_, fun x address stamp r rest at_x head queued => ?_⟩⟩
  · rw [exec_departureGrant_turn turn, requestTurn_departs next granted]
    rfl
  · have course := requestTurn_turn 69 [] s.gate (staleCount_bound s.gate)
    refine ⟨_, _, course, ?_⟩
    rw [exec_departureGrant_turn turn]
    split
    next => rfl
    next stays =>
      have trunk := trunk_turn course (Bool.eq_false_iff.mpr stays)
      obtain ⟨up, -, noCredit, -⟩ := classCanSend_iff.mp (trunkTurn_iff.mp turn).1
      rw [passRequest_eq (by rw [trunk]; exact up) (by rw [trunk]; exact noCredit)]
  · rw [grant_walk at_i walking]
    rfl
  · refine ⟨fun current push => ?_, fun current answered tag free lowest => ?_, fun stale => ?_⟩
    · have departs := grant_current at_x head queued (stampIsCurrent_iff.mpr current)
      rw [departs, departHead_push push, departWith_eq, leaveDeparted_eq]
      obtain ⟨kind, tag, address, length, payload⟩ := r
      cases push
      rfl
    · have departs := grant_current at_x head queued (stampIsCurrent_iff.mpr current)
      have isFree : { g with lastGranted := n }.freeTag = some tag := freeTag_eq_some free lowest
      rw [departs, departHead_tagged answered isFree, departWith_eq, leaveDeparted_eq]
      obtain ⟨kind, tag, address, length, payload⟩ := r
      cases kind with
      | push => exact absurd rfl answered
      | commit => rfl
      | fetch => rfl
    · exact grant_stale at_x head queued (mt stampIsCurrent_iff.mp stale)

end Sys2Proof.Machine
